-- ==== Sys2Proof/Word.lean ====
section
/-! DEFINITION. The words of the part: the widths that frames, tables and registers have (00_scope.md section 4, R177). -/

namespace Sys2Proof

/-- A word of 32 bits; lane B0 holds bits 7–0 and lane B3 bits 31–24 (R177). -/
abbrev Word := BitVec 32

/-- A byte mask: bit n stands for lane Bn (R177). -/
abbrev Mask := BitVec 4

/-- A node id: 0 is NONE, 1 to 30 are nodes, 31 is ALL (R2). -/
abbrev NodeId := BitVec 5

/-- A set of node ids 1 to 30, as the word that R177 gives it. -/
abbrev IdSet := BitVec 32

/-- A 40-bit ring address. -/
abbrev RingAddr := BitVec 40

/-- A tag: the index of a tracker entry (R3). -/
abbrev Tag := Fin 32

/-- A generation, 0 to 3 (R3). -/
abbrev Gen := BitVec 2

/-- A posted-write sequence number, modulo 64 (R94). -/
abbrev Seq := BitVec 6

/-- A 32-bit saturating counter (00_scope.md section 4). -/
abbrev Counter := BitVec 32

/-- An event code 0 to 18 (R170). -/
abbrev EventCode := Fin 19

/-- A fixed table of `n` entries. -/
abbrev Table (α : Type) (n : Nat) := Vector α n

/-- NONE, the id that no node has (R2). -/
abbrev noNode : NodeId := 0

/-- ALL, the destination of ENUM and RING_RESET (R2). -/
abbrev allNodes : NodeId := 31

/-- The mask of a whole word. -/
abbrev fullMask : Mask := 0xF

/-- A lane order: one of four fixed permutations of the byte lanes of a word (R56). -/
inductive LaneOrder where
  | asIs
  | swapWord
  | swapHalves
  | swapPairs
  deriving DecidableEq, Repr

end Sys2Proof
end

