-- ==== Sys2Proof/Syntax.lean ====
section
/-! DEFINITION. The commands of the part: one constructor per row of spec/opcode_table.json, with its operands. -/

namespace Sys2Proof

/-- The straps as POWER-ON samples them (R36). -/
structure Straps where
  mgr : Bool
  id : BitVec 5
  par : Bool
  deriving DecidableEq, Repr

/-- How a frame was received from RING IN (R19, log 31). -/
inductive Reception where
  /-- received whole, with lock -/
  | whole
  /-- cut by a loss of lock, or begun during one -/
  | cut
  /-- begun before the link entered UP -/
  | beganBeforeUp
  deriving DecidableEq, Repr

/-- The direction of a local bus transaction (R112). -/
inductive Direction where
  | read
  | write
  deriving DecidableEq, Repr

/-- A local bus transaction presented to the part as target (R112): the start address, the word count 1 to 16,
the two byte masks, and the sixteen words the card drives, of which a write of `count` words uses the first
`count` (log 25). -/
structure Access where
  address : Word
  count : Nat
  first : Mask
  last : Mask
  data : Table Word 16
  deriving DecidableEq, Repr

/-- A MGMT_REQUEST as the agent receives it (R7, R137), less its command code: who sent it, the id it was sent
to, the tag and generation its answer returns, and the operand words after the command word. -/
structure MgmtRequest where
  source : NodeId
  dest : NodeId
  tag : Tag
  gen : Gen
  operands : List Word
  deriving DecidableEq, Repr

/-- The commands, in the order of spec/opcode_table.json. -/
inductive Instr where
  | powerOnReset (straps : Straps)
  | localReset
  | localResetRelease
  | lockAcquired
  | lockLost
  | lockHoldTimerExpiry
  | lockLossTimerExpiry
  | rxFrame (words : List Word) (how : Reception)
  | loopArrival
  | arbiterChoice
  | responseTimerExpiry (tag : Tag)
  | backoffTimerExpiry (tag : Tag)
  | settleTimerExpiry
  | passTimerExpiry
  | returnTimerExpiry
  | discardTimerExpiry (slot : Fin 4)
  | leaseTimerExpiry
  | holdTimerExpiry
  | terminationDone (data : Table Word 16)
  | terminationFault
  | terminationRetry
  | reattemptDelayExpiry
  | cycleTimerExpiry
  | attnChange (input : Fin 4) (level : Bool)
  | outboundAccess (dir : Direction) (acc : Access)
  | eventInboxHeadRead (acc : Access)
  | faultHeadRead (acc : Access)
  | pendingEventClear (acc : Access)
  | lastLocalFaultClear (acc : Access)
  | issueTrigger (acc : Access)
  | ringResetRequest (acc : Access)
  | pageWrite (acc : Access)
  | identify (req : MgmtRequest)
  | claim (req : MgmtRequest)
  | release (req : MgmtRequest)
  | renew (req : MgmtRequest)
  | setWindow (req : MgmtRequest)
  | retireWindow (req : MgmtRequest)
  | readWindow (req : MgmtRequest)
  | setRoute (req : MgmtRequest)
  | readRoute (req : MgmtRequest)
  | setDescriptor (req : MgmtRequest)
  | readDescriptor (req : MgmtRequest)
  | startMove (req : MgmtRequest)
  | stopMove (req : MgmtRequest)
  | readChannel (req : MgmtRequest)
  | setParameters (req : MgmtRequest)
  | readParameters (req : MgmtRequest)
  | readCounters (req : MgmtRequest)
  | clearCounters (req : MgmtRequest)
  | readFaults (req : MgmtRequest)
  | nodeReset (req : MgmtRequest)
  | renumber (req : MgmtRequest)
  | ringReset (req : MgmtRequest)
  | unknownCommand (code : BitVec 8) (req : MgmtRequest)
  deriving DecidableEq, Repr

end Sys2Proof
end

