-- ==== Sys2Proof/Decode.lean ====
section
/-! DEFINITION. The command a word spells by the opcode table's bits: the table gives no row bits, so none. -/

namespace Sys2Proof

/-- The command that the word `w` of `nbits` bits spells by spec/opcode_table.json: no row of the table has bits
("n_rows_with_fixed": 0 in 98_reader.md), so no word spells a command. -/
def decodeTableWord (_nbits _w : Nat) : Option Instr := none

end Sys2Proof
end

