-- ==== Sys2Proof/Config.lean ====
section
/-! DEFINITION. What an implementation fixes: identity, durations, and the two free values (the choices the manual leaves open). -/

namespace Sys2Proof.Config

/-- Vendor code (00_scope.md section 6, R180). -/
def vendorCode : BitVec 16 := 0x0D7A

/-- Part code (00_scope.md section 6, R180). -/
def partCode : BitVec 16 := 0x7316

/-- Revision (00_scope.md section 6, R180). -/
def revision : Word := 3

/-- The lock-hold time in µs: 100 µs (R18). -/
def lockHoldTime : Nat := 100

/-- The lock-loss time in µs: 1 ms (R18). -/
def lockLossTime : Nat := 1000

/-- The settle time in µs: 20 ms (R38). -/
def settleTime : Nat := 20000

/-- The pass time in µs: 10 ms (R39). -/
def passTime : Nat := 10000

/-- The return time in µs: 10 ms (R49). -/
def returnTime : Nat := 10000

/-- The wait between two attempts of the local master in µs (R131). -/
def reattemptDelay : Nat := 1

/-- The unit of the lease time in µs: 10 ms (R141). -/
def leaseUnit : Nat := 10000

/-- FREE VALUE (log 8). Whether the agent goes before the local master when both began waiting for a place in
the response insertion queue in the same event (R30: "take freed places in either order"). The argument is the
number of the event in which the place falls free. No value of it can be proved. -/
opaque agentFirst : Nat → Bool

/-- FREE VALUE (log 41). Whether the looped reply of a NODE_RESET that the card sent to its own node is classified
before the NODE reset is taken (R125: "in one of two orders"). The argument is the number of the event in which the
reply leaves the response insertion queue. No value of it can be proved. -/
opaque loopedReplyFirst : Nat → Bool

end Sys2Proof.Config
end

