-- ==== Sys2Proof/Machine/State.lean ====
section
/-! DEFINITION. The state of the part, block by block, as plain data, and its value after reset. -/

namespace Sys2Proof.Machine

/-- Why the part stops: for no reason. No rule of the manual stops the part: what it calls a fault is a record
(R147), a FAULT termination (R116) or a refusal on the ring (R10), all of them next states. No meaning raises
the one reason below; it is safe, since a claim about a next state never uses it. -/
inductive Fault where
  /-- Raised by no command: kept so that the type of faults is not empty. Safe. -/
  | none
  deriving DecidableEq, Repr

/-- Why a command is refused. -/
inductive Refusal where
  /-- An arm of exec that has no meaning yet, by its mnemonic. Raised by no arm of this model. Safe. -/
  | notModelled (mnemonic : String)
  deriving DecidableEq, Repr

/-- A timer: stopped, or running with the time in µs it was started with (log 3). -/
inductive Timer where
  | stopped
  | running (us : Nat)
  deriving DecidableEq, Repr

/-! ### Frames (R1 to R17) -/

/-- Tag and generation, carried by every request and response (R3, R8). -/
structure Ref where
  tag : Tag
  gen : Gen
  deriving DecidableEq, Repr

/-- The address fields of READ, WRITE and POSTED_WRITE (R3). -/
structure Span where
  addr : RingAddr
  first : Mask
  last : Mask
  deriving DecidableEq, Repr

/-- The kind fields of a REFUSE (R8, R178): the code, whether the expected field is present, whether it holds
UNSYNCED, and the sequence. -/
structure RefuseFields where
  code : BitVec 4
  present : Bool
  unsynced : Bool
  seq : Seq
  deriving DecidableEq, Repr

/-- The kind fields of an ENUM (R13). The pass code is CENSUS 1, ASSIGN 2, PUBLISH 3 (R178). -/
structure EnumFields where
  pass : BitVec 2
  keep : Bool
  attempt : BitVec 2
  duplicate : Bool
  overflow : Bool
  count : BitVec 5
  serial : Word
  taken : IdSet
  deriving DecidableEq, Repr

/-- A frame's kind with its kind fields (R1 to R14). -/
inductive Body where
  | read (ref : Ref) (span : Span)
  | write (ref : Ref) (span : Span)
  | postedWrite (ref : Ref) (span : Span) (seq : Seq) (sync : Bool)
  | event (ref : Ref) (number : BitVec 6) (count : BitVec 8)
  | mgmtRequest (ref : Ref)
  | readData (ref : Ref)
  | accept (ref : Ref)
  | refuse (ref : Ref) (why : RefuseFields)
  | mgmtReply (ref : Ref)
  | enumPass (e : EnumFields)
  | ringReset (serial : Word)
  deriving DecidableEq, Repr

/-- A frame without its check word (R1). -/
structure Frame where
  dest : NodeId
  source : NodeId
  hop : BitVec 5
  length : BitVec 5
  body : Body
  payload : List Word
  deriving DecidableEq, Repr

/-! ### Results, causes and fault records -/

/-- The final refusal codes (R10). -/
inductive FinalCode where
  | noWindow
  | denied
  | localFault
  deriving DecidableEq, Repr

/-- A completion result (R12). -/
inductive Result where
  | ok
  | noTarget
  | timeout
  | retryExhausted
  | refused (code : FinalCode)
  | linkDown
  | renumbered
  deriving DecidableEq, Repr

/-- The detail of a fault record or halt record: a completion result, or LOCAL_FAULT (R148, R179). -/
inductive Detail where
  | result (r : Result)
  | localFault
  deriving DecidableEq, Repr

/-- The cause of the last local fault (R116). -/
inductive LocalCause where
  | noWindow
  | pastEnd
  | notAllowed
  | notNumbered
  | result (r : Result)
  deriving DecidableEq, Repr

/-- The kinds of fault record, in the order of R148. -/
inductive FaultKind where
  | malformedFrame
  | linkDown
  | strapFault
  | duplicateId
  | enumOverflow
  | enumFailed
  | managerConflict
  | ringReset
  | postedLost
  | postedDiscarded
  | eventLost
  | leaseLost
  | moveHalt
  deriving DecidableEq, Repr

/-- A fault record (R148): a kind and five optional fields. -/
structure FaultRecord where
  kind : FaultKind
  node : Option NodeId := none
  tag : Option Tag := none
  index : Option (BitVec 6) := none
  address : Option (BitVec 40) := none
  detail : Option Detail := none
  deriving DecidableEq, Repr

/-! ### Ring Port -/

/-- The link state (R18). -/
inductive Link where
  | down
  | locking
  | up
  deriving DecidableEq, Repr

/-- What the placer of a response waits for when the response leaves the queue (R30): nothing, the NODE reset of
R152, or the RING_RESET frame of R49. -/
inductive Purpose where
  | plain
  | nodeReset
  | ringReset
  deriving DecidableEq, Repr

/-- A frame in the response insertion queue, with what its placer waits for (R30). -/
structure Response where
  frame : Frame
  purpose : Purpose
  deriving DecidableEq, Repr

/-- The control offer's frame: one that enumeration presented, or a RING_RESET being forwarded (R25, R31). -/
inductive ControlOffer where
  | own (frame : Frame)
  | forwarded (frame : Frame)
  deriving DecidableEq, Repr

/-- The request offer's frame, built when it is presented, with the tag of its entry (R78, R79); R102 puts the sync
flag into it (log 10). -/
structure RequestOffer where
  tag : Tag
  frame : Frame
  deriving DecidableEq, Repr

/-- The ten Ring Port counters, in the order of R34. -/
structure PortCounters where
  rxFrames : Counter := 0
  txFrames : Counter := 0
  forwarded : Counter := 0
  checkError : Counter := 0
  malformed : Counter := 0
  returned : Counter := 0
  hopLimit : Counter := 0
  forwardOverrun : Counter := 0
  looped : Counter := 0
  txDiscarded : Counter := 0
  deriving DecidableEq, Repr

/-- The Ring Port (02_ring_port.md). -/
structure RingPort where
  link : Link
  lockLossTimer : Timer
  lockHoldTimer : Timer
  forwardQ : List Frame
  responseQ : List Response
  offer : Option RequestOffer
  control : Option ControlOffer
  forwardRun : Nat
  responseRun : Nat
  loopQ : List Frame
  ringOut : Option (List Word)
  counters : PortCounters
  deriving DecidableEq, Repr

/-! ### Enumeration -/

/-- The id mode (R36). -/
inductive IdMode where
  | assigned
  | strapped
  deriving DecidableEq, Repr

/-- The role (R37). -/
inductive Role where
  | unnumbered
  | provisional
  | numbered
  deriving DecidableEq, Repr

/-- The enumeration state (03_enumeration_and_ring_roles.md section 3.2). -/
inductive EnumState where
  | idle
  | settling
  | passCensus
  | passAssign
  | passPublish
  | done
  | failed
  deriving DecidableEq, Repr

/-- The settle timer (R38): once expired it stays expired until it is started again. -/
inductive SettleTimer where
  | stopped
  | running (us : Nat)
  | expired
  deriving DecidableEq, Repr

/-- The four enumeration counters, in the order of R51. -/
structure EnumCounters where
  runsStarted : Counter := 0
  passResends : Counter := 0
  foreignEnum : Counter := 0
  resetReqIgnored : Counter := 0
  deriving DecidableEq, Repr

/-- Enumeration and Ring Roles (03_enumeration_and_ring_roles.md). -/
structure Enumeration where
  manager : Bool
  idMode : IdMode
  strappedId : NodeId
  holdWithdrawn : Bool
  ownId : NodeId
  role : Role
  census : IdSet
  censusCount : BitVec 5
  state : EnumState
  runPending : Option Bool
  runKeep : Bool
  attempt : BitVec 2
  runSet : IdSet
  runCount : BitVec 5
  duplicateFlag : Bool
  overflowFlag : Bool
  settle : SettleTimer
  passTimer : Timer
  resetOutstanding : Bool
  returnTimer : Timer
  counters : EnumCounters
  deriving DecidableEq, Repr

/-! ### Window Tables -/

/-- The state of a window entry (R52). -/
inductive WindowState where
  | empty
  | active
  | retiring
  deriving DecidableEq, Repr

/-- An OWT entry (R53). The size is `2 ^ sizeExp` bytes. -/
structure OwtEntry where
  state : WindowState
  localBase : Word
  sizeExp : Nat
  dest : NodeId
  ringBase : RingAddr
  posted : Bool
  readAllowed : Bool
  writeAllowed : Bool
  laneOrder : LaneOrder
  inFlight : Nat
  hits : Counter
  deriving DecidableEq, Repr

/-- An IWT entry (R54). -/
structure IwtEntry where
  state : WindowState
  ringBase : RingAddr
  sizeExp : Nat
  localBase : Word
  laneOrder : LaneOrder
  readAllowed : Bool
  writeAllowed : Bool
  postedAllowed : Bool
  sources : IdSet
  inFlight : Nat
  hits : Counter
  deriving DecidableEq, Repr

/-- The Window Tables (04_window_tables.md). -/
structure WindowTables where
  owt : Table OwtEntry 16
  iwt : Table IwtEntry 16
  deriving DecidableEq, Repr

/-! ### Request Tracker -/

/-- A mover channel. -/
inductive ChannelId where
  | a
  | b
  deriving DecidableEq, Repr

/-- The state of a tracker entry (R72). -/
inductive EntryState where
  | free
  | orderWait
  | ready
  | sent
  | backoff
  deriving DecidableEq, Repr

/-- The originator of a tracker entry (R71). -/
inductive Originator where
  | localPosted
  | delayed (slot : Fin 4)
  | mover (channel : ChannelId) (slot : Fin 8)
  | event (code : EventCode)
  | issueSlot
  | abandoned
  deriving DecidableEq, Repr

/-- The kinds of request (R1). -/
inductive ReqKind where
  | read
  | write
  | postedWrite
  | event
  | mgmtRequest
  deriving DecidableEq, Repr

/-- A tracker entry (R71). -/
structure TrackerEntry where
  state : EntryState
  originator : Originator
  kind : ReqKind
  dest : NodeId
  addr : RingAddr
  length : Nat
  first : Mask
  last : Mask
  payload : List Word
  seq : Seq
  sync : Bool
  number : BitVec 6
  count : BitVec 8
  window : Option (Fin 16)
  gen : Gen
  retry : Nat
  responseTimer : Timer
  backoffTimer : Timer
  sentOnce : Bool
  deriving DecidableEq, Repr

/-- The standing claimants of the tracker (R77). -/
inductive Claimant where
  | issueSlot
  | router
  | mover
  deriving DecidableEq, Repr

/-- The six tracker counters, in the order of R92. -/
structure TrackerCounters where
  requestsSent : Counter := 0
  resends : Counter := 0
  timeouts : Counter := 0
  exhausted : Counter := 0
  staleResponse : Counter := 0
  noTarget : Counter := 0
  deriving DecidableEq, Repr

/-- The Request Tracker (05_the_request_tracker.md). -/
structure Tracker where
  entries : Table TrackerEntry 32
  freeList : List Tag
  allocOrder : List Tag
  lastClaimant : Claimant
  counters : TrackerCounters
  deriving DecidableEq, Repr

/-! ### Posted-Write Ordering -/

/-- A Send Sequence entry (R95). -/
structure SendEntry where
  next : Seq
  oldest : Seq
  count : Nat
  syncNeeded : Bool
  stalled : Bool
  deriving DecidableEq, Repr

/-- The sync-flagged write that last set the expected sequence (R105). -/
structure SyncMark where
  tag : Tag
  gen : Gen
  seq : Seq
  deriving DecidableEq, Repr

/-- A Receive Sequence entry (R105). -/
structure RecvEntry where
  synced : Bool
  expected : Seq
  mark : Option SyncMark
  deriving DecidableEq, Repr

/-- The three ordering counters, in the order of R109. -/
structure OrderingCounters where
  duplicate : Counter := 0
  orderRefused : Counter := 0
  syncAccepted : Counter := 0
  deriving DecidableEq, Repr

/-- The sequence tables (06_posted_write_ordering.md), indexed by node id; the places of ids 0 and 31 are not
used. -/
structure SequenceTables where
  send : Table SendEntry 32
  recv : Table RecvEntry 32
  counters : OrderingCounters
  deriving DecidableEq, Repr

/-! ### Local Target -/

/-- How a local transaction is ended (R112). A read's DONE carries its data words. -/
inductive Termination where
  | done (data : List Word)
  | retry
  | fault
  deriving DecidableEq, Repr

/-- The key of a delayed access (R118): a write's key holds its data words as the card presented them. -/
structure DelayedKey where
  dir : Direction
  address : Word
  count : Nat
  first : Mask
  last : Mask
  data : List Word
  deriving DecidableEq, Repr

/-- The state of a delayed request slot (R118). -/
inductive SlotState where
  | free
  | pending
  | ready
  deriving DecidableEq, Repr

/-- A delayed request slot (R118). -/
structure DelayedSlot where
  state : SlotState
  key : DelayedKey
  window : Fin 16
  tag : Tag
  result : Result
  data : List Word
  discardTimer : Timer
  deriving DecidableEq, Repr

/-- The four local target counters, in the order of R123. -/
structure LocalCounters where
  localFaults : Counter := 0
  notNumbered : Counter := 0
  postedRetry : Counter := 0
  discarded : Counter := 0
  deriving DecidableEq, Repr

/-- The Local Target and what it keeps of the local page (07_local_bus_target_and_local_page.md). -/
structure LocalTarget where
  slots : Table DelayedSlot 4
  lastFault : Option (LocalCause × Word)
  latch : Option FaultRecord
  requestArea : Table Word 16
  termination : Option Termination
  counters : LocalCounters
  deriving DecidableEq, Repr

/-! ### Inbound Target and Local Master -/

/-- The kinds of request that reach the inbound queue (R126). -/
inductive InboundKind where
  | read
  | write
  | postedWrite
  deriving DecidableEq, Repr

/-- An inbound queue entry (R126). -/
structure InboundEntry where
  kind : InboundKind
  source : NodeId
  answering : NodeId
  tag : Tag
  gen : Gen
  address : Word
  length : Nat
  first : Mask
  last : Mask
  data : List Word
  window : Fin 16
  deriving DecidableEq, Repr

/-- The claimants of the local master (R130). -/
inductive BusClaimant where
  | inbound
  | channel (c : ChannelId)
  deriving DecidableEq, Repr

/-- Whose transaction the local master performs: the head of the inbound queue, or one mover slot. -/
inductive TransactionOwner where
  | inbound
  | mover (channel : ChannelId) (slot : Fin 8)
  deriving DecidableEq, Repr

/-- The local master's current transaction (R131): what it presents to the card, how many reattempts it has
made, the cycle timer of the attempt in progress, and the wait before the next attempt. -/
structure Transaction where
  owner : TransactionOwner
  dir : Direction
  address : Word
  count : Nat
  first : Mask
  last : Mask
  data : List Word
  reattempts : Nat
  cycleTimer : Timer
  delayTimer : Timer
  deriving DecidableEq, Repr

/-- The held response (R133), with the event in which it began to wait (R30). -/
structure HeldResponse where
  frame : Frame
  since : Nat
  deriving DecidableEq, Repr

/-- The six inbound counters, in the order of R134. -/
structure InboundCounters where
  inboundAdmitted : Counter := 0
  refusedBusy : Counter := 0
  refusedWindow : Counter := 0
  refusedDenied : Counter := 0
  responseOverrun : Counter := 0
  localMasterFaults : Counter := 0
  deriving DecidableEq, Repr

/-- The Inbound Target and the Local Master (08_inbound_target_and_local_master.md). -/
structure Inbound where
  queue : List InboundEntry
  current : Option Transaction
  held : Option HeldResponse
  lastServed : BusClaimant
  counters : InboundCounters
  deriving DecidableEq, Repr

/-! ### Management Agent -/

/-- The agent's state (R137). -/
inductive AgentState where
  | idle
  | executing
  | deferred
  deriving DecidableEq, Repr

/-- A window table's name in a command (R63). -/
inductive WindowTable where
  | outbound
  | inbound
  deriving DecidableEq, Repr

/-- The held reply (R138), with the event in which it began to wait (R30). -/
structure HeldReply where
  frame : Frame
  purpose : Purpose
  since : Nat
  deriving DecidableEq, Repr

/-- The deferred retire (R138): the entry, and the request its OK answers. -/
structure DeferredRetire where
  table : WindowTable
  index : Fin 16
  requester : NodeId
  tag : Tag
  gen : Gen
  dest : NodeId
  deriving DecidableEq, Repr

/-- The lease action (R141). -/
inductive LeaseAction where
  | none
  | retireAll
  deriving DecidableEq, Repr

/-- The lease timer (R142): stopped, running, or held during a deferral. It carries the time in µs it was
started with (log 3). -/
inductive LeaseTimer where
  | stopped
  | running (us : Nat)
  | held (us : Nat)
  deriving DecidableEq, Repr

/-- The six parameters (R144), at their defaults. -/
structure Params where
  responseTimeout : BitVec 12 := 1024
  retryLimit : BitVec 12 := 6
  backoffUnit : BitVec 12 := 8
  discardTime : BitVec 12 := 32
  localCycleLimit : BitVec 12 := 256
  localRetryLimit : BitVec 12 := 32
  deriving DecidableEq, Repr

/-- The state of the issue slot (R150). -/
inductive IssueState where
  | empty
  | waitingTag
  | issued
  | replied
  deriving DecidableEq, Repr

/-- The issue slot (R150, R151): the copied request and the reply area. A clear reply area has no result. -/
structure IssueSlot where
  state : IssueState
  dest : NodeId
  length : Nat
  words : List Word
  result : Option Result
  reply : List Word
  deriving DecidableEq, Repr

/-- The five agent counters, in the order of R146. -/
structure AgentCounters where
  mgmtTaken : Counter := 0
  mgmtBusy : Counter := 0
  mgmtDropped : Counter := 0
  issueCollision : Counter := 0
  issueRejected : Counter := 0
  deriving DecidableEq, Repr

/-- The Management Agent (09_management_agent.md). -/
structure Agent where
  state : AgentState
  heldReply : Option HeldReply
  deferred : Option DeferredRetire
  resetPending : Bool
  lockOwner : NodeId
  leaseTime : BitVec 8
  leaseAction : LeaseAction
  leaseTimer : LeaseTimer
  holdTimer : Timer
  params : Params
  faults : List FaultRecord
  overflow : Nat
  issue : IssueSlot
  counters : AgentCounters
  deriving DecidableEq, Repr

/-! ### Bulk Mover -/

/-- A descriptor (R155). `next` absent is END. -/
structure Descriptor where
  loaded : Bool
  pull : Bool
  node : NodeId
  remote : RingAddr
  localAddr : Word
  length : Nat
  frameSize : Nat
  remoteFixed : Bool
  localFixed : Bool
  laneOrder : LaneOrder
  notify : Bool
  next : Option (Fin 64)
  deriving DecidableEq, Repr

/-- The state of a channel (R157). -/
inductive ChannelState where
  | idle
  | running
  | stopping
  | halted
  deriving DecidableEq, Repr

/-- The state of a buffer slot (R158). -/
inductive BufferState where
  | free
  | localPending
  | ringPending
  | landing
  deriving DecidableEq, Repr

/-- A buffer slot (R158), with the event in which it entered its present state. The direction and the remote
node are copied from the descriptor as the lane order is (log 11). -/
structure Slot where
  state : BufferState
  offset : Nat
  count : Nat
  remote : RingAddr
  localAddr : Word
  laneOrder : LaneOrder
  data : List Word
  tag : Option Tag
  detached : Bool
  entered : Nat
  pull : Bool
  node : NodeId
  deriving DecidableEq, Repr

/-- The halt record of a channel (R157). -/
structure HaltRecord where
  index : Fin 64
  offset : Nat
  result : Option Detail
  deriving DecidableEq, Repr

/-- A channel (R157) with its eight slots. Its next offset is a `Nat`: it reaches 1,048,576, one more than R157's range
(R160, log 52). -/
structure Channel where
  state : ChannelState
  current : Option (Fin 64)
  remaining : Nat
  nextOffset : Nat
  remote : RingAddr
  localAddr : Word
  completed : Nat
  halt : Option HaltRecord
  slots : Table Slot 8
  deriving DecidableEq, Repr

/-- The four mover counters, in the order of R168. -/
structure MoverCounters where
  wordsMovedA : Counter := 0
  framesSentA : Counter := 0
  wordsMovedB : Counter := 0
  framesSentB : Counter := 0
  deriving DecidableEq, Repr

/-- The Bulk Mover (10_bulk_mover.md). -/
structure Mover where
  descriptors : Table Descriptor 64
  chA : Channel
  chB : Channel
  turn : ChannelId
  counters : MoverCounters
  deriving DecidableEq, Repr

/-! ### Events -/

/-- The route of an event code (R171). -/
inductive Route where
  | off
  | line0
  | line1
  | ring
  deriving DecidableEq, Repr

/-- An event route entry (R171); `level` is the sense LEVEL. -/
structure RouteEntry where
  route : Route
  dest : NodeId
  number : BitVec 6
  level : Bool
  deriving DecidableEq, Repr

/-- The ring route state of a code (R174). -/
structure RingRoute where
  tag : Option Tag
  refire : Nat
  deriving DecidableEq, Repr

/-- An event inbox record (R175). -/
structure InboxRecord where
  source : NodeId
  number : BitVec 6
  count : Nat
  deriving DecidableEq, Repr

/-- The six events counters, in the order of R176. -/
structure EventCounters where
  ringEvents : Counter := 0
  refireCoalesced : Counter := 0
  inboxNew : Counter := 0
  inboxCoalesced : Counter := 0
  inboxRefused : Counter := 0
  inboxDropped : Counter := 0
  deriving DecidableEq, Repr

/-- The Events block (11_events.md). `attnInput` holds the pins' levels, `attnRecorded` the attention history. -/
structure Events where
  routes : Table RouteEntry 19
  pendingSet : BitVec 19
  attnInput : BitVec 4
  attnRecorded : BitVec 4
  ring : Table RingRoute 19
  lastGranted : EventCode
  inbox : List InboxRecord
  counters : EventCounters
  deriving DecidableEq, Repr

/-! ### The whole part -/

/-- The state of the part. -/
structure State where
  /-- The factory serial (00_scope.md section 6). -/
  serial : Word
  /-- LOCAL_RESET_IN is asserted (R112). -/
  localResetIn : Bool
  port : RingPort
  en : Enumeration
  wt : WindowTables
  rt : Tracker
  ord : SequenceTables
  lt : LocalTarget
  inb : Inbound
  ag : Agent
  bm : Mover
  ev : Events
  /-- The number of the event being taken (the model's own, log 5). -/
  now : Nat
  /-- Firings raised in this event and not yet taken by their routes (the model's own, log 5). -/
  firings : List EventCode
  /-- Reports of responses that left the response insertion queue in this event (the model's own, log 5). -/
  left : List Purpose
  /-- Originators whose entries completed in this event and that have yet to ask for their next (the model's own,
  log 6). -/
  asks : List Originator
  /-- The commands not yet taken, first in, first out. -/
  pending : List Instr
  deriving DecidableEq, Repr

/-! ### Reset values -/

/-- The Ring Port after a POWER-ON reset (R35). -/
def RingPort.reset : RingPort where
  link := .down
  lockLossTimer := .stopped
  lockHoldTimer := .stopped
  forwardQ := []
  responseQ := []
  offer := none
  control := none
  forwardRun := 0
  responseRun := 0
  loopQ := []
  ringOut := none
  counters := {}

/-- Enumeration after a POWER-ON reset with MGR_STRAP clear, ID_STRAP 0 and correct parity (R36, R51, log 1). -/
def Enumeration.reset : Enumeration where
  manager := false
  idMode := .assigned
  strappedId := 0
  holdWithdrawn := false
  ownId := noNode
  role := .unnumbered
  census := 0
  censusCount := 0
  state := .idle
  runPending := none
  runKeep := false
  attempt := 1
  runSet := 0
  runCount := 0
  duplicateFlag := false
  overflowFlag := false
  settle := .stopped
  passTimer := .stopped
  resetOutstanding := false
  returnTimer := .stopped
  counters := {}

/-- A reset OWT entry (R53). -/
def OwtEntry.reset : OwtEntry where
  state := .empty
  localBase := 0
  sizeExp := 12
  dest := noNode
  ringBase := 0
  posted := true
  readAllowed := false
  writeAllowed := false
  laneOrder := .asIs
  inFlight := 0
  hits := 0

/-- A reset IWT entry (R54). -/
def IwtEntry.reset : IwtEntry where
  state := .empty
  ringBase := 0
  sizeExp := 12
  localBase := 0
  laneOrder := .asIs
  readAllowed := false
  writeAllowed := false
  postedAllowed := false
  sources := 0
  inFlight := 0
  hits := 0

/-- The Window Tables after a POWER-ON or RING reset (R70). -/
def WindowTables.reset : WindowTables where
  owt := Vector.replicate 16 OwtEntry.reset
  iwt := Vector.replicate 16 IwtEntry.reset

/-- A FREE tracker entry after a POWER-ON reset (R93; the fields of its last use are zero, log 24). -/
def TrackerEntry.reset : TrackerEntry where
  state := .free
  originator := .abandoned
  kind := .read
  dest := noNode
  addr := 0
  length := 0
  first := 0
  last := 0
  payload := []
  seq := 0
  sync := false
  number := 0
  count := 0
  window := none
  gen := 0
  retry := 0
  responseTimer := .stopped
  backoffTimer := .stopped
  sentOnce := false

/-- Every tag, in ascending order. -/
def allTags : List Tag := List.finRange 32

/-- The tracker after a POWER-ON reset (R93). -/
def Tracker.reset : Tracker where
  entries := Vector.replicate 32 TrackerEntry.reset
  freeList := allTags
  allocOrder := []
  lastClaimant := .mover
  counters := {}

/-- A Send Sequence entry after a POWER-ON, RING or NODE reset (R111). -/
def SendEntry.reset : SendEntry where
  next := 0
  oldest := 0
  count := 0
  syncNeeded := true
  stalled := false

/-- A Receive Sequence entry after a POWER-ON, RING or NODE reset (R111). -/
def RecvEntry.reset : RecvEntry where
  synced := false
  expected := 0
  mark := none

/-- The sequence tables after a POWER-ON reset (R111). -/
def SequenceTables.reset : SequenceTables where
  send := Vector.replicate 32 SendEntry.reset
  recv := Vector.replicate 32 RecvEntry.reset
  counters := {}

/-- A FREE delayed request slot (R118; its other fields are zero, log 24). -/
def DelayedSlot.reset : DelayedSlot where
  state := .free
  key := { dir := .read, address := 0, count := 0, first := 0, last := 0, data := [] }
  window := 0
  tag := 0
  result := .ok
  data := []
  discardTimer := .stopped

/-- The Local Target after a POWER-ON reset (R125). -/
def LocalTarget.reset : LocalTarget where
  slots := Vector.replicate 4 DelayedSlot.reset
  lastFault := none
  latch := none
  requestArea := Vector.replicate 16 0
  termination := none
  counters := {}

/-- The Inbound Target and Local Master after a POWER-ON reset (R136). -/
def Inbound.reset : Inbound where
  queue := []
  current := none
  held := none
  lastServed := .channel .b
  counters := {}

/-- The issue slot EMPTY with its reply area clear (R154). -/
def IssueSlot.reset : IssueSlot where
  state := .empty
  dest := noNode
  length := 0
  words := []
  result := none
  reply := []

/-- The Management Agent after a POWER-ON reset (R154). -/
def Agent.reset : Agent where
  state := .idle
  heldReply := none
  deferred := none
  resetPending := false
  lockOwner := noNode
  leaseTime := 1
  leaseAction := .none
  leaseTimer := .stopped
  holdTimer := .stopped
  params := {}
  faults := []
  overflow := 0
  issue := IssueSlot.reset
  counters := {}

/-- A reset descriptor (R155). -/
def Descriptor.reset : Descriptor where
  loaded := false
  pull := false
  node := noNode
  remote := 0
  localAddr := 0
  length := 1
  frameSize := 16
  remoteFixed := false
  localFixed := false
  laneOrder := .asIs
  notify := false
  next := none

/-- A FREE buffer slot (R158; its other fields are zero, log 24). -/
def Slot.reset : Slot where
  state := .free
  offset := 0
  count := 0
  remote := 0
  localAddr := 0
  laneOrder := .asIs
  data := []
  tag := none
  detached := false
  entered := 0
  pull := false
  node := noNode

/-- A channel after a POWER-ON, RING or NODE reset (R157, R169). The rules give no value for its next offset: it is 0
after any of the three (log 24). -/
def Channel.reset : Channel where
  state := .idle
  current := none
  remaining := 0
  nextOffset := 0
  remote := 0
  localAddr := 0
  completed := 0
  halt := none
  slots := Vector.replicate 8 Slot.reset

/-- The Bulk Mover after a POWER-ON reset (R169). -/
def Mover.reset : Mover where
  descriptors := Vector.replicate 64 Descriptor.reset
  chA := Channel.reset
  chB := Channel.reset
  turn := .b
  counters := {}

/-- The route of a code after a POWER-ON or RING reset (R171). -/
def RouteEntry.reset (code : EventCode) : RouteEntry where
  route := if code.val ≤ 14 then .line0 else .off
  dest := noNode
  number := 0
  level := false

/-- A code's ring route state with no entry and no refire (R176). -/
def RingRoute.reset : RingRoute where
  tag := none
  refire := 0

/-- The Events block after a POWER-ON reset (R176), with every attention input deasserted (log 23). -/
def Events.reset : Events where
  routes := Vector.ofFn RouteEntry.reset
  pendingSet := 0
  attnInput := 0
  attnRecorded := 0
  ring := Vector.replicate 19 RingRoute.reset
  lastGranted := 18
  inbox := []
  counters := {}

/-- The part right after a POWER-ON reset with MGR_STRAP clear, ID_STRAP 0 and correct parity (log 1), serial 0
(log 2), the pins deasserted (log 23), and no command waiting. -/
def State.reset : State where
  serial := 0
  localResetIn := false
  port := RingPort.reset
  en := Enumeration.reset
  wt := WindowTables.reset
  rt := Tracker.reset
  ord := SequenceTables.reset
  lt := LocalTarget.reset
  inb := Inbound.reset
  ag := Agent.reset
  bm := Mover.reset
  ev := Events.reset
  now := 0
  firings := []
  left := []
  asks := []
  pending := []

end Sys2Proof.Machine
end

