-- ==== Sys2Proof/Machine/Operands.lean ====
section
/-! DEFINITION. Operand forms: byte lanes and lane orders, the parts of a local transaction, and the fields of
the management operand words. -/

namespace Sys2Proof.Machine

/-! ### Lanes (R56, R177) -/

/-- Byte lane `i` of a word (R177). -/
def lane (w : Word) (i : Nat) : BitVec 8 := w.extractLsb' (8 * i) 8

/-- The word with the given lanes. -/
def ofLanes (b0 b1 b2 b3 : BitVec 8) : Word := b3 ++ b2 ++ b1 ++ b0

/-- A lane order applied to a word (R56). -/
def laneWord (o : LaneOrder) (w : Word) : Word :=
  match o with
  | .asIs => w
  | .swapWord => ofLanes (lane w 3) (lane w 2) (lane w 1) (lane w 0)
  | .swapHalves => ofLanes (lane w 2) (lane w 3) (lane w 0) (lane w 1)
  | .swapPairs => ofLanes (lane w 1) (lane w 0) (lane w 3) (lane w 2)

/-- Bit `i` of a mask. -/
def maskBit (m : Mask) (i : Nat) : BitVec 1 := m.extractLsb' i 1

/-- The same lane order applied to a byte mask (R56). -/
def laneMask (o : LaneOrder) (m : Mask) : Mask :=
  match o with
  | .asIs => m
  | .swapWord => maskBit m 0 ++ maskBit m 1 ++ maskBit m 2 ++ maskBit m 3
  | .swapHalves => maskBit m 1 ++ maskBit m 0 ++ maskBit m 3 ++ maskBit m 2
  | .swapPairs => maskBit m 2 ++ maskBit m 3 ++ maskBit m 0 ++ maskBit m 1

/-- Applying two lane orders one after the other (the table of R56). -/
def laneCompose (first next : LaneOrder) : LaneOrder :=
  match next, first with
  | .asIs, o => o
  | o, .asIs => o
  | .swapWord, .swapWord => .asIs
  | .swapWord, .swapHalves => .swapPairs
  | .swapWord, .swapPairs => .swapHalves
  | .swapHalves, .swapWord => .swapPairs
  | .swapHalves, .swapHalves => .asIs
  | .swapHalves, .swapPairs => .swapWord
  | .swapPairs, .swapWord => .swapHalves
  | .swapPairs, .swapHalves => .swapWord
  | .swapPairs, .swapPairs => .asIs

/-- The valid lanes of word `i` of `count` words with the given first and last masks (R3, R112). -/
def validLanes (count : Nat) (first last : Mask) (i : Nat) : Mask :=
  (if i = 0 then first else fullMask) &&& (if i + 1 = count then last else fullMask)

/-- The byte lanes of `w` that are not in `m` replaced by zero bytes (R8). -/
def keepLanes (m : Mask) (w : Word) : Word :=
  ofLanes (if m.getLsbD 0 then lane w 0 else 0) (if m.getLsbD 1 then lane w 1 else 0)
    (if m.getLsbD 2 then lane w 2 else 0) (if m.getLsbD 3 then lane w 3 else 0)

/-- The words of a read with zero bytes in the lanes its masks leave out (R8, R132). -/
def maskedWords (count : Nat) (first last : Mask) (ws : List Word) : List Word :=
  ws.mapIdx fun i w => keepLanes (validLanes count first last i) w

end Sys2Proof.Machine

namespace Sys2Proof

/-! ### Local transactions (R112, R113) -/

/-- The start address, taken as a multiple of 4 (R112). -/
def Access.start (a : Access) : Word := a.address &&& 0xFFFFFFFC

/-- The data words of a write of `count` words. -/
def Access.words (a : Access) : List Word := a.data.toList.take a.count

/-- The valid lanes of word `i` of the access (R112). -/
def Access.lanes (a : Access) (i : Nat) : Mask := Machine.validLanes a.count a.first a.last i

/-- The page word index of word `i` of a page access (R113). -/
def Access.pageIndex (a : Access) (i : Nat) : Nat := (a.start.toNat / 4 + i) % 64

/-- Whether an access reads the page word `index` (R113: a word whose valid lanes are none is skipped). -/
def Access.readsPage (a : Access) (index : Nat) : Bool :=
  (List.range a.count).any fun i => a.pageIndex i == index && a.lanes i != 0

/-- Whether an access writes the page word `index` (R113: only a word whose mask holds all four lanes). -/
def Access.writesPage (a : Access) (index : Nat) : Bool :=
  (List.range a.count).any fun i => a.pageIndex i == index && a.lanes i == fullMask

end Sys2Proof

namespace Sys2Proof.Machine

/-- The key of a delayed access (R118). A read's key holds no data. -/
def delayedKey (dir : Direction) (a : Access) : DelayedKey where
  dir := dir
  address := a.start
  count := a.count
  first := a.first
  last := a.last
  data := match dir with
    | .read => []
    | .write => a.words

/-! ### Ranges -/

/-- Whether the range of `2 ^ k` bytes at `base` holds the `4 * n` bytes at `addr`. -/
def holdsRange (base k addr n : Nat) : Bool :=
  base ≤ addr && addr + 4 * n ≤ base + 2 ^ k

/-- Whether two ranges of `2 ^ k` and `2 ^ k'` bytes have a common address (R55). -/
def rangesOverlap (base k base' k' : Nat) : Bool :=
  base < base' + 2 ^ k' && base' < base + 2 ^ k

/-- A node id that a node can hold: 1 to 30 (R2). -/
def isNode (id : NodeId) : Bool := id != noNode && id != allNodes

/-! ### Sets of ids (R177) -/

/-- Whether the set holds the id. -/
def IdSet.has (set : IdSet) (id : NodeId) : Bool := set.getLsbD id.toNat

/-- The set with the id added. -/
def IdSet.add (set : IdSet) (id : NodeId) : IdSet := set ||| BitVec.twoPow 32 id.toNat

/-- The number of ids in the set. -/
def IdSet.size (set : IdSet) : Nat := (List.range 32).countP fun n => set.getLsbD n

/-- Whether the set holds only ids 1 to 30. -/
def IdSet.valid (set : IdSet) : Bool := !set.getLsbD 0 && !set.getLsbD 31

/-- The lowest id from 1 to 30 that is not in the set (R41, R42). -/
def IdSet.lowestFree (set : IdSet) : Option NodeId :=
  ((List.range 31).find? fun n => n != 0 && !set.getLsbD n).map fun n => BitVec.ofNat 5 n

/-! ### Management operand words (R179) -/

/-- A lane order from its code (R179, W5). -/
def laneOrderOf (code : BitVec 2) : LaneOrder :=
  if code = 0 then .asIs else if code = 1 then .swapWord else if code = 2 then .swapHalves else .swapPairs

/-- The code of a lane order (R179, W5). -/
def laneOrderCode : LaneOrder → BitVec 2
  | .asIs => 0
  | .swapWord => 1
  | .swapHalves => 2
  | .swapPairs => 3

/-- The table and index that W1 names, if both exist (R63, R179). -/
def windowName (w1 : Word) : Option (WindowTable × Fin 16) :=
  let index := (w1.extractLsb' 0 5).toNat
  if h : index < 16 then
    if w1.extractLsb' 8 2 = 0 then some (.outbound, ⟨index, h⟩)
    else if w1.extractLsb' 8 2 = 1 then some (.inbound, ⟨index, h⟩)
    else none
  else none

/-- The outbound entry that W2 to W5 give, made ACTIVE with its counts 0 (R63, R179). -/
def owtOfWords (w2 w3 w4 w5 : Word) : OwtEntry where
  state := .active
  localBase := w2
  sizeExp := (w3.extractLsb' 16 5).toNat
  dest := w3.extractLsb' 24 5
  ringBase := w3.extractLsb' 0 8 ++ w4
  posted := !w5.getLsbD 8
  readAllowed := w5.getLsbD 4
  writeAllowed := w5.getLsbD 5
  laneOrder := laneOrderOf (w5.extractLsb' 0 2)
  inFlight := 0
  hits := 0

/-- The inbound entry that W2 to W6 give, made ACTIVE with its counts 0 (R63, R179). -/
def iwtOfWords (w2 w3 w4 w5 w6 : Word) : IwtEntry where
  state := .active
  ringBase := w3.extractLsb' 0 8 ++ w4
  sizeExp := (w3.extractLsb' 16 5).toNat
  localBase := w2
  laneOrder := laneOrderOf (w5.extractLsb' 0 2)
  readAllowed := w5.getLsbD 4
  writeAllowed := w5.getLsbD 5
  postedAllowed := w5.getLsbD 6
  sources := w6
  inFlight := 0
  hits := 0

/-- The value test of SET_WINDOW on an outbound entry (R63). -/
def OwtEntry.valid (e : OwtEntry) : Bool :=
  12 ≤ e.sizeExp && e.sizeExp ≤ 30 && e.localBase.toNat % 2 ^ e.sizeExp == 0 &&
    e.ringBase.toNat % 2 ^ e.sizeExp == 0 && isNode e.dest

/-- The value test of SET_WINDOW on an inbound entry (R63). -/
def IwtEntry.valid (e : IwtEntry) : Bool :=
  12 ≤ e.sizeExp && e.sizeExp ≤ 30 && e.localBase.toNat % 2 ^ e.sizeExp == 0 &&
    e.ringBase.toNat % 2 ^ e.sizeExp == 0 && IdSet.valid e.sources

/-- The channel that a channel word names: A as 0 and B as 1 (R179). -/
def channelName (w : Word) : Option ChannelId :=
  if w = 0 then some .a else if w = 1 then some .b else none

/-- The descriptor index in bits 6–0 of a word, if it is 0 to 63 (R156, R179). -/
def descriptorName (w : Word) : Option (Fin 64) :=
  let index := (w.extractLsb' 0 7).toNat
  if h : index < 64 then some ⟨index, h⟩ else none

/-- The event code in bits 4–0 of a word, if it is 0 to 18 (R140, R179). -/
def eventName (w : Word) : Option EventCode :=
  let index := (w.extractLsb' 0 5).toNat
  if h : index < 19 then some ⟨index, h⟩ else none

/-- The next field in bits 6–0 of D6: a descriptor, END (127), or a value that no descriptor has (R179). -/
def nextOfWord (d6 : Word) : Option (Option (Fin 64)) :=
  if d6.extractLsb' 0 7 = 127 then some none else (descriptorName d6).map some

/-- The descriptor that D2 to D6 give, LOADED (R156, R179). -/
def descriptorOfWords (d2 d3 d4 d5 : Word) (next : Option (Fin 64)) : Descriptor where
  loaded := true
  pull := d2.getLsbD 16
  node := d2.extractLsb' 24 5
  remote := d2.extractLsb' 0 8 ++ d3
  localAddr := d4
  length := (d5.extractLsb' 0 21).toNat
  frameSize := (d5.extractLsb' 24 5).toNat
  remoteFixed := d2.getLsbD 17
  localFixed := d2.getLsbD 18
  laneOrder := laneOrderOf (d2.extractLsb' 20 2)
  notify := d2.getLsbD 19
  next := next

/-- The value tests of SET_DESCRIPTOR on one side (R156): word-aligned; an INCREMENT side stays inside its
address space, a FIXED side inside its 4 KiB block. -/
def sideValid (addr length frameSize top : Nat) (fixed : Bool) : Bool :=
  addr % 4 == 0 &&
    (if fixed then addr % 4096 + 4 * frameSize ≤ 4096 else addr + 4 * length ≤ top)

/-- The value tests of SET_DESCRIPTOR (R155, R156). -/
def Descriptor.valid (d : Descriptor) : Bool :=
  isNode d.node && 1 ≤ d.length && d.length ≤ 1048576 && 1 ≤ d.frameSize && d.frameSize ≤ 16 &&
    sideValid d.remote.toNat d.length d.frameSize (2 ^ 40) d.remoteFixed &&
    sideValid d.localAddr.toNat d.length d.frameSize (2 ^ 32) d.localFixed

/-- A route from its code (R179). -/
def routeOf (code : BitVec 2) : Route :=
  if code = 0 then .off else if code = 1 then .line0 else if code = 2 then .line1 else .ring

/-- The code of a route (R179). -/
def routeCode : Route → BitVec 2
  | .off => 0
  | .line0 => 1
  | .line1 => 2
  | .ring => 3

/-- The route entry that a route word gives for a code: the sense of codes 0 to 14 is stored as EDGE (R171). -/
def routeOfWord (code : EventCode) (w : Word) : RouteEntry where
  route := routeOf (w.extractLsb' 0 2)
  dest := w.extractLsb' 16 5
  number := w.extractLsb' 8 6
  level := w.getLsbD 2 && 15 ≤ code.val

/-- The value tests of SET_ROUTE (R171): every code of a 2-bit route, a 1-bit sense and a 6-bit number names a
value, so only the destination can fail. -/
def RouteEntry.valid (r : RouteEntry) : Bool :=
  r.dest != allNodes && !(r.route == .ring && r.dest == noNode)

/-- The parameters that six operand words give, each in bits 11–0 (R179). -/
def paramsOfWords (w1 w2 w3 w4 w5 w6 : Word) : Params where
  responseTimeout := w1.extractLsb' 0 12
  retryLimit := w2.extractLsb' 0 12
  backoffUnit := w3.extractLsb' 0 12
  discardTime := w4.extractLsb' 0 12
  localCycleLimit := w5.extractLsb' 0 12
  localRetryLimit := w6.extractLsb' 0 12

/-- The ranges of the six parameters (R144). -/
def Params.valid (p : Params) : Bool :=
  1 ≤ p.responseTimeout.toNat && p.retryLimit.toNat ≤ 15 &&
    1 ≤ p.backoffUnit.toNat && p.backoffUnit.toNat ≤ 255 &&
    1 ≤ p.discardTime.toNat && p.discardTime.toNat ≤ 255 &&
    1 ≤ p.localCycleLimit.toNat && p.localCycleLimit.toNat ≤ 1023 &&
    1 ≤ p.localRetryLimit.toNat && p.localRetryLimit.toNat ≤ 255

end Sys2Proof.Machine
end

