-- ==== Sys2Proof/Machine/Frame.lean ====
section
/-! DEFINITION. Frames as words: the layouts of R178, the check word of R16, and the malformed test of R17. -/

namespace Sys2Proof.Machine

/-! ### The check word (R16, log 30) -/

/-- The generator polynomial 04C11DB7H with its bits reversed, as a register that is fed its bits least
significant first holds it (log 30). -/
def crcPolynomial : Word := 0xEDB88320

/-- One bit fed to the code register (R16). -/
def crcBit (reg : Word) (bit : Bool) : Word :=
  if (reg.getLsbD 0 != bit) then (reg >>> 1) ^^^ crcPolynomial else reg >>> 1

/-- One word fed to the code register: its bytes from B0 to B3, each byte's bits least significant first (R16),
which is the word's bits from bit 0 to bit 31. -/
def crcWord (reg w : Word) : Word :=
  (List.range 32).foldl (fun r i => crcBit r (w.getLsbD i)) reg

/-- The check word of the words of a frame (R16). -/
def checkWord (ws : List Word) : Word := ~~~(ws.foldl crcWord 0xFFFFFFFF)

/-! ### Fields -/

/-- The tag and generation of word 1: bits 31–27 and 26–25 (R178). -/
def refOfWord (w : Word) : Ref where
  tag := (w.extractLsb' 27 5).toFin
  gen := w.extractLsb' 25 2

/-- Word 1 with the tag, the generation and 25 further bits (R178). -/
def refWord (r : Ref) (rest : BitVec 25) : Word := BitVec.ofFin (w := 5) r.tag ++ r.gen ++ rest

/-- A Boolean as one bit. -/
def bit (b : Bool) : BitVec 1 := BitVec.ofBool b

/-- The kind code (R178). -/
def Body.code : Body → BitVec 4
  | .read .. => 1
  | .write .. => 2
  | .postedWrite .. => 3
  | .event .. => 4
  | .mgmtRequest .. => 5
  | .readData .. => 6
  | .accept .. => 7
  | .refuse .. => 8
  | .mgmtReply .. => 9
  | .enumPass .. => 10
  | .ringReset .. => 11

/-- Ring address bits 39–32, in word 0 of READ, WRITE and POSTED_WRITE; zero otherwise (R178). -/
def Body.high : Body → BitVec 8
  | .read _ p => p.addr.extractLsb' 32 8
  | .write _ p => p.addr.extractLsb' 32 8
  | .postedWrite _ p _ _ => p.addr.extractLsb' 32 8
  | _ => 0

/-- The low address word: bits 1–0 are not carried (R178). -/
def Span.low (p : Span) : Word := p.addr.extractLsb' 2 30 ++ (0 : BitVec 2)

/-- The header words after word 0 (R178). The bits of a REFUSE that a receiver ignores, 6–0 under a clear bit 7 and 5–0
under a set bit 6, are sent as its fields hold them (log 20). -/
def Body.words : Body → List Word
  | .read r p => [refWord r ((0 : BitVec 1) ++ p.first ++ p.last ++ (0 : BitVec 16)), p.low]
  | .write r p => [refWord r ((0 : BitVec 1) ++ p.first ++ p.last ++ (0 : BitVec 16)), p.low]
  | .postedWrite r p seq sync =>
    [refWord r ((0 : BitVec 1) ++ p.first ++ p.last ++ (0 : BitVec 2) ++ seq ++ (0 : BitVec 7) ++ bit sync),
      p.low]
  | .event r number count => [refWord r ((0 : BitVec 11) ++ number ++ count)]
  | .mgmtRequest r => [refWord r 0]
  | .readData r => [refWord r 0]
  | .accept r => [refWord r 0]
  | .refuse r why =>
    [refWord r ((0 : BitVec 13) ++ why.code ++ bit why.present ++ bit why.unsynced ++ why.seq)]
  | .mgmtReply r => [refWord r 0]
  | .enumPass e =>
    [e.pass ++ bit e.keep ++ e.attempt ++ bit e.duplicate ++ bit e.overflow ++ (0 : BitVec 4) ++ e.count ++
      (0 : BitVec 16), e.serial, e.taken]
  | .ringReset serial => [serial]

/-- The words of a frame in the order they are transmitted, less the check word (R178). -/
def Frame.words (f : Frame) : List Word :=
  (f.body.code ++ f.dest ++ f.source ++ f.hop ++ f.length ++ f.body.high : BitVec 32) ::
    (f.body.words ++ f.payload)

/-- The words of a frame as they cross RING OUT, the check word last (R16, R178). -/
def Frame.onRing (f : Frame) : List Word := f.words ++ [checkWord f.words]

/-- The span of word 0, word 1 and word 2; address bits 1–0 are ignored (R178). -/
def spanOfWords (w0 w1 w2 : Word) : Span where
  addr := w0.extractLsb' 0 8 ++ w2.extractLsb' 2 30 ++ (0 : BitVec 2)
  first := w1.extractLsb' 20 4
  last := w1.extractLsb' 16 4

/-- The fields of an ENUM from its word 1, word 2 and word 3 (R178). -/
def enumOfWords (w1 w2 w3 : Word) : EnumFields where
  pass := w1.extractLsb' 30 2
  keep := w1.getLsbD 29
  attempt := w1.extractLsb' 27 2
  duplicate := w1.getLsbD 26
  overflow := w1.getLsbD 25
  count := w1.extractLsb' 16 5
  serial := w2
  taken := w3

/-- The refusal fields of word 1 (R178). The ignored ones are kept as received, and a forwarded REFUSE sends them again
(log 20). -/
def refuseOfWord (w1 : Word) : RefuseFields where
  code := w1.extractLsb' 8 4
  present := w1.getLsbD 7
  unsynced := w1.getLsbD 6
  seq := w1.extractLsb' 0 6

/-- The kind fields and the payload, from word 0 and the words after it; none when the kind code names no kind
(R17, condition 1) or a header word is missing (R178: the payload count then differs, condition 3). -/
def bodyOfWords (w0 : Word) (rest : List Word) : Option (Body × List Word) :=
  match (w0.extractLsb' 28 4).toNat, rest with
  | 1, w1 :: w2 :: payload => some (.read (refOfWord w1) (spanOfWords w0 w1 w2), payload)
  | 2, w1 :: w2 :: payload => some (.write (refOfWord w1) (spanOfWords w0 w1 w2), payload)
  | 3, w1 :: w2 :: payload =>
    some (.postedWrite (refOfWord w1) (spanOfWords w0 w1 w2) (w1.extractLsb' 8 6) (w1.getLsbD 0), payload)
  | 4, w1 :: payload => some (.event (refOfWord w1) (w1.extractLsb' 8 6) (w1.extractLsb' 0 8), payload)
  | 5, w1 :: payload => some (.mgmtRequest (refOfWord w1), payload)
  | 6, w1 :: payload => some (.readData (refOfWord w1), payload)
  | 7, w1 :: payload => some (.accept (refOfWord w1), payload)
  | 8, w1 :: payload => some (.refuse (refOfWord w1) (refuseOfWord w1), payload)
  | 9, w1 :: payload => some (.mgmtReply (refOfWord w1), payload)
  | 10, w1 :: w2 :: w3 :: payload => some (.enumPass (enumOfWords w1 w2 w3), payload)
  | 11, w1 :: payload => some (.ringReset w1, payload)
  | _, _ => none

/-- The source field of word 0 (R178). -/
def sourceOfWord (w0 : Word) : NodeId := w0.extractLsb' 18 5

/-- The frame that words without their check word hold, if they hold one (R178). -/
def frameOfWords : List Word → Option Frame
  | [] => none
  | w0 :: rest =>
    (bodyOfWords w0 rest).map fun (body, payload) =>
      { dest := w0.extractLsb' 23 5
        source := sourceOfWord w0
        hop := w0.extractLsb' 13 5
        length := w0.extractLsb' 8 5
        body := body
        payload := payload }

/-! ### The malformed test (R17) -/

/-- The payload words that must accompany a length (R1). -/
def Body.payloadCount (b : Body) (length : Nat) : Nat :=
  match b with
  | .write .. | .postedWrite .. | .mgmtRequest .. | .readData .. | .mgmtReply .. => length
  | .read .. | .event .. | .accept .. | .refuse .. | .enumPass .. | .ringReset .. => 0

/-- The kinds whose length is always 1 (R1). -/
def Body.lengthIsOne : Body → Bool
  | .event .. | .accept .. | .refuse .. | .enumPass .. | .ringReset .. => true
  | .read .. | .write .. | .postedWrite .. | .mgmtRequest .. | .readData .. | .mgmtReply .. => false

/-- ENUM and RING_RESET (R2). -/
def Body.isControl : Body → Bool
  | .enumPass _ | .ringReset _ => true
  | _ => false

/-- ENUM. -/
def Body.isEnum : Body → Bool
  | .enumPass _ => true
  | _ => false

/-- Conditions 10, 11 and 12 of R17, on the kind fields. -/
def Body.malformed : Body → Bool
  | .refuse _ why => why.code == 0 || 5 < why.code.toNat || (why.code == 2) != why.present
  | .event _ _ count => count == 0
  | .enumPass e =>
    e.pass == 0 || e.attempt == 0 || !IdSet.valid e.taken || e.count.toNat != IdSet.size e.taken
  | _ => false

/-- A frame is malformed (R17, conditions 2 to 13). -/
def Frame.malformed (f : Frame) : Bool :=
  f.length.toNat == 0 || 16 < f.length.toNat ||
    f.payload.length != f.body.payloadCount f.length.toNat ||
    f.dest == noNode ||
    (f.dest == allNodes) != f.body.isControl ||
    (f.source == noNode && !f.body.isEnum) ||
    f.source == allNodes ||
    30 < f.hop.toNat ||
    f.body.malformed ||
    (f.body.lengthIsOne && f.length != 1)

/-! ### Building frames -/

/-- A frame as its builder sends it: hop count 0 (R15). The length is the payload's where the kind has one, and
otherwise as given. -/
def Frame.build (dest source : NodeId) (length : Nat) (body : Body) (payload : List Word) : Frame where
  dest := dest
  source := source
  hop := 0
  length := BitVec.ofNat 5 length
  body := body
  payload := payload

/-- A response without payload (R8). -/
def Frame.answer (dest source : NodeId) (body : Body) : Frame := Frame.build dest source 1 body []

/-- The refusal codes (R178). -/
def retryBusyCode : BitVec 4 := 1
/-- RETRY_ORDER (R178). -/
def retryOrderCode : BitVec 4 := 2

/-- The code of a final refusal (R178). -/
def FinalCode.code : FinalCode → BitVec 4
  | .noWindow => 3
  | .denied => 4
  | .localFault => 5

/-- A REFUSE without an expected field; its bits 6–0, which a receiver ignores, are zero (R178, log 20). -/
def refuseBody (ref : Ref) (code : BitVec 4) : Body :=
  .refuse ref { code := code, present := false, unsynced := false, seq := 0 }

/-- A REFUSE RETRY_ORDER; no sequence is UNSYNCED (R8), and the ignored bits 5–0 are then zero (R178, log 20). -/
def refuseOrderBody (ref : Ref) (expected : Option Seq) : Body :=
  .refuse ref
    { code := retryOrderCode, present := true, unsynced := expected.isNone, seq := expected.getD 0 }

end Sys2Proof.Machine
end

