-- ==== Sys2Proof/Machine/Ops.lean ====
section
/-! DEFINITION. The shared operations: updates of one block, counters, fault records and firings, and the
placement of frames that wait to leave. -/

namespace Sys2Proof.Machine

/-! ### Tables -/

/-- Entry `i` of a table changed by `f`. -/
def modAt {α : Type} {n : Nat} (t : Table α n) (i : Fin n) (f : α → α) : Table α n :=
  t.set i.val (f (t.get i)) i.isLt

/-! ### Updates of one block -/

/-- The Ring Port changed by `f`. -/
def State.modPort (s : State) (f : RingPort → RingPort) : State := { s with port := f s.port }
/-- Enumeration changed by `f`. -/
def State.modEn (s : State) (f : Enumeration → Enumeration) : State := { s with en := f s.en }
/-- The Window Tables changed by `f`. -/
def State.modWt (s : State) (f : WindowTables → WindowTables) : State := { s with wt := f s.wt }
/-- The tracker changed by `f`. -/
def State.modRt (s : State) (f : Tracker → Tracker) : State := { s with rt := f s.rt }
/-- The sequence tables changed by `f`. -/
def State.modOrd (s : State) (f : SequenceTables → SequenceTables) : State := { s with ord := f s.ord }
/-- The Local Target changed by `f`. -/
def State.modLt (s : State) (f : LocalTarget → LocalTarget) : State := { s with lt := f s.lt }
/-- The Inbound Target and Local Master changed by `f`. -/
def State.modInb (s : State) (f : Inbound → Inbound) : State := { s with inb := f s.inb }
/-- The Management Agent changed by `f`. -/
def State.modAg (s : State) (f : Agent → Agent) : State := { s with ag := f s.ag }
/-- The Bulk Mover changed by `f`. -/
def State.modBm (s : State) (f : Mover → Mover) : State := { s with bm := f s.bm }
/-- The Events block changed by `f`. -/
def State.modEv (s : State) (f : Events → Events) : State := { s with ev := f s.ev }

/-! ### Counters (00_scope.md section 4) -/

/-- A counter raised by `n`: it stays at its maximum once reached. -/
def bumpBy (n : Nat) (c : Counter) : Counter := BitVec.ofNat 32 (min (c.toNat + n) 0xFFFFFFFF)

/-- A counter raised by 1. -/
def bump (c : Counter) : Counter := bumpBy 1 c

/-- The Ring Port counters changed by `f`. -/
def State.countPort (s : State) (f : PortCounters → PortCounters) : State :=
  s.modPort fun p => { p with counters := f p.counters }
/-- The enumeration counters changed by `f`. -/
def State.countEn (s : State) (f : EnumCounters → EnumCounters) : State :=
  s.modEn fun e => { e with counters := f e.counters }
/-- The tracker counters changed by `f`. -/
def State.countRt (s : State) (f : TrackerCounters → TrackerCounters) : State :=
  s.modRt fun r => { r with counters := f r.counters }
/-- The ordering counters changed by `f`. -/
def State.countOrd (s : State) (f : OrderingCounters → OrderingCounters) : State :=
  s.modOrd fun o => { o with counters := f o.counters }
/-- The local target counters changed by `f`. -/
def State.countLt (s : State) (f : LocalCounters → LocalCounters) : State :=
  s.modLt fun l => { l with counters := f l.counters }
/-- The inbound counters changed by `f`. -/
def State.countInb (s : State) (f : InboundCounters → InboundCounters) : State :=
  s.modInb fun i => { i with counters := f i.counters }
/-- The agent counters changed by `f`. -/
def State.countAg (s : State) (f : AgentCounters → AgentCounters) : State :=
  s.modAg fun a => { a with counters := f a.counters }
/-- The mover counters changed by `f`. -/
def State.countBm (s : State) (f : MoverCounters → MoverCounters) : State :=
  s.modBm fun m => { m with counters := f m.counters }
/-- The events counters changed by `f`. -/
def State.countEv (s : State) (f : EventCounters → EventCounters) : State :=
  s.modEv fun e => { e with counters := f e.counters }

/-- `n` frames counted in TX_DISCARDED (R34). -/
def State.countDiscarded (s : State) (n : Nat) : State :=
  s.countPort fun c => { c with txDiscarded := bumpBy n c.txDiscarded }

/-! ### The event being taken -/

/-- A new event begins: it has the next number (log 5). -/
def State.begin (s : State) : State := { s with now := s.now + 1 }

/-- A code fires (R170): the firing waits, within the event, for its route to take it (log 5). -/
def State.fire (s : State) (code : EventCode) : State := { s with firings := s.firings ++ [code] }

/-- An originator whose entry completes asks for its next, if it wants one (R163, R174 step 3): the ask waits, within
the event, for the entry to be freed (log 6). -/
def State.raiseAsk (s : State) (o : Originator) : State := { s with asks := s.asks ++ [o] }

/-! ### Event codes (R170) -/

/-- LINK_UP. -/
def codeLinkUp : EventCode := 0
/-- LINK_DOWN. -/
def codeLinkDown : EventCode := 1
/-- ENUM_DONE. -/
def codeEnumDone : EventCode := 2
/-- ENUM_FAILED. -/
def codeEnumFailed : EventCode := 3
/-- LEASE_LOST. -/
def codeLeaseLost : EventCode := 4
/-- FAULT_RECORDED. -/
def codeFaultRecorded : EventCode := 5
/-- MOVE_DONE_A, MOVE_DONE_B. -/
def codeMoveDone : ChannelId → EventCode
  | .a => 6
  | .b => 7
/-- MOVE_HALT_A, MOVE_HALT_B. -/
def codeMoveHalt : ChannelId → EventCode
  | .a => 8
  | .b => 9
/-- MOVE_IDLE_A, MOVE_IDLE_B. -/
def codeMoveIdle : ChannelId → EventCode
  | .a => 10
  | .b => 11
/-- INBOX_READY. -/
def codeInboxReady : EventCode := 12
/-- MGMT_REPLY_READY. -/
def codeReplyReady : EventCode := 13
/-- NODE_RESET_DONE. -/
def codeNodeResetDone : EventCode := 14
/-- ATTN0 to ATTN3. -/
def codeAttn (i : Fin 4) : EventCode := ⟨15 + i.val, by omega⟩

/-! ### The fault queue (R147) -/

/-- The fault queue's size. -/
def faultQueueSize : Nat := 16

/-- A fault record arrives at the fault queue: it joins the tail, or is dropped and counted when the queue holds
16, and FAULT_RECORDED fires in either case (R147). -/
def State.recordFault (s : State) (r : FaultRecord) : State :=
  (s.modAg fun a =>
    if a.faults.length < faultQueueSize then { a with faults := a.faults ++ [r] }
    else { a with overflow := min 255 (a.overflow + 1) }).fire codeFaultRecorded

/-! ### The response insertion queue (R30) -/

/-- The response insertion queue's size. -/
def responseQueueSize : Nat := 8

/-- The response insertion queue holds fewer than 8 frames. -/
def State.responseRoom (s : State) : Bool := s.port.responseQ.length < responseQueueSize

/-- The placer of a response is told that it left the queue (R30). Only the agent waits for such a report. -/
def State.reportLeft (s : State) (p : Purpose) : State :=
  match p with
  | .plain => s
  | .nodeReset | .ringReset => { s with left := s.left ++ [p] }

/-- A placement that the queue has room for (R30): while the link is not UP, a frame for another node is
accepted and discarded at once. -/
def State.insertResponse (s : State) (r : Response) : State :=
  if s.port.link = .up ∨ r.frame.dest = s.en.ownId then
    s.modPort fun p => { p with responseQ := p.responseQ ++ [r] }
  else (s.countDiscarded 1).reportLeft r.purpose

/-- A placement (R30): not taken when the queue holds 8 frames. -/
def State.placeResponse (s : State) (r : Response) : Option State :=
  if s.responseRoom then some (s.insertResponse r) else none

/-- A response that nobody waits for. -/
def plainResponse (f : Frame) : Response := { frame := f, purpose := .plain }

/-! ### The control offer (R25, R31, R49, log 18) -/

/-- Whether a RING_RESET waits in the control offer. -/
def ControlOffer.isReset : ControlOffer → Bool
  | .own f => match f.body with
    | .ringReset _ => true
    | _ => false
  | .forwarded _ => true

/-- Enumeration presents a control frame (R31). A RING_RESET that waits is not displaced: the presented frame is
discarded. R25 says so of one that is being forwarded; of this node's own it is the model's choice, and so is that a
waiting ENUM is replaced (log 18). Both are counted in TX_DISCARDED. -/
def State.presentControl (s : State) (f : Frame) : State :=
  match s.port.control with
  | none => s.modPort fun p => { p with control := some (.own f) }
  | some c =>
    if c.isReset then s.countDiscarded 1
    else (s.modPort fun p => { p with control := some (.own f) }).countDiscarded 1

/-! ### The agent's replies (R137, R138) -/

/-- The results of a MGMT_REPLY, in the order of R11. -/
inductive MgmtResult where
  | ok
  | notOwner
  | badIndex
  | badValue
  | inUse
  | overlap
  | notManager
  | wrongState
  | unknownCommand
  deriving DecidableEq, Repr

/-- The result code (R179). -/
def MgmtResult.code : MgmtResult → BitVec 8
  | .ok => 0
  | .notOwner => 1
  | .badIndex => 2
  | .badValue => 3
  | .inUse => 4
  | .overlap => 5
  | .notManager => 6
  | .wrongState => 7
  | .unknownCommand => 8

/-- The reply word: the command code as received in bits 7–0, the result code in bits 15–8 (R179), zero above (log 50). -/
def replyWord (code : BitVec 8) (r : MgmtResult) : Word := (0 : BitVec 16) ++ r.code ++ code

/-- A MGMT_REPLY (R8, R137): addressed to the requester, with the request's destination as its source. -/
def replyFrame (requester dest : NodeId) (tag : Tag) (gen : Gen) (code : BitVec 8) (r : MgmtResult)
    (data : List Word) : Frame :=
  Frame.build requester dest (1 + data.length) (.mgmtReply ⟨tag, gen⟩) (replyWord code r :: data)

/-- The agent places a reply, or holds it for want of room (R138). Once placed, the agent returns to IDLE, unless
a reset is pending. -/
def State.agentPlace (s : State) (f : Frame) (p : Purpose) : State :=
  match s.placeResponse ⟨f, p⟩ with
  | some s' =>
    s'.modAg fun a =>
      { a with heldReply := none, state := if a.resetPending then .executing else .idle }
  | none =>
    s.modAg fun a => { a with heldReply := some ⟨f, p, s.now⟩, state := .executing }

/-- The lease timer's time: lease time × 10 ms (R141). -/
def Agent.leaseDuration (a : Agent) : Nat := a.leaseTime.toNat * Config.leaseUnit

/-- The lease timer and the hold timer when the agent leaves DEFERRED with an OK for `requester` (R142): the OK
restarts the lease of a requester that is still the owner. -/
def Agent.leaveDeferred (a : Agent) (requester : NodeId) : Agent :=
  { a with
    deferred := none
    holdTimer := .stopped
    leaseTimer :=
      if a.lockOwner = requester ∧ requester ≠ noNode then .running a.leaseDuration
      else match a.leaseTimer with
        | .held d => .running d
        | t => t }

/-- The command code of RETIRE_WINDOW (R179). -/
def retireWindowCode : BitVec 8 := 6

/-- A drain report reaches the agent (R65, R138): it places the deferred OK if the report names its entry. -/
def State.reportDrained (s : State) (table : WindowTable) (index : Fin 16) : State :=
  match s.ag.state, s.ag.deferred with
  | .deferred, some d =>
    if d.table = table ∧ d.index = index then
      (s.modAg fun a => a.leaveDeferred d.requester).agentPlace
        (replyFrame d.requester d.dest d.tag d.gen retireWindowCode .ok []) .plain
    else s
  | _, _ => s

end Sys2Proof.Machine
end

