-- ==== Sys2Proof/Machine/Windows.lean ====
section
/-! DEFINITION. The window tables: matching, in-flight counts and retirement (04_window_tables.md). -/

namespace Sys2Proof.Machine

/-! ### Matching -/

/-- The verdict of the outbound match (R58). -/
inductive OutboundVerdict where
  | noWindow
  | pastEnd
  | notAllowed
  | hit (index : Fin 16)
  deriving DecidableEq, Repr

/-- The ACTIVE outbound entry whose local range contains an address (R58). -/
def State.owtAt (s : State) (addr : Nat) : Option (Fin 16) :=
  (List.finRange 16).find? fun i =>
    let e := s.wt.owt.get i
    e.state == .active && e.localBase.toNat ≤ addr && addr < e.localBase.toNat + 2 ^ e.sizeExp

/-- The outbound match (R58): the tests in the order of the table. -/
def State.outboundMatch (s : State) (dir : Direction) (addr : Word) (count : Nat) : OutboundVerdict :=
  match s.owtAt addr.toNat with
  | none => .noWindow
  | some i =>
    let e := s.wt.owt.get i
    if !holdsRange e.localBase.toNat e.sizeExp addr.toNat count then .pastEnd
    else if !(match dir with | .read => e.readAllowed | .write => e.writeAllowed) then .notAllowed
    else .hit i

/-- The ring address of a local access through an outbound entry (R59). -/
def OwtEntry.translate (e : OwtEntry) (addr : Word) : RingAddr :=
  e.ringBase + (addr - e.localBase).setWidth 40

/-- The verdict of the inbound match (R60). -/
inductive InboundVerdict where
  | noWindow
  | denied
  | admissible (index : Fin 16)
  deriving DecidableEq, Repr

/-- Whether an inbound entry allows a kind of request (R60). -/
def IwtEntry.allows (e : IwtEntry) : InboundKind → Bool
  | .read => e.readAllowed
  | .write => e.writeAllowed
  | .postedWrite => e.postedAllowed

/-- The inbound match (R60). -/
def State.inboundMatch (s : State) (kind : InboundKind) (source : NodeId) (addr : RingAddr) (count : Nat) :
    InboundVerdict :=
  match (List.finRange 16).find? fun i =>
    let e := s.wt.iwt.get i
    e.state == .active && holdsRange e.ringBase.toNat e.sizeExp addr.toNat count with
  | none => .noWindow
  | some i =>
    let e := s.wt.iwt.get i
    if IdSet.has e.sources source && e.allows kind then .admissible i else .denied

/-- The local address of a ring request through an inbound entry (R61). -/
def IwtEntry.translate (e : IwtEntry) (addr : RingAddr) : Word :=
  e.localBase + (addr - e.ringBase).setWidth 32

/-! ### In-flight counts (R62) -/

/-- An outbound entry's hit count rises by 1 (R59). -/
def State.hitOwt (s : State) (i : Fin 16) : State :=
  s.modWt fun w => { w with owt := modAt w.owt i fun e => { e with hits := bump e.hits } }

/-- An outbound entry's in-flight count rises by 1 (R62). -/
def State.riseOwt (s : State) (i : Fin 16) : State :=
  s.modWt fun w => { w with owt := modAt w.owt i fun e => { e with inFlight := e.inFlight + 1 } }

/-- An inbound entry's hit count and in-flight count rise by 1 (R61). -/
def State.riseIwt (s : State) (i : Fin 16) : State :=
  s.modWt fun w =>
    { w with iwt := modAt w.iwt i fun e => { e with hits := bump e.hits, inFlight := e.inFlight + 1 } }

/-- The state of an entry whose count has fallen to `n` (R52, R62). -/
def WindowState.drainedAt (st : WindowState) (n : Nat) : WindowState :=
  if st = .retiring ∧ n = 0 then .empty else st

/-- An outbound entry with its count fallen by 1. -/
def OwtEntry.fall (e : OwtEntry) : OwtEntry :=
  { e with inFlight := e.inFlight - 1, state := e.state.drainedAt (e.inFlight - 1) }

/-- An inbound entry with its count fallen by 1. -/
def IwtEntry.fall (e : IwtEntry) : IwtEntry :=
  { e with inFlight := e.inFlight - 1, state := e.state.drainedAt (e.inFlight - 1) }

/-- An outbound entry's count falls by 1; an entry so drained is reported to the agent (R62, R65). -/
def State.fallOwt (s : State) (i : Fin 16) : State :=
  let e := s.wt.owt.get i
  let s' := s.modWt fun w => { w with owt := modAt w.owt i OwtEntry.fall }
  if e.state = .retiring ∧ e.inFlight - 1 = 0 then s'.reportDrained .outbound i else s'

/-- An inbound entry's count falls by 1; an entry so drained is reported to the agent (R62, R65). -/
def State.fallIwt (s : State) (i : Fin 16) : State :=
  let e := s.wt.iwt.get i
  let s' := s.modWt fun w => { w with iwt := modAt w.iwt i IwtEntry.fall }
  if e.state = .retiring ∧ e.inFlight - 1 = 0 then s'.reportDrained .inbound i else s'

/-! ### Retirement (R64, R67) -/

/-- The state of an ACTIVE entry that is retired with `n` requests in flight (R52); other states stay. -/
def WindowState.retired (st : WindowState) (n : Nat) : WindowState :=
  if st = .active then (if n = 0 then .empty else .retiring) else st

/-- An outbound entry retired. -/
def OwtEntry.retire (e : OwtEntry) : OwtEntry := { e with state := e.state.retired e.inFlight }

/-- An inbound entry retired. -/
def IwtEntry.retire (e : IwtEntry) : IwtEntry := { e with state := e.state.retired e.inFlight }

/-- Every ACTIVE entry of both tables is retired (R67). -/
def WindowTables.retireAll (w : WindowTables) : WindowTables where
  owt := w.owt.map OwtEntry.retire
  iwt := w.iwt.map IwtEntry.retire

/-- The state and in-flight count of a named entry. -/
def WindowTables.stateOf (w : WindowTables) : WindowTable → Fin 16 → WindowState × Nat
  | .outbound, i => ((w.owt.get i).state, (w.owt.get i).inFlight)
  | .inbound, i => ((w.iwt.get i).state, (w.iwt.get i).inFlight)

/-- A named entry retired (R64). -/
def WindowTables.retire (w : WindowTables) : WindowTable → Fin 16 → WindowTables
  | .outbound, i => { w with owt := modAt w.owt i OwtEntry.retire }
  | .inbound, i => { w with iwt := modAt w.iwt i IwtEntry.retire }

/-! ### The overlap law (R55, R63) -/

/-- Whether a local range overlaps that of an ACTIVE or RETIRING outbound entry. -/
def WindowTables.owtOverlaps (w : WindowTables) (base k : Nat) : Bool :=
  w.owt.toList.any fun e => e.state != .empty && rangesOverlap base k e.localBase.toNat e.sizeExp

/-- Whether a ring range overlaps that of an ACTIVE or RETIRING inbound entry. -/
def WindowTables.iwtOverlaps (w : WindowTables) (base k : Nat) : Bool :=
  w.iwt.toList.any fun e => e.state != .empty && rangesOverlap base k e.ringBase.toNat e.sizeExp

/-! ### Resets (R70) -/

/-- The tables after a NODE reset: every count is 0, and a RETIRING entry becomes EMPTY (R70). -/
def WindowTables.drainAll (w : WindowTables) : WindowTables where
  owt := w.owt.map fun e => { e with inFlight := 0, state := e.state.drainedAt 0 }
  iwt := w.iwt.map fun e => { e with inFlight := 0, state := e.state.drainedAt 0 }

end Sys2Proof.Machine
end

