-- ==== Sys2Proof/Machine/Tracker.lean ====
section
/-! DEFINITION. The request tracker: allocation, the offer, transmission and freeing (05_the_request_tracker.md). -/

namespace Sys2Proof.Machine

/-- The tracker entry of a tag. -/
def State.entry (s : State) (t : Tag) : TrackerEntry := s.rt.entries.get t

/-- A tracker entry changed by `f`. -/
def State.modEntry (s : State) (t : Tag) (f : TrackerEntry → TrackerEntry) : State :=
  s.modRt fun r => { r with entries := modAt r.entries t f }

/-- The Send Sequence entry of a destination. -/
def State.sendOf (s : State) (d : NodeId) : SendEntry := s.ord.send.get d.toFin

/-- The Send Sequence entry of a destination changed by `f`. -/
def State.modSend (s : State) (d : NodeId) (f : SendEntry → SendEntry) : State :=
  s.modOrd fun o => { o with send := modAt o.send d.toFin f }

/-- The node may send requests of its own (R37). -/
def State.numbered (s : State) : Bool := s.en.role == .numbered

/-! ### Allocation (R74, R75) -/

/-- What an originator presents to the tracker. -/
structure AllocRequest where
  originator : Originator
  kind : ReqKind
  dest : NodeId
  addr : RingAddr := 0
  length : Nat := 1
  first : Mask := 0
  last : Mask := 0
  payload : List Word := []
  number : BitVec 6 := 0
  count : BitVec 8 := 0
  window : Option (Fin 16) := none
  deriving DecidableEq, Repr

/-- Whether an originator is a slot of the channel. -/
def Originator.isChannel (o : Originator) (c : ChannelId) : Bool :=
  match o with
  | .mover c' _ => c' == c
  | _ => false

/-- The non-FREE entries that a channel holds. -/
def State.channelHolds (s : State) (c : ChannelId) : Nat :=
  s.rt.allocOrder.countP fun t => (s.entry t).originator.isChannel c

/-- Test 3 of R74 fails: a mover channel asks with fewer than 5 entries FREE, or holding 8 already. -/
def State.moverReserved (s : State) (o : Originator) : Bool :=
  match o with
  | .mover c _ => s.rt.freeList.length < 5 || 8 ≤ s.channelHolds c
  | _ => false

/-- Test 4 of R74 fails: the destination already counts 16 unaccepted posted writes. -/
def State.placesFull (s : State) (r : AllocRequest) : Bool :=
  r.kind == .postedWrite && 16 ≤ (s.sendOf r.dest).count

/-- Whether the entry of a tag is a posted write to the destination. -/
def State.isPostedTo (s : State) (d : NodeId) (t : Tag) : Bool :=
  (s.entry t).kind == .postedWrite && (s.entry t).dest == d

/-- The unaccepted posted writes to a destination, in allocation order: those whose entries are not FREE (R95). -/
def State.postedRun (s : State) (d : NodeId) : List Tag := s.rt.allocOrder.filter (s.isPostedTo d)

/-- READ, WRITE and EVENT are held behind earlier posted writes; MGMT_REQUEST is not (R75, R98). -/
def ReqKind.heldBehindPosted : ReqKind → Bool
  | .read | .write | .event => true
  | .postedWrite | .mgmtRequest => false

/-- The entry that an allocation makes of the FREE entry `old` (R75, R96). -/
def State.allocatedEntry (s : State) (r : AllocRequest) (old : TrackerEntry) : TrackerEntry where
  state := if r.kind.heldBehindPosted && !(s.postedRun r.dest).isEmpty then .orderWait else .ready
  originator := r.originator
  kind := r.kind
  dest := r.dest
  addr := r.addr
  length := r.length
  first := r.first
  last := r.last
  payload := r.payload
  seq := if r.kind = .postedWrite then (s.sendOf r.dest).next else 0
  sync := r.kind == .postedWrite && (s.sendOf r.dest).syncNeeded
  number := r.number
  count := r.count
  window := r.window
  gen := old.gen + 1
  retry := 0
  responseTimer := .stopped
  backoffTimer := .stopped
  sentOnce := false

/-- The Send Sequence entry after it has assigned a sequence (R96). -/
def SendEntry.assign (e : SendEntry) : SendEntry where
  next := e.next + 1
  oldest := if e.count = 0 then e.next else e.oldest
  count := e.count + 1
  syncNeeded := false
  stalled := e.stalled

/-- The state after the allocation of the head tag `t` of the free list (R75). -/
def State.allocated (s : State) (r : AllocRequest) (t : Tag) (rest : List Tag) : State :=
  let s1 := s.modRt fun rt =>
    { rt with
      freeList := rest
      allocOrder := rt.allocOrder ++ [t]
      entries := modAt rt.entries t (s.allocatedEntry r) }
  let s2 := if r.kind = .postedWrite then s1.modSend r.dest SendEntry.assign else s1
  match r.window with
  | some w => s2.riseOwt w
  | none => s2

/-- An allocation request: the tests of R74 in order, then the allocation of R75. None is a refusal, which
changes nothing. -/
def State.alloc (s : State) (r : AllocRequest) : Option (Tag × State) :=
  if !s.numbered then none
  else match s.rt.freeList with
    | [] => none
    | t :: rest =>
      if s.moverReserved r.originator then none
      else if s.placesFull r then none
      else some (t, s.allocated r t rest)

/-! ### The offer (R78, R79) -/

/-- The oldest unaccepted posted write to a destination. -/
def State.oldestPosted (s : State) (d : NodeId) : Option Tag := (s.postedRun d).head?

/-- An entry is eligible to be offered (R78). -/
def State.eligible (s : State) (t : Tag) : Bool :=
  (s.entry t).state == .ready &&
    (!(s.sendOf (s.entry t).dest).stalled || s.oldestPosted (s.entry t).dest == some t)

/-- The kind fields of an entry's request (R3 to R7). -/
def TrackerEntry.body (e : TrackerEntry) (t : Tag) : Body :=
  let ref : Ref := ⟨t, e.gen⟩
  let span : Span := ⟨e.addr, e.first, e.last⟩
  match e.kind with
  | .read => .read ref span
  | .write => .write ref span
  | .postedWrite => .postedWrite ref span e.seq e.sync
  | .event => .event ref e.number e.count
  | .mgmtRequest => .mgmtRequest ref

/-- The request frame of an entry, built when it is presented: its source is the own id at that moment (R78). -/
def State.requestFrame (s : State) (t : Tag) : Frame :=
  let e := s.entry t
  Frame.build e.dest s.en.ownId e.length (e.body t) e.payload

/-- The presented frame of an entry is built again from the entry as it then stands, and keeps its place in the offer:
every transmission of a posted write carries its sync flag (R78, R79, R96, R102; log 10). -/
def State.refreshOffer (s : State) (t : Tag) : State :=
  s.modPort fun p => { p with offer := p.offer.map fun o => if o.tag = t then ⟨t, s.requestFrame t⟩ else o }

/-- The tracker's parameters as it reads them (R144). -/
def State.responseTime (s : State) : Nat := s.ag.params.responseTimeout.toNat * 16

/-- The port tells the tracker that the offered frame was transmitted (R80). -/
def State.transmitted (s : State) (t : Tag) : State :=
  let first := !(s.entry t).sentOnce
  let s1 := s.modEntry t fun e =>
    { e with state := .sent, responseTimer := .running s.responseTime, sentOnce := true }
  let s2 := s1.countRt fun c =>
    if first then { c with requestsSent := bump c.requestsSent } else { c with resends := bump c.resends }
  s2.modPort fun p => { p with offer := none }

/-- The entry of lowest allocation rank that may be offered (R78). -/
def State.nextOffer (s : State) : Option Tag :=
  if s.numbered then s.rt.allocOrder.find? s.eligible else none

/-- The port takes an offered frame addressed to this node onto the loop path (R29, R31, R80). -/
def State.loopOffer (s : State) (o : RequestOffer) : State :=
  ((s.modPort fun p => { p with loopQ := p.loopQ ++ [o.frame] }).countPort fun c =>
    { c with looped := bump c.looped }).transmitted o.tag

/-- One thing that the tracker and the port do at once about the request offer (R29, R31, R78, R79): withdraw a
frame that may no longer be offered, take a self-addressed frame onto the loop path, take and discard a frame for
another node while the link is not UP, or present the next frame. A presented frame that may stay is left as it is:
only a go-back under R102 builds it again (`State.refreshOffer`). None: there is nothing to do. -/
def State.offerStep (s : State) : Option State :=
  match s.port.offer with
  | some o =>
    if !(s.numbered && s.eligible o.tag) then some (s.modPort fun p => { p with offer := none })
    else if o.frame.dest = s.en.ownId then some (s.loopOffer o)
    else if s.port.link ≠ .up then some ((s.countDiscarded 1).transmitted o.tag)
    else none
  | none =>
    match s.nextOffer with
    | some t => some (s.modPort fun p => { p with offer := some ⟨t, s.requestFrame t⟩ })
    | none => none

/-! ### Freeing (R88, steps 2 to 4) -/

/-- A FREE entry keeps its fields, its timers stopped (R71, R72). -/
def TrackerEntry.freed (e : TrackerEntry) : TrackerEntry :=
  { e with state := .free, responseTimer := .stopped, backoffTimer := .stopped }

/-- The frame of a tag is withdrawn from the offer, if it is presented (R79). -/
def State.withdraw (s : State) (t : Tag) : State :=
  s.modPort fun p => { p with offer := p.offer.filter fun o => o.tag != t }

/-- An entry is freed (R88): its timers stop, its frame is withdrawn, its window's count falls, and its tag joins
the tail of the free list. -/
def State.freeEntry (s : State) (t : Tag) : State :=
  let s1 := (s.modEntry t TrackerEntry.freed).withdraw t
  let s2 := match (s.entry t).window with
    | some w => s1.fallOwt w
    | none => s1
  s2.modRt fun r => { r with allocOrder := r.allocOrder.erase t, freeList := r.freeList ++ [t] }

/-! ### Resets (R93) -/

/-- The tracker after a NODE or RING reset: every entry is FREE, the freed tags join the free list in ascending
order, and the generations, rotation and counters are kept (R93). -/
def Tracker.freeAll (r : Tracker) : Tracker where
  entries := r.entries.map TrackerEntry.freed
  freeList := r.freeList ++ allTags.filter fun t => (r.entries.get t).state != .free
  allocOrder := []
  lastClaimant := r.lastClaimant
  counters := r.counters

/-- The originator after a LOCAL reset (R93). -/
def Originator.afterLocalReset (o : Originator) : Originator :=
  match o with
  | .delayed _ | .issueSlot => .abandoned
  | o => o

/-- The tracker after a LOCAL reset (R93): the entries of delayed slots and of the issue slot are abandoned. -/
def Tracker.abandonLocal (r : Tracker) : Tracker :=
  { r with entries := r.entries.map fun e =>
      if e.state = .free then e else { e with originator := e.originator.afterLocalReset } }

end Sys2Proof.Machine
end

