-- ==== Sys2Proof/Machine/Events.lean ====
section
/-! DEFINITION. Events: routes, the pending set, the ring route and the event inbox (11_events.md). -/

namespace Sys2Proof.Machine

/-- The route entry of a code. -/
def State.routeEntry (s : State) (c : EventCode) : RouteEntry := s.ev.routes.get c

/-- The ring route state of a code. -/
def State.ringRoute (s : State) (c : EventCode) : RingRoute := s.ev.ring.get c

/-- The ring route state of a code changed by `f`. -/
def State.modRing (s : State) (c : EventCode) (f : RingRoute → RingRoute) : State :=
  s.modEv fun e => { e with ring := modAt e.ring c f }

/-! ### The pending set and the lines (R172) -/

/-- A code joins the pending set. -/
def Events.addPending (e : Events) (c : EventCode) : Events :=
  { e with pendingSet := e.pendingSet ||| BitVec.twoPow 19 c.val }

/-- A code leaves the pending set. -/
def Events.dropPending (e : Events) (c : EventCode) : Events :=
  { e with pendingSet := e.pendingSet &&& ~~~(BitVec.twoPow 19 c.val) }

/-- Whether a line is asserted: the pending set holds a code whose route is that line (R172). -/
def Events.lineAsserted (e : Events) (r : Route) : Bool :=
  (List.finRange 19).any fun c => e.pendingSet.getLsbD c.val && (e.routes.get c).route == r

/-- EVT_LINE0 (R172). -/
def State.evtLine0 (s : State) : Bool := s.ev.lineAsserted .line0

/-- EVT_LINE1 (R172). -/
def State.evtLine1 (s : State) : Bool := s.ev.lineAsserted .line1

/-- A line route. -/
def Route.isLine : Route → Bool
  | .line0 | .line1 => true
  | .off | .ring => false

/-- An ATTN code with sense LEVEL and a line route whose input is asserted (R172). -/
def Events.levelHeld (e : Events) (c : EventCode) : Bool :=
  15 ≤ c.val && (e.routes.get c).level && (e.routes.get c).route.isLine && e.attnInput.getLsbD (c.val - 15)

/-- The codes that R172's exception holds in the pending set. -/
def Events.levelSet (e : Events) : BitVec 19 :=
  (List.finRange 19).foldl (fun acc c => if e.levelHeld c then acc ||| BitVec.twoPow 19 c.val else acc) 0

/-- A full-mask write to the pending event set item (R172): the named codes leave the set, and a LEVEL code
whose input is asserted joins it again. -/
def Events.clearPending (e : Events) (w : Word) : Events :=
  let named := w.setWidth 19
  { e with pendingSet := (e.pendingSet &&& ~~~named) ||| (e.pendingSet &&& named &&& e.levelSet) }

/-! ### The ring route (R174) -/

/-- The request for an EVENT entry of a code: the route's destination and event number (R174). -/
def State.eventRequest (s : State) (c : EventCode) (count : Nat) : AllocRequest where
  originator := .event c
  kind := .event
  dest := (s.routeEntry c).dest
  number := (s.routeEntry c).number
  count := BitVec.ofNat 8 count

/-- An EVENT entry is allocated for a code: its tag is recorded and RING_EVENTS rises (R174). -/
def State.recordEventTag (s : State) (c : EventCode) (t : Tag) : State :=
  (s.modRing c fun r => { r with tag := some t }).countEv fun k => { k with ringEvents := bump k.ringEvents }

/-- A firing of a RING-routed code (R174). -/
def State.ringFire (s : State) (c : EventCode) : State :=
  let r := s.ringRoute c
  if r.tag.isSome ∨ 0 < r.refire then
    (s.modRing c fun r => { r with refire := min 255 (r.refire + 1) }).countEv fun k =>
      { k with refireCoalesced := bump k.refireCoalesced }
  else match s.alloc (s.eventRequest c 1) with
    | some (t, s') => s'.recordEventTag c t
    | none => s.modRing c fun r => { r with refire := 1 }

/-- A firing is taken by its code's route (R170). -/
def State.takeFiring (s : State) (c : EventCode) : State :=
  match (s.routeEntry c).route with
  | .off => s
  | .line0 | .line1 => s.modEv fun e => e.addPending c
  | .ring => s.ringFire c

/-- The firings raised and not yet taken are taken, in the order they were raised (R170). -/
def State.takeFirings (s : State) : State :=
  s.firings.foldl State.takeFiring { s with firings := [] }

/-- The router asks for an entry for a held code as for a grant (R174): the refire count is the frame's count. -/
def State.grantHeld (s : State) (c : EventCode) : Option State :=
  match s.alloc (s.eventRequest c (s.ringRoute c).refire) with
  | some (t, s') =>
    some (((s'.recordEventTag c t).modRing c fun r => { r with refire := 0 }).modEv fun e =>
      { e with lastGranted := c })
  | none => none

/-- A code is held (R174). -/
def State.isHeld (s : State) (c : EventCode) : Bool :=
  (s.ringRoute c).tag.isNone && 0 < (s.ringRoute c).refire

/-- The codes in order, starting after `last` and wrapping (R174). -/
def codesAfter (last : EventCode) : List EventCode :=
  (List.finRange 19).filter (last < ·) ++ (List.finRange 19).filter (· ≤ last)

/-- The held code that comes first after the code granted last (R174). -/
def State.heldCode (s : State) : Option EventCode := (codesAfter s.ev.lastGranted).find? s.isHeld

/-! ### Routes (R171) -/

/-- SET_ROUTE takes the fields, and the change acts on the code's pending and refire state (R171). -/
def Events.setRoute (e : Events) (c : EventCode) (r : RouteEntry) : Events :=
  let e1 := { e with routes := modAt e.routes c fun _ => r }
  let e2 := if r.route.isLine then (if e1.levelHeld c then e1.addPending c else e1) else e1.dropPending c
  if r.route = .ring then e2 else { e2 with ring := modAt e2.ring c fun k => { k with refire := 0 } }

/-! ### Attention inputs (R173) -/

/-- The level of one input among the four. -/
def putLevel (v : BitVec 4) (i : Fin 4) (level : Bool) : BitVec 4 :=
  if level then v ||| BitVec.twoPow 4 i.val else v &&& ~~~(BitVec.twoPow 4 i.val)

/-- An attention input is compared with its recorded level, unless LOCAL_RESET_IN is asserted: a level that differs is
recorded, and a change to asserted fires the code (R173). -/
def State.compareInput (s : State) (i : Fin 4) : State :=
  let level := s.ev.attnInput.getLsbD i.val
  if s.localResetIn ∨ s.ev.attnRecorded.getLsbD i.val = level then s
  else
    let s1 := s.modEv fun e => { e with attnRecorded := putLevel e.attnRecorded i level }
    if level then s1.fire (codeAttn i) else s1

/-- The four inputs are compared, ATTN0 first (R173, log 17). -/
def State.compareInputs (s : State) : State := (List.finRange 4).foldl State.compareInput s

/-- An attention input takes a level, and is compared (R173). -/
def State.attnLevel (s : State) (i : Fin 4) (level : Bool) : State :=
  (s.modEv fun e => { e with attnInput := putLevel e.attnInput i level }).compareInput i

/-! ### The event inbox (R175) -/

/-- The event inbox's size. -/
def inboxSize : Nat := 16

/-- A record for the same source and event number. -/
def InboxRecord.same (r : InboxRecord) (source : NodeId) (number : BitVec 6) : Bool :=
  r.source == source && r.number == number

/-- An EVENT for this node is taken by the inbox (R175). -/
def State.takeEvent (s : State) (f : Frame) (ref : Ref) (number : BitVec 6) (count : BitVec 8) : State :=
  let accept := plainResponse (Frame.answer f.source f.dest (.accept ref))
  if !s.responseRoom then s.countEv fun k => { k with inboxDropped := bump k.inboxDropped }
  else if s.ev.inbox.any (·.same f.source number) then
    ((s.modEv fun e =>
        { e with inbox := e.inbox.map fun r =>
            if r.same f.source number then { r with count := min 255 (r.count + count.toNat) } else r }).countEv
      fun k => { k with inboxCoalesced := bump k.inboxCoalesced }).insertResponse accept
  else if s.ev.inbox.length < inboxSize then
    let s1 := ((s.modEv fun e =>
        { e with inbox := e.inbox ++ [⟨f.source, number, count.toNat⟩] }).countEv
      fun k => { k with inboxNew := bump k.inboxNew }).insertResponse accept
    if s.ev.inbox.isEmpty then s1.fire codeInboxReady else s1
  else
    (s.countEv fun k => { k with inboxRefused := bump k.inboxRefused }).insertResponse
      (plainResponse (Frame.answer f.source f.dest (refuseBody ref retryBusyCode)))

/-! ### Resets (R176) -/

/-- Every code's tag absent and refire count 0. -/
def Events.clearRing (e : Events) : Events := { e with ring := Vector.replicate 19 RingRoute.reset }

/-- The Events block after a RING reset (R176). -/
def Events.ringReset (e : Events) : Events :=
  { e.clearRing with
    routes := Vector.ofFn RouteEntry.reset
    pendingSet := 0
    attnRecorded := 0
    inbox := [] }

/-- The Events block after a LOCAL reset (R176). -/
def Events.localReset (e : Events) : Events :=
  { e with pendingSet := 0, attnRecorded := 0, inbox := [] }

end Sys2Proof.Machine
end

