-- ==== Sys2Proof/Machine/Mover.lean ====
section
/-! DEFINITION. The bulk mover: channels, slots, slicing, chaining, stop and halt (10_bulk_mover.md). -/

namespace Sys2Proof.Machine

/-- A channel. -/
def State.chan (s : State) : ChannelId → Channel
  | .a => s.bm.chA
  | .b => s.bm.chB

/-- A channel changed by `f`. -/
def State.modChan (s : State) (c : ChannelId) (f : Channel → Channel) : State :=
  s.modBm fun m => match c with
    | .a => { m with chA := f m.chA }
    | .b => { m with chB := f m.chB }

/-- A slot of a channel changed by `f`. -/
def State.modSlot (s : State) (c : ChannelId) (i : Fin 8) (f : Slot → Slot) : State :=
  s.modChan c fun ch => { ch with slots := modAt ch.slots i f }

/-- A slot of a channel. -/
def State.slot (s : State) (c : ChannelId) (i : Fin 8) : Slot := (s.chan c).slots.get i

/-- A descriptor. -/
def State.descriptor (s : State) (i : Fin 64) : Descriptor := s.bm.descriptors.get i

/-- The channel's current descriptor; a channel that has none counts as having descriptor 0, which no rule
asks of it. -/
def State.currentIndex (s : State) (c : ChannelId) : Fin 64 := (s.chan c).current.getD 0

/-- The other channel. -/
def ChannelId.other : ChannelId → ChannelId
  | .a => .b
  | .b => .a

/-! ### Slots (R158) -/

/-- A slot made FREE in the event `now`: its detached flag clears (R167). The rules do not say what its other fields then
hold: its data and tag are cleared, and its place, addresses, lane order, node and direction stay as they were (log 24). -/
def Slot.freed (sl : Slot) (now : Nat) : Slot :=
  { sl with state := .free, data := [], tag := none, detached := false, entered := now }

/-- A slot of a channel becomes FREE. -/
def State.freeSlot (s : State) (c : ChannelId) (i : Fin 8) : State := s.modSlot c i (·.freed s.now)

/-- A slot is not FREE and not detached. -/
def Slot.busyAttached (sl : Slot) : Bool := sl.state != .free && !sl.detached

/-- Some slot of the channel is busy and not detached (R165). -/
def Channel.busy (ch : Channel) : Bool := ch.slots.toList.any Slot.busyAttached

/-- The oldest slot that satisfies `p`: the one longest in its present state, the lower-numbered first (R158). -/
def Channel.oldest (ch : Channel) (p : Slot → Bool) : Option (Fin 8) :=
  (List.finRange 8).foldl (fun best i =>
    if p (ch.slots.get i) then
      match best with
      | none => some i
      | some j => if (ch.slots.get i).entered < (ch.slots.get j).entered then some i else best
    else best) none

/-- A slot waits for, or is under, a local operation (R163). -/
def Slot.wantsBus (sl : Slot) : Bool := sl.state == .localPending || sl.state == .landing

/-- A slot waits for a tracker entry (R158). -/
def Slot.wantsTag (sl : Slot) : Bool := sl.state == .ringPending && sl.tag.isNone

/-- The local master has taken the slot's operation. -/
def State.underBus (s : State) (c : ChannelId) (i : Fin 8) : Bool :=
  match s.inb.current with
  | some tx => tx.owner == .mover c i
  | none => false

/-! ### Slicing (R160) -/

/-- The words of an incrementing side up to its next 4 KiB boundary (R160). -/
def wordsToBoundary (addr : Nat) : Nat := (4096 - addr % 4096) / 4

/-- The word count of the next frame (R160). -/
def Channel.frameWords (ch : Channel) (d : Descriptor) : Nat :=
  let n := min d.frameSize ch.remaining
  let n := if d.remoteFixed then n else min n (wordsToBoundary ch.remote.toNat)
  if d.localFixed then n else min n (wordsToBoundary ch.localAddr.toNat)

/-- An address of a side after a frame of `n` words (R160). After the last frame of a range that ends at the top of its
space the address does not fit its field, and the spec does not say what it holds: it wraps to 0 (log 48). -/
def advance {w : Nat} (addr : BitVec w) (fixed : Bool) (n : Nat) : BitVec w :=
  if fixed then addr else addr + BitVec.ofNat w (4 * n)

/-- A frame of `n` words starts in slot `i` (R160, steps 2 to 4). DESIGN CHOICE, unsafe (log 52): R157 limits the next
offset to 1,048,575, and step 3 raises it to 1,048,576 as the last frame of a descriptor of 1,048,576 words starts; the
model follows step 3. -/
def Channel.startFrame (ch : Channel) (d : Descriptor) (now : Nat) (i : Fin 8) : Channel :=
  let n := ch.frameWords d
  { ch with
    nextOffset := ch.nextOffset + n
    remaining := ch.remaining - n
    remote := advance ch.remote d.remoteFixed n
    localAddr := advance ch.localAddr d.localFixed n
    slots := modAt ch.slots i fun _ =>
      { state := if d.pull then .ringPending else .localPending
        offset := ch.nextOffset
        count := n
        remote := ch.remote
        localAddr := ch.localAddr
        laneOrder := d.laneOrder
        data := []
        tag := none
        detached := false
        entered := now
        pull := d.pull
        node := d.node } }

/-- Frames start in the FREE slots, lowest-numbered first, until the slots or the remaining words run out (R160). -/
def Channel.startFrames (ch : Channel) (d : Descriptor) (now : Nat) : Channel :=
  (List.finRange 8).foldl (fun ch i =>
    if 0 < ch.remaining ∧ (ch.slots.get i).state = .free then ch.startFrame d now i else ch) ch

/-- A RUNNING channel starts frames (R160). -/
def State.startFrames (s : State) (c : ChannelId) : State :=
  if (s.chan c).state = .running then
    s.modChan c fun ch => ch.startFrames (s.descriptor (s.currentIndex c)) s.now
  else s

/-- A channel loads a descriptor (R164). -/
def Channel.load (ch : Channel) (i : Fin 64) (d : Descriptor) : Channel :=
  { ch with
    current := some i
    remaining := d.length
    nextOffset := 0
    completed := 0
    remote := d.remote
    localAddr := d.localAddr }

/-! ### Stop and halt (R165, R166) -/

/-- A channel is released: every slot whose frame has not been committed becomes FREE (R165). -/
def State.releaseChannel (s : State) (c : ChannelId) : State :=
  (List.finRange 8).foldl (fun s i =>
    let sl := s.slot c i
    if (sl.state = .localPending ∧ s.underBus c i = false) ∨ sl.wantsTag then s.freeSlot c i else s) s

/-- A channel becomes IDLE by END or by a stop, and fires MOVE_IDLE (R164, R165). -/
def State.channelIdle (s : State) (c : ChannelId) : State :=
  (s.modChan c fun ch => { ch with state := .idle }).fire (codeMoveIdle c)

/-- A RUNNING channel becomes STOPPING and is released; with no slot busy it becomes IDLE at once (R165). -/
def State.stopChannel (s : State) (c : ChannelId) : State :=
  let s1 := (s.modChan c fun ch => { ch with state := .stopping }).releaseChannel c
  if (s1.chan c).busy then s1 else s1.channelIdle c

/-- A channel becomes HALTED and is released; its halt record, the MOVE_HALT record and the event MOVE_HALT follow
(R164, R166). -/
def State.haltChannel (s : State) (c : ChannelId) (offset : Nat) (result : Option Detail) : State :=
  let index := s.currentIndex c
  let s1 := (s.modChan c fun ch => { ch with state := .halted }).releaseChannel c
  let s2 := s1.modChan c fun ch => { ch with halt := some ⟨index, offset, result⟩ }
  (s2.recordFault
    { kind := .moveHalt
      index := some (BitVec.ofNat 6 index.val)
      address := some (BitVec.ofNat 40 offset)
      detail := result }).fire (codeMoveHalt c)

/-! ### The end of a frame (R161, R162, R164, R167) -/

/-- What the channel does when a slot of it has become FREE (R160, R165). DESIGN CHOICE, unsafe (log 54): where one event
frees several slots of a RUNNING channel, R160 does not say whether frames start after each freeing or once, after all
of them; the model starts them at each, as the result is handed over. -/
def State.slotFreed (s : State) (c : ChannelId) : State :=
  match (s.chan c).state with
  | .running => s.startFrames c
  | .stopping => if (s.chan c).busy then s else s.channelIdle c
  | .idle | .halted => s

/-- A RUNNING channel takes the next field of its completed descriptor (R164). -/
def State.chainNext (s : State) (c : ChannelId) : State :=
  let d := s.descriptor (s.currentIndex c)
  match d.next with
  | none => s.channelIdle c
  | some n =>
    if (s.descriptor n).loaded then
      (s.modChan c fun ch => ch.load n (s.descriptor n)).startFrames c
    else s.haltChannel c d.length none

/-- A descriptor is complete (R164). -/
def State.descriptorComplete (s : State) (c : ChannelId) : State :=
  let s1 := if (s.descriptor (s.currentIndex c)).notify then s.fire (codeMoveDone c) else s
  match (s.chan c).state with
  | .stopping => s1.channelIdle c
  | .running => s1.chainNext c
  | .idle | .halted => s1

/-- The counter WORDS_MOVED of a channel rises by a frame's words (R168). -/
def MoverCounters.moved (k : MoverCounters) (c : ChannelId) (n : Nat) : MoverCounters :=
  match c with
  | .a => { k with wordsMovedA := bumpBy n k.wordsMovedA }
  | .b => { k with wordsMovedB := bumpBy n k.wordsMovedB }

/-- The counter FRAMES_SENT of a channel rises by 1 (R168). -/
def MoverCounters.sent (k : MoverCounters) (c : ChannelId) : MoverCounters :=
  match c with
  | .a => { k with framesSentA := bump k.framesSentA }
  | .b => { k with framesSentB := bump k.framesSentB }

/-- A channel is RUNNING or STOPPING. -/
def ChannelState.working : ChannelState → Bool
  | .running | .stopping => true
  | .idle | .halted => false

/-- A frame ends with its words done: the slot becomes FREE, and the words of a slot that is not detached count
as completed (R161, R162, R164, R167, R168). -/
def State.frameDone (s : State) (c : ChannelId) (i : Fin 8) : State :=
  let sl := s.slot c i
  let s1 := (s.freeSlot c i).countBm fun k => k.moved c sl.count
  if sl.detached then s1.slotFreed c
  else
    let s2 := s1.modChan c fun ch => { ch with completed := ch.completed + sl.count }
    if (s2.chan c).state.working ∧ (s2.chan c).completed = (s2.descriptor (s2.currentIndex c)).length then
      s2.descriptorComplete c
    else s2.slotFreed c

/-- A frame fails: the slot becomes FREE, and the failure of a slot that is not detached halts a RUNNING or
STOPPING channel (R166, R167). -/
def State.frameFailed (s : State) (c : ChannelId) (i : Fin 8) (why : Detail) : State :=
  let sl := s.slot c i
  let s1 := s.freeSlot c i
  if !sl.detached && (s.chan c).state.working then s1.haltChannel c sl.offset (some why)
  else s1.slotFreed c

/-! ### The tracker's results (R161, R162) -/

/-- A mover entry completes (R161 step 3, R162 step 2). -/
def State.moverCompleted (s : State) (c : ChannelId) (i : Fin 8) (kind : ReqKind) (r : Result)
    (data : List Word) : State :=
  if r = .ok then
    if kind = .read then
      s.modSlot c i fun sl =>
        { sl with state := .landing, tag := none, data := data.map (laneWord sl.laneOrder), entered := s.now }
    else s.frameDone c i
  else s.frameFailed c i (.result r)

/-! ### The local master's results (R161, R162) -/

/-- A PUSH read has ended with its data (R161): in a STOPPING or HALTED channel the data is discarded (R165). -/
def State.pushRead (s : State) (c : ChannelId) (i : Fin 8) (data : List Word) : State :=
  match (s.chan c).state with
  | .stopping | .halted => (s.freeSlot c i).slotFreed c
  | .running | .idle =>
    s.modSlot c i fun sl =>
      { sl with state := .ringPending, tag := none, data := data.map (laneWord sl.laneOrder), entered := s.now }

/-- A mover transaction has succeeded. -/
def State.moverBusDone (s : State) (c : ChannelId) (i : Fin 8) (data : List Word) : State :=
  match (s.slot c i).state with
  | .localPending => s.pushRead c i data
  | .landing => s.frameDone c i
  | .free | .ringPending => s

/-- A mover transaction has ended as a local fault (R161, R162, R166). -/
def State.moverBusFault (s : State) (c : ChannelId) (i : Fin 8) : State :=
  match (s.slot c i).state with
  | .localPending | .landing => s.frameFailed c i .localFault
  | .free | .ringPending => s

/-! ### Asking the tracker (R163) -/

/-- The slot for which a channel asks: its oldest that waits for a tracker entry. -/
def Channel.askSlot (ch : Channel) : Option (Fin 8) := ch.oldest Slot.wantsTag

/-- The channel and slot for which the mover asks: when both channels have one, that of the channel not served
last (R163). -/
def State.moverAsk (s : State) : Option (ChannelId × Fin 8) :=
  let first := s.bm.turn.other
  match (s.chan first).askSlot with
  | some i => some (first, i)
  | none => (s.chan s.bm.turn).askSlot.map fun i => (s.bm.turn, i)

/-- The mover's request for a slot (R161, R162). -/
def State.moverRequest (s : State) (c : ChannelId) (i : Fin 8) : AllocRequest :=
  let sl := s.slot c i
  { originator := .mover c i
    kind := if sl.pull then .read else .postedWrite
    dest := sl.node
    addr := sl.remote
    length := sl.count
    first := fullMask
    last := fullMask
    payload := if sl.pull then [] else sl.data }

/-- The mover asks once; none when it has nothing to ask for or is refused. -/
def State.moverGrant (s : State) : Option State :=
  match s.moverAsk with
  | none => none
  | some (c, i) =>
    match s.alloc (s.moverRequest c i) with
    | none => none
    | some (t, s') =>
      some (((s'.modSlot c i fun sl => { sl with tag := some t }).modBm fun m =>
        { m with turn := c }).countBm fun k => k.sent c)

/-- The mover asks until it has nothing to ask for or is refused; the sixteen slots bound the grants. -/
def State.moverAsks (s : State) : Nat → State
  | 0 => s
  | n + 1 => match s.moverGrant with
    | some s' => s'.moverAsks n
    | none => s

/-- The slots of the two channels. -/
def slotCount : Nat := 16

/-- The mover has asked already: a slot waits for a tracker entry, so that the mover has been refused and stands as a
claim (R76, R163), or has an ask of this event to take. -/
def State.moverStands (s : State) : Bool := s.moverAsk.isSome

/-- A mover that did not stand before asks for what it has come to need (R163). One that stood is tried by the rotation
alone, with the slots that have joined its claim (R77, log 6), at the end of the event (log 51). -/
def State.moverAsksUnless (s : State) (stood : Bool) : State := if stood then s else s.moverAsks slotCount

/-! ### Starting (R159) -/

/-- Every slot that is not FREE is set detached (R159, R165). -/
def Channel.detachBusy (ch : Channel) : Channel :=
  { ch with slots := ch.slots.map fun sl => if sl.state = .free then sl else { sl with detached := true } }

/-- START_MOVE is started (R159); the mover then asks for what it needs (R163). -/
def State.startMove (s : State) (c : ChannelId) (i : Fin 64) : State :=
  ((s.modChan c fun ch =>
      { ch.detachBusy.load i (s.descriptor i) with
        halt := none, state := .running }).startFrames c).moverAsksUnless s.moverStands

/-- STOP_MOVE acts on a channel by its state (R165). -/
def State.stopMove (s : State) (c : ChannelId) : State :=
  match (s.chan c).state with
  | .running => s.stopChannel c
  | .halted => (s.modChan c Channel.detachBusy).channelIdle c
  | .stopping | .idle => s

/-! ### Resets (R169) -/

/-- A RUNNING channel halts at a LOCAL reset (R169): the word offset is that of its oldest busy slot, or the next
offset if none is busy. The rules do not say whether detached slots count, nor whether the oldest is taken before or
after the release that R166 makes of the channel: they do not count, and it is taken before (log 13). -/
def State.localHalt (s : State) (c : ChannelId) : State :=
  let ch := s.chan c
  if ch.state = .running then
    let offset := match ch.oldest Slot.busyAttached with
      | some i => (ch.slots.get i).offset
      | none => ch.nextOffset
    s.haltChannel c offset (some .localFault)
  else s

/-- The mover after a NODE reset (R169). DESIGN CHOICE, unsafe (log 24): R157 and R169 give no value for the next
offsets, and the model makes them 0. -/
def Mover.nodeReset (m : Mover) : Mover := { m with chA := Channel.reset, chB := Channel.reset }

/-- The mover after a RING reset (R169); the next offsets are 0 as after a NODE reset (log 24). -/
def Mover.ringReset (m : Mover) : Mover :=
  { m.nodeReset with descriptors := Vector.replicate 64 Descriptor.reset }

end Sys2Proof.Machine
end

