-- ==== Sys2Proof/Machine/Completion.lean ====
section
/-! DEFINITION. Completion of tracker entries, standing claims, retries, and the sending side of the posted-write
order (05_the_request_tracker.md sections 5.4 to 5.7, 06_posted_write_ordering.md sections 6.1 to 6.3). -/

namespace Sys2Proof.Machine

/-! ### Standing claims (R77) -/

/-- The issue slot's request (R150). -/
def State.issueRequest (s : State) : AllocRequest where
  originator := .issueSlot
  kind := .mgmtRequest
  dest := s.ag.issue.dest
  length := s.ag.issue.length
  payload := s.ag.issue.words

/-- The issue slot asks the tracker (R150): on a grant it becomes ISSUED. -/
def State.issueGrant (s : State) : Option State :=
  match s.alloc s.issueRequest with
  | some (_, s') => some (s'.modAg fun a => { a with issue := { a.issue with state := .issued } })
  | none => none

/-- A standing claimant is offered a chance (R77): none when it does not stand or is refused. -/
def State.claimGrant (s : State) : Claimant → Option State
  | .issueSlot => if s.ag.issue.state = .waitingTag then s.issueGrant else none
  | .router => match s.heldCode with
    | some c => s.grantHeld c
    | none => none
  | .mover => s.moverGrant

/-- The claimants in rotation order, starting after the one served last (R77). -/
def claimantsAfter : Claimant → List Claimant
  | .issueSlot => [.router, .mover, .issueSlot]
  | .router => [.mover, .issueSlot, .router]
  | .mover => [.issueSlot, .router, .mover]

/-- One grant of the rotation: the first claimant that passes becomes the one served last (R77). -/
def State.claimStep (s : State) : Option State :=
  (claimantsAfter s.rt.lastClaimant).findSome? fun c =>
    (s.claimGrant c).map fun s' => s'.modRt fun r => { r with lastClaimant := c }

/-- The rotation goes on while a standing claim passes (R77). -/
def State.claimSteps (s : State) : Nat → State
  | 0 => s
  | n + 1 => match s.claimStep with
    | some s' => s'.claimSteps n
    | none => s

/-- The tracker tries the standing claims (R77); every grant takes a FREE entry, so the free list bounds them. When
they are tried is the choice of `State.endOfEvent` (log 51), and so is that they are tried once where one event frees
several entries (log 5). -/
def State.serveClaims (s : State) : State := s.claimSteps s.rt.freeList.length

/-! ### Handing over (R88 step 1, R89) -/

/-- A PENDING slot takes its result (R120): a READ's words are given the lane order of its window (R57). -/
def State.delayedCompleted (s : State) (i : Fin 4) (r : Result) (data : List Word) : State :=
  s.modLt fun l =>
    { l with slots := modAt l.slots i fun sl =>
        { sl with
          state := .ready
          result := r
          data := if r = .ok ∧ sl.key.dir = .read then
              data.map (laneWord (s.wt.owt.get sl.window).laneOrder) else []
          discardTimer := .running (s.ag.params.discardTime.toNat * 64) } }

/-- The issue slot takes its result (R151). -/
def State.issueCompleted (s : State) (r : Result) (data : List Word) : State :=
  (s.modAg fun a =>
    { a with issue := { a.issue with
        state := .replied, result := some r, reply := if r = .ok then data else [] } }).fire codeReplyReady

/-- A code's EVENT entry completes (R174, steps 1 and 2). -/
def State.eventCompleted (s : State) (c : EventCode) (dest : NodeId) (r : Result) : State :=
  let s1 := s.modRing c fun k => { k with tag := none }
  if r = .ok then s1
  else s1.recordFault
    { kind := .eventLost, node := some dest, index := some (BitVec.ofNat 6 c.val), detail := some (.result r) }

/-- The tracker hands the originator of an entry its result (R88 step 1, R89); a channel and the event router then
ask for what they need next (R163, R174 step 3), but a mover that stands as a claim waits for the rotation (R77, log
6). -/
def State.handOver (s : State) (t : Tag) (r : Result) (data : List Word) : State :=
  let e := s.entry t
  match e.originator with
  | .localPosted | .abandoned => s
  | .delayed i => s.delayedCompleted i r data
  | .mover c i =>
    let s1 := s.moverCompleted c i e.kind r data
    if s.moverStands then s1 else s1.raiseAsk e.originator
  | .event c => (s.eventCompleted c e.dest r).raiseAsk e.originator
  | .issueSlot => s.issueCompleted r data

/-- An entry completes (R88, steps 1 to 4). -/
def State.completeEntry (r : Result) (data : List Word) (s : State) (t : Tag) : State :=
  (s.handOver t r data).freeEntry t

/-! ### Asking again (R163, R174 step 3; log 6) -/

/-- What an originator whose entry has completed asks the tracker for: the router asks for the code, if it is held,
and the mover for what its channels need. -/
def State.askAgain (s : State) : Originator → State
  | .event c => if s.isHeld c then (s.grantHeld c).getD s else s
  | .mover _ _ => s.moverAsks slotCount
  | .localPosted | .delayed _ | .issueSlot | .abandoned => s

/-- The asks raised and not yet taken are taken, in the order in which the entries completed. -/
def State.takeAsks (s : State) : State := s.asks.foldl State.askAgain { s with asks := [] }

/-! ### The sending side (R95 to R99) -/

/-- A destination's state is settled after completions (R97). -/
def State.settleStalled (s : State) (d : NodeId) : State :=
  let stalled := match s.oldestPosted d with
    | some t => (s.entry t).state == .backoff
    | none => false
  s.modSend d fun e => { e with stalled := stalled }

/-- An entry goes to READY, its timers stopped. -/
def TrackerEntry.toReady (e : TrackerEntry) : TrackerEntry :=
  { e with state := .ready, responseTimer := .stopped, backoffTimer := .stopped }

/-- The ORDER_WAIT entries to a destination among `tags` are released up to the first posted write to it (R98). -/
def State.releaseUpTo (d : NodeId) : List Tag → State → State
  | [], s => s
  | t :: ts, s =>
    if s.isPostedTo d t then s
    else if (s.entry t).dest = d ∧ (s.entry t).state = .orderWait then
      State.releaseUpTo d ts (s.modEntry t TrackerEntry.toReady)
    else State.releaseUpTo d ts s

/-- The ORDER_WAIT entries to a destination that no posted write of lower rank holds are released (R98). -/
def State.releaseOrderWait (s : State) (d : NodeId) : State := State.releaseUpTo d s.rt.allocOrder s

/-- The oldest `n` unaccepted posted writes to a destination complete with OK (R99, R101). -/
def State.acceptOldest (s : State) (d : NodeId) (n : Nat) : State :=
  (((s.postedRun d).take n).foldl (State.completeEntry .ok []) s).modSend d fun e =>
    { e with count := e.count - n, oldest := e.oldest + BitVec.ofNat 6 n }

/-- The place, from 1, of a posted write in its destination's unaccepted run. -/
def State.placeInRun (s : State) (d : NodeId) (t : Tag) : Nat := (s.postedRun d).idxOf t + 1

/-- Cumulative acceptance of a posted write and every earlier one to its destination (R99). -/
def State.cumulativeAccept (s : State) (t : Tag) : State :=
  let d := (s.entry t).dest
  ((s.acceptOldest d (s.placeInRun d t)).settleStalled d).releaseOrderWait d

/-- The POSTED_LOST record of an entry (R103). -/
def State.postedLost (s : State) (r : Result) (t : Tag) : FaultRecord where
  kind := .postedLost
  node := some (s.entry t).dest
  tag := some t
  address := some (s.entry t).addr
  detail := some (.result r)

/-- Fault records arrive one after another. -/
def State.recordFaults (s : State) (rs : List FaultRecord) : State := rs.foldl State.recordFault s

/-- A window refusal of a posted write (R100): the older writes complete with OK, the refused one with REFUSED and
its code, and POSTED_LOST is recorded for it. -/
def State.refusePosted (s : State) (t : Tag) (code : FinalCode) : State :=
  let d := (s.entry t).dest
  let lost := s.postedLost (.refused code) t
  let s1 := s.acceptOldest d (s.placeInRun d t - 1)
  let s2 := (s1.completeEntry (.refused code) [] t).recordFault lost
  let s3 := s2.modSend d fun e => { e with count := e.count - 1, oldest := e.oldest + 1 }
  (s3.settleStalled d).releaseOrderWait d

/-- A destination's entry after its unaccepted writes have failed (R103). -/
def SendEntry.failed (e : SendEntry) : SendEntry where
  next := e.next
  oldest := e.next
  count := 0
  syncNeeded := true
  stalled := false

/-- The failure of a posted write fails every unaccepted posted write to its destination (R103). -/
def State.failRun (s : State) (d : NodeId) (r : Result) : State :=
  let lost := (s.postedRun d).map (s.postedLost r)
  let s1 := (s.postedRun d).foldl (State.completeEntry r []) s
  ((s1.recordFaults lost).modSend d SendEntry.failed).releaseOrderWait d

/-- An entry ends with a result that is not OK and not a final refusal: a posted write fails its destination's
stream (R103). -/
def State.failEntry (s : State) (t : Tag) (r : Result) : State :=
  if (s.entry t).kind = .postedWrite then s.failRun (s.entry t).dest r else s.completeEntry r [] t

/-! ### Go-back (R101, R102) -/

/-- A SENT or BACKOFF entry returns to READY (R101, R102). -/
def TrackerEntry.goBack (e : TrackerEntry) : TrackerEntry :=
  if e.state = .sent ∨ e.state = .backoff then e.toReady else e

/-- The unaccepted writes to a destination that are SENT or BACKOFF return to READY. -/
def State.returnRun (s : State) (d : NodeId) : State :=
  (s.postedRun d).foldl (fun s t => s.modEntry t TrackerEntry.goBack) s

/-- Go-back for UNSYNCED (R102): the oldest write goes out with the sync flag, a frame of it that is presented
already too (R96; log 10). -/
def State.unsyncedGoBack (s : State) (d : NodeId) : State :=
  match s.oldestPosted d with
  | some t => ((s.modEntry t fun e => { e with sync := true }).returnRun d).refreshOffer t
  | none => s

/-- Go-back for an expected sequence `e` (R101). -/
def State.goBack (s : State) (d : NodeId) (e : Seq) : State :=
  let k := (e - (s.sendOf d).oldest).toNat
  if k = 0 then s.returnRun d
  else if k ≤ (s.sendOf d).count then
    ((((s.acceptOldest d k).settleStalled d).releaseOrderWait d)).returnRun d
  else s.unsyncedGoBack d

/-! ### Retries (R81, R82, R85) -/

/-- A SENT entry with a retry spent goes to BACKOFF (R82); the oldest posted write stalls its destination (R97). -/
def State.toBackoff (s : State) (t : Tag) : State :=
  let s1 := s.modEntry t fun e =>
    { e with
      state := .backoff
      responseTimer := .stopped
      backoffTimer := .running (s.ag.params.backoffUnit.toNat * (e.retry + 1))
      retry := e.retry + 1 }
  let d := (s.entry t).dest
  if (s.entry t).kind = .postedWrite ∧ s.oldestPosted d = some t then
    s1.modSend d fun e => { e with stalled := true }
  else s1

/-- A retry is left (R82). -/
def State.retryLeft (s : State) (t : Tag) : Bool := (s.entry t).retry < s.ag.params.retryLimit.toNat

/-- READ and POSTED_WRITE are sent again after a timeout (R81). -/
def ReqKind.resent : ReqKind → Bool
  | .read | .postedWrite => true
  | .write | .event | .mgmtRequest => false

/-- The response timer of a SENT entry expires (R81). -/
def State.responseExpired (s : State) (t : Tag) : State :=
  let s1 := s.countRt fun c => { c with timeouts := bump c.timeouts }
  if (s.entry t).kind.resent && s.retryLeft t then s1.toBackoff t else s1.failEntry t .timeout

/-- A matching REFUSE RETRY_BUSY (R85). -/
def State.retryBusy (s : State) (t : Tag) : State :=
  if s.retryLeft t then
    if (s.entry t).state = .sent then s.toBackoff t
    else s.modEntry t fun e => { e with retry := e.retry + 1 }
  else (s.countRt fun c => { c with exhausted := bump c.exhausted }).failEntry t .retryExhausted

/-! ### Answers (R83, R84, R86) -/

/-- A final refusal code from its code word (R10). -/
def finalCodeOf (code : BitVec 4) : Option FinalCode :=
  if code = 3 then some .noWindow else if code = 4 then some .denied
  else if code = 5 then some .localFault else none

/-- A response can answer an entry of a kind (R9). -/
def answers (kind : ReqKind) (length : Nat) (f : Frame) : Bool :=
  match f.body, kind with
  | .readData _, .read => f.length.toNat == length
  | .accept _, .write | .accept _, .postedWrite | .accept _, .event => true
  | .mgmtReply _, .mgmtRequest => true
  | .refuse _ why, .read | .refuse _ why, .write => why.code == retryBusyCode || (finalCodeOf why.code).isSome
  | .refuse _ why, .postedWrite =>
    why.code == retryBusyCode || why.code == retryOrderCode || why.code == 3 || why.code == 4
  | .refuse _ why, .event | .refuse _ why, .mgmtRequest => why.code == retryBusyCode
  | _, _ => false

/-- A response matches the entry its tag names (R83). -/
def State.responseMatches (s : State) (ref : Ref) (f : Frame) : Bool :=
  let e := s.entry ref.tag
  e.state != .free && e.gen == ref.gen && e.dest == f.source && e.sentOnce && answers e.kind e.length f

/-- A stale response or report is counted, and changes nothing else (R83, R86). -/
def State.stale (s : State) : State := s.countRt fun c => { c with staleResponse := bump c.staleResponse }

/-- A matching refusal acts on its entry (R84). -/
def State.refused (s : State) (t : Tag) (why : RefuseFields) : State :=
  let e := s.entry t
  if why.code = retryBusyCode then s.retryBusy t
  else if why.code = retryOrderCode then
    if why.unsynced then s.unsyncedGoBack e.dest else s.goBack e.dest why.seq
  else match finalCodeOf why.code with
    | some code => if e.kind = .postedWrite then s.refusePosted t code else s.completeEntry (.refused code) [] t
    | none => s

/-- A matching response acts on its entry (R84). -/
def State.answered (s : State) (t : Tag) (f : Frame) : State :=
  match f.body with
  | .accept _ =>
    if (s.entry t).kind = .postedWrite then s.cumulativeAccept t else s.completeEntry .ok [] t
  | .refuse _ why => s.refused t why
  | _ => s.completeEntry .ok f.payload t

/-- A response for this node is taken by the tracker (R83). -/
def State.takeResponse (s : State) (ref : Ref) (f : Frame) : State :=
  if s.responseMatches ref f then s.answered ref.tag f else s.stale

/-- The request kind and the tag and generation of a request frame. -/
def Body.request : Body → Option (ReqKind × Ref)
  | .read r _ => some (.read, r)
  | .write r _ => some (.write, r)
  | .postedWrite r _ _ _ => some (.postedWrite, r)
  | .event r _ _ => some (.event, r)
  | .mgmtRequest r => some (.mgmtRequest, r)
  | _ => none

/-- A returned-frame report matches the entry its tag names (R86). -/
def State.returnMatches (s : State) (kind : ReqKind) (ref : Ref) (dest : NodeId) : Bool :=
  let e := s.entry ref.tag
  e.state != .free && e.gen == ref.gen && e.dest == dest && e.kind == kind && e.sentOnce

/-- The port reports a returned request (R86). -/
def State.takeReturned (s : State) (kind : ReqKind) (ref : Ref) (dest : NodeId) : State :=
  if s.returnMatches kind ref dest then
    (s.countRt fun c => { c with noTarget := bump c.noTarget }).failEntry ref.tag .noTarget
  else s.stale

/-! ### Aborts (R90, R91, R104) -/

/-- Every non-FREE entry completes with a result, in allocation order, and the offer falls empty. The posted
writes among them are recorded as lost, and their destinations become sync-needed (R90, R91, R103; log 6). -/
def State.abort (s : State) (r : Result) : State :=
  let tags := s.rt.allocOrder
  let posted := tags.filter fun t => (s.entry t).kind == .postedWrite
  let lost := posted.map (s.postedLost r)
  let dests := posted.map fun t => (s.entry t).dest
  let s1 := (tags.foldl (State.completeEntry r []) s).recordFaults lost
  (dests.foldl (fun s d => s.modSend d SendEntry.failed) s1).modPort fun p => { p with offer := none }

/-- Every Send Sequence entry is marked sync-needed and every Receive Sequence entry becomes UNSYNCED (R104). -/
def SequenceTables.desync (o : SequenceTables) : SequenceTables where
  send := o.send.map fun e => { e with syncNeeded := true }
  recv := Vector.replicate 32 RecvEntry.reset
  counters := o.counters

/-- The streams are broken by renumbering: the tracker's entries complete with RENUMBERED, then both tables are
desynchronised (R91, R104). -/
def State.renumberAbort (s : State) : State :=
  (s.abort .renumbered).modOrd SequenceTables.desync

/-- The sequence tables after a NODE or RING reset (R111). -/
def SequenceTables.reset' (o : SequenceTables) : SequenceTables :=
  { SequenceTables.reset with counters := o.counters }

end Sys2Proof.Machine
end

