-- ==== Sys2Proof/Machine/Flags.lean ====
section
/-! DEFINITION. The words in which the part shows its state: status, codes, records and counters (12_formats.md). -/

namespace Sys2Proof.Machine

/-- A field of `width` bits at bit `low` of a word, other bits zero. So the bits that no field occupies in a page word
(R180) or in a reply's data word (R179) read zero: the rules do not say what they hold (log 50). -/
def fieldAt (low : Nat) {width : Nat} (v : BitVec width) : Word := v.setWidth 32 <<< low

/-- One bit at bit `low` of a word. -/
def bitAt (low : Nat) (b : Bool) : Word := fieldAt low (bit b)

/-! ### Status (R180 word 4, R179) -/

/-- The role's code (R180). -/
def Role.code : Role → BitVec 2
  | .unnumbered => 0
  | .provisional => 1
  | .numbered => 2

/-- The link state's code (R180). -/
def Link.code : Link → BitVec 2
  | .down => 0
  | .locking => 1
  | .up => 2

/-- Page word 4, the ring status (R180). The rules do not say what its bits 31–21 and 15–11 hold: they read zero
(log 50). -/
def State.statusWord (s : State) : Word :=
  fieldAt 0 s.en.ownId ||| fieldAt 5 s.en.role.code ||| bitAt 7 (s.en.idMode == .strapped) |||
    bitAt 8 s.en.manager ||| fieldAt 9 s.port.link.code ||| fieldAt 16 s.en.censusCount

/-- Page word 0: vendor code and part code (R180). -/
def vendorWord : Word := Config.vendorCode ++ Config.partCode

/-- The five words of IDENTIFY's reply (R179). -/
def State.identity (s : State) : List Word :=
  [vendorWord, Config.revision, s.serial, s.statusWord ||| fieldAt 24 s.ag.lockOwner, s.en.census]

/-! ### Detail codes (R179) -/

/-- The code of a completion result (R179). -/
def Result.code : Result → BitVec 8
  | .ok => 0
  | .noTarget => 1
  | .timeout => 2
  | .retryExhausted => 3
  | .refused .noWindow => 4
  | .refused .denied => 5
  | .refused .localFault => 6
  | .linkDown => 7
  | .renumbered => 8

/-- The code of a detail (R179). -/
def Detail.code : Detail → BitVec 8
  | .result r => r.code
  | .localFault => 9

/-- The code of a cause of the last local fault (R179). -/
def LocalCause.code : LocalCause → BitVec 8
  | .noWindow => 16
  | .pastEnd => 17
  | .notAllowed => 18
  | .notNumbered => 19
  | .result r => r.code

/-! ### Fault records (R148, R179) -/

/-- The kind code, 1 to 13 in the order of R148 (R179). -/
def FaultKind.code : FaultKind → BitVec 4
  | .malformedFrame => 1
  | .linkDown => 2
  | .strapFault => 3
  | .duplicateId => 4
  | .enumOverflow => 5
  | .enumFailed => 6
  | .managerConflict => 7
  | .ringReset => 8
  | .postedLost => 9
  | .postedDiscarded => 10
  | .eventLost => 11
  | .leaseLost => 12
  | .moveHalt => 13

/-- The presence flags of a record's optional fields, node first (R179). -/
def FaultRecord.presence (r : FaultRecord) : BitVec 5 :=
  bit r.node.isSome ++ bit r.tag.isSome ++ bit r.index.isSome ++ bit r.address.isSome ++ bit r.detail.isSome

/-- F1 (R179). The rule does not say what the bits of an absent field hold: they are 0 (log 46). -/
def FaultRecord.word1 (r : FaultRecord) : Word :=
  fieldAt 28 r.kind.code ||| fieldAt 23 r.presence ||| fieldAt 18 (r.node.getD 0) |||
    fieldAt 13 (BitVec.ofFin (w := 5) (r.tag.getD 0)) ||| fieldAt 7 (r.index.getD 0)

/-- F2: address bits 31–0 (R179), 0 when the address is absent (log 46). -/
def FaultRecord.word2 (r : FaultRecord) : Word := (r.address.getD 0).extractLsb' 0 32

/-- The detail's code, 0 when it is absent (log 46; in word 9 of READ_CHANNEL log 47). -/
def detailCode (d : Option Detail) : BitVec 8 :=
  match d with
  | some d => d.code
  | none => 0

/-- F3: address bits 39–32 and the detail (R179), each 0 when it is absent (log 46). -/
def FaultRecord.word3 (r : FaultRecord) : Word :=
  fieldAt 24 ((r.address.getD 0).extractLsb' 32 8) ||| fieldAt 0 (detailCode r.detail)

/-- The three words of a record. -/
def FaultRecord.words (r : FaultRecord) : List Word := [r.word1, r.word2, r.word3]

/-- The overflow count as its field (R179, R180). -/
def State.overflowField (s : State) : BitVec 8 := BitVec.ofNat 8 s.ag.overflow

/-- Fault head word 0 for a record just removed (R115, R180). -/
def State.faultHeadWord (s : State) (r : FaultRecord) : Word :=
  fieldAt 28 r.kind.code ||| fieldAt 23 r.presence ||| fieldAt 16 (BitVec.ofNat 5 s.ag.faults.length) |||
    fieldAt 0 s.overflowField

/-- The header of READ_FAULTS after `n` records were removed (R149, R179). -/
def State.readFaultsHeader (s : State) (n : Nat) : Word :=
  fieldAt 24 (BitVec.ofNat 3 n) ||| fieldAt 16 (BitVec.ofNat 5 s.ag.faults.length) ||| fieldAt 0 s.overflowField

/-! ### The other page words (R180) -/

/-- Page word 6 for an inbox record (R180). -/
def InboxRecord.word (r : InboxRecord) : Word :=
  fieldAt 16 r.source ||| fieldAt 8 r.number ||| fieldAt 0 (BitVec.ofNat 8 r.count)

/-- Page word 6 for an empty inbox (R180). -/
def inboxEmptyWord : Word := bitAt 31 true

/-- The issue slot's state code (R180, page word 33). R180 lists the states and gives no numbers: they are numbered 0 to 3
in the order listed (DEDUCED, unsafe; log 53). -/
def IssueState.code : IssueState → BitVec 2
  | .empty => 0
  | .waitingTag => 1
  | .issued => 2
  | .replied => 3

/-- Page word 33 (R180). The rule gives no result code while there is no result: the field is then 0 (log 45). -/
def IssueSlot.stateWord (i : IssueSlot) : Word :=
  fieldAt 0 i.state.code ||| fieldAt 8 (match i.result with
    | some r => r.code
    | none => 0)

/-! ### Windows (R68, R179) -/

/-- The state code of a window entry (R179). -/
def WindowState.code : WindowState → BitVec 2
  | .empty => 0
  | .active => 1
  | .retiring => 2

/-- The table's code (R179). -/
def WindowTable.code : WindowTable → BitVec 2
  | .outbound => 0
  | .inbound => 1

/-- W1 with the state (R179). -/
def windowWord1 (t : WindowTable) (i : Fin 16) (st : WindowState) : Word :=
  fieldAt 16 st.code ||| fieldAt 8 t.code ||| fieldAt 0 (BitVec.ofNat 5 i.val)

/-- The reply words of READ_WINDOW for an outbound entry (R179). -/
def OwtEntry.words (e : OwtEntry) (i : Fin 16) : List Word :=
  [ windowWord1 .outbound i e.state,
    e.localBase,
    fieldAt 24 e.dest ||| fieldAt 16 (BitVec.ofNat 5 e.sizeExp) ||| fieldAt 0 (e.ringBase.extractLsb' 32 8),
    e.ringBase.extractLsb' 0 32,
    fieldAt 0 (laneOrderCode e.laneOrder) ||| bitAt 4 e.readAllowed ||| bitAt 5 e.writeAllowed |||
      bitAt 8 (!e.posted),
    0,
    BitVec.ofNat 32 e.inFlight,
    e.hits ]

/-- The reply words of READ_WINDOW for an inbound entry (R179). -/
def IwtEntry.words (e : IwtEntry) (i : Fin 16) : List Word :=
  [ windowWord1 .inbound i e.state,
    e.localBase,
    fieldAt 16 (BitVec.ofNat 5 e.sizeExp) ||| fieldAt 0 (e.ringBase.extractLsb' 32 8),
    e.ringBase.extractLsb' 0 32,
    fieldAt 0 (laneOrderCode e.laneOrder) ||| bitAt 4 e.readAllowed ||| bitAt 5 e.writeAllowed |||
      bitAt 6 e.postedAllowed,
    e.sources,
    BitVec.ofNat 32 e.inFlight,
    e.hits ]

/-- The reply words of READ_WINDOW (R68). -/
def State.windowWords (s : State) : WindowTable → Fin 16 → List Word
  | .outbound, i => (s.wt.owt.get i).words i
  | .inbound, i => (s.wt.iwt.get i).words i

/-! ### Routes, descriptors, channels (R179) -/

/-- The route word (R179). -/
def RouteEntry.word (r : RouteEntry) : Word :=
  fieldAt 0 (routeCode r.route) ||| bitAt 2 r.level ||| fieldAt 8 r.number ||| fieldAt 16 r.dest

/-- A descriptor or none as seven bits, 127 for none and for END (R179). -/
def descriptorField : Option (Fin 64) → BitVec 7
  | some i => BitVec.ofNat 7 i.val
  | none => 127

/-- The descriptor words D1 to D6 (R179). -/
def Descriptor.words (d : Descriptor) (i : Fin 64) : List Word :=
  [ fieldAt 0 (BitVec.ofNat 7 i.val) ||| bitAt 8 d.loaded,
    fieldAt 0 (d.remote.extractLsb' 32 8) ||| bitAt 16 d.pull ||| bitAt 17 d.remoteFixed |||
      bitAt 18 d.localFixed ||| bitAt 19 d.notify ||| fieldAt 20 (laneOrderCode d.laneOrder) |||
      fieldAt 24 d.node,
    d.remote.extractLsb' 0 32,
    d.localAddr,
    fieldAt 0 (BitVec.ofNat 21 d.length) ||| fieldAt 24 (BitVec.ofNat 5 d.frameSize),
    fieldAt 0 (descriptorField d.next) ]

/-- The channel state's code (R179, word 1 of READ_CHANNEL). R179 lists the states and gives no numbers: they are
numbered 0 to 3 in the order listed (DEDUCED, unsafe; log 53). -/
def ChannelState.code : ChannelState → BitVec 2
  | .idle => 0
  | .running => 1
  | .stopping => 2
  | .halted => 3

/-- The buffer slot state's code (R179, word 8 of READ_CHANNEL). R179 lists the states and gives no numbers: they are
numbered 0 to 3 in the order listed (DEDUCED, unsafe; log 53). -/
def BufferState.code : BufferState → BitVec 2
  | .free => 0
  | .localPending => 1
  | .ringPending => 2
  | .landing => 3

/-- Word 8 of READ_CHANNEL: three bits a slot (R179). -/
def Channel.slotsWord (ch : Channel) : Word :=
  (List.finRange 8).foldl (fun w i =>
    let sl := ch.slots.get i
    w ||| fieldAt (3 * i.val) (bit sl.detached ++ sl.state.code)) 0

/-- Word 9 of READ_CHANNEL (R179). The rule does not say what the result code's bits 15–8 hold while the result is
absent, as it is for a halt on an EMPTY next descriptor: they are 0 (DESIGN CHOICE, unsafe; log 47). -/
def HaltRecord.word (h : HaltRecord) : Word :=
  fieldAt 0 (BitVec.ofNat 7 h.index.val) ||| fieldAt 8 (detailCode h.result) ||| bitAt 16 h.result.isSome

/-- The ten words of READ_CHANNEL (R168, R179). The rules do not say in which bits of word 4 the remote address bits
39–32 stand: bits 7–0 (log 49). Word 3 shows a next offset of 1,048,576 as it stands (log 52). Nor do they say what
words 9 and 10 hold while the halt record is absent: they are 0 (log 47). -/
def Channel.words (ch : Channel) : List Word :=
  [ fieldAt 0 ch.state.code ||| fieldAt 8 (descriptorField ch.current) ||| bitAt 16 ch.halt.isSome,
    BitVec.ofNat 32 ch.remaining,
    BitVec.ofNat 32 ch.nextOffset,
    fieldAt 0 (ch.remote.extractLsb' 32 8),
    ch.remote.extractLsb' 0 32,
    ch.localAddr,
    BitVec.ofNat 32 ch.completed,
    ch.slotsWord,
    match ch.halt with
      | some h => h.word
      | none => 0,
    match ch.halt with
      | some h => BitVec.ofNat 32 h.offset
      | none => 0 ]

/-! ### Parameters and counters (R144, R145) -/

/-- The six parameters as words, in the order of R144. -/
def Params.words (p : Params) : List Word :=
  [p.responseTimeout, p.retryLimit, p.backoffUnit, p.discardTime, p.localCycleLimit, p.localRetryLimit].map
    (fieldAt 0)

/-- The ten Ring Port counters (R34). -/
def PortCounters.words (c : PortCounters) : List Word :=
  [c.rxFrames, c.txFrames, c.forwarded, c.checkError, c.malformed, c.returned, c.hopLimit, c.forwardOverrun,
    c.looped, c.txDiscarded]
/-- The four enumeration counters (R51). -/
def EnumCounters.words (c : EnumCounters) : List Word :=
  [c.runsStarted, c.passResends, c.foreignEnum, c.resetReqIgnored]
/-- The six tracker counters (R92). -/
def TrackerCounters.words (c : TrackerCounters) : List Word :=
  [c.requestsSent, c.resends, c.timeouts, c.exhausted, c.staleResponse, c.noTarget]
/-- The three ordering counters (R109). -/
def OrderingCounters.words (c : OrderingCounters) : List Word := [c.duplicate, c.orderRefused, c.syncAccepted]
/-- The four local target counters (R123). -/
def LocalCounters.words (c : LocalCounters) : List Word :=
  [c.localFaults, c.notNumbered, c.postedRetry, c.discarded]
/-- The six inbound counters (R134). -/
def InboundCounters.words (c : InboundCounters) : List Word :=
  [c.inboundAdmitted, c.refusedBusy, c.refusedWindow, c.refusedDenied, c.responseOverrun, c.localMasterFaults]
/-- The five agent counters (R146). -/
def AgentCounters.words (c : AgentCounters) : List Word :=
  [c.mgmtTaken, c.mgmtBusy, c.mgmtDropped, c.issueCollision, c.issueRejected]
/-- The four mover counters (R168). -/
def MoverCounters.words (c : MoverCounters) : List Word :=
  [c.wordsMovedA, c.framesSentA, c.wordsMovedB, c.framesSentB]
/-- The six events counters (R176). -/
def EventCounters.words (c : EventCounters) : List Word :=
  [c.ringEvents, c.refireCoalesced, c.inboxNew, c.inboxCoalesced, c.inboxRefused, c.inboxDropped]

/-- A counter group as words; none for a group that does not exist (R145). -/
def State.groupWords (s : State) : Nat → Option (List Word)
  | 0 => some s.port.counters.words
  | 1 => some s.en.counters.words
  | 2 => some s.rt.counters.words
  | 3 => some s.ord.counters.words
  | 4 => some s.lt.counters.words
  | 5 => some s.inb.counters.words
  | 6 => some (s.ag.counters.words ++ [BitVec.ofNat 32 s.ag.overflow])
  | 7 => some s.bm.counters.words
  | 8 => some s.ev.counters.words
  | _ => none

/-- A counter group cleared; none for a group that does not exist (R145, R147). -/
def State.clearGroup (s : State) : Nat → Option State
  | 0 => some (s.countPort fun _ => {})
  | 1 => some (s.countEn fun _ => {})
  | 2 => some (s.countRt fun _ => {})
  | 3 => some (s.countOrd fun _ => {})
  | 4 => some (s.countLt fun _ => {})
  | 5 => some (s.countInb fun _ => {})
  | 6 => some ((s.countAg fun _ => {}).modAg fun a => { a with overflow := 0 })
  | 7 => some (s.countBm fun _ => {})
  | 8 => some (s.countEv fun _ => {})
  | _ => none

end Sys2Proof.Machine
end

