-- ==== Sys2Proof/Machine/Enumeration.lean ====
section
/-! DEFINITION. Enumeration: triggers, the manager's run, the three passes at a node, ring-reset requests
(03_enumeration_and_ring_roles.md). -/

namespace Sys2Proof.Machine

/-- A node becomes NUMBERED, PROVISIONAL or UNNUMBERED with an own id. -/
def State.setId (s : State) (id : NodeId) (role : Role) : State :=
  s.modEn fun e => { e with ownId := id, role := role }

/-- A fault record without optional fields. -/
def bareRecord (k : FaultKind) : FaultRecord := { kind := k }

/-- A fault record that names a frame's source when that is a node (R23, R48). -/
def sourceRecord (k : FaultKind) (source : NodeId) : FaultRecord :=
  { kind := k, node := if isNode source then some source else none }

/-! ### The manager's run (R38, R39) -/

/-- The three passes. -/
inductive Pass where
  | census
  | assign
  | publish
  deriving DecidableEq, Repr

/-- The pass code (R178). -/
def Pass.code : Pass → BitVec 2
  | .census => 1
  | .assign => 2
  | .publish => 3

/-- The enumeration state of a pass. -/
def Pass.state : Pass → EnumState
  | .census => .passCensus
  | .assign => .passAssign
  | .publish => .passPublish

/-- The pass of an enumeration state. -/
def EnumState.pass : EnumState → Option Pass
  | .passCensus => some .census
  | .passAssign => some .assign
  | .passPublish => some .publish
  | .idle | .settling | .done | .failed => none

/-- The pass frame of the run: its flags are clear (R39, R41, R43, R46). -/
def State.passFrame (s : State) (p : Pass) : Frame :=
  Frame.build allNodes s.en.ownId 1
    (.enumPass
      { pass := p.code
        keep := s.en.runKeep
        attempt := s.en.attempt
        duplicate := false
        overflow := false
        count := s.en.runCount
        serial := s.serial
        taken := s.en.runSet }) []

/-- A pass is begun: attempt 1, flags clear, its frame presented (R39, R41, R43). -/
def State.beginPass (s : State) (p : Pass) : State :=
  let s1 := s.modEn fun e =>
    { e with
      attempt := 1
      duplicateFlag := false
      overflowFlag := false
      passTimer := .stopped
      state := p.state }
  s1.presentControl (s1.passFrame p)

/-- The run set at the start of a run: the own id, if one is held (R39, R51). -/
def Enumeration.startSet (e : Enumeration) : Enumeration :=
  { e with
    runSet := if e.ownId = noNode then 0 else IdSet.add 0 e.ownId
    runCount := if e.ownId = noNode then 0 else 1 }

/-- An ASSIGNED node drops its own id (R39, R40, R50). -/
def State.dropAssigned (s : State) : State :=
  if s.en.idMode = .assigned then s.setId noNode .unnumbered else s

/-- The keep = 0 effects: the tracker's entries end, the sequence tables are desynchronised, and an ASSIGNED node
drops its id (R39 step 1, R40 step 1). -/
def State.dropIds (s : State) : State := s.renumberAbort.dropAssigned

/-- A run starts with the keep value that was pending (R39). -/
def State.startRun (s : State) (keep : Bool) : State :=
  let s1 := (s.modEn fun e => { e with runPending := none, runKeep := keep, attempt := 1 }).countEn fun c =>
    { c with runsStarted := bump c.runsStarted }
  let s2 := if keep then s1 else s1.dropIds
  (s2.modEn Enumeration.startSet).beginPass .census

/-- A pending run starts if the node is the manager, its state is SETTLING and it is settled (R38). -/
def State.startIfSettled (s : State) : State :=
  match s.en.runPending with
  | some keep =>
    if s.en.manager ∧ s.en.state = .settling ∧ s.en.settle = .expired then s.startRun keep else s
  | none => s

/-- The merge of a trigger's keep into the pending keep (R38). -/
def mergeKeep (pending : Option Bool) (keep : Bool) : Bool :=
  match pending with
  | some k => k && keep
  | none => keep

/-- The state of a run that waits for its turn: IDLE, DONE and FAILED go to SETTLING (R38). -/
def EnumState.triggered : EnumState → EnumState
  | .idle | .done | .failed => .settling
  | .settling => .settling
  | .passCensus => .passCensus
  | .passAssign => .passAssign
  | .passPublish => .passPublish

/-- A trigger reaches enumeration; only a manager takes one (R38). -/
def State.trigger (s : State) (keep : Bool) : State :=
  if s.en.manager then
    (s.modEn fun e =>
      { e with runPending := some (mergeKeep e.runPending keep), state := e.state.triggered }).startIfSettled
  else s

/-- What follows when a run has ended in DONE or FAILED: a pending run starts at once, after the firings and claims that
the end of the run brought have been taken (R45, R46, log 28). -/
def State.runEnded (s : State) : State :=
  match s.en.runPending with
  | some keep => s.takeFirings.serveClaims.startRun keep
  | none => s

/-! ### Pass returns at the manager (R41, R43, R45, R46) -/

/-- The run takes the set and count of a returned frame. -/
def State.takeRunSet (s : State) (e : EnumFields) : State :=
  s.modEn fun en => { en with passTimer := .stopped, runSet := e.taken, runCount := e.count }

/-- An id is taken into the run set by the manager, which becomes PROVISIONAL (R41, step 3). -/
def State.managerTakesId (s : State) : State :=
  if s.en.idMode = .assigned ∧ s.en.ownId = noNode then
    match IdSet.lowestFree s.en.runSet with
    | some id =>
      (s.setId id .provisional).modEn fun e =>
        { e with runSet := IdSet.add e.runSet id, runCount := e.runCount + 1 }
    | none => s.recordFault (bareRecord .enumOverflow)
  else s

/-- The CENSUS frame comes back (R41). -/
def State.censusReturned (s : State) (e : EnumFields) : State :=
  let s1 := s.takeRunSet e
  let s2 := if e.duplicate then s1.recordFault (bareRecord .duplicateId) else s1
  s2.managerTakesId.beginPass .assign

/-- The ASSIGN frame comes back (R43). -/
def State.assignReturned (s : State) (e : EnumFields) : State :=
  let s1 := s.takeRunSet e
  let s2 := if e.overflow then s1.recordFault (bareRecord .enumOverflow) else s1
  s2.beginPass .publish

/-- The PUBLISH frame comes back (R45). -/
def State.publishReturned (s : State) : State :=
  ((s.modEn fun e =>
      { e with
        passTimer := .stopped
        census := e.runSet
        censusCount := e.runCount
        role := if e.role = .provisional then .numbered else e.role
        state := .done }).fire codeEnumDone).runEnded

/-- The manager takes back a frame with its own serial (R46). -/
def State.takeBack (s : State) (e : EnumFields) : State :=
  match s.en.state.pass with
  | some p =>
    if e.pass = p.code ∧ e.attempt = s.en.attempt then
      match p with
      | .census => s.censusReturned e
      | .assign => s.assignReturned e
      | .publish => s.publishReturned
    else s
  | none => s

/-- The manager removes another manager's ENUM (R48). -/
def State.foreignEnum (s : State) (source : NodeId) : State :=
  (s.countEn fun c => { c with foreignEnum := bump c.foreignEnum }).recordFault
    (sourceRecord .managerConflict source)

/-- The pass timer expires in a PASS state (R46). -/
def State.passExpired (s : State) (p : Pass) : State :=
  let s1 := s.modEn fun e => { e with passTimer := .stopped }
  if s.en.attempt.toNat < 3 then
    let s2 := (s1.modEn fun e => { e with attempt := e.attempt + 1 }).countEn fun c =>
      { c with passResends := bump c.passResends }
    s2.presentControl (s2.passFrame p)
  else
    (((s1.modEn fun e => { e with state := .failed }).recordFault (bareRecord .enumFailed)).fire
      codeEnumFailed).runEnded

/-! ### The passes at a node (R40, R42, R44) -/

/-- The frame's set with an id added, and its count raised (R13). -/
def EnumFields.add (e : EnumFields) (id : NodeId) : EnumFields :=
  { e with taken := IdSet.add e.taken id, count := e.count + 1 }

/-- A STRAPPED node that is UNNUMBERED with its strap hold clear takes its strapped id (R40 step 2). -/
def State.takeStrapped (s : State) : State :=
  if s.en.idMode = .strapped ∧ s.en.role = .unnumbered ∧ s.en.holdWithdrawn = false then
    s.setId s.en.strappedId .provisional
  else s

/-- A node finds its id taken in a CENSUS pass and gives it up (R40 step 3). -/
def State.giveUpId (s : State) (keep : Bool) : State :=
  let id := s.en.ownId
  let s1 := (s.setId noNode .unnumbered).recordFault { kind := .duplicateId, node := some id }
  let s2 := if keep then s1.renumberAbort else s1
  s2.modEn fun e => { e with holdWithdrawn := e.holdWithdrawn || e.idMode == .strapped }

/-- A node processes a CENSUS frame (R40). -/
def State.censusPass (s : State) (e : EnumFields) : State × EnumFields :=
  let s1 := if e.keep then s else s.dropIds
  let s2 := s1.takeStrapped
  if s2.en.ownId = noNode then (s2, e)
  else if IdSet.has e.taken s2.en.ownId then (s2.giveUpId e.keep, { e with duplicate := true })
  else (s2, e.add s2.en.ownId)

/-- A node processes an ASSIGN frame (R42). -/
def State.assignPass (s : State) (e : EnumFields) : State × EnumFields :=
  if s.en.role ≠ .unnumbered then
    if IdSet.has e.taken s.en.ownId then (s, e) else (s, e.add s.en.ownId)
  else match s.en.idMode with
    | .assigned => match IdSet.lowestFree e.taken with
      | some id => (s.setId id .provisional, e.add id)
      | none => (s, { e with overflow := true })
    | .strapped =>
      if s.en.holdWithdrawn || IdSet.has e.taken s.en.strappedId then (s, e)
      else (s.setId s.en.strappedId .provisional, e.add s.en.strappedId)

/-- A node processes a PUBLISH frame (R44). -/
def State.publishPass (s : State) (e : EnumFields) : State × EnumFields :=
  let s1 := s.modEn fun en => { en with census := e.taken, censusCount := e.count }
  match s.en.role with
  | .provisional =>
    if IdSet.has e.taken s.en.ownId then ((s1.setId s.en.ownId .numbered).fire codeEnumDone, e)
    else (s1.setId noNode .unnumbered, e)
  | .numbered | .unnumbered => (s1, e)

/-- A node whose manager flag is clear processes an ENUM by its pass (R40, R42, R44). -/
def State.processEnum (s : State) (e : EnumFields) : State × EnumFields :=
  if e.pass = Pass.census.code then s.censusPass e
  else if e.pass = Pass.assign.code then s.assignPass e
  else s.publishPass e

/-! ### The link (R38, R47) -/

/-- The link enters UP: the manager starts its settle timer and takes a keep = 1 trigger (R20, R38). -/
def State.enumLinkUp (s : State) : State :=
  if s.en.manager then
    (s.modEn fun e => { e with settle := .running Config.settleTime }).trigger true
  else s

/-- An ENUM that waits in the control offer is withdrawn and counted (R31, R47). -/
def State.withdrawEnum (s : State) : State :=
  match s.port.control with
  | some c => if c.isReset then s else (s.modPort fun p => { p with control := none }).countDiscarded 1
  | none => s

/-- The link leaves UP: the settle timer stops, and a run in a PASS state ends (R38, R47). -/
def State.enumLinkDown (s : State) : State :=
  if s.en.manager then
    (s.modEn fun e =>
      let e1 := { e with settle := .stopped }
      if e.state.pass.isSome then { e1 with passTimer := .stopped, runPending := none, state := .idle }
      else e1).withdrawEnum
  else s

/-! ### Ring-reset requests (R49) -/

/-- The manager's RING_RESET frame (R49). -/
def State.resetFrame (s : State) : Frame := Frame.build allNodes s.en.ownId 1 (.ringReset s.serial) []

/-- The manager presents its RING_RESET (R49). -/
def State.presentReset (s : State) : State := s.presentControl s.resetFrame

/-- The manager ends any run and sets reset outstanding (R49). -/
def State.setOutstanding (s : State) : State :=
  s.modEn fun e =>
    { e with passTimer := .stopped, runPending := none, state := .idle, resetOutstanding := true }

/-- A ring-reset request is ignored and counted (R49). -/
def State.ignoreReset (s : State) : State :=
  s.countEn fun c => { c with resetReqIgnored := bump c.resetReqIgnored }

/-- The page's ring-reset request (R49; the outstanding reset is tested first, log 40). -/
def State.pageResetRequest (s : State) : State :=
  if !s.en.manager then s.ignoreReset
  else if s.en.resetOutstanding then s
  else if s.en.ownId = noNode then s.ignoreReset
  else s.setOutstanding.presentReset

/-- What R50 makes of the state of every node. -/
def Enumeration.freshNode (e : Enumeration) : Enumeration :=
  { e with
    holdWithdrawn := false
    ownId := if e.idMode = .strapped then e.strappedId else noNode
    role := if e.idMode = .strapped then .provisional else .unnumbered
    census := 0
    censusCount := 0 }

/-- The run's fields as at the start of a run (R51, log 19). -/
def Enumeration.runFields (e : Enumeration) : Enumeration :=
  ({ e with runKeep := false, attempt := 1, duplicateFlag := false, overflowFlag := false } : Enumeration).startSet

/-- Enumeration after a RING reset, with the link UP or not (R50, R51). -/
def Enumeration.ringReset (e : Enumeration) (up : Bool) : Enumeration :=
  let e1 := e.freshNode.runFields
  let e2 := { e1 with passTimer := .stopped, returnTimer := .stopped, resetOutstanding := false }
  if e.manager then
    { e2 with
      state := .settling
      runPending := some false
      settle := if up then .running Config.settleTime else .stopped }
  else e2

end Sys2Proof.Machine
end

