-- ==== Sys2Proof/Machine/Inbound.lean ====
section
/-! DEFINITION. The receiving side of the posted-write order, admission, and the local master
(06_posted_write_ordering.md section 6.4, 08_inbound_target_and_local_master.md). -/

namespace Sys2Proof.Machine

/-! ### Admission (R127, R128, R129) -/

/-- The inbound queue's size. -/
def inboundQueueSize : Nat := 8

/-- The outcome of admission that a Receive Sequence entry is told (R107). -/
inductive Admission where
  | taken
  | refusedWindow
  | refusedBusy
  | discarded
  deriving DecidableEq, Repr

/-- RESPONSE_OVERRUN rises by 1 (R127, R106, R135). -/
def State.overrun (s : State) : State :=
  s.countInb fun c => { c with responseOverrun := bump c.responseOverrun }

/-- A REFUSE is placed with a code, answering a request (R128). -/
def State.placeRefusal (s : State) (f : Frame) (ref : Ref) (code : BitVec 4) : State :=
  s.insertResponse (plainResponse (Frame.answer f.source f.dest (refuseBody ref code)))

/-- The queue entry made of a request admitted through an inbound window (R126, R129). -/
def State.inboundEntry (s : State) (kind : InboundKind) (f : Frame) (ref : Ref) (p : Span) (w : Fin 16) :
    InboundEntry where
  kind := kind
  source := f.source
  answering := f.dest
  tag := ref.tag
  gen := ref.gen
  address := (s.wt.iwt.get w).translate p.addr
  length := f.length.toNat
  first := p.first
  last := p.last
  data := if kind = .read then [] else f.payload
  window := w

/-- A request is admitted (R129). -/
def State.admitEntry (s : State) (kind : InboundKind) (f : Frame) (ref : Ref) (p : Span) (w : Fin 16) : State :=
  let s1 := ((s.modInb fun i => { i with queue := i.queue ++ [s.inboundEntry kind f ref p w] }).riseIwt w).countInb
    fun c => { c with inboundAdmitted := bump c.inboundAdmitted }
  if kind = .postedWrite then s1.insertResponse (plainResponse (Frame.answer f.source f.dest (.accept ref))) else s1

/-- Admission of a READ, a WRITE or a POSTED_WRITE that the sequence check passed (R127). -/
def State.admission (s : State) (kind : InboundKind) (f : Frame) (ref : Ref) (p : Span) : State × Admission :=
  if !s.responseRoom then (s.overrun, .discarded)
  else match s.inboundMatch kind f.source p.addr f.length.toNat with
    | .noWindow =>
      ((s.countInb fun c => { c with refusedWindow := bump c.refusedWindow }).placeRefusal f ref
        FinalCode.noWindow.code, .refusedWindow)
    | .denied =>
      ((s.countInb fun c => { c with refusedDenied := bump c.refusedDenied }).placeRefusal f ref
        FinalCode.denied.code, .refusedWindow)
    | .admissible w =>
      if s.inb.queue.length < inboundQueueSize then (s.admitEntry kind f ref p w, .taken)
      else
        ((s.countInb fun c => { c with refusedBusy := bump c.refusedBusy }).placeRefusal f ref retryBusyCode,
          .refusedBusy)

/-! ### The receive sequence check (R106, R107) -/

/-- `q` is within the 16 before `e` (R94). -/
def withinBefore (q e : Seq) : Bool := 1 ≤ (e - q).toNat && (e - q).toNat ≤ 16

/-- What the sequence check decides (R106). -/
inductive SeqVerdict where
  | duplicate
  | admitSync
  | admitInOrder
  | refuse (expected : Option Seq)
  deriving DecidableEq, Repr

/-- The six cases of R106, in their order. -/
def RecvEntry.check (r : RecvEntry) (ref : Ref) (q : Seq) (sync : Bool) : SeqVerdict :=
  if sync then
    if r.synced && r.mark == some ⟨ref.tag, ref.gen, q⟩ && withinBefore q r.expected then .duplicate
    else .admitSync
  else if !r.synced then .refuse none
  else if q = r.expected then .admitInOrder
  else if withinBefore q r.expected then .duplicate
  else .refuse (some r.expected)

/-- The Receive Sequence entry after a write of sequence `q` was taken in order (R107, case 4). -/
def RecvEntry.advance (r : RecvEntry) (q : Seq) : RecvEntry := { r with expected := q + 1 }

/-- The Receive Sequence entry after a sync-flagged write was taken (R107, case 2). -/
def RecvEntry.resync (ref : Ref) (q : Seq) : RecvEntry where
  synced := true
  expected := q + 1
  mark := some ⟨ref.tag, ref.gen, q⟩

/-- The Receive Sequence entry of a source. -/
def State.recvOf (s : State) (source : NodeId) : RecvEntry := s.ord.recv.get source.toFin

/-- The Receive Sequence entry of a source changed by `f`. -/
def State.modRecv (s : State) (source : NodeId) (f : RecvEntry → RecvEntry) : State :=
  s.modOrd fun o => { o with recv := modAt o.recv source.toFin f }

/-- The Receive Sequence entry takes the outcome of admission in order (R107, case 4). -/
def State.takenInOrder (s : State) (source : NodeId) (q : Seq) : Admission → State
  | .taken | .refusedWindow => s.modRecv source (·.advance q)
  | .refusedBusy | .discarded => s

/-- The Receive Sequence entry takes the outcome of admission under the sync flag (R107, case 2). -/
def State.takenSync (s : State) (source : NodeId) (ref : Ref) (q : Seq) : Admission → State
  | .taken | .refusedWindow =>
    (s.modRecv source fun _ => RecvEntry.resync ref q).countOrd fun c =>
      { c with syncAccepted := bump c.syncAccepted }
  | .refusedBusy | .discarded => s

/-- An answer of the sequence check itself is placed and counted, or the write is discarded (R106). -/
def State.seqAnswer (s : State) (f : Frame) (body : Body) (count : OrderingCounters → OrderingCounters) : State :=
  match s.placeResponse (plainResponse (Frame.answer f.source f.dest body)) with
  | some s' => s'.countOrd count
  | none => s.overrun

/-- A POSTED_WRITE for this node is taken (R106, R107). -/
def State.takePosted (s : State) (f : Frame) (ref : Ref) (p : Span) (q : Seq) (sync : Bool) : State :=
  match (s.recvOf f.source).check ref q sync with
  | .duplicate => s.seqAnswer f (.accept ref) fun c => { c with duplicate := bump c.duplicate }
  | .refuse e =>
    s.seqAnswer f (refuseOrderBody ref e) fun c => { c with orderRefused := bump c.orderRefused }
  | .admitInOrder =>
    let r := s.admission .postedWrite f ref p
    r.1.takenInOrder f.source q r.2
  | .admitSync =>
    let r := s.admission .postedWrite f ref p
    r.1.takenSync f.source ref q r.2

/-! ### The local master (R130, R131) -/

/-- The local master is IDLE (R130). -/
def Inbound.idle (i : Inbound) : Bool := i.current.isNone && i.held.isNone

/-- The time of the cycle timer (R131). -/
def State.cycleTime (s : State) : Nat := s.ag.params.localCycleLimit.toNat

/-- A first attempt of a transaction (R131). -/
def State.newTransaction (s : State) (owner : TransactionOwner) (dir : Direction) (address : Word) (count : Nat)
    (first last : Mask) (data : List Word) : Transaction where
  owner := owner
  dir := dir
  address := address
  count := count
  first := first
  last := last
  data := data
  reattempts := 0
  cycleTimer := .running s.cycleTime
  delayTimer := .stopped

/-- The transaction of the head entry of the inbound queue (R132). -/
def State.inboundTransaction (s : State) (e : InboundEntry) : Transaction :=
  let o := (s.wt.iwt.get e.window).laneOrder
  s.newTransaction .inbound (if e.kind = .read then .read else .write) e.address e.length (laneMask o e.first)
    (laneMask o e.last) (e.data.map (laneWord o))

/-- The transaction of a mover slot (R161, R162). -/
def State.moverTransaction (s : State) (c : ChannelId) (i : Fin 8) : Transaction :=
  let sl := s.slot c i
  if sl.state = .landing then
    s.newTransaction (.mover c i) .write sl.localAddr sl.count fullMask fullMask sl.data
  else s.newTransaction (.mover c i) .read sl.localAddr sl.count fullMask fullMask []

/-- The transaction that a claimant presents, if it is present (R130, R163). -/
def State.claimantOp (s : State) : BusClaimant → Option Transaction
  | .inbound => s.inb.queue.head?.map s.inboundTransaction
  | .channel c => ((s.chan c).oldest Slot.wantsBus).map (s.moverTransaction c)

/-- The claimants in rotation order, starting after the one served last (R130). -/
def busClaimantsAfter : BusClaimant → List BusClaimant
  | .inbound => [.channel .a, .channel .b, .inbound]
  | .channel .a => [.channel .b, .inbound, .channel .a]
  | .channel .b => [.inbound, .channel .a, .channel .b]

/-- The claimant that an IDLE local master takes next, with its transaction (R130); none while LOCAL_RESET_IN is
asserted (R135). -/
def State.busChoice (s : State) : Option (BusClaimant × Transaction) :=
  if s.inb.idle && !s.localResetIn then
    (busClaimantsAfter s.inb.lastServed).findSome? fun c => (s.claimantOp c).map fun tx => (c, tx)
  else none

/-- An IDLE local master takes the next present claimant (R130). -/
def State.takeBus (s : State) : State :=
  match s.busChoice with
  | some (c, tx) => s.modInb fun i => { i with current := some tx, lastServed := c }
  | none => s

/-! ### The end of a transaction (R131, R132) -/

/-- The POSTED_DISCARDED record of an entry (R132, R136). -/
def InboundEntry.discarded (e : InboundEntry) (detail : Option Detail) : FaultRecord where
  kind := .postedDiscarded
  node := some e.source
  tag := some e.tag
  index := some (BitVec.ofNat 6 e.window.val)
  address := some (e.address.setWidth 40)
  detail := detail

/-- The REFUSE LOCAL_FAULT that answers an entry (R132, R135). -/
def InboundEntry.faultAnswer (e : InboundEntry) : Frame :=
  Frame.answer e.source e.answering (refuseBody ⟨e.tag, e.gen⟩ FinalCode.localFault.code)

/-- The READ_DATA that answers a READ (R8, R57, R132). -/
def InboundEntry.readAnswer (e : InboundEntry) (o : LaneOrder) (words : List Word) : Frame :=
  Frame.build e.source e.answering e.length (.readData ⟨e.tag, e.gen⟩)
    (maskedWords e.length e.first e.last (words.map (laneWord o)))

/-- The ACCEPT that answers a WRITE (R132). -/
def InboundEntry.acceptAnswer (e : InboundEntry) : Frame :=
  Frame.answer e.source e.answering (.accept ⟨e.tag, e.gen⟩)

/-- The answer of an entry whose transaction succeeded with `words` (R132). -/
def InboundEntry.success (e : InboundEntry) (o : LaneOrder) (words : List Word) : Option Frame :=
  match e.kind with
  | .read => some (e.readAnswer o words)
  | .write => some e.acceptAnswer
  | .postedWrite => none

/-- The answer of an entry whose transaction ended as a local fault (R132). -/
def InboundEntry.failure (e : InboundEntry) : Option Frame :=
  match e.kind with
  | .read | .write => some e.faultAnswer
  | .postedWrite => none

/-- The local master places an answer, or holds it (R132, R133). -/
def State.answerOrHold (s : State) (answer : Option Frame) : State :=
  match answer with
  | none => s
  | some f => match s.placeResponse (plainResponse f) with
    | some s' => s'
    | none => s.modInb fun i => { i with held := some ⟨f, s.now⟩ }

/-- The head entry leaves the inbound queue, and its window's count falls (R132). -/
def State.leaveQueue (s : State) (e : InboundEntry) : State :=
  (s.modInb fun i => { i with queue := i.queue.tail }).fallIwt e.window

/-- The current transaction is no longer in progress. -/
def State.dropTransaction (s : State) : State := s.modInb fun i => { i with current := none }

/-- The transaction of the head entry has succeeded (R132). -/
def State.inboundDone (s : State) (words : List Word) : State :=
  match s.inb.queue.head? with
  | none => s
  | some e => (s.leaveQueue e).answerOrHold (e.success (s.wt.iwt.get e.window).laneOrder words)

/-- A posted write's loss is recorded; other kinds record nothing (R132). -/
def State.recordDiscarded (s : State) (e : InboundEntry) (detail : Option Detail) : State :=
  if e.kind = .postedWrite then s.recordFault (e.discarded detail) else s

/-- The transaction of the head entry has ended as a local fault (R132). -/
def State.inboundFault (s : State) : State :=
  match s.inb.queue.head? with
  | none => s
  | some e => ((s.leaveQueue e).recordDiscarded e (some .localFault)).answerOrHold e.failure

/-- The current transaction succeeds (R131). -/
def State.transactionDone (s : State) (tx : Transaction) (data : Table Word 16) : State :=
  let words := if tx.dir = .read then data.toList.take tx.count else []
  match tx.owner with
  | .inbound => s.dropTransaction.inboundDone words
  | .mover c i => (s.dropTransaction.moverBusDone c i words).moverAsksUnless s.moverStands

/-- LOCAL_MASTER_FAULTS rises by 1 (R131). -/
def State.countBusFault (s : State) : State :=
  s.countInb fun c => { c with localMasterFaults := bump c.localMasterFaults }

/-- The current transaction ends as a local fault (R131). -/
def State.transactionFault (s : State) (tx : Transaction) : State :=
  match tx.owner with
  | .inbound => s.countBusFault.dropTransaction.inboundFault
  | .mover c i => (s.countBusFault.dropTransaction.moverBusFault c i).moverAsksUnless s.moverStands

/-- A transaction whose attempt ended with RETRY, waiting for the next (R131). -/
def Transaction.retried (tx : Transaction) : Transaction :=
  { tx with cycleTimer := .stopped, delayTimer := .running Config.reattemptDelay }

/-- A transaction whose next attempt is presented (R131). -/
def Transaction.again (tx : Transaction) (cycleTime : Nat) : Transaction :=
  { tx with reattempts := tx.reattempts + 1, cycleTimer := .running cycleTime, delayTimer := .stopped }

/-- The card answers an attempt RETRY (R131). -/
def State.attemptRetried (s : State) (tx : Transaction) : State :=
  if tx.reattempts < s.ag.params.localRetryLimit.toNat then
    s.modInb fun i => { i with current := some tx.retried }
  else s.transactionFault tx

/-- A new attempt of the transaction is presented (R131). -/
def State.reattempt (s : State) (tx : Transaction) : State :=
  s.modInb fun i => { i with current := some (tx.again s.cycleTime) }

/-- The transaction with an attempt in progress, if there is one: its cycle timer runs. -/
def State.attempt (s : State) : Option Transaction :=
  match s.inb.current with
  | some tx => if tx.cycleTimer = .stopped then none else some tx
  | none => none

/-- The transaction that waits for its next attempt, if there is one. -/
def State.waitingAttempt (s : State) : Option Transaction :=
  match s.inb.current with
  | some tx => if tx.delayTimer = .stopped then none else some tx
  | none => none

/-! ### Resets (R135, R136) -/

/-- A REFUSE LOCAL_FAULT of a LOCAL reset is placed if there is room, and otherwise discarded (R135). -/
def State.answerOrOverrun (s : State) (answer : Option Frame) : State :=
  match answer with
  | none => s
  | some f => match s.placeResponse (plainResponse f) with
    | some s' => s'
    | none => s.overrun

/-- An entry is ended by a LOCAL reset: answered or recorded, then out of the queue (R135). -/
def State.endEntry (s : State) (e : InboundEntry) : State :=
  ((s.answerOrOverrun e.failure).recordDiscarded e (some .localFault)).leaveQueue e

/-- The current transaction is ended by a LOCAL reset (R135, step 1). -/
def State.withdrawTransaction (s : State) : State :=
  match s.inb.current with
  | none => s
  | some tx =>
    let s1 := s.countBusFault.dropTransaction
    match tx.owner with
    | .inbound => match s.inb.queue.head? with
      | some e => s1.endEntry e
      | none => s1
    | .mover c i => s1.moverBusFault c i

/-- The inbound side takes a LOCAL reset (R135). -/
def State.inboundLocalReset (s : State) : State :=
  let s1 := s.withdrawTransaction
  s1.inb.queue.foldl State.endEntry s1

/-- The inbound side takes a NODE or RING reset (R136); the window counts are reset with their tables (R70). -/
def State.inboundDiscard (s : State) : State :=
  let posted := s.inb.queue.filter fun e => e.kind == .postedWrite
  (s.modInb fun i => { i with queue := [], current := none, held := none }).recordFaults
    (posted.map fun e => e.discarded none)

end Sys2Proof.Machine
end

