-- ==== Sys2Proof/Machine/LocalTarget.lean ====
section
/-! DEFINITION. Outbound accesses: role, match, posted path and delayed request buffer, and the issue trigger
(07_local_bus_target_and_local_page.md, R150). -/

namespace Sys2Proof.Machine

/-- A local transaction is ended (R112). -/
def State.terminate (s : State) (t : Termination) : State := s.modLt fun l => { l with termination := some t }

/-- An outbound access ends FAULT: it is counted, and the last local fault item takes its cause (R116). -/
def State.localFault (s : State) (cause : LocalCause) (addr : Word) : State :=
  ((s.countLt fun c => { c with localFaults := bump c.localFaults }).modLt fun l =>
    { l with lastFault := some (cause, addr) }).terminate .fault

/-! ### The tracker requests of the local target (R57, R117, R119) -/

/-- The request that an access through an outbound entry makes of the tracker: address translated, masks and data
in ring order. -/
def OwtEntry.request (e : OwtEntry) (w : Fin 16) (a : Access) (originator : Originator) (kind : ReqKind) :
    AllocRequest where
  originator := originator
  kind := kind
  dest := e.dest
  addr := e.translate a.start
  length := a.count
  first := laneMask e.laneOrder a.first
  last := laneMask e.laneOrder a.last
  payload := if kind = .read then [] else a.words.map (laneWord e.laneOrder)
  window := some w

/-- The request kind of a delayed access (R118). -/
def delayedKind : Direction → ReqKind
  | .read => .read
  | .write => .write

/-! ### The posted path (R117) -/

/-- A write through a POSTED window (R117). -/
def State.postedPath (s : State) (w : Fin 16) (a : Access) : State :=
  match s.alloc ((s.wt.owt.get w).request w a .localPosted .postedWrite) with
  | some (_, s') => s'.terminate (.done [])
  | none => (s.countLt fun c => { c with postedRetry := bump c.postedRetry }).terminate .retry

/-! ### The delayed request buffer (R118, R119) -/

/-- The slot that is not FREE and holds a key (R119). -/
def LocalTarget.findKey (l : LocalTarget) (k : DelayedKey) : Option (Fin 4) :=
  (List.finRange 4).find? fun i => (l.slots.get i).state != .free && (l.slots.get i).key == k

/-- The lowest-numbered FREE slot (R119). -/
def LocalTarget.freeSlot (l : LocalTarget) : Option (Fin 4) :=
  (List.finRange 4).find? fun i => (l.slots.get i).state == .free

/-- A slot made FREE, its discard timer stopped (R119, R121). The rules do not say what its key, result and data then
hold: they stay as they were, and no search finds them (log 44). -/
def DelayedSlot.freed (sl : DelayedSlot) : DelayedSlot :=
  { sl with state := .free, discardTimer := .stopped }

/-- A slot of the delayed buffer changed by `f`. -/
def State.modDelayed (s : State) (i : Fin 4) (f : DelayedSlot → DelayedSlot) : State :=
  s.modLt fun l => { l with slots := modAt l.slots i f }

/-- A READY slot is collected (R119). -/
def State.collect (s : State) (i : Fin 4) (addr : Word) : State :=
  let sl := s.lt.slots.get i
  let s1 := s.modDelayed i DelayedSlot.freed
  if sl.result = .ok then s1.terminate (.done sl.data) else s1.localFault (.result sl.result) addr

/-- A slot becomes PENDING (R119). R118 sets its result and data at completion and does not say what they hold before:
the model has OK and no data, and nothing reads them (DESIGN CHOICE, safe; log 44). -/
def DelayedSlot.take (k : DelayedKey) (w : Fin 16) (t : Tag) : DelayedSlot where
  state := .pending
  key := k
  window := w
  tag := t
  result := .ok
  data := []
  discardTimer := .stopped

/-- An access that no slot holds takes a FREE slot if the tracker allocates (R119); it ends RETRY. -/
def State.delayedNew (s : State) (w : Fin 16) (dir : Direction) (a : Access) : State :=
  match s.lt.freeSlot with
  | none => s.terminate .retry
  | some i =>
    match s.alloc ((s.wt.owt.get w).request w a (.delayed i) (delayedKind dir)) with
    | none => s.terminate .retry
    | some (t, s') => (s'.modDelayed i fun _ => DelayedSlot.take (delayedKey dir a) w t).terminate .retry

/-- A delayed access (R119). -/
def State.delayedPath (s : State) (w : Fin 16) (dir : Direction) (a : Access) : State :=
  match s.lt.findKey (delayedKey dir a) with
  | some i => if (s.lt.slots.get i).state = .ready then s.collect i a.start else s.terminate .retry
  | none => s.delayedNew w dir a

/-! ### Outbound accesses (R116) -/

/-- An access that got HIT goes on by direction and write mode (R59). -/
def State.hitPath (s : State) (w : Fin 16) (dir : Direction) (a : Access) : State :=
  let s1 := s.hitOwt w
  if dir = .write ∧ (s.wt.owt.get w).posted = true then s1.postedPath w a else s1.delayedPath w dir a

/-- An outbound access is taken (R116). -/
def State.outbound (s : State) (dir : Direction) (a : Access) : State :=
  if s.numbered then
    match s.outboundMatch dir a.start a.count with
    | .noWindow => s.localFault .noWindow a.start
    | .pastEnd => s.localFault .pastEnd a.start
    | .notAllowed => s.localFault .notAllowed a.start
    | .hit w => s.hitPath w dir a
  else
    (s.countLt fun c => { c with notNumbered := bump c.notNumbered }).localFault .notNumbered a.start

/-- The discard timer of a READY slot expires (R121). -/
def State.discardExpired (s : State) (i : Fin 4) : State :=
  (s.modDelayed i DelayedSlot.freed).countLt fun c => { c with discarded := bump c.discarded }

/-! ### The issue trigger (R150) -/

/-- The destination field of the request area (R180 word 16). -/
def LocalTarget.issueDest (l : LocalTarget) : NodeId := (l.requestArea.get 0).extractLsb' 0 5

/-- The length field of the request area (R180 word 16). -/
def LocalTarget.issueLength (l : LocalTarget) : Nat := ((l.requestArea.get 0).extractLsb' 8 5).toNat

/-- The request area is valid (R150). -/
def LocalTarget.issueValid (l : LocalTarget) : Bool :=
  isNode l.issueDest && 1 ≤ l.issueLength && l.issueLength ≤ 15

/-- The issue slot with the request area copied, WAITING_TAG until the tracker allocates (R150). -/
def LocalTarget.copyRequest (l : LocalTarget) : IssueSlot where
  state := .waitingTag
  dest := l.issueDest
  length := l.issueLength
  words := (l.requestArea.toList.drop 1).take l.issueLength
  result := none
  reply := []

/-- The trigger is taken with a valid request area (R150). -/
def State.issueTaken (s : State) : State :=
  let s1 := s.modAg fun a => { a with issue := s.lt.copyRequest }
  s1.issueGrant.getD s1

/-- The issue trigger (R150). -/
def State.issueTrigger (s : State) : State :=
  match s.ag.issue.state with
  | .waitingTag | .issued => s.countAg fun c => { c with issueCollision := bump c.issueCollision }
  | .empty | .replied =>
    if s.lt.issueValid then s.issueTaken
    else s.countAg fun c => { c with issueRejected := bump c.issueRejected }

end Sys2Proof.Machine
end

