-- ==== Sys2Proof/Machine/Resets.lean ====
section
/-! DEFINITION. The four resets, block by block (the reset tables R35, R51, R70, R93, R111, R125, R136, R154, R169,
R176). -/

namespace Sys2Proof.Machine

/-! ### The blocks' own parts -/

/-- The Local Target after a NODE reset (R125). -/
def LocalTarget.nodeReset (l : LocalTarget) : LocalTarget :=
  { l with slots := Vector.replicate 4 DelayedSlot.reset }

/-- The Local Target after a RING reset (R125). -/
def LocalTarget.ringReset (l : LocalTarget) : LocalTarget :=
  { l.nodeReset with lastFault := none, latch := none, requestArea := Vector.replicate 16 0 }

/-- The Local Target after a LOCAL reset (R124). -/
def LocalTarget.localReset (l : LocalTarget) : LocalTarget :=
  { l.nodeReset with lastFault := none, latch := none }

/-- The issue slot after a NODE reset (R125). -/
def IssueSlot.nodeReset (i : IssueSlot) : IssueSlot :=
  match i.state with
  | .waitingTag | .issued => IssueSlot.reset
  | .empty | .replied => i

/-- The agent after a NODE reset (R154). -/
def Agent.nodeReset (a : Agent) : Agent :=
  { a with
    state := .idle
    heldReply := none
    deferred := none
    resetPending := false
    issue := a.issue.nodeReset }

/-- The agent after a RING reset (R154). -/
def Agent.ringReset (a : Agent) : Agent :=
  { Agent.reset with faults := a.faults, overflow := a.overflow, counters := a.counters }

/-- The Ring Port's frames discarded by a RING reset (R35). -/
def RingPort.waiting (p : RingPort) : Nat :=
  p.forwardQ.length + p.responseQ.length + (if p.control.isSome then 1 else 0)

/-- The Ring Port after a RING reset, less the count of what it discards (R35, log 9). -/
def RingPort.ringReset (p : RingPort) : RingPort :=
  { p with
    forwardQ := []
    responseQ := []
    offer := none
    control := none
    forwardRun := 0
    responseRun := 0 }

/-! ### NODE reset (R152) -/

/-- The node performs its NODE reset (R152): every block takes it, nothing is left to ask for, the firings that arise
are taken after the Events block has taken it, and then NODE_RESET_DONE fires (R170). -/
def State.performNodeReset (s : State) : State :=
  let s1 := s.inboundDiscard
  let s2 := ((s1.modRt Tracker.freeAll).modPort fun p => { p with offer := none }).modWt WindowTables.drainAll
  let s3 := (((s2.modOrd SequenceTables.reset').modLt LocalTarget.nodeReset).modAg Agent.nodeReset).modBm
    Mover.nodeReset
  let s4 : State := { s3.modEv Events.clearRing with asks := [] }
  (s4.takeFirings.fire codeNodeResetDone).takeFirings

/-! ### RING reset (R25, R49, R50) -/

/-- Every block takes the RING reset (R50, R136, R154): the agent records RING_RESET and the inbound side records what
it discards. The firings that arise wait until the Events block has taken it (R170). A reply that left earlier in the
event, as the link left UP (`State.leaveUp`), is reported to nobody: a NODE reset that it would have brought is part of
the RING reset (log 26). DESIGN CHOICE, unsafe (log 55): where it is the reply of this manager's own RING_RESET command,
R49 and R25 give no order of the presenting that it would have brought and the RING reset; the model performs the reset
first, so that no own RING_RESET is presented, nor counted in TX_DISCARDED. The held reply and the held response are
discarded unplaced, and the asks of originators whose entries completed earlier in the event are dropped (log 55). -/
def State.blocksRingReset (s : State) : State :=
  let s1 := ((s.recordFault (bareRecord .ringReset)).modAg Agent.ringReset).inboundDiscard
  let s2 := ((s1.modRt Tracker.freeAll).modWt fun _ => WindowTables.reset).modOrd SequenceTables.reset'
  let s3 := ((s2.modLt LocalTarget.ringReset).modBm Mover.ringReset).modEv Events.ringReset
  let s4 := (s3.countDiscarded s.port.waiting).modPort RingPort.ringReset
  { s4.modEn (·.ringReset (s.port.link == .up)) with left := [], asks := [] }

/-- The node performs its RING reset (R50); when it ends the attention inputs are compared (R173, log 17). -/
def State.performRingReset (s : State) : State := s.blocksRingReset.compareInputs

/-! ### LOCAL reset (R124, R135, R169, R176) -/

/-- The mover takes a LOCAL reset: each RUNNING channel halts (R169), channel A first (log 7). -/
def State.moverLocalReset (s : State) : State := (s.localHalt .a).localHalt .b

/-- The part takes a LOCAL reset (R124): the mover halts, the inbound side ends its work (R135), and the local
target, the issue slot and the Events block lose their card-side state. -/
def State.performLocalReset (s : State) : State :=
  let s1 := s.moverLocalReset.inboundLocalReset
  let s2 := (s1.modRt Tracker.abandonLocal).modLt LocalTarget.localReset
  (s2.modAg fun a => { a with issue := IssueSlot.reset }).modEv Events.localReset

/-! ### POWER-ON reset (R36) -/

end Sys2Proof.Machine

namespace Sys2Proof

/-- The six strap pins hold an odd number of ones (R36). -/
def Straps.parityCorrect (st : Straps) : Bool :=
  ((List.range 5).countP (fun n => st.id.getLsbD n) + (if st.par then 1 else 0)) % 2 == 1

/-- The straps give a valid id: 1 to 30 with correct parity (R36). -/
def Straps.strapped (st : Straps) : Bool := st.parityCorrect && Machine.isNode st.id

/-- The straps give a STRAP_FAULT: value 31, or wrong parity (R36). -/
def Straps.fault (st : Straps) : Bool := st.id == allNodes || !st.parityCorrect

end Sys2Proof

namespace Sys2Proof.Machine

/-- Enumeration after a POWER-ON reset with the sampled straps (R36, R51). -/
def Enumeration.powerOn (st : Straps) : Enumeration :=
  { Enumeration.reset with
    manager := st.mgr
    idMode := if st.strapped then .strapped else .assigned
    strappedId := if st.strapped then st.id else noNode
    ownId := if st.strapped then st.id else noNode
    role := if st.strapped then .provisional else .unnumbered
    state := if st.mgr then .settling else .idle
    runPending := if st.mgr then some false else none }.startSet

/-- The part performs its POWER-ON reset: the serial, the pins' levels, the number of the event and the queue of
commands are not its state (log 23). When the reset ends the attention inputs are compared (R173, log 17). -/
def State.performPowerOn (s : State) (st : Straps) : State :=
  let s1 : State :=
    { State.reset with
      serial := s.serial
      localResetIn := s.localResetIn
      en := Enumeration.powerOn st
      ev := { Events.reset with attnInput := s.ev.attnInput }
      now := s.now
      pending := s.pending }
  (if st.fault then s1.recordFault (bareRecord .strapFault) else s1).compareInputs

end Sys2Proof.Machine
end

