-- ==== Sys2Proof/Machine/Settle.lean ====
section
/-! DEFINITION. The end of an event: responses that leave, asks, firings, standing claims, and what the port, the
waiting placers and the local master do at once (R29, R30, R77, R78, R130, R133, R138, R152, R163, R170, R174; log 5). -/

namespace Sys2Proof.Machine

/-! ### Reports that a response left (R30, R49, R152) -/

/-- The outstanding RING_RESET of the command is presented once the reply has left (R49). A manager whose own id has
been dropped since has no RING_RESET that it can send (R2): nothing is presented, and the request lapses (log 42). -/
def State.presentOutstanding (s : State) : State :=
  if s.en.ownId = noNode then s.modEn fun e => { e with resetOutstanding := false } else s.presentReset

/-- The report that a response left the queue reaches the agent: a pending NODE reset is performed (R152), and an
outstanding RING_RESET is presented (R49). -/
def State.leftReport (s : State) : Purpose → State
  | .plain => s
  | .nodeReset => if s.ag.resetPending then s.performNodeReset else s
  | .ringReset => if s.en.resetOutstanding then s.presentOutstanding else s

/-- The reports raised so far are taken, in their order. -/
def State.drainLeft (s : State) : State := s.left.foldl State.leftReport { s with left := [] }

/-! ### The loop path from the response queue (R29, R30) -/

/-- The head of the response insertion queue leaves it. -/
def State.popResponse (s : State) : State := s.modPort fun p => { p with responseQ := p.responseQ.tail }

/-- The tag and generation of a NODE_RESET's reply that is classified as it is looped, before the NODE reset that waits
for it: R125 lets the two reach the issue slot in either order, and the free value says which comes first (log 41). A
frame that the classifier would discard as malformed is none (R23). -/
def State.replyBeforeReset (s : State) (r : Response) : Option Ref :=
  match r.purpose with
  | .nodeReset => match r.frame.body with
    | .mgmtReply ref =>
      if s.ag.resetPending && !r.frame.malformed && Config.loopedReplyFirst s.now then some ref else none
    | _ => none
  | .plain | .ringReset => none

/-- A frame is counted in LOOPED (R29). -/
def State.countLooped (s : State) : State := s.countPort fun c => { c with looped := bump c.looped }

/-- The looped reply of a NODE_RESET reaches the tracker, and then the node performs its NODE reset (R125, R152). -/
def State.resetAfterReply (s : State) (ref : Ref) (f : Frame) : State := (s.takeResponse ref f).performNodeReset

/-- A self-addressed head of the response insertion queue is taken onto the loop path, and its placer is told (R29, R30);
or, the reply of a NODE_RESET, it is classified at once, and the reset follows (R125, log 41). -/
def State.loopResponse (s : State) (r : Response) : State :=
  match s.replyBeforeReset r with
  | some ref => s.popResponse.countLooped.resetAfterReply ref r.frame
  | none => ((s.popResponse.modPort fun p => { p with loopQ := p.loopQ ++ [r.frame] }).countLooped).reportLeft r.purpose

/-! ### Waiting placers (R30, R133, R138) -/

/-- The held response is placed, and the local master returns to IDLE (R133). -/
def State.placeHeldResponse (s : State) (h : HeldResponse) : State :=
  (s.modInb fun i => { i with held := none }).insertResponse (plainResponse h.frame)

/-- The held reply is placed (R138). -/
def State.placeHeldReply (s : State) (h : HeldReply) : State := s.agentPlace h.frame h.purpose

/-- Whether the held reply goes before the held response: it began waiting first, or they began in the same event
and the free value says so (R30, log 8). -/
def State.replyFirst (s : State) (r : HeldResponse) (p : HeldReply) : Bool :=
  p.since < r.since || (p.since == r.since && Config.agentFirst s.now)

/-- A waiting placer takes a free place (R30). None: nobody waits, or there is no room. -/
def State.waiterStep (s : State) : Option State :=
  if s.responseRoom then
    match s.inb.held, s.ag.heldReply with
    | none, none => none
    | some r, none => some (s.placeHeldResponse r)
    | none, some p => some (s.placeHeldReply p)
    | some r, some p => some (if s.replyFirst r p then s.placeHeldReply p else s.placeHeldResponse r)
  else none

/-! ### Settling -/

/-- A self-addressed head of the response insertion queue is looped (R29). None: there is no such head. -/
def State.loopStep (s : State) : Option State :=
  match s.port.responseQ with
  | r :: _ => if r.frame.dest = s.en.ownId then some (s.loopResponse r) else none
  | [] => none

/-- One thing that the responses do at once: a self-addressed one is looped, or a waiting placer takes a free place; a
response that left by it is reported. -/
def State.responseStep (s : State) : Option State := (s.loopStep.or s.waiterStep).map State.drainLeft

/-- The responses move on while there is something to do. -/
def State.responseSteps (s : State) : Nat → State
  | 0 => s
  | n + 1 => match s.responseStep with
    | some s' => s'.responseSteps n
    | none => s

/-- One thing that happens at once: a self-addressed response is looped, a waiting placer takes a free place, or the
offer moves; a response that left by it is reported. -/
def State.settleStep (s : State) : Option State :=
  ((s.loopStep.or s.waiterStep).or s.offerStep).map State.drainLeft

/-- Settling goes on while there is something to do. -/
def State.settleSteps (s : State) : Nat → State
  | 0 => s
  | n + 1 => match s.settleStep with
    | some s' => s'.settleSteps n
    | none => s

/-- More steps than settling can take: every queued response is looped at most once, the two waiting ones are placed
and looped, and each of the 32 entries is presented and taken at most once, after at most one withdrawal; a NODE reset
on the way may fill the tracker once more, and the reply that comes before it may drain a window, whose answer is placed
and looped. -/
def State.settleBound (s : State) : Nat := s.port.responseQ.length + 160

/-- The port and the waiting placers settle. -/
def State.settle (s : State) : State := s.settleSteps s.settleBound

/-- The responses that left are reported, and those that can move do so: a NODE reset that one of them brings is
performed (R152) before any ask or firing of the event is taken (R170). -/
def State.settleResponses (s : State) : State := s.drainLeft.responseSteps s.drainLeft.settleBound

/-- The end of an event (log 5): the responses settle, the originators of completed entries ask again (R163, R174 step
3), the firings are taken (R170), the standing claims are tried (R77), the port settles, and an IDLE local master takes
a claimant (R130). DESIGN CHOICE, unsafe (log 51): R77 names a freeing and the role becoming NUMBERED as the moments at
which the standing claims are tried, and R163 has the mover ask whenever a slot waits; the model tries them at the end
of every event, so that a mover refused by test 4 of R74 is tried again once the slot that it presents has changed. -/
def State.endOfEvent (s : State) : State :=
  s.settleResponses.takeAsks.takeFirings.serveClaims.settle.takeBus

end Sys2Proof.Machine
end

