-- ==== Sys2Proof/Machine/Agent.lean ====
section
/-! DEFINITION. The management agent: taking a request, its tests, and every command (09_management_agent.md). -/

namespace Sys2Proof.Machine

/-! ### Taking a request (R137, R139) -/

/-- A request that finds the agent EXECUTING or DEFERRED is refused, or dropped for want of room (R137). -/
def State.agentBusy (s : State) (req : MgmtRequest) : State :=
  match s.placeResponse (plainResponse
      (Frame.answer req.source req.dest (refuseBody ⟨req.tag, req.gen⟩ retryBusyCode))) with
  | some s' => s'.countAg fun c => { c with mgmtBusy := bump c.mgmtBusy }
  | none => s.countAg fun c => { c with mgmtDropped := bump c.mgmtDropped }

/-- The lease timer restarts at lease time × 10 ms (R139, R142). -/
def Agent.restartLease (a : Agent) : Agent := { a with leaseTimer := .running a.leaseDuration }

/-- The agent answers a request (R137, R138): an OK to the lock's owner, if the lock still has that owner, restarts
the lease timer (R139). -/
def State.answerFor (s : State) (code : BitVec 8) (req : MgmtRequest) (r : MgmtResult) (data : List Word)
    (purpose : Purpose) : State :=
  let s1 := if r = .ok ∧ s.ag.lockOwner = req.source then s.modAg Agent.restartLease else s
  s1.agentPlace (replyFrame req.source req.dest req.tag req.gen code r data) purpose

/-- The agent answers OK with reply data. -/
def State.answerOk (s : State) (code : BitVec 8) (req : MgmtRequest) (data : List Word) : State :=
  s.answerFor code req .ok data .plain

/-- The agent answers a failed test: no reply data (R139). -/
def State.answerFail (s : State) (code : BitVec 8) (req : MgmtRequest) (r : MgmtResult) : State :=
  s.answerFor code req r [] .plain

/-- The agent answers NOT_OWNER with the owner word (R8, R139, R179). -/
def State.answerNotOwner (s : State) (code : BitVec 8) (req : MgmtRequest) : State :=
  s.answerFor code req .notOwner [fieldAt 0 s.ag.lockOwner] .plain

/-- What a command of R140 needs. -/
structure CommandForm where
  /-- the command code (R179) -/
  code : BitVec 8
  /-- the number of operand words (R179) -/
  operands : Nat
  /-- whether it needs the lock (R140) -/
  lock : Bool := false
  /-- whether it needs the manager flag (R139, test 4) -/
  manager : Bool := false
  deriving DecidableEq, Repr

/-- A request is taken from IDLE: MGMT_TAKEN rises by 1 (R137). -/
def State.taken (s : State) : State := s.countAg fun c => { c with mgmtTaken := bump c.mgmtTaken }

/-- A command is taken in the agent's state and put to tests 2, 3 and 4 of R139; `run` is its own tests and its
effect. -/
def State.command (s : State) (form : CommandForm) (req : MgmtRequest) (run : State → State) : State :=
  if s.ag.state ≠ .idle then s.agentBusy req
  else if req.operands.length ≠ form.operands then s.taken.answerFail form.code req .badValue
  else if form.lock ∧ s.ag.lockOwner ≠ req.source then s.taken.answerNotOwner form.code req
  else if form.manager ∧ s.en.manager = false then s.taken.answerFail form.code req .notManager
  else run s.taken

/-- An operand word; 1 is the first. -/
def operand (req : MgmtRequest) (n : Nat) : Word := req.operands.getD (n - 1) 0

/-! ### Identity and lock (R140, R141) -/

/-- IDENTIFY. -/
def formIdentify : CommandForm := { code := 1, operands := 0 }
/-- CLAIM: its lock test is its own (R141). -/
def formClaim : CommandForm := { code := 2, operands := 2 }
/-- RELEASE. -/
def formRelease : CommandForm := { code := 3, operands := 0, lock := true }
/-- RENEW. -/
def formRenew : CommandForm := { code := 4, operands := 0, lock := true }

/-- IDENTIFY (R140). -/
def State.identify (req : MgmtRequest) (s : State) : State := s.answerOk formIdentify.code req s.identity

/-- The lease time field (R179). -/
def leaseTimeOf (w : Word) : BitVec 8 := w.extractLsb' 0 8

/-- The lease action that a word names (R179). -/
def leaseActionOf (w : Word) : Option LeaseAction :=
  if w = 0 then some .none else if w = 1 then some .retireAll else none

/-- The lock is granted (R141). -/
def Agent.grant (a : Agent) (owner : NodeId) (time : BitVec 8) (action : LeaseAction) : Agent :=
  { a with lockOwner := owner, leaseTime := time, leaseAction := action }.restartLease

/-- CLAIM (R141). -/
def State.claim (req : MgmtRequest) (s : State) : State :=
  if s.ag.lockOwner ≠ noNode ∧ s.ag.lockOwner ≠ req.source then s.answerNotOwner formClaim.code req
  else match leaseActionOf (operand req 2) with
    | none => s.answerFail formClaim.code req .badValue
    | some action =>
      if leaseTimeOf (operand req 1) = 0 then s.answerFail formClaim.code req .badValue
      else (s.modAg fun a => a.grant req.source (leaseTimeOf (operand req 1)) action).answerOk formClaim.code req []

/-- RELEASE (R141). -/
def State.release (req : MgmtRequest) (s : State) : State :=
  (s.modAg fun a => { a with lockOwner := noNode, leaseTimer := .stopped }).answerOk formRelease.code req []

/-- RENEW (R141). -/
def State.renew (req : MgmtRequest) (s : State) : State :=
  (s.modAg Agent.restartLease).answerOk formRenew.code req []

/-! ### Windows (R63, R64, R68) -/

/-- SET_WINDOW. -/
def formSetWindow : CommandForm := { code := 5, operands := 6, lock := true }
/-- RETIRE_WINDOW. -/
def formRetireWindow : CommandForm := { code := retireWindowCode, operands := 1, lock := true }
/-- READ_WINDOW. -/
def formReadWindow : CommandForm := { code := 7, operands := 1 }

/-- The outbound entry that SET_WINDOW's operands give (R179). -/
def owtOperand (req : MgmtRequest) : OwtEntry :=
  owtOfWords (operand req 2) (operand req 3) (operand req 4) (operand req 5)

/-- The inbound entry that SET_WINDOW's operands give (R179). -/
def iwtOperand (req : MgmtRequest) : IwtEntry :=
  iwtOfWords (operand req 2) (operand req 3) (operand req 4) (operand req 5) (operand req 6)

/-- SET_WINDOW on an outbound entry: its value and overlap tests, and its effect (R63). -/
def State.setOwt (s : State) (i : Fin 16) (e : OwtEntry) : Except MgmtResult State :=
  if !e.valid then .error .badValue
  else if s.wt.owtOverlaps e.localBase.toNat e.sizeExp then .error .overlap
  else .ok (s.modWt fun w => { w with owt := modAt w.owt i fun _ => e })

/-- SET_WINDOW on an inbound entry: its value and overlap tests, and its effect (R63). -/
def State.setIwt (s : State) (i : Fin 16) (e : IwtEntry) : Except MgmtResult State :=
  if !e.valid then .error .badValue
  else if s.wt.iwtOverlaps e.ringBase.toNat e.sizeExp then .error .overlap
  else .ok (s.modWt fun w => { w with iwt := modAt w.iwt i fun _ => e })

/-- SET_WINDOW's own tests, in the order of R63, and its effect. -/
def State.setWindowTo (s : State) (req : MgmtRequest) : Except MgmtResult State :=
  match windowName (operand req 1) with
  | none => .error .badIndex
  | some (t, i) =>
    if (s.wt.stateOf t i).1 ≠ .empty then .error .inUse
    else match t with
      | .outbound => s.setOwt i (owtOperand req)
      | .inbound => s.setIwt i (iwtOperand req)

/-- A command whose own tests and effect are given is answered. -/
def State.answerTested (s : State) (code : BitVec 8) (req : MgmtRequest) (out : Except MgmtResult State) : State :=
  match out with
  | .ok s' => s'.answerOk code req []
  | .error r => s.answerFail code req r

/-- SET_WINDOW (R63). -/
def State.setWindow (req : MgmtRequest) (s : State) : State :=
  s.answerTested formSetWindow.code req (s.setWindowTo req)

/-- The agent becomes DEFERRED on an entry (R64, R138, R142): the lease timer is held, and the hold timer starts. -/
def Agent.defer (a : Agent) (t : WindowTable) (i : Fin 16) (req : MgmtRequest) : Agent :=
  { a with
    state := .deferred
    deferred := some ⟨t, i, req.source, req.tag, req.gen, req.dest⟩
    leaseTimer := match a.leaseTimer with
      | .running d => .held d
      | x => x
    holdTimer := .running a.leaseDuration }

/-- RETIRE_WINDOW on a named entry (R64). -/
def State.retireEntry (s : State) (t : WindowTable) (i : Fin 16) (req : MgmtRequest) : State :=
  match s.wt.stateOf t i with
  | (.retiring, _) => s.answerFail formRetireWindow.code req .wrongState
  | (.empty, _) => s.answerOk formRetireWindow.code req []
  | (.active, n) =>
    let s1 := s.modWt fun w => w.retire t i
    if n = 0 then s1.answerOk formRetireWindow.code req [] else s1.modAg fun a => a.defer t i req

/-- RETIRE_WINDOW (R64). -/
def State.retireWindow (req : MgmtRequest) (s : State) : State :=
  match windowName (operand req 1) with
  | none => s.answerFail formRetireWindow.code req .badIndex
  | some (t, i) => s.retireEntry t i req

/-- READ_WINDOW (R68). -/
def State.readWindow (req : MgmtRequest) (s : State) : State :=
  match windowName (operand req 1) with
  | none => s.answerFail formReadWindow.code req .badIndex
  | some (t, i) => s.answerOk formReadWindow.code req (s.windowWords t i)

/-! ### Routes (R171) -/

/-- SET_ROUTE. -/
def formSetRoute : CommandForm := { code := 8, operands := 2, lock := true }
/-- READ_ROUTE. -/
def formReadRoute : CommandForm := { code := 9, operands := 1 }

/-- SET_ROUTE's own tests and its effect (R171). -/
def State.setRouteTo (s : State) (req : MgmtRequest) : Except MgmtResult State :=
  match eventName (operand req 1) with
  | none => .error .badIndex
  | some c =>
    let r := routeOfWord c (operand req 2)
    if !r.valid then .error .badValue else .ok (s.modEv fun e => e.setRoute c r)

/-- SET_ROUTE (R171). -/
def State.setRoute (req : MgmtRequest) (s : State) : State :=
  s.answerTested formSetRoute.code req (s.setRouteTo req)

/-- READ_ROUTE (R171). -/
def State.readRoute (req : MgmtRequest) (s : State) : State :=
  match eventName (operand req 1) with
  | none => s.answerFail formReadRoute.code req .badIndex
  | some c => s.answerOk formReadRoute.code req [(s.routeEntry c).word]

/-! ### Descriptors and channels (R156, R159, R165, R168) -/

/-- SET_DESCRIPTOR. -/
def formSetDescriptor : CommandForm := { code := 10, operands := 6, lock := true }
/-- READ_DESCRIPTOR. -/
def formReadDescriptor : CommandForm := { code := 11, operands := 1 }
/-- START_MOVE. -/
def formStartMove : CommandForm := { code := 12, operands := 2, lock := true }
/-- STOP_MOVE. -/
def formStopMove : CommandForm := { code := 13, operands := 1, lock := true }
/-- READ_CHANNEL. -/
def formReadChannel : CommandForm := { code := 14, operands := 1 }

/-- A descriptor is the current one of a RUNNING or STOPPING channel (R156). -/
def State.descriptorInUse (s : State) (i : Fin 64) : Bool :=
  [ChannelId.a, ChannelId.b].any fun c => (s.chan c).state.working && (s.chan c).current == some i

/-- A descriptor changed by `f`. -/
def State.modDescriptor (s : State) (i : Fin 64) (f : Descriptor → Descriptor) : State :=
  s.modBm fun m => { m with descriptors := modAt m.descriptors i f }

/-- The descriptor that D2 to D6 give, if the next field names one or END (R156, R179). -/
def descriptorOperand (req : MgmtRequest) : Option Descriptor :=
  (nextOfWord (operand req 6)).map fun next =>
    descriptorOfWords (operand req 2) (operand req 3) (operand req 4) (operand req 5) next

/-- SET_DESCRIPTOR's own tests and its effect, in the order of R156. -/
def State.setDescriptorTo (s : State) (req : MgmtRequest) : Except MgmtResult State :=
  match descriptorName (operand req 1) with
  | none => .error .badIndex
  | some i =>
    if s.descriptorInUse i then .error .inUse
    else if (operand req 1).getLsbD 8 = false then .ok (s.modDescriptor i fun d => { d with loaded := false })
    else match descriptorOperand req with
      | none => .error .badValue
      | some d => if d.valid then .ok (s.modDescriptor i fun _ => d) else .error .badValue

/-- SET_DESCRIPTOR (R156). -/
def State.setDescriptor (req : MgmtRequest) (s : State) : State :=
  s.answerTested formSetDescriptor.code req (s.setDescriptorTo req)

/-- READ_DESCRIPTOR (R156). -/
def State.readDescriptor (req : MgmtRequest) (s : State) : State :=
  match descriptorName (operand req 1) with
  | none => s.answerFail formReadDescriptor.code req .badIndex
  | some i => s.answerOk formReadDescriptor.code req ((s.descriptor i).words i)

/-- START_MOVE's own tests and its effect (R159). -/
def State.startMoveTo (s : State) (req : MgmtRequest) : Except MgmtResult State :=
  match channelName (operand req 1), descriptorName (operand req 2) with
  | some c, some i =>
    if (s.chan c).state.working then .error .wrongState
    else if (s.descriptor i).loaded then .ok (s.startMove c i) else .error .badIndex
  | _, _ => .error .badIndex

/-- START_MOVE (R159). -/
def State.startMoveCommand (req : MgmtRequest) (s : State) : State :=
  s.answerTested formStartMove.code req (s.startMoveTo req)

/-- STOP_MOVE (R165). -/
def State.stopMoveCommand (req : MgmtRequest) (s : State) : State :=
  match channelName (operand req 1) with
  | none => s.answerFail formStopMove.code req .badIndex
  | some c => (s.stopMove c).answerOk formStopMove.code req []

/-- READ_CHANNEL (R168). -/
def State.readChannel (req : MgmtRequest) (s : State) : State :=
  match channelName (operand req 1) with
  | none => s.answerFail formReadChannel.code req .badIndex
  | some c => s.answerOk formReadChannel.code req (s.chan c).words

/-! ### Parameters, counters, faults (R144, R145, R149) -/

/-- SET_PARAMETERS. -/
def formSetParameters : CommandForm := { code := 15, operands := 6, lock := true }
/-- READ_PARAMETERS. -/
def formReadParameters : CommandForm := { code := 16, operands := 0 }
/-- READ_COUNTERS. -/
def formReadCounters : CommandForm := { code := 17, operands := 1 }
/-- CLEAR_COUNTERS. -/
def formClearCounters : CommandForm := { code := 18, operands := 1, lock := true }
/-- READ_FAULTS. -/
def formReadFaults : CommandForm := { code := 19, operands := 0, lock := true }

/-- The parameters that SET_PARAMETERS carries (R179). -/
def paramsOperand (req : MgmtRequest) : Params :=
  paramsOfWords (operand req 1) (operand req 2) (operand req 3) (operand req 4) (operand req 5) (operand req 6)

/-- SET_PARAMETERS (R144). -/
def State.setParameters (req : MgmtRequest) (s : State) : State :=
  if (paramsOperand req).valid then
    (s.modAg fun a => { a with params := paramsOperand req }).answerOk formSetParameters.code req []
  else s.answerFail formSetParameters.code req .badValue

/-- READ_PARAMETERS (R144). -/
def State.readParameters (req : MgmtRequest) (s : State) : State :=
  s.answerOk formReadParameters.code req s.ag.params.words

/-- The group that a word names (R179). -/
def groupOf (w : Word) : Nat := (w.extractLsb' 0 8).toNat

/-- READ_COUNTERS (R145). -/
def State.readCounters (req : MgmtRequest) (s : State) : State :=
  match s.groupWords (groupOf (operand req 1)) with
  | none => s.answerFail formReadCounters.code req .badIndex
  | some ws => s.answerOk formReadCounters.code req ws

/-- CLEAR_COUNTERS (R145). DESIGN CHOICE, unsafe (log 39): R145 lets a count raised in the clearing event fall before or
after the clear. What the coming of the request has raised, RX_FRAMES of the frame that carried it and MGMT_TAKEN, is
before it and lost; what its reply raises as it leaves, LOOPED or TX_DISCARDED, is after it and kept at 1. -/
def State.clearCounters (req : MgmtRequest) (s : State) : State :=
  match s.clearGroup (groupOf (operand req 1)) with
  | none => s.answerFail formClearCounters.code req .badIndex
  | some s' => s'.answerOk formClearCounters.code req []

/-- The most records that one READ_FAULTS removes (R149). -/
def readFaultsMax : Nat := 4

/-- READ_FAULTS (R149). -/
def State.readFaults (req : MgmtRequest) (s : State) : State :=
  let removed := s.ag.faults.take readFaultsMax
  let s1 := s.modAg fun a => { a with faults := a.faults.drop readFaultsMax }
  s1.answerOk formReadFaults.code req
    (s1.readFaultsHeader removed.length :: removed.flatMap FaultRecord.words)

/-! ### Node reset, renumbering, ring reset (R152, R153) -/

/-- NODE_RESET. -/
def formNodeReset : CommandForm := { code := 20, operands := 0, lock := true }
/-- RENUMBER. -/
def formRenumber : CommandForm := { code := 21, operands := 1, lock := true, manager := true }
/-- RING_RESET. -/
def formRingReset : CommandForm := { code := 22, operands := 0, lock := true, manager := true }

/-- NODE_RESET (R152). -/
def State.nodeResetCommand (req : MgmtRequest) (s : State) : State :=
  (s.modAg fun a => { a with resetPending := true }).answerFor formNodeReset.code req .ok [] .nodeReset

/-- The keep value that a word names (R153). -/
def keepOf (w : Word) : Option Bool := if w = 0 then some false else if w = 1 then some true else none

/-- RENUMBER (R153): the trigger is handed to enumeration, then OK is placed. -/
def State.renumber (req : MgmtRequest) (s : State) : State :=
  match keepOf (operand req 1) with
  | none => s.answerFail formRenumber.code req .badValue
  | some keep => (s.trigger keep).answerOk formRenumber.code req []

/-- RING_RESET (R49, R153; the outstanding reset is tested first, log 40). R49 gives no effect at own id 0, where no
MGMT_REQUEST reaches the manager: it is answered OK and changes nothing (log 43). -/
def State.ringResetCommand (req : MgmtRequest) (s : State) : State :=
  if s.en.resetOutstanding ∨ s.en.ownId = noNode then s.answerOk formRingReset.code req []
  else s.setOutstanding.answerFor formRingReset.code req .ok [] .ringReset

/-- A command word that names no command (R139, test 1). -/
def State.unknownCommand (s : State) (code : BitVec 8) (req : MgmtRequest) : State :=
  if s.ag.state ≠ .idle then s.agentBusy req else s.taken.answerFail code req .unknownCommand

/-! ### The lease (R142, R143) -/

/-- Every RUNNING channel becomes STOPPING (R143, R165). -/
def State.stopRunning (s : State) (c : ChannelId) : State :=
  if (s.chan c).state = .running then s.stopChannel c else s

/-- The lease timer expires (R143). DESIGN CHOICE, unsafe (log 7): neither R143 nor R165 gives an order where both
channels are RUNNING; channel A is stopped before channel B, and so MOVE_IDLE_A fires before MOVE_IDLE_B. -/
def State.leaseExpired (s : State) : State :=
  let s1 := ((s.modAg fun a => { a with lockOwner := noNode, leaseTimer := .stopped }).recordFault
    { kind := .leaseLost, node := some s.ag.lockOwner }).fire codeLeaseLost
  if s.ag.leaseAction = .retireAll then
    ((s1.modWt WindowTables.retireAll).stopRunning .a).stopRunning .b
  else s1

/-- The hold timer expires: a held lease timer resumes (R142). -/
def Agent.holdExpired (a : Agent) : Agent :=
  { a with
    holdTimer := .stopped
    leaseTimer := match a.leaseTimer with
      | .held d => .running d
      | x => x }

/-! ### A request frame (R137) -/

/-- A MGMT_REQUEST is taken by its command code (R137, R179). -/
def State.takeMgmt (s : State) (code : BitVec 8) (req : MgmtRequest) : State :=
  match code.toNat with
  | 1 => s.command formIdentify req (State.identify req)
  | 2 => s.command formClaim req (State.claim req)
  | 3 => s.command formRelease req (State.release req)
  | 4 => s.command formRenew req (State.renew req)
  | 5 => s.command formSetWindow req (State.setWindow req)
  | 6 => s.command formRetireWindow req (State.retireWindow req)
  | 7 => s.command formReadWindow req (State.readWindow req)
  | 8 => s.command formSetRoute req (State.setRoute req)
  | 9 => s.command formReadRoute req (State.readRoute req)
  | 10 => s.command formSetDescriptor req (State.setDescriptor req)
  | 11 => s.command formReadDescriptor req (State.readDescriptor req)
  | 12 => s.command formStartMove req (State.startMoveCommand req)
  | 13 => s.command formStopMove req (State.stopMoveCommand req)
  | 14 => s.command formReadChannel req (State.readChannel req)
  | 15 => s.command formSetParameters req (State.setParameters req)
  | 16 => s.command formReadParameters req (State.readParameters req)
  | 17 => s.command formReadCounters req (State.readCounters req)
  | 18 => s.command formClearCounters req (State.clearCounters req)
  | 19 => s.command formReadFaults req (State.readFaults req)
  | 20 => s.command formNodeReset req (State.nodeResetCommand req)
  | 21 => s.command formRenumber req (State.renumber req)
  | 22 => s.command formRingReset req (State.ringResetCommand req)
  | _ => s.unknownCommand code req

/-- The request that a MGMT_REQUEST frame carries, less its command word (R7, R179). -/
def Frame.mgmtRequest (f : Frame) (ref : Ref) : MgmtRequest where
  source := f.source
  dest := f.dest
  tag := ref.tag
  gen := ref.gen
  operands := f.payload.tail

/-- The command code of a MGMT_REQUEST frame (R179). -/
def Frame.commandCode (f : Frame) : BitVec 8 := (f.payload.headD 0).extractLsb' 0 8

end Sys2Proof.Machine
end

