-- ==== Sys2Proof/Machine/Page.lean ====
section
/-! DEFINITION. The local page: what a read and a write of each word does, and a whole page access (R113, R114,
R115, R180). -/

namespace Sys2Proof.Machine

/-! ### Reading (R114, R115) -/

/-- A read of the event inbox head (R175). -/
def State.readInbox (s : State) : State × Word :=
  match s.ev.inbox with
  | [] => (s, inboxEmptyWord)
  | r :: rest => (s.modEv fun e => { e with inbox := rest }, r.word)

/-- A read of fault head word 0 (R115). -/
def State.readFaultHead (s : State) : State × Word :=
  match s.ag.faults with
  | [] => (s.modLt fun l => { l with latch := none }, fieldAt 0 s.overflowField)
  | r :: rest =>
    let s1 := (s.modAg fun a => { a with faults := rest }).modLt fun l => { l with latch := some r }
    (s1, s1.faultHeadWord r)

/-- A word of the record in the latch, zero when the latch is empty (R115). -/
def State.latchWord (s : State) (f : FaultRecord → Word) : Word :=
  match s.lt.latch with
  | some r => f r
  | none => 0

/-- Page words 12 and 13, the last local fault (R116, R180). -/
def State.lastFaultWords (s : State) : Word × Word :=
  match s.lt.lastFault with
  | some (cause, addr) => (fieldAt 0 cause.code, addr)
  | none => (0, 0)

/-- A word of the issue request area. -/
def State.requestWord (s : State) (n : Nat) : Word := s.lt.requestArea.toList.getD n 0

/-- A word that a read leaves as it is (R114, R180). -/
def State.plainWord (s : State) (index : Nat) : Word :=
  match index with
  | 0 => vendorWord
  | 1 => Config.revision
  | 2 => s.serial
  | 4 => s.statusWord
  | 5 => s.ev.pendingSet.setWidth 32
  | 9 => s.latchWord FaultRecord.word1
  | 10 => s.latchWord FaultRecord.word2
  | 11 => s.latchWord FaultRecord.word3
  | 12 => s.lastFaultWords.1
  | 13 => s.lastFaultWords.2
  | 33 => s.ag.issue.stateWord
  | 50 => bitAt 0 s.en.resetOutstanding
  | n =>
    if 16 ≤ n ∧ n ≤ 31 then s.requestWord (n - 16)
    else if 34 ≤ n ∧ n ≤ 49 then s.ag.issue.reply.getD (n - 34) 0
    else 0

/-- A page word is read, with every effect of the read (R114). -/
def State.pageReadWord (s : State) (index : Nat) : State × Word :=
  if index = 6 then s.readInbox
  else if index = 8 then s.readFaultHead
  else (s, s.plainWord index)

/-! ### Writing (R114) -/

/-- The issue request area stores a word (R114). -/
def State.storeRequest (s : State) (n : Nat) (w : Word) : State :=
  s.modLt fun l => { l with requestArea := l.requestArea.setIfInBounds n w }

/-- A page word is written with a full mask (R114). -/
def State.pageWriteWord (s : State) (index : Nat) (w : Word) : State :=
  match index with
  | 5 => s.modEv fun e => e.clearPending w
  | 12 => s.modLt fun l => { l with lastFault := none }
  | 13 => s.modLt fun l => { l with lastFault := none }
  | 32 => s.issueTrigger
  | 50 => if w = 1 then s.pageResetRequest else s
  | n => if 16 ≤ n ∧ n ≤ 31 then s.storeRequest (n - 16) w else s

/-! ### Page accesses (R112, R113) -/

/-- Word `i` of a page read (R113): a word without valid lanes is skipped and reads as zero. -/
def pageReadStep (a : Access) (acc : State × List Word) (i : Nat) : State × List Word :=
  if a.lanes i = 0 then (acc.1, acc.2 ++ [0])
  else
    let r := acc.1.pageReadWord (a.pageIndex i)
    (r.1, acc.2 ++ [r.2])

/-- Word `i` of a page write (R113): only a word whose mask holds all four lanes is written. -/
def pageWriteStep (a : Access) (s : State) (i : Nat) : State :=
  if a.lanes i = fullMask then s.pageWriteWord (a.pageIndex i) (a.data.toList.getD i 0) else s

/-- A page read, word by word in address order (R113). It ends DONE, or RETRY while LOCAL_RESET_IN is asserted
(R112). -/
def State.pageRead (s : State) (a : Access) : State :=
  if s.localResetIn then s.terminate .retry
  else
    let r := (List.range a.count).foldl (pageReadStep a) (s, [])
    r.1.terminate (.done r.2)

/-- A page write, word by word in address order (R113). It ends DONE, or RETRY while LOCAL_RESET_IN is asserted
(R112). -/
def State.pageWrite (s : State) (a : Access) : State :=
  if s.localResetIn then s.terminate .retry
  else ((List.range a.count).foldl (pageWriteStep a) s).terminate (.done [])

end Sys2Proof.Machine
end

