-- ==== Sys2Proof/Machine/Port.lean ====
section
/-! DEFINITION. The Ring Port: the link, the arrival classifier and the transmit arbiter (02_ring_port.md). -/

namespace Sys2Proof.Machine

/-! ### The link (R18, R20) -/

/-- The receiver gains lock (R18). -/
def State.lockAcquired (s : State) : State :=
  match s.port.link with
  | .down => s.modPort fun p => { p with link := .locking, lockHoldTimer := .running Config.lockHoldTime }
  | .locking => s
  | .up => s.modPort fun p => { p with lockLossTimer := .stopped }

/-- The receiver loses lock (R18). A loss while UP starts the lock-loss timer, if it does not run already. -/
def State.lockLost (s : State) : State :=
  match s.port.link with
  | .down => s
  | .locking => s.modPort fun p => { p with link := .down, lockHoldTimer := .stopped }
  | .up =>
    s.modPort fun p =>
      { p with lockLossTimer :=
          if p.lockLossTimer = .stopped then .running Config.lockLossTime else p.lockLossTimer }

/-- The link enters UP (R20). -/
def State.enterUp (s : State) : State :=
  ((s.modPort fun p => { p with link := .up, lockHoldTimer := .stopped }).fire codeLinkUp).enumLinkUp

/-- The queues are emptied on leaving UP (R20): every frame is counted, and the placers are told (R30). -/
def State.emptyQueues (s : State) : State :=
  let n := s.port.forwardQ.length + s.port.responseQ.length
  let s1 := (s.modPort fun p => { p with forwardQ := [], responseQ := [] }).countDiscarded n
  s.port.responseQ.foldl (fun s r => s.reportLeft r.purpose) s1

/-- A RING_RESET being forwarded waits in the control offer. -/
def RingPort.forwardingReset (p : RingPort) : Bool :=
  match p.control with
  | some (.forwarded _) => true
  | _ => false

/-- The link leaves UP (R20): LINK_DOWN is raised and recorded, the queues are emptied, the tracker's entries
complete with LINK_DOWN (R90), and enumeration is told (R47). A RING_RESET being forwarded is then discarded, and
the node performs its RING reset (R25). Otherwise the two firings are taken before the tracker is told, unless a NODE
reset is pending: its reply leaves with the queues, and R170 takes the firings after it (log 26). Where both come
together, a NODE_RESET's reply in the emptied queue and a RING_RESET being forwarded, R25 and R152 give two resets in
one event: the RING reset alone is performed, and the reply's report is dropped with no NODE_RESET_DONE (log 26). The
report of the reply of this manager's own RING_RESET command is dropped there too, so that nothing is presented for it,
and all that R20 brings comes before the RING reset (DESIGN CHOICE, unsafe; log 55). -/
def State.leaveUp (s : State) : State :=
  let s1 := ((s.modPort fun p => { p with link := .down, lockLossTimer := .stopped }).fire codeLinkDown).recordFault
    (bareRecord .linkDown)
  if s.port.forwardingReset then (s1.emptyQueues.abort .linkDown).enumLinkDown.performRingReset
  else
    let s2 := if s.ag.resetPending then s1 else s1.takeFirings
    (s2.emptyQueues.abort .linkDown).enumLinkDown

/-! ### The classifier (R21 to R28) -/

/-- A malformed frame is discarded (R23). -/
def State.malformed (s : State) (source : NodeId) : State :=
  (s.countPort fun c => { c with malformed := bump c.malformed }).recordFault
    (sourceRecord .malformedFrame source)

/-- The forward queue's size. -/
def forwardQueueSize : Nat := 4

/-- A frame with its hop count raised by 1 (R15). -/
def Frame.hopped (f : Frame) : Frame := { f with hop := f.hop + 1 }

/-- HOP_LIMIT rises by 1. -/
def State.hopLimit (s : State) : State := s.countPort fun c => { c with hopLimit := bump c.hopLimit }

/-- A frame is forwarded (R28). -/
def State.forward (s : State) (f : Frame) : State :=
  if f.hop.toNat = 30 then s.hopLimit
  else if s.port.forwardQ.length < forwardQueueSize then
    s.modPort fun p => { p with forwardQ := p.forwardQ ++ [f.hopped] }
  else s.countPort fun c => { c with forwardOverrun := bump c.forwardOverrun }

/-- An ENUM is handed to enumeration: a manager removes it, another node processes and forwards it (R24, R46,
R48). -/
def State.takeEnum (s : State) (f : Frame) (e : EnumFields) : State :=
  if s.en.manager then
    if e.serial = s.serial then s.takeBack e else s.foreignEnum f.source
  else
    let r := s.processEnum e
    r.1.forward { f with body := .enumPass r.2 }

/-- A forwarded RING_RESET takes the control offer; the frame that waited there is discarded (R25). -/
def State.offerReset (s : State) (f : Frame) : State :=
  let s1 := if s.port.control.isSome then s.countDiscarded 1 else s
  s1.modPort fun p => { p with control := some (.forwarded f.hopped) }

/-- A RING_RESET is taken (R25). -/
def State.takeRingReset (s : State) (f : Frame) (serial : Word) : State :=
  if serial = s.serial then s.performRingReset
  else if f.hop.toNat = 30 then s.hopLimit.performRingReset
  else s.offerReset f

/-- A returned frame is removed; a request is reported to the tracker (R26). -/
def State.returned (s : State) (f : Frame) : State :=
  let s1 := s.countPort fun c => { c with returned := bump c.returned }
  match f.body.request with
  | some (kind, ref) => s1.takeReturned kind ref f.dest
  | none => s1

/-- A frame for this node is handed to the block that owns its meaning (R27). -/
def State.consume (s : State) (f : Frame) : State :=
  match f.body with
  | .read ref p => (s.admission .read f ref p).1
  | .write ref p => (s.admission .write f ref p).1
  | .postedWrite ref p q sync => s.takePosted f ref p q sync
  | .event ref number count => s.takeEvent f ref number count
  | .mgmtRequest ref => s.takeMgmt f.commandCode (f.mgmtRequest ref)
  | .readData ref => s.takeResponse ref f
  | .accept ref => s.takeResponse ref f
  | .refuse ref _ => s.takeResponse ref f
  | .mgmtReply ref => s.takeResponse ref f
  | .enumPass _ => s
  | .ringReset _ => s

/-- The classifier from step 5 (R26, R27, R28). -/
def State.route (s : State) (f : Frame) : State :=
  if s.en.ownId ≠ noNode ∧ f.source = s.en.ownId ∧ f.dest ≠ s.en.ownId then s.returned f
  else if s.en.ownId ≠ noNode ∧ f.dest = s.en.ownId then s.consume f
  else s.forward f

/-- The classifier from step 2 (R21, R23). -/
def State.classify (s : State) (f : Frame) : State :=
  if f.malformed then s.malformed f.source
  else match f.body with
    | .enumPass e => s.takeEnum f e
    | .ringReset serial => s.takeRingReset f serial
    | _ => s.route f

/-- The words of a frame less its check word are classified; words that hold no frame are malformed (R17, R23,
log 20). -/
def State.classifyWords (s : State) (ws : List Word) : State :=
  match frameOfWords ws with
  | some f => s.classify f
  | none => s.malformed (sourceOfWord (ws.headD 0))

/-- CHECK_ERROR rises by 1 (R22). -/
def State.checkError (s : State) : State := s.countPort fun c => { c with checkError := bump c.checkError }

/-- The received words pass their check: the last is the check word of the others (R16, R178). -/
def checkPasses (ws : List Word) : Bool :=
  match ws.getLast? with
  | some c => checkWord ws.dropLast == c
  | none => false

/-- A frame received whole while the link is UP enters the classifier at step 1 (R22). -/
def State.receive (s : State) (ws : List Word) : State :=
  if checkPasses ws then
    (s.countPort fun c => { c with rxFrames := bump c.rxFrames }).classifyWords ws.dropLast
  else s.checkError

/-- A frame arrives from RING IN while the link is UP (R19): one cut by a loss of lock fails its check, and one begun
before the link entered UP is not received. -/
def State.arrive (s : State) (ws : List Word) : Reception → State
  | .whole => s.receive ws
  | .cut => s.checkError
  | .beganBeforeUp => s

/-- The oldest frame leaves the loop path and is classified from step 2 (R21). -/
def State.loopIn (s : State) (f : Frame) : State :=
  (s.modPort fun p => { p with loopQ := p.loopQ.tail }).classify f

/-! ### The arbiter (R32, R33) -/

/-- A frame is handed to RING OUT with its check word (R16, R32). -/
def State.transmit (s : State) (f : Frame) : State :=
  (s.modPort fun p => { p with ringOut := some f.onRing }).countPort fun c =>
    { c with txFrames := bump c.txFrames }

/-- FORWARDED rises by 1 (R34). -/
def State.countForwarded (s : State) : State :=
  s.countPort fun c => { c with forwarded := bump c.forwarded }

/-- The hand-over of a frame that this node's enumeration presented starts its timer (R39, R49). -/
def State.controlSent (s : State) (f : Frame) : State :=
  match f.body with
  | .enumPass _ => s.modEn fun e => { e with passTimer := .running Config.passTime }
  | .ringReset _ => s.modEn fun e => { e with returnTimer := .running Config.returnTime }
  | _ => s

/-- The control offer is transmitted (R32). The hand-over of a RING_RESET being forwarded is followed by the
node's RING reset (R25). -/
def State.sendControl (s : State) (c : ControlOffer) : State :=
  let s1 := s.modPort fun p => { p with control := none }
  match c with
  | .own f => (s1.transmit f).controlSent f
  | .forwarded f => (s1.transmit f).countForwarded.performRingReset

/-- The head of the forward queue is transmitted with a new forward run count (R32). -/
def State.sendForward (s : State) (f : Frame) (run : Nat) : State :=
  ((s.modPort fun p => { p with forwardQ := p.forwardQ.tail, forwardRun := run }).transmit f).countForwarded

/-- The head of the response insertion queue is transmitted with a new response run count (R33). -/
def State.sendResponse (s : State) (r : Response) (run : Nat) : State :=
  ((s.popResponse.modPort fun p => { p with responseRun := run }).transmit r.frame).reportLeft r.purpose

/-- The request offer is transmitted (R33, R80). -/
def State.sendRequest (s : State) (o : RequestOffer) : State :=
  ((s.modPort fun p => { p with responseRun := 0 }).transmit o.frame).transmitted o.tag

/-- A request offer for another node. -/
def State.requestWaiting (s : State) : Option RequestOffer :=
  s.port.offer.filter fun o => o.frame.dest != s.en.ownId

/-- A local frame waits (R32). -/
def State.localWaits (s : State) : Bool := !s.port.responseQ.isEmpty || s.requestWaiting.isSome

/-- The arbiter picks a local frame (R33). -/
def State.sendLocal (s : State) : State :=
  match s.port.responseQ, s.requestWaiting with
  | r :: _, none => s.sendResponse r 0
  | r :: _, some o => if s.port.responseRun < 8 then s.sendResponse r (s.port.responseRun + 1) else s.sendRequest o
  | [], some o => s.sendRequest o
  | [], none => s

/-- The forward run count is 0 after a local frame was chosen (R32). -/
def State.clearForwardRun (s : State) : State := s.modPort fun p => { p with forwardRun := 0 }

/-- The arbiter weighs the head of the forward queue against local frames (R32). -/
def State.sendQueued (s : State) : State :=
  match s.port.forwardQ with
  | [] => s.clearForwardRun.sendLocal
  | f :: _ =>
    if !s.localWaits then s.sendForward f 0
    else if s.port.forwardRun < 4 then s.sendForward f (s.port.forwardRun + 1)
    else if s.port.forwardQ.length = forwardQueueSize then s.sendForward f 4
    else s.clearForwardRun.sendLocal

/-- A frame waits that may go out on the ring: the control offer, the forward queue or a local frame (R32). -/
def State.frameWaits (s : State) : Bool :=
  s.port.control.isSome || !s.port.forwardQ.isEmpty || s.localWaits

/-- The arbiter makes its choice (R32): the control offer first. -/
def State.arbitrate (s : State) : State :=
  match s.port.control with
  | some c => s.sendControl c
  | none => s.sendQueued

end Sys2Proof.Machine
end

