-- ==== Sys2Proof/Machine/PinCommands.lean ====
section
/-! DEFINITION. The commands of the pins: the resets and the attention inputs. -/

namespace Sys2Proof.Machine

/-- A machine that goes on: every command ends in a next state (log 4). -/
abbrev Answer := Host.Outcome State Fault Refusal

/-- An event whose effect is `f`: it is begun, taken, and ended by what happens at once (log 5). A command whose effect
lets nothing happen at once answers its next state directly. -/
def State.event (s : State) (f : State → State) : Answer := .next (f s.begin).endOfEvent

/-- POWER_ON_RESET (R36). -/
def execPowerOnReset (straps : Straps) (s : State) : Answer :=
  s.event fun s => s.performPowerOn straps

/-- LOCAL_RESET (R124): the pin is asserted. A pin that is asserted already is not asserted again (log 4). -/
def execLocalReset (s : State) : Answer :=
  if s.localResetIn then .next s
  else s.event fun s => State.performLocalReset { s with localResetIn := true }

/-- LOCAL_RESET_RELEASE (R124, R130, R135, R173): the pin is released, the attention inputs are compared (log 17), and
the local master may take a claimant (R130). A pin that is not asserted is not released (log 4). -/
def execLocalResetRelease (s : State) : Answer :=
  if s.localResetIn then s.event fun s => State.compareInputs { s with localResetIn := false } else .next s

/-- ATTN_CHANGE (R173): an attention input takes a level and is compared with its recorded level. -/
def execAttnChange (input : Fin 4) (level : Bool) (s : State) : Answer :=
  s.event fun s => s.attnLevel input level

end Sys2Proof.Machine
end

