-- ==== Sys2Proof/Machine/PortCommands.lean ====
section
/-! DEFINITION. The commands of the link and the ring: lock, arrivals, and the arbiter's choice. -/

namespace Sys2Proof.Machine

/-- LOCK_ACQUIRED (R18). -/
def execLockAcquired (s : State) : Answer :=
  .next s.lockAcquired

/-- LOCK_LOST (R18). -/
def execLockLost (s : State) : Answer :=
  .next s.lockLost

/-- An event of a timer: a stopped timer does not expire (R72, log 4). -/
def State.expiry (s : State) (t : Timer) (f : State → State) : Answer :=
  match t with
  | .stopped => .next s
  | .running _ => s.event f

/-- LOCK_HOLD_TIMER_EXPIRY (R18, R20). -/
def execLockHoldTimerExpiry (s : State) : Answer :=
  s.expiry s.port.lockHoldTimer State.enterUp

/-- LOCK_LOSS_TIMER_EXPIRY (R18, R20). -/
def execLockLossTimerExpiry (s : State) : Answer :=
  s.expiry s.port.lockLossTimer State.leaveUp

/-- RX_FRAME (R19, R22): in DOWN and LOCKING nothing is received. -/
def execRxFrame (words : List Word) (how : Reception) (s : State) : Answer :=
  if s.port.link = .up then s.event fun s => s.arrive words how else .next s

/-- LOOP_ARRIVAL (R21): the oldest frame on the loop path; none when there is no such frame (log 4). -/
def execLoopArrival (s : State) : Answer :=
  match s.port.loopQ with
  | [] => .next s
  | f :: _ => s.event fun s => s.loopIn f

/-- ARBITER_CHOICE (R32): RING OUT is free (log 16). There is no choice while the link is not UP or no frame waits. -/
def execArbiterChoice (s : State) : Answer :=
  if s.port.link = .up ∧ s.frameWaits then s.event State.arbitrate else .next s

end Sys2Proof.Machine
end

