-- ==== Sys2Proof/Machine/TimerCommands.lean ====
section
/-! DEFINITION. The expiries of the tracker's, enumeration's, the local target's and the agent's timers. -/

namespace Sys2Proof.Machine

/-- RESPONSE_TIMER_EXPIRY (R81). -/
def execResponseTimerExpiry (tag : Tag) (s : State) : Answer :=
  s.expiry (s.entry tag).responseTimer fun s => s.responseExpired tag

/-- BACKOFF_TIMER_EXPIRY (R82). -/
def execBackoffTimerExpiry (tag : Tag) (s : State) : Answer :=
  s.expiry (s.entry tag).backoffTimer fun s => s.modEntry tag TrackerEntry.toReady

/-- The settle timer expires: the manager is settled, and a pending run may start (R38). -/
def State.settleExpired (s : State) : State := (s.modEn fun e => { e with settle := .expired }).startIfSettled

/-- SETTLE_TIMER_EXPIRY (R38): a settle timer that is stopped or has expired does not expire. -/
def execSettleTimerExpiry (s : State) : Answer :=
  match s.en.settle with
  | .stopped => .next s
  | .expired => .next s
  | .running _ => s.event State.settleExpired

/-- The pass timer stops; at a manager in a PASS state the pass is sent again or the run fails (R46, log 27). -/
def State.passTimerExpired (s : State) : State :=
  match s.en.manager, s.en.state.pass with
  | true, some p => s.passExpired p
  | _, _ => s.modEn fun e => { e with passTimer := .stopped }

/-- PASS_TIMER_EXPIRY (R46). -/
def execPassTimerExpiry (s : State) : Answer :=
  s.expiry s.en.passTimer State.passTimerExpired

/-- RETURN_TIMER_EXPIRY (R49): reset outstanding is cleared by the RING reset itself (R50). -/
def execReturnTimerExpiry (s : State) : Answer :=
  s.expiry s.en.returnTimer State.performRingReset

/-- DISCARD_TIMER_EXPIRY (R121). -/
def execDiscardTimerExpiry (slot : Fin 4) (s : State) : Answer :=
  match (s.lt.slots.get slot).discardTimer with
  | .stopped => .next s
  | .running _ => .next (s.discardExpired slot)

/-- LEASE_TIMER_EXPIRY (R143): a lease timer that is stopped or held does not expire. -/
def execLeaseTimerExpiry (s : State) : Answer :=
  match s.ag.leaseTimer with
  | .stopped => .next s
  | .held _ => .next s
  | .running _ => s.event State.leaseExpired

/-- HOLD_TIMER_EXPIRY (R142). -/
def execHoldTimerExpiry (s : State) : Answer :=
  match s.ag.holdTimer with
  | .stopped => .next s
  | .running _ => .next (s.modAg Agent.holdExpired)

end Sys2Proof.Machine
end

