-- ==== Sys2Proof/Machine/BusCommands.lean ====
section
/-! DEFINITION. The commands of the local bus: the card's terminations, and its accesses to windows and to the page. -/

namespace Sys2Proof.Machine

/-- TERMINATION_DONE (R131): the card ends the attempt in progress with DONE; `data` is what it drives for a read. A
termination without an attempt in progress is not taken. -/
def execTerminationDone (data : Table Word 16) (s : State) : Answer :=
  match s.attempt with
  | some tx => s.event fun s => s.transactionDone tx data
  | none => .next s

/-- TERMINATION_FAULT (R131). -/
def execTerminationFault (s : State) : Answer :=
  match s.attempt with
  | some tx => s.event fun s => s.transactionFault tx
  | none => .next s

/-- TERMINATION_RETRY (R131). -/
def execTerminationRetry (s : State) : Answer :=
  match s.attempt with
  | some tx => s.event fun s => s.attemptRetried tx
  | none => .next s

/-- REATTEMPT_DELAY_EXPIRY (R131). -/
def execReattemptDelayExpiry (s : State) : Answer :=
  match s.waitingAttempt with
  | some tx => .next (s.reattempt tx)
  | none => .next s

/-- CYCLE_TIMER_EXPIRY (R131): the attempt is withdrawn, and the transaction ends as a local fault. -/
def execCycleTimerExpiry (s : State) : Answer :=
  match s.attempt with
  | some tx => s.event fun s => s.transactionFault tx
  | none => .next s

/-- OUTBOUND_ACCESS (R112, R116): RETRY with no other effect while LOCAL_RESET_IN is asserted. -/
def execOutboundAccess (dir : Direction) (acc : Access) (s : State) : Answer :=
  if s.localResetIn then .next (s.terminate .retry) else s.event fun s => s.outbound dir acc

/-- EVENT_INBOX_HEAD_READ (R114, R175): a page read that takes in word 6. -/
def execEventInboxHeadRead (acc : Access) (s : State) : Answer :=
  .next (s.pageRead acc)

/-- FAULT_HEAD_READ (R115): a page read that takes in word 8. -/
def execFaultHeadRead (acc : Access) (s : State) : Answer :=
  .next (s.pageRead acc)

/-- PENDING_EVENT_CLEAR (R114, R172): a page write that takes in word 5. -/
def execPendingEventClear (acc : Access) (s : State) : Answer :=
  s.event fun s => s.pageWrite acc

/-- LAST_LOCAL_FAULT_CLEAR (R114, R116): a page write that takes in word 12 or 13. -/
def execLastLocalFaultClear (acc : Access) (s : State) : Answer :=
  s.event fun s => s.pageWrite acc

/-- ISSUE_TRIGGER (R114, R150): a page write that takes in word 32. -/
def execIssueTrigger (acc : Access) (s : State) : Answer :=
  s.event fun s => s.pageWrite acc

/-- RING_RESET_REQUEST (R49, R114): a page write that takes in word 50. -/
def execRingResetRequest (acc : Access) (s : State) : Answer :=
  s.event fun s => s.pageWrite acc

/-- PAGE_WRITE (R113, R114): a page write to words without a behaviour of their own. -/
def execPageWrite (acc : Access) (s : State) : Answer :=
  s.event fun s => s.pageWrite acc

end Sys2Proof.Machine
end

