-- ==== Sys2Proof/Machine/ManagementCommands.lean ====
section
/-! DEFINITION. The management commands, each taken whole by the agent (R137, log 14). -/

namespace Sys2Proof.Machine

/-- IDENTIFY (R140), taken by the agent (R137). -/
def execIdentify (req : MgmtRequest) (s : State) : Answer :=
  s.event fun s => s.command formIdentify req (State.identify req)

/-- CLAIM (R141), taken by the agent (R137). -/
def execClaim (req : MgmtRequest) (s : State) : Answer :=
  s.event fun s => s.command formClaim req (State.claim req)

/-- RELEASE (R141), taken by the agent (R137). -/
def execRelease (req : MgmtRequest) (s : State) : Answer :=
  s.event fun s => s.command formRelease req (State.release req)

/-- RENEW (R141), taken by the agent (R137). -/
def execRenew (req : MgmtRequest) (s : State) : Answer :=
  s.event fun s => s.command formRenew req (State.renew req)

/-- SET_WINDOW (R63), taken by the agent (R137). -/
def execSetWindow (req : MgmtRequest) (s : State) : Answer :=
  s.event fun s => s.command formSetWindow req (State.setWindow req)

/-- RETIRE_WINDOW (R64), taken by the agent (R137). -/
def execRetireWindow (req : MgmtRequest) (s : State) : Answer :=
  s.event fun s => s.command formRetireWindow req (State.retireWindow req)

/-- READ_WINDOW (R68), taken by the agent (R137). -/
def execReadWindow (req : MgmtRequest) (s : State) : Answer :=
  s.event fun s => s.command formReadWindow req (State.readWindow req)

/-- SET_ROUTE (R171), taken by the agent (R137). -/
def execSetRoute (req : MgmtRequest) (s : State) : Answer :=
  s.event fun s => s.command formSetRoute req (State.setRoute req)

/-- READ_ROUTE (R171), taken by the agent (R137). -/
def execReadRoute (req : MgmtRequest) (s : State) : Answer :=
  s.event fun s => s.command formReadRoute req (State.readRoute req)

/-- SET_DESCRIPTOR (R156), taken by the agent (R137). -/
def execSetDescriptor (req : MgmtRequest) (s : State) : Answer :=
  s.event fun s => s.command formSetDescriptor req (State.setDescriptor req)

/-- READ_DESCRIPTOR (R156), taken by the agent (R137). -/
def execReadDescriptor (req : MgmtRequest) (s : State) : Answer :=
  s.event fun s => s.command formReadDescriptor req (State.readDescriptor req)

/-- START_MOVE (R159), taken by the agent (R137). -/
def execStartMove (req : MgmtRequest) (s : State) : Answer :=
  s.event fun s => s.command formStartMove req (State.startMoveCommand req)

/-- STOP_MOVE (R165), taken by the agent (R137). -/
def execStopMove (req : MgmtRequest) (s : State) : Answer :=
  s.event fun s => s.command formStopMove req (State.stopMoveCommand req)

/-- READ_CHANNEL (R168), taken by the agent (R137). -/
def execReadChannel (req : MgmtRequest) (s : State) : Answer :=
  s.event fun s => s.command formReadChannel req (State.readChannel req)

/-- SET_PARAMETERS (R144), taken by the agent (R137). -/
def execSetParameters (req : MgmtRequest) (s : State) : Answer :=
  s.event fun s => s.command formSetParameters req (State.setParameters req)

/-- READ_PARAMETERS (R144), taken by the agent (R137). -/
def execReadParameters (req : MgmtRequest) (s : State) : Answer :=
  s.event fun s => s.command formReadParameters req (State.readParameters req)

/-- READ_COUNTERS (R145), taken by the agent (R137). -/
def execReadCounters (req : MgmtRequest) (s : State) : Answer :=
  s.event fun s => s.command formReadCounters req (State.readCounters req)

/-- CLEAR_COUNTERS (R145), taken by the agent (R137). -/
def execClearCounters (req : MgmtRequest) (s : State) : Answer :=
  s.event fun s => s.command formClearCounters req (State.clearCounters req)

/-- READ_FAULTS (R149), taken by the agent (R137). -/
def execReadFaults (req : MgmtRequest) (s : State) : Answer :=
  s.event fun s => s.command formReadFaults req (State.readFaults req)

/-- NODE_RESET (R152), taken by the agent (R137). -/
def execNodeReset (req : MgmtRequest) (s : State) : Answer :=
  s.event fun s => s.command formNodeReset req (State.nodeResetCommand req)

/-- RENUMBER (R153), taken by the agent (R137). -/
def execRenumber (req : MgmtRequest) (s : State) : Answer :=
  s.event fun s => s.command formRenumber req (State.renumber req)

/-- RING_RESET (R49, R153), taken by the agent (R137). -/
def execRingReset (req : MgmtRequest) (s : State) : Answer :=
  s.event fun s => s.command formRingReset req (State.ringResetCommand req)

/-- UNKNOWN_COMMAND (R139, test 1), taken by the agent (R137). -/
def execUnknownCommand (code : BitVec 8) (req : MgmtRequest) (s : State) : Answer :=
  s.event fun s => s.unknownCommand code req

end Sys2Proof.Machine
end

