-- ==== Sys2Proof/Machine/Dispatch.lean ====
section
/-! DEFINITION. One arm for each command: its meaning. -/

namespace Sys2Proof.Machine

/-- The effect of a command on everything but the queue. -/
def exec (i : Instr) (s : State) : Host.Outcome State Fault Refusal :=
  match i with
  | .powerOnReset straps => Sys2Proof.Machine.execPowerOnReset straps s
  | .localReset => Sys2Proof.Machine.execLocalReset s
  | .localResetRelease => Sys2Proof.Machine.execLocalResetRelease s
  | .lockAcquired => Sys2Proof.Machine.execLockAcquired s
  | .lockLost => Sys2Proof.Machine.execLockLost s
  | .lockHoldTimerExpiry => Sys2Proof.Machine.execLockHoldTimerExpiry s
  | .lockLossTimerExpiry => Sys2Proof.Machine.execLockLossTimerExpiry s
  | .rxFrame words how => Sys2Proof.Machine.execRxFrame words how s
  | .loopArrival => Sys2Proof.Machine.execLoopArrival s
  | .arbiterChoice => Sys2Proof.Machine.execArbiterChoice s
  | .responseTimerExpiry tag => Sys2Proof.Machine.execResponseTimerExpiry tag s
  | .backoffTimerExpiry tag => Sys2Proof.Machine.execBackoffTimerExpiry tag s
  | .settleTimerExpiry => Sys2Proof.Machine.execSettleTimerExpiry s
  | .passTimerExpiry => Sys2Proof.Machine.execPassTimerExpiry s
  | .returnTimerExpiry => Sys2Proof.Machine.execReturnTimerExpiry s
  | .discardTimerExpiry slot => Sys2Proof.Machine.execDiscardTimerExpiry slot s
  | .leaseTimerExpiry => Sys2Proof.Machine.execLeaseTimerExpiry s
  | .holdTimerExpiry => Sys2Proof.Machine.execHoldTimerExpiry s
  | .terminationDone data => Sys2Proof.Machine.execTerminationDone data s
  | .terminationFault => Sys2Proof.Machine.execTerminationFault s
  | .terminationRetry => Sys2Proof.Machine.execTerminationRetry s
  | .reattemptDelayExpiry => Sys2Proof.Machine.execReattemptDelayExpiry s
  | .cycleTimerExpiry => Sys2Proof.Machine.execCycleTimerExpiry s
  | .attnChange input level => Sys2Proof.Machine.execAttnChange input level s
  | .outboundAccess dir acc => Sys2Proof.Machine.execOutboundAccess dir acc s
  | .eventInboxHeadRead acc => Sys2Proof.Machine.execEventInboxHeadRead acc s
  | .faultHeadRead acc => Sys2Proof.Machine.execFaultHeadRead acc s
  | .pendingEventClear acc => Sys2Proof.Machine.execPendingEventClear acc s
  | .lastLocalFaultClear acc => Sys2Proof.Machine.execLastLocalFaultClear acc s
  | .issueTrigger acc => Sys2Proof.Machine.execIssueTrigger acc s
  | .ringResetRequest acc => Sys2Proof.Machine.execRingResetRequest acc s
  | .pageWrite acc => Sys2Proof.Machine.execPageWrite acc s
  | .identify req => Sys2Proof.Machine.execIdentify req s
  | .claim req => Sys2Proof.Machine.execClaim req s
  | .release req => Sys2Proof.Machine.execRelease req s
  | .renew req => Sys2Proof.Machine.execRenew req s
  | .setWindow req => Sys2Proof.Machine.execSetWindow req s
  | .retireWindow req => Sys2Proof.Machine.execRetireWindow req s
  | .readWindow req => Sys2Proof.Machine.execReadWindow req s
  | .setRoute req => Sys2Proof.Machine.execSetRoute req s
  | .readRoute req => Sys2Proof.Machine.execReadRoute req s
  | .setDescriptor req => Sys2Proof.Machine.execSetDescriptor req s
  | .readDescriptor req => Sys2Proof.Machine.execReadDescriptor req s
  | .startMove req => Sys2Proof.Machine.execStartMove req s
  | .stopMove req => Sys2Proof.Machine.execStopMove req s
  | .readChannel req => Sys2Proof.Machine.execReadChannel req s
  | .setParameters req => Sys2Proof.Machine.execSetParameters req s
  | .readParameters req => Sys2Proof.Machine.execReadParameters req s
  | .readCounters req => Sys2Proof.Machine.execReadCounters req s
  | .clearCounters req => Sys2Proof.Machine.execClearCounters req s
  | .readFaults req => Sys2Proof.Machine.execReadFaults req s
  | .nodeReset req => Sys2Proof.Machine.execNodeReset req s
  | .renumber req => Sys2Proof.Machine.execRenumber req s
  | .ringReset req => Sys2Proof.Machine.execRingReset req s
  | .unknownCommand code req => Sys2Proof.Machine.execUnknownCommand code req s

end Sys2Proof.Machine
end

