-- ==== Sys2Proof/WellFormed.lean ====
section
/-! DEFINITION. Which commands the world outside can send: the checks on a command's operands alone. -/

namespace Sys2Proof

/-- A local access has 1 to 16 words (R112). -/
def Access.wellFormed (a : Access) : Bool := 1 ≤ a.count && a.count ≤ 16

/-- A MGMT_REQUEST comes from a node and is sent to a node, with at most 15 operand words (R2, R7). -/
def MgmtRequest.wellFormed (r : MgmtRequest) : Bool :=
  Machine.isNode r.source && Machine.isNode r.dest && r.operands.length ≤ 15

/-- The command codes that name no command: 0 and 23 to 255 (R179). -/
def unknownCode (code : BitVec 8) : Bool := code.toNat = 0 || 22 < code.toNat

/-- The page words whose full-mask write has a behaviour of its own: the pending event set, the two words of the
last local fault, the issue trigger and the ring-reset request (R114, R180). -/
def actingPageWords : List Nat := [5, 12, 13, 32, 50]

/-- A command that the world outside can send. A page row's access touches the item the row is named after
(log 15). -/
def Instr.wellFormed : Instr → Bool
  | .powerOnReset _ => true
  | .localReset => true
  | .localResetRelease => true
  | .lockAcquired => true
  | .lockLost => true
  | .lockHoldTimerExpiry => true
  | .lockLossTimerExpiry => true
  | .rxFrame _ _ => true
  | .loopArrival => true
  | .arbiterChoice => true
  | .responseTimerExpiry _ => true
  | .backoffTimerExpiry _ => true
  | .settleTimerExpiry => true
  | .passTimerExpiry => true
  | .returnTimerExpiry => true
  | .discardTimerExpiry _ => true
  | .leaseTimerExpiry => true
  | .holdTimerExpiry => true
  | .terminationDone _ => true
  | .terminationFault => true
  | .terminationRetry => true
  | .reattemptDelayExpiry => true
  | .cycleTimerExpiry => true
  | .attnChange _ _ => true
  | .outboundAccess _ a => a.wellFormed
  | .eventInboxHeadRead a => a.wellFormed && a.readsPage 6
  | .faultHeadRead a => a.wellFormed && a.readsPage 8
  | .pendingEventClear a => a.wellFormed && a.writesPage 5
  | .lastLocalFaultClear a => a.wellFormed && (a.writesPage 12 || a.writesPage 13)
  | .issueTrigger a => a.wellFormed && a.writesPage 32
  | .ringResetRequest a => a.wellFormed && a.writesPage 50
  | .pageWrite a => a.wellFormed && actingPageWords.all fun n => !a.writesPage n
  | .identify r => r.wellFormed
  | .claim r => r.wellFormed
  | .release r => r.wellFormed
  | .renew r => r.wellFormed
  | .setWindow r => r.wellFormed
  | .retireWindow r => r.wellFormed
  | .readWindow r => r.wellFormed
  | .setRoute r => r.wellFormed
  | .readRoute r => r.wellFormed
  | .setDescriptor r => r.wellFormed
  | .readDescriptor r => r.wellFormed
  | .startMove r => r.wellFormed
  | .stopMove r => r.wellFormed
  | .readChannel r => r.wellFormed
  | .setParameters r => r.wellFormed
  | .readParameters r => r.wellFormed
  | .readCounters r => r.wellFormed
  | .clearCounters r => r.wellFormed
  | .readFaults r => r.wellFormed
  | .nodeReset r => r.wellFormed
  | .renumber r => r.wellFormed
  | .ringReset r => r.wellFormed
  | .unknownCommand code r => unknownCode code && r.wellFormed

end Sys2Proof
end

