-- ==== Sys2Proof/Safety.lean ====
section
/-! DEFINITION. What statements about the part are written in: the parts of its state, what a command leaves
unchanged, the part at rest between two events, and the invariants. -/

namespace Sys2Proof.Machine

/-! ### The parts of the state -/

/-- A channel without its slots: what stands with every slot FREE. -/
def Channel.regs (ch : Channel) : Channel := { ch with slots := Vector.replicate 8 Slot.reset }

/-- The parts of the state that a frame statement names. -/
inductive Part where
  | serial | pin | now | pending | firings | left | asks
  | link | forwarding | responses | runs | offer | control | loop | ringOut | portRx | portTx | portLocal
  | en | outstanding
  | wt
  | rt
  | send | recv | ordCounters
  | slots | lastFault | latch | requestArea | termination | ltCounters
  | inQueue | bus | held | inbCounters
  | agentRun | lock | params | faults | issueState | issue | agCounters
  | descriptors | channels | moverSlots | turn | bmCounters
  | routes | pendingSet | attn | ring | lastGranted | inbox | evCounters
  deriving DecidableEq, Repr

/-- A part is the same in two states. -/
def Part.same (p : Part) (s t : State) : Prop :=
  match p with
  | .serial => t.serial = s.serial
  | .pin => t.localResetIn = s.localResetIn
  | .now => t.now = s.now
  | .pending => t.pending = s.pending
  | .firings => t.firings = s.firings
  | .left => t.left = s.left
  | .asks => t.asks = s.asks
  | .link => t.port.link = s.port.link ∧ t.port.lockLossTimer = s.port.lockLossTimer ∧
      t.port.lockHoldTimer = s.port.lockHoldTimer
  | .forwarding => t.port.forwardQ = s.port.forwardQ
  | .responses => t.port.responseQ = s.port.responseQ
  | .runs => t.port.forwardRun = s.port.forwardRun ∧ t.port.responseRun = s.port.responseRun
  | .offer => t.port.offer = s.port.offer
  | .control => t.port.control = s.port.control
  | .loop => t.port.loopQ = s.port.loopQ
  | .ringOut => t.port.ringOut = s.port.ringOut
  | .portRx => t.port.counters.rxFrames = s.port.counters.rxFrames ∧
      t.port.counters.checkError = s.port.counters.checkError ∧
      t.port.counters.malformed = s.port.counters.malformed ∧
      t.port.counters.returned = s.port.counters.returned ∧
      t.port.counters.hopLimit = s.port.counters.hopLimit ∧
      t.port.counters.forwardOverrun = s.port.counters.forwardOverrun
  | .portTx => t.port.counters.txFrames = s.port.counters.txFrames ∧
      t.port.counters.forwarded = s.port.counters.forwarded
  | .portLocal => t.port.counters.looped = s.port.counters.looped ∧
      t.port.counters.txDiscarded = s.port.counters.txDiscarded
  | .en => { t.en with resetOutstanding := false } = { s.en with resetOutstanding := false }
  | .outstanding => t.en.resetOutstanding = s.en.resetOutstanding
  | .wt => t.wt = s.wt
  | .rt => t.rt = s.rt
  | .send => t.ord.send = s.ord.send
  | .recv => t.ord.recv = s.ord.recv
  | .ordCounters => t.ord.counters = s.ord.counters
  | .slots => t.lt.slots = s.lt.slots
  | .lastFault => t.lt.lastFault = s.lt.lastFault
  | .latch => t.lt.latch = s.lt.latch
  | .requestArea => t.lt.requestArea = s.lt.requestArea
  | .termination => t.lt.termination = s.lt.termination
  | .ltCounters => t.lt.counters = s.lt.counters
  | .inQueue => t.inb.queue = s.inb.queue
  | .bus => t.inb.current = s.inb.current ∧ t.inb.lastServed = s.inb.lastServed
  | .held => t.inb.held = s.inb.held
  | .inbCounters => t.inb.counters = s.inb.counters
  | .agentRun => t.ag.state = s.ag.state ∧ t.ag.heldReply = s.ag.heldReply ∧ t.ag.deferred = s.ag.deferred ∧
      t.ag.resetPending = s.ag.resetPending
  | .lock => t.ag.lockOwner = s.ag.lockOwner ∧ t.ag.leaseTime = s.ag.leaseTime ∧
      t.ag.leaseAction = s.ag.leaseAction ∧ t.ag.leaseTimer = s.ag.leaseTimer ∧ t.ag.holdTimer = s.ag.holdTimer
  | .params => t.ag.params = s.ag.params
  | .faults => t.ag.faults = s.ag.faults ∧ t.ag.overflow = s.ag.overflow
  | .issueState => t.ag.issue.state = s.ag.issue.state
  | .issue => t.ag.issue.dest = s.ag.issue.dest ∧ t.ag.issue.length = s.ag.issue.length ∧
      t.ag.issue.words = s.ag.issue.words ∧ t.ag.issue.result = s.ag.issue.result ∧
      t.ag.issue.reply = s.ag.issue.reply
  | .agCounters => t.ag.counters = s.ag.counters
  | .descriptors => t.bm.descriptors = s.bm.descriptors
  | .channels => t.bm.chA.regs = s.bm.chA.regs ∧ t.bm.chB.regs = s.bm.chB.regs
  | .moverSlots => t.bm.chA.slots = s.bm.chA.slots ∧ t.bm.chB.slots = s.bm.chB.slots
  | .turn => t.bm.turn = s.bm.turn
  | .bmCounters => t.bm.counters = s.bm.counters
  | .routes => t.ev.routes = s.ev.routes
  | .pendingSet => t.ev.pendingSet = s.ev.pendingSet
  | .attn => t.ev.attnInput = s.ev.attnInput ∧ t.ev.attnRecorded = s.ev.attnRecorded
  | .ring => t.ev.ring = s.ev.ring
  | .lastGranted => t.ev.lastGranted = s.ev.lastGranted
  | .inbox => t.ev.inbox = s.ev.inbox
  | .evCounters => t.ev.counters = s.ev.counters

/-- From `s` to `t` no part changes but those in `ys`. -/
def Changes (ys : List Part) (s t : State) : Prop := ∀ p : Part, p ∉ ys → p.same s t

/-- What may change at once when codes have fired: their routes take them (R170, R174), standing claims may be granted
(R77), the tracker and the port move a request that is offered (R29, R31, R78, R80), and an IDLE local master takes a
claimant (R130). -/
def calmParts : List Part :=
  [.pendingSet, .ring, .evCounters, .rt, .offer, .loop, .portLocal, .lastGranted, .send, .issueState, .moverSlots,
    .turn, .bmCounters, .bus]

/-- What may change at once when, besides, a response has been placed, which may leave by the loop path (R29, R30). -/
def quietParts : List Part := calmParts ++ [.responses]

/-- What may change at once when, besides, a response has left, which makes room for those who wait (R30, R133,
R138), or lets a RING_RESET be presented (R49) or lapse (log 42). -/
def movingParts : List Part := quietParts ++ [.held, .agentRun, .control, .outstanding]

/-! ### The part at rest (log 5) -/

/-- What is true between two events: no firing and no report waits, no standing claim can be granted (R77), the port
and the placers have nothing to do at once (R29, R30, R78, R79), an IDLE local master has nobody to serve (R130), and
no originator has an ask to make (R163, R174). That no standing claim can be granted after any event, a mover's whose
presented slot has changed among them, is the model's choice (log 51). -/
def Rest (s : State) : Prop :=
  s.firings = [] ∧ s.left = [] ∧ s.claimStep = none ∧ s.settleStep = none ∧ s.busChoice = none ∧ s.asks = []

/-- An IDLE agent, in a part at rest: what the agent's commands find (R137). -/
def AgentReady (s : State) : Prop := Rest s ∧ s.ag.state = .idle ∧ s.ag.heldReply = none ∧ s.ag.resetPending = false

/-! ### What a firing leaves (R170, R172) -/

/-- From `s` to `t` the codes of `cs` have fired: of them, those routed to a line have joined the pending set, and
the set is otherwise the same. -/
def Fired (cs : List EventCode) (s t : State) : Prop :=
  ∀ c : EventCode, t.ev.pendingSet.getLsbD c.val =
    (s.ev.pendingSet.getLsbD c.val || (cs.contains c && (s.routeEntry c).route.isLine))

/-- The parts that the firing of `cs` may change: the pending set alone, unless one of the codes is routed to the ring,
where a tracker entry may be allocated and offered. -/
def State.firedFrame (s : State) (cs : List EventCode) : List Part :=
  if cs.all fun c => (s.routeEntry c).route != .ring then [.pendingSet] else calmParts

/-- `t` is `u` once the codes of `cs` have fired in it and nothing else has happened. -/
def Settled (cs : List EventCode) (u t : State) : Prop := Fired cs u t ∧ Changes (u.firedFrame cs) u t

/-! ### The fault queue (R147) -/

/-- The agent after one more fault record has arrived. -/
def Agent.withRecord (a : Agent) (r : FaultRecord) : Agent :=
  { a with
    faults := if a.faults.length < 16 then a.faults ++ [r] else a.faults
    overflow := if a.faults.length < 16 then a.overflow else min 255 (a.overflow + 1) }

/-! ### Frames that leave (R29, R30, R31) -/

/-- The state after a response that nobody waits for has been placed in a queue with room, and what follows at once has
happened: at the head and self-addressed it is looped, for another node while the link is not UP it is
discarded, and otherwise it joins the tail. -/
def State.withResponse (s : State) (f : Frame) : State :=
  if f.dest = s.en.ownId ∧ s.port.responseQ = [] then
    { s with port :=
      { s.port with
        loopQ := s.port.loopQ ++ [f]
        counters := { s.port.counters with looped := bump s.port.counters.looped } } }
  else if s.port.link = .up ∨ f.dest = s.en.ownId then
    { s with port := { s.port with responseQ := s.port.responseQ ++ [⟨f, .plain⟩] } }
  else
    { s with port :=
      { s.port with counters := { s.port.counters with txDiscarded := bump s.port.counters.txDiscarded } } }

/-- A response has been placed in a queue with room, with what its placer waits for: it joins the tail, or, for another
node while the link is not UP, it is discarded, and its placer is told. -/
def State.placed (s : State) (f : Frame) (p : Purpose) : State :=
  if s.port.link = .up ∨ f.dest = s.en.ownId then
    { s with port := { s.port with responseQ := s.port.responseQ ++ [⟨f, p⟩] } }
  else
    State.leftReport
      { s with port :=
        { s.port with counters := { s.port.counters with txDiscarded := bump s.port.counters.txDiscarded } } } p

/-- The state after enumeration has presented a control frame: a RING_RESET that waits is not displaced, and an ENUM
that waits is (R25, R31, R49; this node's own RING_RESET and the ENUM by log 18). -/
def State.withControl (s : State) (f : Frame) : State :=
  { s with port :=
    { s.port with
      control := match s.port.control with
        | some c => if c.isReset then some c else some (.own f)
        | none => some (.own f)
      counters := { s.port.counters with
        txDiscarded := if s.port.control.isSome then bump s.port.counters.txDiscarded
          else s.port.counters.txDiscarded } } }

/-! ### The agent's answers (R137, R138, R139) -/

/-- A request has been taken from IDLE, and counted. -/
def State.tookRequest (s : State) : State :=
  { s with
    now := s.now + 1
    ag := { s.ag with counters := { s.ag.counters with mgmtTaken := bump s.ag.counters.mgmtTaken } } }

/-- The reply is placed, or held for want of room. -/
def State.withReply (s : State) (f : Frame) : State :=
  if s.port.responseQ.length < 8 then s.withResponse f
  else { s with ag := { s.ag with state := .executing, heldReply := some ⟨f, .plain, s.now⟩ } }

/-- The lease timer restarted for a requester that owns the lock (R139). -/
def State.withLease (s : State) (requester : NodeId) : State :=
  if s.ag.lockOwner = requester then
    { s with ag := { s.ag with leaseTimer := .running (s.ag.leaseTime.toNat * 10000) } }
  else s

/-- The command ends with OK. -/
def State.withOk (s : State) (code : BitVec 8) (q : MgmtRequest) (data : List Word) : State :=
  (s.withLease q.source).withReply (replyFrame q.source q.dest q.tag q.gen code .ok data)

/-- The command fails a test, without reply data. -/
def State.withFailure (s : State) (code : BitVec 8) (q : MgmtRequest) (r : MgmtResult) : State :=
  s.withReply (replyFrame q.source q.dest q.tag q.gen code r [])

/-- The command fails the lock test: the reply data hold the owner. -/
def State.withNotOwner (s : State) (code : BitVec 8) (q : MgmtRequest) : State :=
  s.withReply (replyFrame q.source q.dest q.tag q.gen code .notOwner [s.ag.lockOwner.setWidth 32])

/-- The code, the operand count, the lock and the manager test of a management command (R139, R140, R179), and its
request. -/
def mgmtForm : Instr → Option (CommandForm × MgmtRequest)
  | .identify q => some ({ code := 1, operands := 0 }, q)
  | .claim q => some ({ code := 2, operands := 2 }, q)
  | .release q => some ({ code := 3, operands := 0, lock := true }, q)
  | .renew q => some ({ code := 4, operands := 0, lock := true }, q)
  | .setWindow q => some ({ code := 5, operands := 6, lock := true }, q)
  | .retireWindow q => some ({ code := 6, operands := 1, lock := true }, q)
  | .readWindow q => some ({ code := 7, operands := 1 }, q)
  | .setRoute q => some ({ code := 8, operands := 2, lock := true }, q)
  | .readRoute q => some ({ code := 9, operands := 1 }, q)
  | .setDescriptor q => some ({ code := 10, operands := 6, lock := true }, q)
  | .readDescriptor q => some ({ code := 11, operands := 1 }, q)
  | .startMove q => some ({ code := 12, operands := 2, lock := true }, q)
  | .stopMove q => some ({ code := 13, operands := 1, lock := true }, q)
  | .readChannel q => some ({ code := 14, operands := 1 }, q)
  | .setParameters q => some ({ code := 15, operands := 6, lock := true }, q)
  | .readParameters q => some ({ code := 16, operands := 0 }, q)
  | .readCounters q => some ({ code := 17, operands := 1 }, q)
  | .clearCounters q => some ({ code := 18, operands := 1, lock := true }, q)
  | .readFaults q => some ({ code := 19, operands := 0, lock := true }, q)
  | .nodeReset q => some ({ code := 20, operands := 0, lock := true }, q)
  | .renumber q => some ({ code := 21, operands := 1, lock := true, manager := true }, q)
  | .ringReset q => some ({ code := 22, operands := 0, lock := true, manager := true }, q)
  | _ => none

/-- The request of a management command, unknown ones too. -/
def requestOf : Instr → Option MgmtRequest
  | .unknownCommand _ q => some q
  | i => (mgmtForm i).map (·.2)

/-! ### Retries (R82, R97) -/

/-- An entry with a retry spent is in BACKOFF; the oldest unaccepted posted write to a destination stalls it. -/
def State.withBackoff (s : State) (t : Tag) : State :=
  let e := s.rt.entries.get t
  { s with
    rt := { s.rt with
      entries := s.rt.entries.set t.val
        { e with
          state := .backoff
          responseTimer := .stopped
          backoffTimer := .running (s.ag.params.backoffUnit.toNat * (e.retry + 1))
          retry := e.retry + 1 } t.isLt }
    ord :=
      if e.kind = .postedWrite ∧ (s.postedRun e.dest).head? = some t then
        { s.ord with
          send := s.ord.send.set e.dest.toNat { s.ord.send.get e.dest.toFin with stalled := true } e.dest.isLt }
      else s.ord }

/-! ### Frames on the ring (R178) -/

/-- The ring address of a READ, WRITE or POSTED_WRITE is word-aligned, as every address that frames carry is (R178). -/
def Body.wordAligned : Body → Bool
  | .read _ p => p.addr.extractLsb' 0 2 == 0
  | .write _ p => p.addr.extractLsb' 0 2 == 0
  | .postedWrite _ p _ _ => p.addr.extractLsb' 0 2 == 0
  | _ => true

/-! ### Arrivals (R19, R21, R22) -/

/-- The command `i` brings the frame `f` to step 2 of the classifier of `s`: from RING IN, received whole with the
link UP and with a good check word, or as the oldest frame on the loop path; `u` is the state as the
classification begins. -/
def Arrival (i : Instr) (f : Frame) (s u : State) : Prop :=
  (∃ ws, i = .rxFrame ws .whole ∧ s.port.link = .up ∧ checkPasses ws = true ∧ frameOfWords ws.dropLast = some f ∧
      u = { s with
        now := s.now + 1
        port := { s.port with
          counters := { s.port.counters with rxFrames := bump s.port.counters.rxFrames } } }) ∨
    ∃ l, i = .loopArrival ∧ s.port.loopQ = f :: l ∧ u = { s with now := s.now + 1, port := { s.port with loopQ := l } }

/-- The frame is for this node (R27). -/
def State.forMe (s : State) (f : Frame) : Prop := s.en.ownId ≠ noNode ∧ f.dest = s.en.ownId

/-- The frame has come back to its source (R26). -/
def State.cameBack (s : State) (f : Frame) : Prop :=
  s.en.ownId ≠ noNode ∧ f.source = s.en.ownId ∧ f.dest ≠ s.en.ownId

/-- The number of ids in a set, as R177 numbers them. -/
def idCount (set : IdSet) : Nat := ((List.finRange 32).filter fun i => set.getLsbD i.val).length

/-! ### Requests for this node (R127, R128, R129) -/

/-- The inbound counters changed by `f`. -/
def State.counted (s : State) (f : InboundCounters → InboundCounters) : State :=
  { s with inb := { s.inb with counters := f s.inb.counters } }

/-- A REFUSE with a code answers the request `f`, whose tag and generation are `ref`. -/
def State.withRefusal (s : State) (f : Frame) (ref : Ref) (code : BitVec 4) : State :=
  s.withResponse (Frame.answer f.source f.dest
    (.refuse ref { code := code, present := false, unsynced := false, seq := 0 }))

/-- A request joins the inbound queue: its entry, the counts of its window, and INBOUND_ADMITTED (R126, R129). -/
def State.withEntry (s : State) (kind : InboundKind) (f : Frame) (ref : Ref) (p : Span) (w : Fin 16) : State :=
  let e := s.wt.iwt.get w
  { s with
    inb := { s.inb with
      queue := s.inb.queue ++
        [{ kind := kind
           source := f.source
           answering := f.dest
           tag := ref.tag
           gen := ref.gen
           address := e.localBase + (p.addr - e.ringBase).setWidth 32
           length := f.length.toNat
           first := p.first
           last := p.last
           data := if kind = .read then [] else f.payload
           window := w }]
      counters := { s.inb.counters with inboundAdmitted := bump s.inb.counters.inboundAdmitted } }
    wt := { s.wt with
      iwt := s.wt.iwt.set w.val { e with hits := bump e.hits, inFlight := e.inFlight + 1 } w.isLt } }

/-! ### Forwarding, and the manager's passes (R28, R39, R41, R43) -/

/-- The state after the frame `f` has been taken to be forwarded: at hop count 30 it is discarded, and otherwise its hop
count rises and it joins the forward queue, if that holds fewer than 4 (R28). -/
def State.withForward (s : State) (f : Frame) : State :=
  if f.hop = 30 then
    { s with port := { s.port with counters := { s.port.counters with hopLimit := bump s.port.counters.hopLimit } } }
  else if s.port.forwardQ.length < 4 then
    { s with port := { s.port with forwardQ := s.port.forwardQ ++ [{ f with hop := f.hop + 1 }] } }
  else
    { s with port :=
      { s.port with counters := { s.port.counters with forwardOverrun := bump s.port.counters.forwardOverrun } } }

/-- The ENUM that the manager presents: its pass code, and the run's keep, attempt, set and count, with clear flags
(R13, R39). -/
def State.enumFrame (s : State) (pass : BitVec 2) : Frame :=
  { dest := 31
    source := s.en.ownId
    hop := 0
    length := 1
    body := .enumPass
      { pass := pass
        keep := s.en.runKeep
        attempt := s.en.attempt
        duplicate := false
        overflow := false
        count := s.en.runCount
        serial := s.serial
        taken := s.en.runSet }
    payload := [] }

/-- The manager has begun a pass: attempt 1, flags clear, its frame presented (over a waiting frame by log 18). -/
def State.withPass (s : State) (state : EnumState) (pass : BitVec 2) : State :=
  let v : State :=
    { s with en := { s.en with
      attempt := 1
      duplicateFlag := false
      overflowFlag := false
      passTimer := .stopped
      state := state } }
  v.withControl (v.enumFrame pass)

/-- Renumbering without keep (R39, R40): every request ends RENUMBERED, the sequence tables lose their synchronisation, and
an ASSIGNED node drops its id. -/
def State.withoutIds (s : State) : State :=
  let a := s.abort .renumbered
  { a with
    ord := { a.ord with
      send := a.ord.send.map fun e => { e with syncNeeded := true }
      recv := Vector.replicate 32 RecvEntry.reset }
    en := if a.en.idMode = .assigned then { a.en with ownId := 0, role := .unnumbered } else a.en }

/-- The manager has started a run with `keep` (R39): the run's fields, the effects of renumbering without keep, and the
CENSUS pass. -/
def State.withRun (s : State) (keep : Bool) : State :=
  let a : State :=
    { s with en := { s.en with
      runPending := none
      runKeep := keep
      attempt := 1
      counters := { s.en.counters with runsStarted := bump s.en.counters.runsStarted } } }
  let b := if keep then a else a.withoutIds
  State.withPass
    { b with en := { b.en with
      runSet := if b.en.ownId = 0 then 0 else BitVec.twoPow 32 b.en.ownId.toNat
      runCount := if b.en.ownId = 0 then 0 else 1 } } .passCensus 1

/-! ### A RING reset (R35, R50, R70, R93, R111, R125, R136, R154, R169, R176) -/

/-- Enumeration after a RING reset (R50, R51). -/
def Enumeration.afterRingReset (e : Enumeration) (up : Bool) : Enumeration :=
  { e with
    holdWithdrawn := false
    ownId := if e.idMode = .strapped then e.strappedId else noNode
    role := if e.idMode = .strapped then .provisional else .unnumbered
    census := 0
    censusCount := 0
    state := if e.manager then .settling else e.state
    runPending := if e.manager then some false else e.runPending
    runKeep := false
    attempt := 1
    runSet := if e.idMode = .strapped ∧ e.strappedId ≠ noNode then BitVec.twoPow 32 e.strappedId.toNat else 0
    runCount := if e.idMode = .strapped ∧ e.strappedId ≠ noNode then 1 else 0
    duplicateFlag := false
    overflowFlag := false
    settle := if e.manager then (if up then .running 20000 else .stopped) else e.settle
    passTimer := .stopped
    resetOutstanding := false
    returnTimer := .stopped }

/-- The records of the posted writes in the inbound queue that a NODE or RING reset discards (R136). -/
def State.discardRecords (s : State) : List FaultRecord :=
  (s.inb.queue.filter fun e => e.kind == .postedWrite).map fun e =>
    { kind := .postedDiscarded
      node := some e.source
      tag := some e.tag
      index := some (BitVec.ofNat 6 e.window.val)
      address := some (e.address.setWidth 40) }

/-- The tracker after every entry has been freed without a result (R93). -/
def Tracker.afterReset (r : Tracker) : Tracker :=
  { r with
    entries := r.entries.map fun e => { e with state := .free, responseTimer := .stopped, backoffTimer := .stopped }
    freeList := r.freeList ++ (List.finRange 32).filter fun t => (r.entries.get t).state != .free
    allocOrder := [] }

/-- The whole part after its RING reset, the firings it brings taken: FAULT_RECORDED joins the empty pending set, for
its route is LINE0 again (R170, R171), the ATTN codes' routes are OFF, and the inputs have been compared (R173). -/
def State.afterRingReset (s : State) : State :=
  { s with
    port := { s.port with
      forwardQ := []
      responseQ := []
      offer := none
      control := none
      forwardRun := 0
      responseRun := 0
      counters := { s.port.counters with
        txDiscarded := bumpBy (s.port.forwardQ.length + s.port.responseQ.length +
          (if s.port.control.isSome then 1 else 0)) s.port.counters.txDiscarded } }
    en := s.en.afterRingReset (s.port.link == .up)
    wt := WindowTables.reset
    rt := s.rt.afterReset
    ord := { SequenceTables.reset with counters := s.ord.counters }
    lt := { LocalTarget.reset with termination := s.lt.termination, counters := s.lt.counters }
    inb := { s.inb with queue := [], current := none, held := none }
    ag :=
      let a := s.discardRecords.foldl Agent.withRecord (s.ag.withRecord { kind := .ringReset })
      { Agent.reset with faults := a.faults, overflow := a.overflow, counters := s.ag.counters }
    bm := { Mover.reset with turn := s.bm.turn, counters := s.bm.counters }
    ev := { s.ev with
      routes := Vector.ofFn RouteEntry.reset
      pendingSet := 0x20
      attnRecorded := if s.localResetIn then 0 else s.ev.attnInput
      ring := Vector.replicate 19 RingRoute.reset
      inbox := [] } }

/-- The claimants of the local master, from the one after the one served last: the inbound queue, channel A, channel B
(R130). -/
def busRotation : BusClaimant → List BusClaimant
  | .inbound => [.channel .a, .channel .b, .inbound]
  | .channel .a => [.channel .b, .inbound, .channel .a]
  | .channel .b => [.inbound, .channel .a, .channel .b]

/-! ### The mover's channels (R160, R165, R166) -/

/-- A channel replaced. -/
def State.withChannel (s : State) (c : ChannelId) (ch : Channel) : State :=
  { s with bm := match c with
    | .a => { s.bm with chA := ch }
    | .b => { s.bm with chB := ch } }

/-- Whether a slot of the mover waits for a tracker entry: the mover then stands as a claim already (R76, R163). -/
def State.moverWaits (s : State) : Bool :=
  [s.bm.chA, s.bm.chB].any fun ch => ch.slots.toList.any fun sl => sl.state == .ringPending && sl.tag.isNone

/-- The mover asks for what its slots need, unless it stood before: then the rotation tries it (R77, R163, log 6). -/
def State.withMoverAsks (s : State) (stood : Bool) : State := if stood then s else s.moverAsks 16

/-- The slots of a released channel (R165): a LOCAL_PENDING slot that the local master has not taken, and a RING_PENDING
slot without a tag, are FREE. -/
def State.releasedSlots (s : State) (c : ChannelId) : Table Slot 8 :=
  Vector.ofFn fun i =>
    let sl := (s.chan c).slots.get i
    let taken := s.inb.current.any fun tx => tx.owner == .mover c i
    if (sl.state = .localPending ∧ taken = false) ∨ (sl.state = .ringPending ∧ sl.tag = none) then
      { sl with state := .free, data := [], tag := none, detached := false, entered := s.now }
    else sl

/-- A channel is stopped (R165): released, it is STOPPING while a slot that is not detached is busy, and otherwise IDLE,
when MOVE_IDLE fires. -/
def State.withStop (s : State) (c : ChannelId) : State :=
  let slots := s.releasedSlots c
  let busy : Bool := slots.toList.any fun sl => sl.state != .free && !sl.detached
  let v := s.withChannel c { s.chan c with state := if busy then .stopping else .idle, slots := slots }
  { v with firings := if busy then s.firings else s.firings ++ [codeMoveIdle c] }

/-- A channel halts (R166): released, with its halt record, a MOVE_HALT record and the event MOVE_HALT. -/
def State.withHalt (s : State) (c : ChannelId) (offset : Nat) (result : Option Detail) : State :=
  let index := (s.chan c).current.getD 0
  let v := s.withChannel c
    { s.chan c with state := .halted, slots := s.releasedSlots c, halt := some ⟨index, offset, result⟩ }
  { v with
    ag := s.ag.withRecord
      { kind := .moveHalt
        index := some (BitVec.ofNat 6 index.val)
        address := some (BitVec.ofNat 40 offset)
        detail := result }
    firings := s.firings ++ [5, codeMoveHalt c] }

/-! ### The local target (R112, R116) -/

/-- A local transaction has ended. -/
def State.ended (s : State) (t : Termination) : State := { s with lt := { s.lt with termination := some t } }

/-- An outbound access has ended FAULT: it is counted, and the last local fault item holds its cause and address. -/
def State.faulted (s : State) (cause : LocalCause) (addr : Word) : State :=
  { s with lt := { s.lt with
    counters := { s.lt.counters with localFaults := bump s.lt.counters.localFaults }
    lastFault := some (cause, addr)
    termination := some .fault } }

/-! ### Replies as they are placed (R30, R138) -/

/-- The agent's reply, with its purpose, placed in the queue, discarded while the link is not UP, or held for want of
room; placed, the agent is IDLE unless a NODE reset is pending. -/
def State.replied (s : State) (f : Frame) (p : Purpose) : State :=
  let after : AgentState := if s.ag.resetPending then .executing else .idle
  if 8 ≤ s.port.responseQ.length then
    { s with ag := { s.ag with heldReply := some ⟨f, p, s.now⟩, state := .executing } }
  else if s.port.link = .up ∨ f.dest = s.en.ownId then
    { s with
      port := { s.port with responseQ := s.port.responseQ ++ [⟨f, p⟩] }
      ag := { s.ag with heldReply := none, state := after } }
  else
    { s with
      port := { s.port with counters := { s.port.counters with txDiscarded := bump s.port.counters.txDiscarded } }
      ag := { s.ag with heldReply := none, state := after }
      left := if p = .plain then s.left else s.left ++ [p] }

/-- The command ends with OK: its owner's lease restarts, and the reply is placed (R138, R139). -/
def State.repliedOk (s : State) (code : BitVec 8) (q : MgmtRequest) (p : Purpose) : State :=
  (s.withLease q.source).replied (replyFrame q.source q.dest q.tag q.gen code .ok []) p

/-! ### Invariants -/

/-- The queues hold no more than the spec gives them room for: the forward queue 4 (R28), the response insertion
queue 8 (R30), the inbound queue 8 (R126), the fault queue 16 and its overflow count 255 (R147), the event inbox 16
(R175), and the run counts 4 and 8 (R32, R33). -/
def Bounded (s : State) : Prop :=
  s.port.forwardQ.length ≤ 4 ∧ s.port.responseQ.length ≤ 8 ∧ s.inb.queue.length ≤ 8 ∧
    s.ag.faults.length ≤ 16 ∧ s.ag.overflow ≤ 255 ∧ s.ev.inbox.length ≤ 16 ∧
    s.port.forwardRun ≤ 4 ∧ s.port.responseRun ≤ 8

/-- The ids are legal (R2, R36, R37): the own id is 0 exactly while the role is UNNUMBERED and is never 31, a
STRAPPED node has a strapped id from 1 to 30, and a node without the manager flag is IDLE with no run pending. -/
def IdsLegal (e : Enumeration) : Prop :=
  (e.ownId = noNode ↔ e.role = .unnumbered) ∧ e.ownId ≠ allNodes ∧
    (e.idMode = .strapped → isNode e.strappedId = true) ∧
    (e.manager = false → e.state = .idle ∧ e.runPending = none)

/-- The agent is sound (R138, R152): while a NODE reset is pending or a reply is held it is EXECUTING. -/
def AgentSound (a : Agent) : Prop :=
  (a.resetPending = true → a.state = .executing) ∧ (a.heldReply.isSome = true → a.state = .executing)

/-- An outbound entry is sound (R52, R53, R63): a RETIRING entry has requests in flight, and an entry that is not
EMPTY has the size, alignment and destination that SET_WINDOW tests. -/
def OwtEntry.sound (e : OwtEntry) : Prop :=
  (e.state = .retiring → 0 < e.inFlight) ∧ (e.state ≠ .empty → e.valid = true)

/-- An inbound entry is sound (R52, R54, R63). -/
def IwtEntry.sound (e : IwtEntry) : Prop :=
  (e.state = .retiring → 0 < e.inFlight) ∧ (e.state ≠ .empty → e.valid = true)

/-- Two outbound entries have no common local address, unless one is EMPTY (R55). -/
def OwtEntry.apart (e e' : OwtEntry) : Prop :=
  e.state = .empty ∨ e'.state = .empty ∨
    rangesOverlap e.localBase.toNat e.sizeExp e'.localBase.toNat e'.sizeExp = false

/-- Two inbound entries have no common ring address, unless one is EMPTY (R55). -/
def IwtEntry.apart (e e' : IwtEntry) : Prop :=
  e.state = .empty ∨ e'.state = .empty ∨
    rangesOverlap e.ringBase.toNat e.sizeExp e'.ringBase.toNat e'.sizeExp = false

/-- The window tables are sound: every entry is, and no two entries of one table overlap (R55). -/
def WindowsSound (w : WindowTables) : Prop :=
  (∀ i, (w.owt.get i).sound) ∧ (∀ i, (w.iwt.get i).sound) ∧
    (∀ i j, i ≠ j → (w.owt.get i).apart (w.owt.get j)) ∧
    (∀ i j, i ≠ j → (w.iwt.get i).apart (w.iwt.get j))

end Sys2Proof.Machine
end

