-- ==== Sys2Proof/Certificates/Slice0/Obligations.lean ====
section
/-! DEFINITION. The statements for the provers. `Rest` is the state of the part between two events; every step keeps it
(O4) and it holds after reset (O9). The events number themselves: `now` is one more after an event. -/

open Sys2Proof Sys2Proof.Machine

/-! ### The machine -/

/-- A step takes the command at the front of the queue and runs it on the state with the queue's rest; with no command
the block idles (log 3). -/
def Obligations.StepTakesFrontCommand : Prop :=
  (∀ (s : State) (c : Instr) (rest : List Instr), s.pending = c :: rest →
      step s = exec c { s with pending := rest }) ∧
    ∀ s : State, s.pending = [] → step s = .next s

/-- No command stops the part (log 4). -/
def Obligations.EveryCommandGoesOn : Prop := ∀ (i : Instr) (s : State), ∃ t, exec i s = .next t

/-- What no command changes: the queue and the serial; what the straps gave, but at a POWER-ON reset (R36, R51); the
reset pin, but by its own two commands. That a POWER-ON reset too keeps the serial, the queue and the pin is the
model's choice (log 23). -/
def Obligations.CommandsKeepQueueSerialAndStraps : Prop :=
  ∀ (i : Instr) (s t : State), exec i s = .next t →
    t.pending = s.pending ∧ t.serial = s.serial ∧
      ((∀ st, i ≠ .powerOnReset st) →
        t.en.manager = s.en.manager ∧ t.en.idMode = s.en.idMode ∧ t.en.strappedId = s.en.strappedId) ∧
      (i ≠ .localReset → i ≠ .localResetRelease → t.localResetIn = s.localResetIn)

/-- Between events nothing is left to do: no firing or report waits, no claim can be granted, nothing waits for room
that is there, and an IDLE local master has nobody to serve (R77, R78, R79, R29, R30, R130; log 5). That a mover whose
presented slot has changed is tried again in that event, without a freeing, is log 51's. -/
def Obligations.StepKeepsRest : Prop := ∀ s t : State, Rest s → step s = .next t → Rest t

/-- The queues never hold more than their room (R28, R30, R126, R147, R175), nor the run counts more than theirs
(R32, R33). -/
def Obligations.StepKeepsBounds : Prop := ∀ s t : State, Bounded s → step s = .next t → Bounded t

/-- The window tables stay sound: entries that are not EMPTY are as SET_WINDOW tested them, a RETIRING one has requests
in flight (R52), and no two overlap (R55). -/
def Obligations.StepKeepsWindowsSound : Prop :=
  ∀ s t : State, WindowsSound s.wt → step s = .next t → WindowsSound t.wt

/-- The ids stay legal: the own id is 0 exactly in role UNNUMBERED and is never 31, and a node that is no manager has no
run (R2, R36, R37, section 3.2). -/
def Obligations.StepKeepsIdsLegal : Prop := ∀ s t : State, IdsLegal s.en → step s = .next t → IdsLegal t.en

/-- An agent with a held reply or a pending NODE reset stays EXECUTING (R137, R138, R152). -/
def Obligations.StepKeepsAgentSound : Prop := ∀ s t : State, AgentSound s.ag → step s = .next t → AgentSound t.ag

/-- The state after reset meets every invariant. -/
def Obligations.ResetMeetsInvariants : Prop :=
  Rest State.reset ∧ Bounded State.reset ∧ WindowsSound State.reset.wt ∧ IdsLegal State.reset.en ∧
    AgentSound State.reset.ag

/-- What a POWER-ON reset leaves, field by field, as the rules state it (R18, R35, R51 to R54, R93, R111, R118, R125,
R136, R144, R154, R155, R157, R158, R169, R171, R176). The model's choices are the straps of `State.reset` (log 1) and
the zero of every field whose reset value no rule states: the fields of a FREE tracker entry, delayed slot and buffer
slot, and a channel's next offset (log 24). -/
def Obligations.ResetStateValues : Prop :=
  let s := State.reset
  s.port.link = .down ∧ s.port.lockLossTimer = .stopped ∧ s.port.lockHoldTimer = .stopped ∧
    s.port.forwardQ = [] ∧ s.port.responseQ = [] ∧ s.port.offer = none ∧ s.port.control = none ∧
    s.port.forwardRun = 0 ∧ s.port.responseRun = 0 ∧ s.port.counters = {} ∧
    s.en.holdWithdrawn = false ∧ s.en.census = 0 ∧ s.en.censusCount = 0 ∧ s.en.settle = .stopped ∧
    s.en.passTimer = .stopped ∧ s.en.returnTimer = .stopped ∧ s.en.resetOutstanding = false ∧ s.en.counters = {} ∧
    (∀ i, s.wt.owt.get i =
      { state := .empty, localBase := 0, sizeExp := 12, dest := 0, ringBase := 0, posted := true, readAllowed := false,
        writeAllowed := false, laneOrder := .asIs, inFlight := 0, hits := 0 }) ∧
    (∀ i, s.wt.iwt.get i =
      { state := .empty, ringBase := 0, sizeExp := 12, localBase := 0, laneOrder := .asIs, readAllowed := false,
        writeAllowed := false, postedAllowed := false, sources := 0, inFlight := 0, hits := 0 }) ∧
    (∀ t, (s.rt.entries.get t).state = .free ∧ (s.rt.entries.get t).gen = 0 ∧
      (s.rt.entries.get t).responseTimer = .stopped ∧ (s.rt.entries.get t).backoffTimer = .stopped ∧
      (s.rt.entries.get t).window = none ∧ (s.rt.entries.get t).retry = 0 ∧ (s.rt.entries.get t).sentOnce = false) ∧
    s.rt.freeList = List.finRange 32 ∧ s.rt.allocOrder = [] ∧ s.rt.lastClaimant = .mover ∧ s.rt.counters = {} ∧
    (∀ d, s.ord.send.get d = { next := 0, oldest := 0, count := 0, syncNeeded := true, stalled := false }) ∧
    (∀ d, (s.ord.recv.get d).synced = false ∧ (s.ord.recv.get d).expected = 0 ∧ (s.ord.recv.get d).mark = none) ∧
    s.ord.counters = {} ∧
    (∀ i, s.lt.slots.get i =
      { state := .free, key := { dir := .read, address := 0, count := 0, first := 0, last := 0, data := [] }
        window := 0, tag := 0, result := .ok, data := [], discardTimer := .stopped }) ∧
    s.lt.lastFault = none ∧ s.lt.latch = none ∧
    (∀ i, s.lt.requestArea.get i = 0) ∧ s.lt.counters = {} ∧
    s.inb.queue = [] ∧ s.inb.current = none ∧ s.inb.held = none ∧ s.inb.lastServed = .channel .b ∧
    s.inb.counters = {} ∧
    s.ag.state = .idle ∧ s.ag.heldReply = none ∧ s.ag.deferred = none ∧ s.ag.resetPending = false ∧
    s.ag.lockOwner = noNode ∧ s.ag.leaseTime = 1 ∧ s.ag.leaseAction = .none ∧ s.ag.leaseTimer = .stopped ∧
    s.ag.holdTimer = .stopped ∧ s.ag.params = ⟨1024, 6, 8, 32, 256, 32⟩ ∧ s.ag.faults = [] ∧ s.ag.overflow = 0 ∧
    s.ag.issue = { state := .empty, dest := 0, length := 0, words := [], result := none, reply := [] } ∧
    s.ag.counters = {} ∧
    (∀ i, s.bm.descriptors.get i =
      { loaded := false, pull := false, node := 0, remote := 0, localAddr := 0, length := 1, frameSize := 16
        remoteFixed := false, localFixed := false, laneOrder := .asIs, notify := false, next := none }) ∧
    (∀ c, (s.chan c).state = .idle ∧ (s.chan c).current = none ∧ (s.chan c).remaining = 0 ∧
      (s.chan c).nextOffset = 0 ∧ (s.chan c).remote = 0 ∧ (s.chan c).localAddr = 0 ∧ (s.chan c).completed = 0 ∧
      (s.chan c).halt = none ∧ ∀ i, (s.chan c).slots.get i =
        { state := .free, offset := 0, count := 0, remote := 0, localAddr := 0, laneOrder := .asIs, data := []
          tag := none, detached := false, entered := 0, pull := false, node := 0 }) ∧
    s.bm.turn = .b ∧ s.bm.counters = {} ∧
    (∀ c : EventCode, s.ev.routes.get c =
      { route := if c.val ≤ 14 then .line0 else .off, dest := 0, number := 0, level := false }) ∧
    s.ev.pendingSet = 0 ∧ s.ev.attnRecorded = 0 ∧ (∀ c, s.ev.ring.get c = ⟨none, 0⟩) ∧ s.ev.lastGranted = 18 ∧
    s.ev.inbox = [] ∧ s.ev.counters = {} ∧ s.pending = []

/-! ### Frames -/

/-- A frame's words read back as the frame, whatever its fields, if its ring address is word-aligned (R178); its check
word passes (R16), and it is the last of its words on the ring. -/
def Obligations.FrameWordsReadBack : Prop :=
  ∀ f : Frame, f.body.wordAligned = true →
    frameOfWords f.words = some f ∧ checkPasses f.onRing = true ∧ f.onRing.dropLast = f.words

/-- Words written out from the layouts of R178: a READ of 2 words at 12345678CH from node 3 to node 9, tag 14,
generation 2, first mask FH, last mask 3H; a POSTED_WRITE with sequence 5 and the sync flag; a REFUSE RETRY_ORDER that
expects 7; an ENUM; and a RING_RESET. A word of kind code 0 holds no frame. The last clauses spell the check word bit by
bit (R16) and compute one; both rest on the order of the bits of the register, which the model takes as the customary
one (log 30). -/
def Obligations.FrameWordsDecode : Prop :=
  frameOfWords [0x148C0201, 0x74F30000, 0x2345678C] =
      some ⟨9, 3, 0, 2, .read ⟨14, 2⟩ ⟨0x012345678C, 0xF, 3⟩, []⟩ ∧
    frameOfWords [0x340CE1FF, 0xFEFF0501, 0xFFFFFFFC, 0xAABBCCDD] =
      some ⟨8, 3, 7, 1, .postedWrite ⟨31, 3⟩ ⟨0xFFFFFFFFFC, 0xF, 0xF⟩ 5 true, [0xAABBCCDD]⟩ ∧
    frameOfWords [0x81A40100, 0x0A000287] = some ⟨3, 9, 0, 1, .refuse ⟨1, 1⟩ ⟨2, true, false, 7⟩, []⟩ ∧
    frameOfWords [0xAF840100, 0x6C020000, 0x11223344, 0x0000000A] =
      some ⟨31, 1, 0, 1, .enumPass ⟨1, true, 1, true, false, 2, 0x11223344, 0x0000000A⟩, []⟩ ∧
    frameOfWords [0xBF840100, 0x11223344] = some ⟨31, 1, 0, 1, .ringReset 0x11223344, []⟩ ∧
    frameOfWords [0x00000100, 0] = none ∧
    (∀ ws : List Word,
      let bits := ws.flatMap fun w => (List.range 32).map w.getLsbD
      let feed (reg : Word) (bit : Bool) : Word :=
        if reg.getLsbD 0 = bit then reg >>> 1 else (reg >>> 1) ^^^ 0xEDB88320
      checkWord ws = ~~~(bits.foldl feed 0xFFFFFFFF)) ∧
    checkWord [0x34333231, 0x38373635] = 0x9AE0DAAF

/-- The four lane orders (R56): which byte each lane of the result holds, with the mask permuted alike; each is its own
inverse, and two in either sequence give the composite of the table. -/
def Obligations.LaneOrders : Prop :=
  (∀ b0 b1 b2 b3 : BitVec 8,
      laneWord .asIs (b3 ++ b2 ++ b1 ++ b0) = b3 ++ b2 ++ b1 ++ b0 ∧
      laneWord .swapWord (b3 ++ b2 ++ b1 ++ b0) = b0 ++ b1 ++ b2 ++ b3 ∧
      laneWord .swapHalves (b3 ++ b2 ++ b1 ++ b0) = b1 ++ b0 ++ b3 ++ b2 ∧
      laneWord .swapPairs (b3 ++ b2 ++ b1 ++ b0) = b2 ++ b3 ++ b0 ++ b1) ∧
    (∀ m0 m1 m2 m3 : BitVec 1,
      laneMask .asIs (m3 ++ m2 ++ m1 ++ m0) = m3 ++ m2 ++ m1 ++ m0 ∧
      laneMask .swapWord (m3 ++ m2 ++ m1 ++ m0) = m0 ++ m1 ++ m2 ++ m3 ∧
      laneMask .swapHalves (m3 ++ m2 ++ m1 ++ m0) = m1 ++ m0 ++ m3 ++ m2 ∧
      laneMask .swapPairs (m3 ++ m2 ++ m1 ++ m0) = m2 ++ m3 ++ m0 ++ m1) ∧
    (∀ (o : LaneOrder) (w : Word) (m : Mask), laneWord o (laneWord o w) = w ∧ laneMask o (laneMask o m) = m) ∧
    (∀ (o p : LaneOrder) (w : Word) (m : Mask),
      laneWord p (laneWord o w) = laneWord (laneCompose o p) w ∧
        laneMask p (laneMask o m) = laneMask (laneCompose o p) m ∧
        laneWord p (laneWord o w) = laneWord o (laneWord p w) ∧
        laneMask p (laneMask o m) = laneMask o (laneMask p m)) ∧
    laneCompose .swapWord .swapHalves = .swapPairs ∧ laneCompose .swapWord .swapPairs = .swapHalves ∧
    laneCompose .swapHalves .swapPairs = .swapWord ∧ (∀ o, laneCompose o .asIs = o) ∧ ∀ o, laneCompose o o = .asIs


/-! ### Pins and resets -/

/-- POWER-ON (R36): the straps are sampled, an id of 1 to 30 with correct parity is the STRAPPED id, the value 31 or a
wrong parity is a STRAP_FAULT; everything else is at its reset value (fields that no rule names are zero, logs 24 and
32), but for the serial, the pins and the queue (log 23). The run set and count hold the strapped id, as at the start of
a run (log 19). When the reset ends the attention inputs are compared (R173; the moment is log 17's): their codes are
routed nowhere then. -/
def Obligations.PowerOnReset : Prop :=
  ∀ (st : Straps) (s : State),
    let odd := st.par ^^ st.id.getLsbD 0 ^^ st.id.getLsbD 1 ^^ st.id.getLsbD 2 ^^ st.id.getLsbD 3 ^^ st.id.getLsbD 4
    let strapped := odd && st.id != 0 && st.id != 31
    let fault := !odd || st.id == 31
    exec (.powerOnReset st) s = .next
      { State.reset with
        serial := s.serial
        localResetIn := s.localResetIn
        now := s.now + 1
        pending := s.pending
        en := { Enumeration.reset with
          manager := st.mgr
          idMode := if strapped then .strapped else .assigned
          strappedId := if strapped then st.id else 0
          ownId := if strapped then st.id else 0
          role := if strapped then .provisional else .unnumbered
          state := if st.mgr then .settling else .idle
          runPending := if st.mgr then some false else none
          runSet := if strapped then BitVec.twoPow 32 st.id.toNat else 0
          runCount := if strapped then 1 else 0 }
        ag := { Agent.reset with faults := if fault then [{ kind := .strapFault }] else [] }
        ev := { Events.reset with
          attnInput := s.ev.attnInput
          attnRecorded := if s.localResetIn then 0 else s.ev.attnInput
          pendingSet := if fault then 0x20 else 0 } }

/-- LOCAL_RESET_RELEASE (R124, R130, R135, R173): the pin is released; the attention inputs are compared with their
recorded levels, and those that have risen fire (in the same event, ATTN0 first: log 17); and an IDLE local master takes
the next present claimant in the rotation, where one that is not IDLE takes none. A pin that is not asserted is not
released (log 4). -/
def Obligations.LocalResetReleaseServesBus : Prop :=
  (∀ s : State, Rest s →
    let u : State :=
      { s with now := s.now + 1, localResetIn := false, ev := { s.ev with attnRecorded := s.ev.attnInput } }
    let risen : List EventCode :=
      [(15, 0), (16, 1), (17, 2), (18, 3)].filterMap fun (c, i) =>
        if s.ev.attnInput.getLsbD i = true ∧ s.ev.attnRecorded.getLsbD i = false then some c else none
    (s.localResetIn = false → exec .localResetRelease s = .next s) ∧
    (s.localResetIn = true → risen = [] → exec .localResetRelease s = .next u.takeBus) ∧
    (s.localResetIn = true → exec .localResetRelease s = .next (State.endOfEvent { u with firings := risen }))) ∧
  ∀ s : State,
    (s.localResetIn = true ∨ s.inb.current.isSome = true ∨ s.inb.held.isSome = true → s.takeBus = s) ∧
    (s.localResetIn = false → s.inb.current = none → s.inb.held = none →
      ((∀ c, s.claimantOp c = none) → s.takeBus = s) ∧
      ∀ pre c post tx, busRotation s.inb.lastServed = pre ++ c :: post → (∀ x ∈ pre, s.claimantOp x = none) →
        s.claimantOp c = some tx →
        s.takeBus = { s with inb := { s.inb with current := some tx, lastServed := c } }) ∧
    (∀ e l, s.inb.queue = e :: l →
      s.claimantOp .inbound = some
        { owner := .inbound
          dir := if e.kind = .read then .read else .write
          address := e.address
          count := e.length
          first := laneMask (s.wt.iwt.get e.window).laneOrder e.first
          last := laneMask (s.wt.iwt.get e.window).laneOrder e.last
          data := e.data.map (laneWord (s.wt.iwt.get e.window).laneOrder)
          reattempts := 0
          cycleTimer := .running s.ag.params.localCycleLimit.toNat
          delayTimer := .stopped }) ∧
    (s.inb.queue = [] → s.claimantOp .inbound = none) ∧
    ∀ c : ChannelId,
      let slots := (s.chan c).slots
      let wants (i : Fin 8) : Prop := (slots.get i).state = .localPending ∨ (slots.get i).state = .landing
      ((∀ i, ¬wants i) → s.claimantOp (.channel c) = none) ∧
      ∀ i, wants i →
        (∀ j, wants j → (slots.get i).entered < (slots.get j).entered ∨
          ((slots.get i).entered = (slots.get j).entered ∧ i ≤ j)) →
        let sl := slots.get i
        let landing := sl.state = .landing
        s.claimantOp (.channel c) = some
          { owner := .mover c i
            dir := if landing then .write else .read
            address := sl.localAddr
            count := sl.count
            first := 15
            last := 15
            data := if landing then sl.data else []
            reattempts := 0
            cycleTimer := .running s.ag.params.localCycleLimit.toNat
            delayTimer := .stopped }

/-- ATTN_CHANGE (R173): the input takes the level. While LOCAL_RESET_IN is asserted, or when the recorded level is the
same, nothing else happens; otherwise the level is recorded, and a change to asserted fires the input's code, 15 to 18.
-/
def Obligations.AttnChange : Prop :=
  ∀ (i : Fin 4) (level : Bool) (s : State), Rest s →
    let put (v : BitVec 4) : BitVec 4 :=
      if level then v ||| BitVec.twoPow 4 i.val else v &&& ~~~(BitVec.twoPow 4 i.val)
    let u : State := { s with now := s.now + 1, ev := { s.ev with attnInput := put s.ev.attnInput } }
    let v : State := { u with ev := { u.ev with attnRecorded := put s.ev.attnRecorded } }
    (s.localResetIn = true ∨ s.ev.attnRecorded.getLsbD i.val = level → exec (.attnChange i level) s = .next u) ∧
    (s.localResetIn = false → s.ev.attnRecorded.getLsbD i.val = true → level = false →
      exec (.attnChange i level) s = .next v) ∧
    (s.localResetIn = false → s.ev.attnRecorded.getLsbD i.val = false → level = true →
      let cs : List EventCode := [⟨15 + i.val, by omega⟩]
      let t := State.endOfEvent { v with firings := cs }
      exec (.attnChange i level) s = .next t ∧ Settled cs v t)

/-- The firings of an event are taken in their order (R170), each by its code's route (R171, R172, R174): OFF takes
nothing, a line route puts the code in the pending set, and a line is asserted while the set holds a code of that
route. Of a code routed to the ring, with an entry outstanding or the code held, the refire count rises, to 255 at most;
otherwise an EVENT request of count 1 is allocated to the head of the free list, or, refused, the code is held with
refire count 1. -/
def Obligations.RingRouteFires : Prop :=
  (∀ s : State,
    (s.firings = [] → s.takeFirings = s) ∧
    (∀ c l, s.firings = c :: l →
      s.takeFirings = State.takeFirings { State.takeFiring { s with firings := [] } c with firings := l }) ∧
    (s.evtLine0 = true ↔ ∃ c : EventCode, s.ev.pendingSet.getLsbD c.val = true ∧ (s.ev.routes.get c).route = .line0) ∧
    (s.evtLine1 = true ↔ ∃ c : EventCode, s.ev.pendingSet.getLsbD c.val = true ∧ (s.ev.routes.get c).route = .line1) ∧
    ∀ c : EventCode,
      let r := (s.ev.routes.get c).route
      (r.isLine = true ↔ r = .line0 ∨ r = .line1) ∧
      (r = .off → s.takeFiring c = s) ∧
      (r = .line0 ∨ r = .line1 → s.takeFiring c =
        { s with ev := { s.ev with pendingSet := s.ev.pendingSet ||| BitVec.twoPow 19 c.val } })) ∧
  ∀ (s : State) (c : EventCode), (s.ev.routes.get c).route = .ring →
    let k := s.ev.ring.get c
    ((k.tag.isSome = true ∨ 0 < k.refire) → s.takeFiring c =
      { s with ev := { s.ev with
          ring := s.ev.ring.set c.val { k with refire := min 255 (k.refire + 1) } c.isLt
          counters := { s.ev.counters with refireCoalesced := bump s.ev.counters.refireCoalesced } } }) ∧
    (k.tag = none → k.refire = 0 → (s.en.role ≠ .numbered ∨ s.rt.freeList = []) → s.takeFiring c =
      { s with ev := { s.ev with ring := s.ev.ring.set c.val { k with refire := 1 } c.isLt } }) ∧
    (k.tag = none → k.refire = 0 → s.en.role = .numbered → ∀ x rest, s.rt.freeList = x :: rest → s.takeFiring c =
      { s with
        rt := { s.rt with
          freeList := rest
          allocOrder := s.rt.allocOrder ++ [x]
          entries := s.rt.entries.set x.val
            { state := if s.postedRun (s.ev.routes.get c).dest = [] then .ready else .orderWait
              originator := .event c
              kind := .event
              dest := (s.ev.routes.get c).dest
              addr := 0
              length := 1
              first := 0
              last := 0
              payload := []
              seq := 0
              sync := false
              number := (s.ev.routes.get c).number
              count := 1
              window := none
              gen := (s.rt.entries.get x).gen + 1
              retry := 0
              responseTimer := .stopped
              backoffTimer := .stopped
              sentOnce := false } x.isLt }
        ev := { s.ev with
          ring := s.ev.ring.set c.val { k with tag := some x } c.isLt
          counters := { s.ev.counters with ringEvents := bump s.ev.counters.ringEvents } } })

/-! ### The link -/

/-- How the link moves up (R18, R20, R38): lock gained in DOWN starts LOCKING and the lock-hold timer, and lost in
LOCKING leads back to DOWN; in UP a loss starts the lock-loss timer, unless it runs, and a gain stops it. A gain in
LOCKING and a loss in DOWN find the lock as it was (log 22) and have no effect (log 4). The lock-hold timer's expiry
enters UP and fires LINK_UP; the manager starts its settle timer and takes a keep trigger, which merges with a pending
one. A stopped timer does not expire (log 4). -/
def Obligations.LinkComesUp : Prop :=
  ∀ s : State,
    (s.port.link = .down →
      exec .lockAcquired s = .next { s with port := { s.port with link := .locking, lockHoldTimer := .running 100 } } ∧
      exec .lockLost s = .next s) ∧
    (s.port.link = .locking →
      exec .lockAcquired s = .next s ∧
      exec .lockLost s = .next { s with port := { s.port with link := .down, lockHoldTimer := .stopped } }) ∧
    (s.port.link = .up →
      exec .lockAcquired s = .next { s with port := { s.port with lockLossTimer := .stopped } } ∧
      (s.port.lockLossTimer = .stopped →
        exec .lockLost s = .next { s with port := { s.port with lockLossTimer := .running 1000 } }) ∧
      (s.port.lockLossTimer ≠ .stopped → exec .lockLost s = .next s)) ∧
    (s.port.lockHoldTimer = .stopped → exec .lockHoldTimerExpiry s = .next s) ∧
    ∀ us, Rest s → s.port.lockHoldTimer = .running us →
      let v : State :=
        { s with
          now := s.now + 1
          port := { s.port with link := .up, lockHoldTimer := .stopped }
          en := if s.en.manager then
              { s.en with
                settle := .running 20000
                runPending := some (s.en.runPending.getD true)
                state := if s.en.state = .idle ∨ s.en.state = .done ∨ s.en.state = .failed then .settling
                  else s.en.state }
            else s.en }
      let t := State.endOfEvent { v with firings := [0] }
      exec .lockHoldTimerExpiry s = .next t ∧ Settled [0] v t

/-! ### Arrivals -/

/-- A frame that is not received whole (R19): in DOWN and LOCKING nothing is received; a frame begun before the link
entered UP is not received, and one cut by a loss of lock is counted in CHECK_ERROR. With no frame on the loop path
none arrives from it (log 4). -/
def Obligations.FramesNotReceived : Prop :=
  ∀ (s : State) (ws : List Word), Rest s →
    (s.port.loopQ = [] → exec .loopArrival s = .next s) ∧
    (∀ how, s.port.link ≠ .up → exec (.rxFrame ws how) s = .next s) ∧
    (s.port.link = .up → exec (.rxFrame ws .beganBeforeUp) s = .next { s with now := s.now + 1 }) ∧
    (s.port.link = .up → exec (.rxFrame ws .cut) s = .next
      { s with
        now := s.now + 1
        port := { s.port with
          counters := { s.port.counters with checkError := bump s.port.counters.checkError } } })

/-- A frame received whole is checked (R22): when its last word is not the check word of the others it is discarded, and
CHECK_ERROR is raised by 1 and nothing else changes; when it passes RX_FRAMES is raised by 1 and the frame goes on to
step 2. A frame on the loop path is not checked and not counted in RX_FRAMES. -/
def Obligations.CheckWordStep : Prop :=
  ∀ (s : State) (ws : List Word), Rest s →
    (s.port.link = .up → ws.getLast? ≠ some (checkWord ws.dropLast) →
      exec (.rxFrame ws .whole) s = .next
        { s with
          now := s.now + 1
          port := { s.port with
            counters := { s.port.counters with checkError := bump s.port.counters.checkError } } }) ∧
    (s.port.link = .up → ws.getLast? = some (checkWord ws.dropLast) →
      exec (.rxFrame ws .whole) s = .next
        (State.classifyWords
          { s with
            now := s.now + 1
            port := { s.port with
              counters := { s.port.counters with rxFrames := bump s.port.counters.rxFrames } } }
          ws.dropLast).endOfEvent) ∧
    ∀ f l, s.port.loopQ = f :: l → exec .loopArrival s = .next
      (State.classify { s with now := s.now + 1, port := { s.port with loopQ := l } } f).endOfEvent

/-- Which frames are malformed (R17): the conditions 2 to 13, for a frame of one of the eleven kinds. Words whose kind
code is not 1 to 11 hold no frame (condition 1). The control frames are ENUM and RING_RESET (R2). -/
def Obligations.MalformedConditions : Prop :=
  (∀ b : Body,
    (b.isControl = true ↔ (∃ e, b = .enumPass e) ∨ ∃ serial, b = .ringReset serial) ∧
    (b.isEnum = true ↔ ∃ e, b = .enumPass e)) ∧
  (∀ f : Frame, f.malformed = true ↔
    (f.length.toNat = 0 ∨ 16 < f.length.toNat) ∨
    (match f.body with
      | .write .. | .postedWrite .. | .mgmtRequest .. | .readData .. | .mgmtReply .. =>
        f.payload.length ≠ f.length.toNat
      | .read .. | .event .. | .accept .. | .refuse .. | .enumPass .. | .ringReset .. => f.payload.length ≠ 0) ∨
    f.dest = 0 ∨
    (f.dest = 31 ∧ f.body.isControl = false) ∨
    (f.body.isControl = true ∧ f.dest ≠ 31) ∨
    (f.source = 0 ∧ f.body.isEnum = false) ∨
    f.source = 31 ∨
    30 < f.hop.toNat ∨
    (∃ ref why, f.body = .refuse ref why ∧
      (¬(1 ≤ why.code.toNat ∧ why.code.toNat ≤ 5) ∨ (why.code = 2 ∧ why.present = false) ∨
        (why.code ≠ 2 ∧ why.present = true))) ∨
    (∃ ref n, f.body = .event ref n 0) ∨
    (∃ e, f.body = .enumPass e ∧
      (e.pass = 0 ∨ e.attempt = 0 ∨ e.taken.getLsbD 0 = true ∨ e.taken.getLsbD 31 = true ∨
        e.count.toNat ≠ idCount e.taken)) ∨
    ((match f.body with
      | .event .. | .accept .. | .refuse .. | .enumPass .. | .ringReset .. => True
      | .read .. | .write .. | .postedWrite .. | .mgmtRequest .. | .readData .. | .mgmtReply .. => False) ∧
      f.length.toNat ≠ 1)) ∧
  ∀ (w : Word) (ws : List Word), (w.extractLsb' 28 4 = 0 ∨ 11 < (w.extractLsb' 28 4).toNat) → frameOfWords (w :: ws) = none

/-- A malformed frame is discarded (R23): MALFORMED rises by 1, and a MALFORMED_FRAME record names its source if that is
1 to 30. So are words that hold no frame; words too few for a header are malformed too, their source read from word 0,
or 0 when there is none (log 20). -/
def Obligations.MalformedFrame : Prop :=
  (∀ (i : Instr) (f : Frame) (s u : State), Rest s → Arrival i f s u → f.malformed = true →
    let v : State :=
      { u with
        port := { u.port with
          counters := { u.port.counters with malformed := bump u.port.counters.malformed } }
        ag := u.ag.withRecord
          { kind := .malformedFrame, node := if f.source ≠ 0 ∧ f.source ≠ 31 then some f.source else none } }
    let t := State.endOfEvent { v with firings := [5] }
    exec i s = .next t ∧ Settled [5] v t) ∧
  ∀ (ws : List Word) (s : State), Rest s → s.port.link = .up → ws.getLast? = some (checkWord ws.dropLast) →
    frameOfWords ws.dropLast = none →
    let source : NodeId := (ws.dropLast.headD 0).extractLsb' 18 5
    let v : State :=
      { s with
        now := s.now + 1
        port := { s.port with
          counters := { s.port.counters with
            rxFrames := bump s.port.counters.rxFrames
            malformed := bump s.port.counters.malformed } }
        ag := s.ag.withRecord
          { kind := .malformedFrame, node := if source ≠ 0 ∧ source ≠ 31 then some source else none } }
    let t := State.endOfEvent { v with firings := [5] }
    exec (.rxFrame ws .whole) s = .next t ∧ Settled [5] v t

/-- A frame that is neither a control frame, nor returned, nor for this node is forwarded (R28): at hop count 30 it is
discarded; otherwise its hop count rises and it joins the forward queue, if that holds fewer than 4. Its other fields,
the ignored ones of a REFUSE among them, stay as received (log 20). -/
def Obligations.ForwardedFrame : Prop :=
  ∀ (i : Instr) (f : Frame) (s u : State), Rest s → Arrival i f s u → f.malformed = false → f.body.isControl = false →
    ¬ s.cameBack f → ¬ s.forMe f →
    exec i s = .next (u.withForward f)

/-- A returned frame is removed (R26): RETURNED rises, and a response does nothing more. A request that no tracker entry
matches counts in STALE_RESPONSE besides (R86). A request that matches one raises NO_TARGET, once (log 35), and its
entry completes with NO_TARGET; a posted write fails its destination's whole run (R103). -/
def Obligations.ReturnedFrame : Prop :=
  (∀ b : Body, b.request = match b with
    | .read ref _ => some (.read, ref)
    | .write ref _ => some (.write, ref)
    | .postedWrite ref _ _ _ => some (.postedWrite, ref)
    | .event ref _ _ => some (.event, ref)
    | .mgmtRequest ref => some (.mgmtRequest, ref)
    | .readData _ | .accept _ | .refuse _ _ | .mgmtReply _ | .enumPass _ | .ringReset _ => none) ∧
  ∀ (i : Instr) (f : Frame) (s u : State), Rest s → Arrival i f s u → f.malformed = false → f.body.isControl = false →
    s.cameBack f →
    let v : State := { u with port := { u.port with
      counters := { u.port.counters with returned := bump u.port.counters.returned } } }
    (f.body.request = none → exec i s = .next v) ∧
    ∀ kind ref, f.body.request = some (kind, ref) →
      let e := s.rt.entries.get ref.tag
      let matched := e.state ≠ .free ∧ e.gen = ref.gen ∧ e.dest = f.dest ∧ e.kind = kind ∧ e.sentOnce = true
      let w : State :=
        { v with rt := { v.rt with counters := { v.rt.counters with noTarget := bump v.rt.counters.noTarget } } }
      (¬matched → exec i s = .next
        { v with rt := { v.rt with
          counters := { v.rt.counters with staleResponse := bump v.rt.counters.staleResponse } } }) ∧
      (matched → kind ≠ .postedWrite → exec i s = .next (w.completeEntry .noTarget [] ref.tag).endOfEvent) ∧
      (matched → kind = .postedWrite → exec i s = .next (w.failRun f.dest .noTarget).endOfEvent)

/-- The outbound match (R58), over sound tables: by the ACTIVE entry whose local range holds the start address. -/
def Obligations.OutboundMatchVerdict : Prop :=
  ∀ (s : State) (dir : Direction) (addr : Word) (count : Nat), WindowsSound s.wt →
    ((∀ i, ¬((s.wt.owt.get i).state = .active ∧ (s.wt.owt.get i).localBase.toNat ≤ addr.toNat ∧
        addr.toNat ≤ (s.wt.owt.get i).localBase.toNat + 2 ^ (s.wt.owt.get i).sizeExp - 1)) →
      s.outboundMatch dir addr count = .noWindow) ∧
    ∀ i, (s.wt.owt.get i).state = .active → (s.wt.owt.get i).localBase.toNat ≤ addr.toNat →
      addr.toNat ≤ (s.wt.owt.get i).localBase.toNat + 2 ^ (s.wt.owt.get i).sizeExp - 1 → 1 ≤ count →
      s.outboundMatch dir addr count =
        if (s.wt.owt.get i).localBase.toNat + 2 ^ (s.wt.owt.get i).sizeExp - 1 < addr.toNat + 4 * count - 1 then
          .pastEnd
        else if (dir = .read ∧ (s.wt.owt.get i).readAllowed = false) ∨
            (dir = .write ∧ (s.wt.owt.get i).writeAllowed = false) then .notAllowed
        else .hit i

/-- The inbound match (R60), over sound tables: by the ACTIVE entry whose ring range holds the whole request. -/
def Obligations.InboundMatchVerdict : Prop :=
  ∀ (s : State) (kind : InboundKind) (source : NodeId) (addr : RingAddr) (count : Nat), WindowsSound s.wt → 1 ≤ count →
    ((∀ i, ¬((s.wt.iwt.get i).state = .active ∧ (s.wt.iwt.get i).ringBase.toNat ≤ addr.toNat ∧
        addr.toNat + 4 * count - 1 ≤ (s.wt.iwt.get i).ringBase.toNat + 2 ^ (s.wt.iwt.get i).sizeExp - 1)) →
      s.inboundMatch kind source addr count = .noWindow) ∧
    ∀ i, (s.wt.iwt.get i).state = .active → (s.wt.iwt.get i).ringBase.toNat ≤ addr.toNat →
      addr.toNat + 4 * count - 1 ≤ (s.wt.iwt.get i).ringBase.toNat + 2 ^ (s.wt.iwt.get i).sizeExp - 1 →
      s.inboundMatch kind source addr count =
        if (s.wt.iwt.get i).sources.getLsbD source.toNat = true ∧
            (match kind with
              | .read => (s.wt.iwt.get i).readAllowed
              | .write => (s.wt.iwt.get i).writeAllowed
              | .postedWrite => (s.wt.iwt.get i).postedAllowed) = true then .admissible i
        else .denied

/-- A READ or WRITE for this node is judged (R127, R128, R129). Bits 6–0 of the REFUSE, which R178 lets a receiver
ignore, are zero by log 20. -/
def Obligations.ReadWriteAdmission : Prop :=
  ∀ (i : Instr) (f : Frame) (s u : State) (kind : InboundKind) (ref : Ref) (p : Span), Rest s → Arrival i f s u →
    f.malformed = false → s.forMe f →
    (f.body = .read ref p ∧ kind = .read) ∨ (f.body = .write ref p ∧ kind = .write) →
    exec i s = .next (
      if 8 ≤ s.port.responseQ.length then u.counted fun c => { c with responseOverrun := bump c.responseOverrun }
      else match s.inboundMatch kind f.source p.addr f.length.toNat with
        | .noWindow => (u.counted fun c => { c with refusedWindow := bump c.refusedWindow }).withRefusal f ref 3
        | .denied => (u.counted fun c => { c with refusedDenied := bump c.refusedDenied }).withRefusal f ref 4
        | .admissible w =>
          if 8 ≤ s.inb.queue.length then
            (u.counted fun c => { c with refusedBusy := bump c.refusedBusy }).withRefusal f ref 1
          else (u.withEntry kind f ref p w).takeBus)

/-- A POSTED_WRITE for this node is taken by the Receive Sequence entry of its source (R106, R107, R94): the six cases
in their order, and the four outcomes of admission. The ignored bits of a REFUSE are zero by log 20. -/
def Obligations.PostedWriteOrder : Prop :=
  ∀ (i : Instr) (f : Frame) (s u : State) (ref : Ref) (p : Span) (q : Seq) (sync : Bool), Rest s → Arrival i f s u →
    f.malformed = false → s.forMe f → f.body = .postedWrite ref p q sync →
    let r := s.ord.recv.get f.source.toFin
    let e := r.expected
    let behind := 1 ≤ (e - q).toNat ∧ (e - q).toNat ≤ 16
    let full := 8 ≤ s.port.responseQ.length
    let duplicate :=
      if full then u.counted fun c => { c with responseOverrun := bump c.responseOverrun }
      else ({ u with ord := { u.ord with
        counters := { u.ord.counters with duplicate := bump u.ord.counters.duplicate } } } : State).withResponse
          (Frame.answer f.source f.dest (.accept ref))
    let refused (why : RefuseFields) :=
      if full then u.counted fun c => { c with responseOverrun := bump c.responseOverrun }
      else ({ u with ord := { u.ord with
        counters := { u.ord.counters with orderRefused := bump u.ord.counters.orderRefused } } } : State).withResponse
          (Frame.answer f.source f.dest (.refuse ref why))
    let admitted (v : State) :=
      if full then u.counted fun c => { c with responseOverrun := bump c.responseOverrun }
      else match s.inboundMatch .postedWrite f.source p.addr f.length.toNat with
        | .noWindow => (v.counted fun c => { c with refusedWindow := bump c.refusedWindow }).withRefusal f ref 3
        | .denied => (v.counted fun c => { c with refusedDenied := bump c.refusedDenied }).withRefusal f ref 4
        | .admissible w =>
          if 8 ≤ s.inb.queue.length then
            (u.counted fun c => { c with refusedBusy := bump c.refusedBusy }).withRefusal f ref 1
          else ((v.withEntry .postedWrite f ref p w).withResponse
            (Frame.answer f.source f.dest (.accept ref))).takeBus
    exec i s = .next (
      if sync = true then
        if r.synced = true ∧ r.mark = some ⟨ref.tag, ref.gen, q⟩ ∧ behind then duplicate
        else admitted
          { u with ord := { u.ord with
            recv := u.ord.recv.set f.source.toNat
              { synced := true, expected := q + 1, mark := some ⟨ref.tag, ref.gen, q⟩ } f.source.isLt
            counters := { u.ord.counters with syncAccepted := bump u.ord.counters.syncAccepted } } }
      else if r.synced = false then refused { code := 2, present := true, unsynced := true, seq := 0 }
      else if q = e then
        admitted { u with ord := { u.ord with
          recv := u.ord.recv.set f.source.toNat { r with expected := q + 1 } f.source.isLt } }
      else if behind then duplicate
      else refused { code := 2, present := true, unsynced := false, seq := e })

/-- An EVENT for this node is taken by the event inbox (R175), and INBOX_READY fires when the inbox was empty, and is
taken by its route (`RingRouteFires`) once the answer has been placed (log 5). The ignored bits of its REFUSE are zero
by log 20. -/
def Obligations.EventInbox : Prop :=
  ∀ (i : Instr) (f : Frame) (s u : State) (ref : Ref) (number : BitVec 6) (count : BitVec 8), Rest s → Arrival i f s u →
    f.malformed = false → s.forMe f → f.body = .event ref number count →
    let full := 8 ≤ s.port.responseQ.length
    let known := ∃ r ∈ s.ev.inbox, r.source = f.source ∧ r.number = number
    let accept := Frame.answer f.source f.dest (.accept ref)
    (full → exec i s = .next
      { u with ev := { u.ev with counters := { u.ev.counters with inboxDropped := bump u.ev.counters.inboxDropped } } }) ∧
    (¬full → known → exec i s = .next (State.withResponse
      { u with ev := { u.ev with
          inbox := u.ev.inbox.map fun r =>
            if r.source = f.source ∧ r.number = number then { r with count := min 255 (r.count + count.toNat) } else r
          counters := { u.ev.counters with inboxCoalesced := bump u.ev.counters.inboxCoalesced } } } accept)) ∧
    (¬full → ¬known → s.ev.inbox.length < 16 →
      let cs : List EventCode := if s.ev.inbox = [] then [12] else []
      let v := State.withResponse
        { u with ev := { u.ev with
            inbox := u.ev.inbox ++ [⟨f.source, number, count.toNat⟩]
            counters := { u.ev.counters with inboxNew := bump u.ev.counters.inboxNew } } } accept
      let t := State.endOfEvent { v with firings := cs }
      exec i s = .next t ∧ Settled cs v t) ∧
    (¬full → ¬known → 16 ≤ s.ev.inbox.length → exec i s = .next
      (State.withRefusal
        { u with ev := { u.ev with
            counters := { u.ev.counters with inboxRefused := bump u.ev.counters.inboxRefused } } } f ref 1))

/-! ### Management commands -/

/-- A request that finds the agent EXECUTING or DEFERRED (R137), whatever its command: a REFUSE RETRY_BUSY, or, for
want of room, nothing but MGMT_DROPPED. The ignored bits of the REFUSE are zero by log 20. -/
def Obligations.BusyAgentRefusesRequests : Prop :=
  ∀ (i : Instr) (q : MgmtRequest) (s : State), Rest s → requestOf i = some q → s.ag.state ≠ .idle →
    exec i s = .next (
      if s.port.responseQ.length < 8 then
        State.withResponse
          { s with
            now := s.now + 1
            ag := { s.ag with counters := { s.ag.counters with mgmtBusy := bump s.ag.counters.mgmtBusy } } }
          (Frame.answer q.source q.dest
            (.refuse ⟨q.tag, q.gen⟩ { code := 1, present := false, unsynced := false, seq := 0 }))
      else
        { s with
          now := s.now + 1
          ag := { s.ag with counters := { s.ag.counters with mgmtDropped := bump s.ag.counters.mgmtDropped } } })

/-- Tests 1 to 4 of R139, in their order: an unknown command, the operand count, the lock, the manager flag. A command
that fails one changes nothing but MGMT_TAKEN and its reply; NOT_OWNER alone carries data, the owner. A MGMT_REQUEST
frame for this node is the command that its first word names (R27, R137, R179), taken after RX_FRAMES has counted the
frame, so that CLEAR_COUNTERS of group 0 clears that count by the model's choice (log 39). Every reply goes to the
requester from the request's destination, with its tag and generation, its result code and its command code (R8, R11,
R137, R179). The bits that no field occupies in a reply's words are zero by log 50. -/
def Obligations.AgentTestsInOrder : Prop :=
  (∀ (requester dest : NodeId) (tag : Tag) (gen : Gen) (code : BitVec 8) (r : MgmtResult) (data : List Word),
    let f := replyFrame requester dest tag gen code r data
    f.dest = requester ∧ f.source = dest ∧ f.hop = 0 ∧ (data.length ≤ 15 → f.length.toNat = 1 + data.length) ∧
      f.body = .mgmtReply ⟨tag, gen⟩ ∧ f.payload = (0#16 ++ r.code ++ code) :: data) ∧
  ([.ok, .notOwner, .badIndex, .badValue, .inUse, .overlap, .notManager, .wrongState, .unknownCommand] :
    List MgmtResult).map (·.code) = [0, 1, 2, 3, 4, 5, 6, 7, 8] ∧
  (∀ (code : BitVec 8) (q : MgmtRequest) (s : State), AgentReady s →
    exec (.unknownCommand code q) s = .next (s.tookRequest.withFailure code q .unknownCommand)) ∧
  (∀ (i : Instr) (form : CommandForm) (q : MgmtRequest) (s : State), AgentReady s → mgmtForm i = some (form, q) →
    (q.operands.length ≠ form.operands →
      exec i s = .next (s.tookRequest.withFailure form.code q .badValue)) ∧
    (q.operands.length = form.operands → form.lock = true → s.ag.lockOwner ≠ q.source →
      exec i s = .next (s.tookRequest.withNotOwner form.code q)) ∧
    (q.operands.length = form.operands → s.ag.lockOwner = q.source → form.manager = true → s.en.manager = false →
      exec i s = .next (s.tookRequest.withFailure form.code q .notManager))) ∧
  ∀ (i : Instr) (f : Frame) (s u : State) (ref : Ref), Arrival i f s u → f.malformed = false → s.forMe f →
    f.body = .mgmtRequest ref →
    let q : MgmtRequest :=
      { source := f.source, dest := f.dest, tag := ref.tag, gen := ref.gen, operands := f.payload.tail }
    let code := (f.payload.headD 0).extractLsb' 0 8
    let v : State := { u with now := s.now }
    (∀ j form, mgmtForm j = some (form, q) → form.code = code → exec i s = exec j v) ∧
    (code = 0 ∨ 22 < code.toNat → exec i s = exec (.unknownCommand code q) v)

/-- The commands that only read (R140, R68, R144, R145, R156, R168, R171): the reply data are the named item's words as
they stand once MGMT_TAKEN is counted, or the result is BAD_INDEX for an item that does not exist. Every word is
spelled from bit 31 down (R179), and its codes are listed; what R179 leaves open is the model's: the remote address
bits 39–32 of READ_CHANNEL's word 4 stand in its bits 7–0 (log 49), the bits that no field occupies are zero (log 50),
an absent halt record reads as zero words and an absent result of one as code 0 (log 47), the states of a channel and
of a slot are numbered in the order listed (log 53), a next offset of 1,048,576 reads as it stands (log 52), and the
channel is the whole operand word (log 29). -/
def Obligations.ReadCommandsReply : Prop :=
  (([.empty, .active, .retiring] : List WindowState).map (·.code) = [0, 1, 2] ∧
    ([.asIs, .swapWord, .swapHalves, .swapPairs] : List LaneOrder).map laneOrderCode = [0, 1, 2, 3] ∧
    ([.off, .line0, .line1, .ring] : List Route).map routeCode = [0, 1, 2, 3] ∧
    ([.idle, .running, .stopping, .halted] : List ChannelState).map (·.code) = [0, 1, 2, 3] ∧
    ([.free, .localPending, .ringPending, .landing] : List BufferState).map (·.code) = [0, 1, 2, 3] ∧
    ([.unnumbered, .provisional, .numbered] : List Role).map (·.code) = [0, 1, 2] ∧
    ([.down, .locking, .up] : List Link).map (·.code) = [0, 1, 2] ∧
    ([.ok, .noTarget, .timeout, .retryExhausted, .refused .noWindow, .refused .denied, .refused .localFault, .linkDown,
      .renumbered] : List Result).map (·.code) = [0, 1, 2, 3, 4, 5, 6, 7, 8] ∧
    (∀ r : Result, Detail.code (.result r) = r.code) ∧ Detail.code .localFault = 9) ∧
  ∀ (q : MgmtRequest) (s : State), AgentReady s →
    let v := s.tookRequest
    let w1 := q.operands.headD 0
    let outbound (i : Fin 16) (e : Sys2Proof.Machine.OwtEntry) : List Word :=
      [0#14 ++ e.state.code ++ 0#11 ++ BitVec.ofNat 5 i.val, e.localBase,
        0#3 ++ e.dest ++ 0#3 ++ BitVec.ofNat 5 e.sizeExp ++ 0#8 ++ e.ringBase.extractLsb' 32 8,
        e.ringBase.extractLsb' 0 32,
        0#23 ++ BitVec.ofBool (!e.posted) ++ 0#2 ++ BitVec.ofBool e.writeAllowed ++ BitVec.ofBool e.readAllowed ++ 0#2 ++
          laneOrderCode e.laneOrder,
        0, BitVec.ofNat 32 e.inFlight, e.hits]
    let inbound (i : Fin 16) (e : Sys2Proof.Machine.IwtEntry) : List Word :=
      [0#14 ++ e.state.code ++ 0#6 ++ 1#2 ++ 0#3 ++ BitVec.ofNat 5 i.val, e.localBase,
        0#11 ++ BitVec.ofNat 5 e.sizeExp ++ 0#8 ++ e.ringBase.extractLsb' 32 8, e.ringBase.extractLsb' 0 32,
        0#25 ++ BitVec.ofBool e.postedAllowed ++ BitVec.ofBool e.writeAllowed ++ BitVec.ofBool e.readAllowed ++ 0#2 ++
          laneOrderCode e.laneOrder,
        e.sources, BitVec.ofNat 32 e.inFlight, e.hits]
    let descriptor (i : Fin 64) (d : Descriptor) : List Word :=
      [0#23 ++ BitVec.ofBool d.loaded ++ 0#1 ++ BitVec.ofNat 7 i.val,
        0#3 ++ d.node ++ 0#2 ++ laneOrderCode d.laneOrder ++ BitVec.ofBool d.notify ++ BitVec.ofBool d.localFixed ++
          BitVec.ofBool d.remoteFixed ++ BitVec.ofBool d.pull ++ 0#8 ++ d.remote.extractLsb' 32 8,
        d.remote.extractLsb' 0 32, d.localAddr,
        0#3 ++ BitVec.ofNat 5 d.frameSize ++ 0#3 ++ BitVec.ofNat 21 d.length,
        0#25 ++ (match d.next with
          | some n => BitVec.ofNat 7 n.val
          | none => 127#7)]
    let channel (ch : Channel) : List Word :=
      let slot (i : Fin 8) : BitVec 3 := BitVec.ofBool (ch.slots.get i).detached ++ (ch.slots.get i).state.code
      [0#15 ++ BitVec.ofBool ch.halt.isSome ++ 0#1 ++ (match ch.current with
          | some n => BitVec.ofNat 7 n.val
          | none => 127#7) ++ 0#6 ++ ch.state.code,
        BitVec.ofNat 32 ch.remaining, BitVec.ofNat 32 ch.nextOffset, 0#24 ++ ch.remote.extractLsb' 32 8,
        ch.remote.extractLsb' 0 32, ch.localAddr, BitVec.ofNat 32 ch.completed,
        0#8 ++ slot 7 ++ slot 6 ++ slot 5 ++ slot 4 ++ slot 3 ++ slot 2 ++ slot 1 ++ slot 0,
        match ch.halt with
          | some h => 0#15 ++ BitVec.ofBool h.result.isSome ++ (match h.result with
              | some r => r.code
              | none => 0#8) ++ 0#1 ++ BitVec.ofNat 7 h.index.val
          | none => 0,
        match ch.halt with
          | some h => BitVec.ofNat 32 h.offset
          | none => 0]
    (q.operands.length = 0 →
      exec (.identify q) s = .next (v.withOk 1 q
        [0x0D7A7316, 3, s.serial,
          0#3 ++ s.ag.lockOwner ++ 0#3 ++ s.en.censusCount ++ 0#5 ++ s.port.link.code ++ BitVec.ofBool s.en.manager ++
            BitVec.ofBool (s.en.idMode == .strapped) ++ s.en.role.code ++ s.en.ownId,
          s.en.census])) ∧
    (q.operands.length = 0 →
      exec (.readParameters q) s = .next (v.withOk 16 q
        [s.ag.params.responseTimeout.setWidth 32, s.ag.params.retryLimit.setWidth 32,
          s.ag.params.backoffUnit.setWidth 32, s.ag.params.discardTime.setWidth 32,
          s.ag.params.localCycleLimit.setWidth 32, s.ag.params.localRetryLimit.setWidth 32])) ∧
    (q.operands.length = 1 →
      (∀ i : Fin 16, (w1.extractLsb' 0 5).toNat = i.val → w1.extractLsb' 8 2 = 0 →
        exec (.readWindow q) s = .next (v.withOk 7 q (outbound i (s.wt.owt.get i)))) ∧
      (∀ i : Fin 16, (w1.extractLsb' 0 5).toNat = i.val → w1.extractLsb' 8 2 = 1 →
        exec (.readWindow q) s = .next (v.withOk 7 q (inbound i (s.wt.iwt.get i)))) ∧
      (16 ≤ (w1.extractLsb' 0 5).toNat ∨ 2 ≤ (w1.extractLsb' 8 2).toNat →
        exec (.readWindow q) s = .next (v.withFailure 7 q .badIndex)) ∧
      (∀ c : EventCode, (w1.extractLsb' 0 5).toNat = c.val →
        let r := s.ev.routes.get c
        exec (.readRoute q) s = .next (v.withOk 9 q
          [0#11 ++ r.dest ++ 0#2 ++ r.number ++ 0#5 ++ BitVec.ofBool r.level ++ routeCode r.route])) ∧
      (19 ≤ (w1.extractLsb' 0 5).toNat → exec (.readRoute q) s = .next (v.withFailure 9 q .badIndex)) ∧
      (∀ i : Fin 64, (w1.extractLsb' 0 7).toNat = i.val →
        exec (.readDescriptor q) s = .next (v.withOk 11 q (descriptor i (s.bm.descriptors.get i)))) ∧
      (64 ≤ (w1.extractLsb' 0 7).toNat → exec (.readDescriptor q) s = .next (v.withFailure 11 q .badIndex)) ∧
      (w1 = 0 → exec (.readChannel q) s = .next (v.withOk 14 q (channel s.bm.chA))) ∧
      (w1 = 1 → exec (.readChannel q) s = .next (v.withOk 14 q (channel s.bm.chB))) ∧
      (2 ≤ w1.toNat → exec (.readChannel q) s = .next (v.withFailure 14 q .badIndex)) ∧
      (∀ ws, v.groupWords (w1.extractLsb' 0 8).toNat = some ws →
        exec (.readCounters q) s = .next (v.withOk 17 q ws)) ∧
      (9 ≤ (w1.extractLsb' 0 8).toNat → exec (.readCounters q) s = .next (v.withFailure 17 q .badIndex)))

/-- The counter groups (R145): which counters each group holds, in which order, and what CLEAR_COUNTERS makes of them:
the group's words are zero and nothing else changes, the fault queue least of all; the overflow count is a word of
group 6 (R147). A counter that is raised stays at its maximum once reached (R34). -/
def Obligations.CounterGroups : Prop :=
  (∀ c : Counter, (bump c).toNat = min (c.toNat + 1) 0xFFFFFFFF ∧
    ∀ n, (bumpBy n c).toNat = min (c.toNat + n) 0xFFFFFFFF) ∧
  ∀ s : State,
    s.groupWords 0 = some [s.port.counters.rxFrames, s.port.counters.txFrames, s.port.counters.forwarded,
      s.port.counters.checkError, s.port.counters.malformed, s.port.counters.returned, s.port.counters.hopLimit,
      s.port.counters.forwardOverrun, s.port.counters.looped, s.port.counters.txDiscarded] ∧
    s.groupWords 1 = some [s.en.counters.runsStarted, s.en.counters.passResends, s.en.counters.foreignEnum,
      s.en.counters.resetReqIgnored] ∧
    s.groupWords 2 = some [s.rt.counters.requestsSent, s.rt.counters.resends, s.rt.counters.timeouts,
      s.rt.counters.exhausted, s.rt.counters.staleResponse, s.rt.counters.noTarget] ∧
    s.groupWords 3 = some [s.ord.counters.duplicate, s.ord.counters.orderRefused, s.ord.counters.syncAccepted] ∧
    s.groupWords 4 = some [s.lt.counters.localFaults, s.lt.counters.notNumbered, s.lt.counters.postedRetry,
      s.lt.counters.discarded] ∧
    s.groupWords 5 = some [s.inb.counters.inboundAdmitted, s.inb.counters.refusedBusy, s.inb.counters.refusedWindow,
      s.inb.counters.refusedDenied, s.inb.counters.responseOverrun, s.inb.counters.localMasterFaults] ∧
    s.groupWords 6 = some [s.ag.counters.mgmtTaken, s.ag.counters.mgmtBusy, s.ag.counters.mgmtDropped,
      s.ag.counters.issueCollision, s.ag.counters.issueRejected, BitVec.ofNat 32 s.ag.overflow] ∧
    s.groupWords 7 = some [s.bm.counters.wordsMovedA, s.bm.counters.framesSentA, s.bm.counters.wordsMovedB,
      s.bm.counters.framesSentB] ∧
    s.groupWords 8 = some [s.ev.counters.ringEvents, s.ev.counters.refireCoalesced, s.ev.counters.inboxNew,
      s.ev.counters.inboxCoalesced, s.ev.counters.inboxRefused, s.ev.counters.inboxDropped] ∧
    (∀ n, 9 ≤ n → s.groupWords n = none ∧ s.clearGroup n = none) ∧
    ∀ n ws, s.groupWords n = some ws → ∃ u, s.clearGroup n = some u ∧
      u.groupWords n = some (ws.map fun _ => 0) ∧ (∀ m, m ≠ n → u.groupWords m = s.groupWords m) ∧
      Changes [.portRx, .portTx, .portLocal, .en, .rt, .ordCounters, .ltCounters, .inbCounters, .agCounters, .faults,
        .bmCounters, .evCounters] s u ∧
      { u.en with counters := s.en.counters } = s.en ∧ { u.rt with counters := s.rt.counters } = s.rt ∧
      u.ag.faults = s.ag.faults ∧ (n ≠ 6 → u.ag.overflow = s.ag.overflow)

/-- CLAIM, RELEASE and RENEW (R141): who holds the lock, and the lease timer. The lease action is the whole operand
word, so that 2 or more is BAD_VALUE (log 29). -/
def Obligations.LockCommands : Prop :=
  ∀ (q : MgmtRequest) (s : State), AgentReady s → q.wellFormed = true →
    let v := s.tookRequest
    let time := (q.operands.headD 0).extractLsb' 0 8
    let action := q.operands.getD 1 0
    (q.operands.length = 2 →
      exec (.claim q) s = .next (
        if s.ag.lockOwner ≠ 0 ∧ s.ag.lockOwner ≠ q.source then v.withNotOwner 2 q
        else if time = 0 ∨ (action ≠ 0 ∧ action ≠ 1) then v.withFailure 2 q .badValue
        else State.withOk
          { v with ag := { v.ag with
            lockOwner := q.source
            leaseTime := time
            leaseAction := if action = 0 then .none else .retireAll
            leaseTimer := .running (time.toNat * 10000) } } 2 q [])) ∧
    (q.operands.length = 0 → s.ag.lockOwner = q.source →
      exec (.release q) s = .next (State.withOk
        { v with ag := { v.ag with lockOwner := 0, leaseTimer := .stopped } } 3 q []) ∧
      exec (.renew q) s = .next (State.withOk
        { v with ag := { v.ag with leaseTimer := .running (s.ag.leaseTime.toNat * 10000) } } 4 q []))

/-- SET_WINDOW by the lock's owner (R63): its tests in their order, and the entry that it fills. Two ranges overlap when
each begins before the other's end (R55). -/
def Obligations.SetWindow : Prop :=
  (∀ base k base' k' : Nat, rangesOverlap base k base' k' = true ↔ base < base' + 2 ^ k' ∧ base' < base + 2 ^ k) ∧
  ∀ (q : MgmtRequest) (s : State), AgentReady s → q.operands.length = 6 → s.ag.lockOwner = q.source →
    let v := s.tookRequest
    let w (n : Nat) := q.operands.getD n 0
    let k := ((w 2).extractLsb' 16 5).toNat
    let ringBase : RingAddr := (w 2).extractLsb' 0 8 ++ w 3
    let code := (w 4).extractLsb' 0 2
    let order : LaneOrder :=
      if code = 0 then .asIs else if code = 1 then .swapWord else if code = 2 then .swapHalves else .swapPairs
    let aligned := 12 ≤ k ∧ k ≤ 30 ∧ (w 1).toNat % 2 ^ k = 0 ∧ ringBase.toNat % 2 ^ k = 0
    (16 ≤ ((w 0).extractLsb' 0 5).toNat ∨ 2 ≤ ((w 0).extractLsb' 8 2).toNat →
      exec (.setWindow q) s = .next (v.withFailure 5 q .badIndex)) ∧
    (∀ i : Fin 16, ((w 0).extractLsb' 0 5).toNat = i.val → (w 0).extractLsb' 8 2 = 0 →
      let put (e : Sys2Proof.Machine.OwtEntry) : State :=
        { v with wt := { v.wt with owt := v.wt.owt.set i.val e i.isLt } }
      exec (.setWindow q) s = .next (
        if (s.wt.owt.get i).state ≠ .empty then v.withFailure 5 q .inUse
        else if ¬(aligned ∧ (w 2).extractLsb' 24 5 ≠ 0 ∧ (w 2).extractLsb' 24 5 ≠ 31) then v.withFailure 5 q .badValue
        else if ∃ j, (s.wt.owt.get j).state ≠ .empty ∧
            rangesOverlap (w 1).toNat k (s.wt.owt.get j).localBase.toNat (s.wt.owt.get j).sizeExp = true then
          v.withFailure 5 q .overlap
        else (put
            { state := .active
              localBase := w 1
              sizeExp := k
              dest := (w 2).extractLsb' 24 5
              ringBase := ringBase
              posted := !(w 4).getLsbD 8
              readAllowed := (w 4).getLsbD 4
              writeAllowed := (w 4).getLsbD 5
              laneOrder := order
              inFlight := 0
              hits := 0 }).withOk 5 q [])) ∧
    (∀ i : Fin 16, ((w 0).extractLsb' 0 5).toNat = i.val → (w 0).extractLsb' 8 2 = 1 →
      let put (e : Sys2Proof.Machine.IwtEntry) : State :=
        { v with wt := { v.wt with iwt := v.wt.iwt.set i.val e i.isLt } }
      exec (.setWindow q) s = .next (
        if (s.wt.iwt.get i).state ≠ .empty then v.withFailure 5 q .inUse
        else if ¬(aligned ∧ (w 5).getLsbD 0 = false ∧ (w 5).getLsbD 31 = false) then v.withFailure 5 q .badValue
        else if ∃ j, (s.wt.iwt.get j).state ≠ .empty ∧
            rangesOverlap ringBase.toNat k (s.wt.iwt.get j).ringBase.toNat (s.wt.iwt.get j).sizeExp = true then
          v.withFailure 5 q .overlap
        else (put
            { state := .active
              ringBase := ringBase
              sizeExp := k
              localBase := w 1
              laneOrder := order
              readAllowed := (w 4).getLsbD 4
              writeAllowed := (w 4).getLsbD 5
              postedAllowed := (w 4).getLsbD 6
              sources := w 5
              inFlight := 0
              hits := 0 }).withOk 5 q []))

/-- RETIRE_WINDOW by the lock's owner (R64, R142): by the state of the named entry. With requests in flight the agent
becomes DEFERRED without a reply, the lease timer is held, and the hold timer starts. -/
def Obligations.RetireWindow : Prop :=
  ∀ (q : MgmtRequest) (s : State), AgentReady s → q.operands.length = 1 → s.ag.lockOwner = q.source →
    let v := s.tookRequest
    let w1 := q.operands.headD 0
    let deferred (t : WindowTable) (i : Fin 16) (u : State) : State :=
      { u with ag := { u.ag with
        state := .deferred
        deferred := some ⟨t, i, q.source, q.tag, q.gen, q.dest⟩
        leaseTimer := match s.ag.leaseTimer with
          | .running us => .held us
          | x => x
        holdTimer := .running (s.ag.leaseTime.toNat * 10000) } }
    (16 ≤ (w1.extractLsb' 0 5).toNat ∨ 2 ≤ (w1.extractLsb' 8 2).toNat →
      exec (.retireWindow q) s = .next (v.withFailure 6 q .badIndex)) ∧
    (∀ i : Fin 16, (w1.extractLsb' 0 5).toNat = i.val → w1.extractLsb' 8 2 = 0 →
      let e := s.wt.owt.get i
      let put (st : WindowState) : State :=
        { v with wt := { v.wt with owt := v.wt.owt.set i.val { e with state := st } i.isLt } }
      exec (.retireWindow q) s = .next (
        match e.state with
        | .empty => v.withOk 6 q []
        | .retiring => v.withFailure 6 q .wrongState
        | .active =>
          if e.inFlight = 0 then (put .empty).withOk 6 q [] else deferred .outbound i (put .retiring))) ∧
    (∀ i : Fin 16, (w1.extractLsb' 0 5).toNat = i.val → w1.extractLsb' 8 2 = 1 →
      let e := s.wt.iwt.get i
      let put (st : WindowState) : State :=
        { v with wt := { v.wt with iwt := v.wt.iwt.set i.val { e with state := st } i.isLt } }
      exec (.retireWindow q) s = .next (
        match e.state with
        | .empty => v.withOk 6 q []
        | .retiring => v.withFailure 6 q .wrongState
        | .active =>
          if e.inFlight = 0 then (put .empty).withOk 6 q [] else deferred .inbound i (put .retiring)))

/-- SET_ROUTE by the lock's owner (R171): its tests, the entry, and what becomes of a pending or held code. -/
def Obligations.SetRoute : Prop :=
  ∀ (q : MgmtRequest) (s : State), AgentReady s → q.operands.length = 2 → s.ag.lockOwner = q.source →
    let v := s.tookRequest
    let code := ((q.operands.headD 0).extractLsb' 0 5).toNat
    let w := q.operands.getD 1 0
    let dest : NodeId := w.extractLsb' 16 5
    (19 ≤ code → exec (.setRoute q) s = .next (v.withFailure 8 q .badIndex)) ∧
    ∀ c : EventCode, code = c.val →
      let r : RouteEntry :=
        { route :=
            if w.extractLsb' 0 2 = 0 then .off else if w.extractLsb' 0 2 = 1 then .line0
            else if w.extractLsb' 0 2 = 2 then .line1 else .ring
          dest := dest
          number := w.extractLsb' 8 6
          level := w.getLsbD 2 && decide (15 ≤ c.val) }
      let joins := r.level = true ∧ s.ev.attnInput.getLsbD (c.val - 15) = true
      let pending : BitVec 19 :=
        if r.route.isLine = true then (if joins then s.ev.pendingSet ||| BitVec.twoPow 19 c.val else s.ev.pendingSet)
        else s.ev.pendingSet &&& ~~~(BitVec.twoPow 19 c.val)
      exec (.setRoute q) s = .next (
        if dest = 31 ∨ (r.route = .ring ∧ dest = 0) then v.withFailure 8 q .badValue
        else State.withOk
          { v with ev := { v.ev with
            routes := v.ev.routes.set c.val r c.isLt
            pendingSet := pending
            ring := if r.route = .ring then v.ev.ring
              else v.ev.ring.set c.val { v.ev.ring.get c with refire := 0 } c.isLt } } 8 q [])

/-- SET_DESCRIPTOR by the lock's owner (R156): its tests in their order, and the entry. The current descriptor of a
channel that is RUNNING or STOPPING is in use. -/
def Obligations.SetDescriptor : Prop :=
  (∀ st : ChannelState, st.working = true ↔ st = .running ∨ st = .stopping) ∧
  ∀ (q : MgmtRequest) (s : State), AgentReady s → q.operands.length = 6 → s.ag.lockOwner = q.source →
    let v := s.tookRequest
    let w (n : Nat) := q.operands.getD n 0
    let next := ((w 5).extractLsb' 0 7).toNat
    let remote : RingAddr := (w 1).extractLsb' 0 8 ++ w 2
    let length := ((w 4).extractLsb' 0 21).toNat
    let size := ((w 4).extractLsb' 24 5).toNat
    let side (addr top : Nat) (fixed : Bool) :=
      addr % 4 = 0 ∧ (if fixed = true then addr % 4096 + 4 * size ≤ 4096 else addr + 4 * length ≤ top)
    let valid :=
      (next < 64 ∨ next = 127) ∧ (w 1).extractLsb' 24 5 ≠ 0 ∧ (w 1).extractLsb' 24 5 ≠ 31 ∧
        1 ≤ length ∧ length ≤ 1048576 ∧ 1 ≤ size ∧ size ≤ 16 ∧
        side remote.toNat (2 ^ 40) ((w 1).getLsbD 17) ∧ side (w 3).toNat (2 ^ 32) ((w 1).getLsbD 18)
    (64 ≤ ((w 0).extractLsb' 0 7).toNat → exec (.setDescriptor q) s = .next (v.withFailure 10 q .badIndex)) ∧
    ∀ i : Fin 64, ((w 0).extractLsb' 0 7).toNat = i.val →
      let put (d : Descriptor) : State :=
        { v with bm := { v.bm with descriptors := v.bm.descriptors.set i.val d i.isLt } }
      exec (.setDescriptor q) s = .next (
        if (s.bm.chA.state.working = true ∧ s.bm.chA.current = some i) ∨
            (s.bm.chB.state.working = true ∧ s.bm.chB.current = some i) then v.withFailure 10 q .inUse
        else if (w 0).getLsbD 8 = false then
          (put { s.bm.descriptors.get i with loaded := false }).withOk 10 q []
        else if ¬ valid then v.withFailure 10 q .badValue
        else (put
          { loaded := true
            pull := (w 1).getLsbD 16
            node := (w 1).extractLsb' 24 5
            remote := remote
            localAddr := w 3
            length := length
            frameSize := size
            remoteFixed := (w 1).getLsbD 17
            localFixed := (w 1).getLsbD 18
            laneOrder :=
              if (w 1).extractLsb' 20 2 = 0 then .asIs else if (w 1).extractLsb' 20 2 = 1 then .swapWord
              else if (w 1).extractLsb' 20 2 = 2 then .swapHalves else .swapPairs
            notify := (w 1).getLsbD 19
            next := if h : next < 64 then some ⟨next, h⟩ else none }).withOk 10 q [])

/-- SET_PARAMETERS, CLEAR_COUNTERS and READ_FAULTS by the lock's owner (R144, R145, R149). The three words of a fault
record are spelled from bit 31 down, with the codes of its kind (R179); what a record does not hold is zero there (log
46), and so are the bits that no field occupies (log 50). CLEAR_COUNTERS of group 6 clears the MGMT_TAKEN that it has
itself raised, and that of group 0 leaves the LOOPED or TX_DISCARDED that its reply raises as it leaves, by the model's
choice (log 39); the group is the low byte of its operand word (log 29). -/
def Obligations.SetParametersClearCountersReadFaults : Prop :=
  ∀ (q : MgmtRequest) (s : State), AgentReady s → s.ag.lockOwner = q.source →
    let v := s.tookRequest
    let p (n : Nat) : BitVec 12 := (q.operands.getD n 0).extractLsb' 0 12
    let valid :=
      1 ≤ (p 0).toNat ∧ (p 1).toNat ≤ 15 ∧ 1 ≤ (p 2).toNat ∧ (p 2).toNat ≤ 255 ∧ 1 ≤ (p 3).toNat ∧
        (p 3).toNat ≤ 255 ∧ 1 ≤ (p 4).toNat ∧ (p 4).toNat ≤ 1023 ∧ 1 ≤ (p 5).toNat ∧ (p 5).toNat ≤ 255
    let group := ((q.operands.headD 0).extractLsb' 0 8).toNat
    let left := s.ag.faults.drop 4
    let taken := s.ag.faults.take 4
    let words (r : FaultRecord) : List Word :=
      [r.kind.code ++ BitVec.ofBool r.node.isSome ++ BitVec.ofBool r.tag.isSome ++ BitVec.ofBool r.index.isSome ++
          BitVec.ofBool r.address.isSome ++ BitVec.ofBool r.detail.isSome ++ r.node.getD 0 ++
          BitVec.ofNat 5 (r.tag.getD 0).val ++ r.index.getD 0 ++ 0#7,
        (r.address.getD 0).extractLsb' 0 32,
        (r.address.getD 0).extractLsb' 32 8 ++ 0#16 ++ (match r.detail with
          | some d => d.code
          | none => 0#8)]
    (q.operands.length = 6 → exec (.setParameters q) s = .next (
      if valid then
        State.withOk { v with ag := { v.ag with params := ⟨p 0, p 1, p 2, p 3, p 4, p 5⟩ } } 15 q []
      else v.withFailure 15 q .badValue)) ∧
    (q.operands.length = 1 →
      (∀ u, v.clearGroup group = some u → exec (.clearCounters q) s = .next (u.withOk 18 q [])) ∧
      (9 ≤ group → exec (.clearCounters q) s = .next (v.withFailure 18 q .badIndex))) ∧
    (q.operands.length = 0 → exec (.readFaults q) s = .next
      (State.withOk { v with ag := { v.ag with faults := left } } 19 q
        (((BitVec.ofNat 3 taken.length).setWidth 32 <<< 24 ||| (BitVec.ofNat 5 left.length).setWidth 32 <<< 16 |||
          (BitVec.ofNat 8 s.ag.overflow).setWidth 32) ::
          taken.flatMap words))) ∧
    ([.malformedFrame, .linkDown, .strapFault, .duplicateId, .enumOverflow, .enumFailed, .managerConflict, .ringReset,
      .postedLost, .postedDiscarded, .eventLost, .leaseLost, .moveHalt] : List FaultKind).map (·.code) =
      [1, 2, 3, 4, 5, 6, 7, 8, 9, 10, 11, 12, 13]

/-! ### The end of an event, and what leaves on the ring -/

/-- The end of an event (log 5): the part comes to rest; of the codes that fired, those routed to a line join the
pending set, and, unless a NODE reset is pending, only what follows at once changes besides. At rest nothing follows.
First the placers of responses that left are told. Then the responses move, which they also do before the offer does: a
head for this node is looped (R29), where the free value of log 41 settles whether the reply of a NODE_RESET is
classified before the reset that waits for it (R125), and else the placer that has waited longest takes a free place
(R30, R133, R138), where the free value of log 8 settles which of two that began to wait in one event. With no response
that can move, the asks are taken, then the firings, the standing claims, the offer (`RequestOffer`) and the bus. A
claim is granted in the rotation from the claimant served last (R77), the issue slot while it waits for a tag (R150),
the router for the held code that comes first after the code granted last (R174), and the rotation goes on while one
passes. That the standing claims are tried at the end of every event, and not only where an entry is freed or the role
becomes NUMBERED, is log 51's. -/
def Obligations.EndOfEvent : Prop :=
  ∀ s : State,
    let looping := ∃ r l, s.port.responseQ = r :: l ∧ r.frame.dest = s.en.ownId
    let room := s.port.responseQ.length < 8
    Rest s.endOfEvent ∧ (Rest s → s.endOfEvent = s) ∧
    (s.ag.resetPending = false →
      Fired s.firings s s.endOfEvent ∧ Changes (.firings :: .left :: .asks :: movingParts) s s.endOfEvent) ∧
    (s.endOfEvent = State.endOfEvent (s.left.foldl State.leftReport { s with left := [] })) ∧
    (∀ goOn : State → State, goOn = State.endOfEvent ∨ goOn = State.settle → s.left = [] →
      (∀ r l, s.port.responseQ = r :: l → r.frame.dest = s.en.ownId →
        let u : State :=
          { s with port := { s.port with
            responseQ := l
            counters := { s.port.counters with looped := bump s.port.counters.looped } } }
        let looped : State :=
          State.leftReport { u with port := { u.port with loopQ := s.port.loopQ ++ [r.frame] } } r.purpose
        (¬(r.purpose = .nodeReset ∧ s.ag.resetPending = true ∧ r.frame.malformed = false ∧
            ∃ ref, r.frame.body = .mgmtReply ref) → goOn s = goOn looped) ∧
        ∀ ref, r.purpose = .nodeReset → s.ag.resetPending = true → r.frame.malformed = false →
          r.frame.body = .mgmtReply ref →
          goOn s = goOn (if Config.loopedReplyFirst s.now = true then (u.takeResponse ref r.frame).performNodeReset
            else looped)) ∧
      (¬looping → room → ∀ h, s.inb.held = some h →
        (∀ p, s.ag.heldReply = some p → h.since < p.since ∨ (h.since = p.since ∧ Config.agentFirst s.now = false)) →
        goOn s = goOn (State.placed { s with inb := { s.inb with held := none } } h.frame .plain)) ∧
      (¬looping → room → ∀ p, s.ag.heldReply = some p →
        (∀ h, s.inb.held = some h → p.since < h.since ∨ (h.since = p.since ∧ Config.agentFirst s.now = true)) →
        goOn s = goOn (State.placed
          { s with ag := { s.ag with
            heldReply := none, state := if s.ag.resetPending = true then .executing else .idle } }
          p.frame p.purpose))) ∧
    (s.left = [] → ¬looping → ¬room ∨ (s.inb.held = none ∧ s.ag.heldReply = none) →
      s.endOfEvent = s.takeAsks.takeFirings.serveClaims.settle.takeBus) ∧
    (let order : List Claimant := match s.rt.lastClaimant with
        | .issueSlot => [.router, .mover, .issueSlot]
        | .router => [.mover, .issueSlot, .router]
        | .mover => [.issueSlot, .router, .mover]
      ((∀ c, s.claimGrant c = none) → s.serveClaims = s) ∧
      ∀ pre c post u, order = pre ++ c :: post → (∀ x ∈ pre, s.claimGrant x = none) → s.claimGrant c = some u →
        s.serveClaims = State.serveClaims { u with rt := { u.rt with lastClaimant := c } }) ∧
    (s.ag.issue.state ≠ .waitingTag → s.claimGrant .issueSlot = none) ∧
    (s.ag.issue.state = .waitingTag →
      let granted := s.alloc
        { originator := .issueSlot, kind := .mgmtRequest, dest := s.ag.issue.dest, length := s.ag.issue.length
          payload := s.ag.issue.words }
      (granted = none → s.claimGrant .issueSlot = none) ∧
      ∀ t u, granted = some (t, u) → s.claimGrant .issueSlot = some
        { u with ag := { u.ag with issue := { u.ag.issue with state := .issued } } }) ∧
    (let held (c : EventCode) : Prop := (s.ev.ring.get c).tag = none ∧ 0 < (s.ev.ring.get c).refire
      let after (c : EventCode) : Nat := (c.val + 18 - s.ev.lastGranted.val) % 19
      ((∀ c, ¬held c) → s.claimGrant .router = none) ∧
      ∀ c, held c → (∀ d, held d → after c ≤ after d) → s.claimGrant .router = s.grantHeld c) ∧
    (s.claimGrant .mover = s.moverGrant) ∧
    ∀ c : EventCode,
      let granted := s.alloc
        { originator := .event c, kind := .event, dest := (s.ev.routes.get c).dest
          number := (s.ev.routes.get c).number, count := BitVec.ofNat 8 (s.ev.ring.get c).refire }
      (granted = none → s.grantHeld c = none) ∧
      ∀ t u, granted = some (t, u) → s.grantHeld c = some
        { u with ev := { u.ev with
          ring := u.ev.ring.set c.val ⟨some t, 0⟩ c.isLt
          lastGranted := c
          counters := { u.ev.counters with ringEvents := bump u.ev.counters.ringEvents } } }

/-- Each choice of the arbiter (R32, R33) while RING OUT is free (log 16): the control offer first, then forwarded
frames against local ones by the forward run count, then the response queue against the request offer by the response
run count. What is handed over goes out with its check word (R16), and a timer of enumeration may start (R39, R49), the
pass timer for any ENUM, even of a run that has ended (log 27). A forwarded RING_RESET leaves `State.afterRingReset`,
whose kept loop path is log 9's, run fields log 19's, zero fields, the next offsets among them, log 24's and compared
attention inputs log 17's. -/
def Obligations.ArbiterChoice : Prop :=
  ∀ s : State, Rest s →
    let b : State := { s with now := s.now + 1 }
    let out (v : State) (f : Frame) : State :=
      { v with port := { v.port with
        ringOut := some (f.words ++ [checkWord f.words])
        counters := { v.port.counters with txFrames := bump v.port.counters.txFrames } } }
    let forwarded (v : State) : State :=
      { v with port := { v.port with counters := { v.port.counters with forwarded := bump v.port.counters.forwarded } } }
    let waits := s.port.responseQ ≠ [] ∨ s.port.offer ≠ none
    (s.port.link ≠ .up ∨ (s.port.control = none ∧ s.port.forwardQ = [] ∧ ¬waits) → exec .arbiterChoice s = .next s) ∧
    (s.port.link = .up →
      (∀ f, s.port.control = some (.own f) → exec .arbiterChoice s = .next (
        let v := out { b with port := { b.port with control := none } } f
        match f.body with
        | .enumPass _ => { v with en := { v.en with passTimer := .running 10000 } }
        | .ringReset _ => { v with en := { v.en with returnTimer := .running 10000 } }
        | _ => v)) ∧
      (∀ f, s.port.control = some (.forwarded f) →
        exec .arbiterChoice s = .next
          (forwarded (out { b with port := { b.port with control := none } } f)).afterRingReset) ∧
      (s.port.control = none → ∀ f l, s.port.forwardQ = f :: l →
        let send (run : Nat) := forwarded (out { b with port := { b.port with forwardQ := l, forwardRun := run } } f)
        (¬waits → exec .arbiterChoice s = .next (send 0)) ∧
        (waits → s.port.forwardRun < 4 → exec .arbiterChoice s = .next (send (s.port.forwardRun + 1))) ∧
        (waits → s.port.forwardRun = 4 → (f :: l).length = 4 → exec .arbiterChoice s = .next (send 4))) ∧
      (s.port.control = none → s.port.forwardQ = [] ∨ (s.port.forwardRun = 4 ∧ s.port.forwardQ.length < 4) →
        (∀ t f, s.port.offer = some ⟨t, f⟩ → s.port.responseQ = [] ∨ s.port.responseRun = 8 →
          let e := s.rt.entries.get t
          let v := out { b with port := { b.port with forwardRun := 0, responseRun := 0, offer := none } } f
          exec .arbiterChoice s = .next (State.endOfEvent
            { v with rt := { v.rt with
              entries := v.rt.entries.set t.val
                { e with
                  state := .sent
                  responseTimer := .running (s.ag.params.responseTimeout.toNat * 16)
                  sentOnce := true } t.isLt
              counters := if e.sentOnce then { v.rt.counters with resends := bump v.rt.counters.resends }
                else { v.rt.counters with requestsSent := bump v.rt.counters.requestsSent } } })) ∧
        (∀ r l, s.port.responseQ = r :: l → s.port.offer = none ∨ s.port.responseRun < 8 →
          let v := out { b with port := { b.port with
            responseQ := l
            forwardRun := 0
            responseRun := if s.port.offer = none then 0 else s.port.responseRun + 1 } } r.frame
          exec .arbiterChoice s = .next (State.endOfEvent
            { v with left := if r.purpose = .plain then [] else [r.purpose] }))))

/-- The request offer (R29, R31, R78, R79, R80), which moves once no response can. While the node is NUMBERED the frame
of the eligible entry of lowest allocation rank is presented; it is withdrawn when its entry is no longer eligible,
looped at once when it is for this node, taken and discarded when it is for another while the link is not UP, and waits
for the arbiter otherwise. What is looped or discarded counts as transmitted. The frame is built when it is presented
(R3 to R7): from the own id to the entry's destination, hop count 0; while it waits, only a go-back under R102 builds
it again (`PostedRunEnds`; log 10). -/
def Obligations.RequestOffer : Prop :=
  (∀ s : State, s.left = [] → (∀ r l, s.port.responseQ = r :: l → r.frame.dest ≠ s.en.ownId) →
    8 ≤ s.port.responseQ.length ∨ (s.inb.held = none ∧ s.ag.heldReply = none) →
    let entry (t : Tag) : TrackerEntry := s.rt.entries.get t
    let eligible (t : Tag) : Prop :=
      s.en.role = .numbered ∧ (entry t).state = .ready ∧
        ((s.ord.send.get (entry t).dest.toFin).stalled = false ∨ (s.postedRun (entry t).dest).head? = some t)
    let sent (v : State) (t : Tag) : State :=
      { v with
        port := { v.port with offer := none }
        rt := { v.rt with
          entries := v.rt.entries.set t.val
            { entry t with
              state := .sent
              responseTimer := .running (s.ag.params.responseTimeout.toNat * 16)
              sentOnce := true } t.isLt
          counters := if (entry t).sentOnce then { v.rt.counters with resends := bump v.rt.counters.resends }
            else { v.rt.counters with requestsSent := bump v.rt.counters.requestsSent } } }
    (∀ t f, s.port.offer = some ⟨t, f⟩ →
      (¬eligible t → s.settle = State.settle { s with port := { s.port with offer := none } }) ∧
      (eligible t → f.dest = s.en.ownId → s.settle = State.settle (sent
        { s with port := { s.port with
          loopQ := s.port.loopQ ++ [f]
          counters := { s.port.counters with looped := bump s.port.counters.looped } } } t)) ∧
      (eligible t → f.dest ≠ s.en.ownId → s.port.link ≠ .up → s.settle = State.settle (sent
        { s with port := { s.port with
          counters := { s.port.counters with txDiscarded := bump s.port.counters.txDiscarded } } } t)) ∧
      (eligible t → f.dest ≠ s.en.ownId → s.port.link = .up → s.settle = s)) ∧
    (s.port.offer = none →
      ((∀ t ∈ s.rt.allocOrder, ¬eligible t) → s.settle = s) ∧
      ∀ pre t post, s.rt.allocOrder = pre ++ t :: post → (∀ x ∈ pre, ¬eligible x) → eligible t →
        s.settle = State.settle { s with port := { s.port with offer := some ⟨t, s.requestFrame t⟩ } })) ∧
  ∀ (s : State) (t : Tag),
    let e := s.rt.entries.get t
    let f := s.requestFrame t
    f.dest = e.dest ∧ f.source = s.en.ownId ∧ f.hop = 0 ∧ (e.length < 32 → f.length.toNat = e.length) ∧
      f.payload = e.payload ∧
      f.body = match e.kind with
        | .read => .read ⟨t, e.gen⟩ ⟨e.addr, e.first, e.last⟩
        | .write => .write ⟨t, e.gen⟩ ⟨e.addr, e.first, e.last⟩
        | .postedWrite => .postedWrite ⟨t, e.gen⟩ ⟨e.addr, e.first, e.last⟩ e.seq e.sync
        | .event => .event ⟨t, e.gen⟩ e.number e.count
        | .mgmtRequest => .mgmtRequest ⟨t, e.gen⟩

/-- A RING_RESET (R25, R49): back at its maker, or at hop count 30, the node performs its RING reset at once; otherwise
the frame takes the control offer, its hop count raised. The return timer's expiry performs the RING reset too. What
the reset leaves rests on the model's choices besides: the kept loop path (log 9), the run set that holds the strapped
id (log 19), zero in the fields of emptied slots and in the next offsets (log 24), and the attention inputs compared as
it ends (log 17). -/
def Obligations.RingResets : Prop :=
  (∀ (i : Instr) (f : Frame) (s u : State) (serial : Word), Rest s → Arrival i f s u → f.malformed = false →
    f.body = .ringReset serial →
    exec i s = .next (
      if serial = s.serial then u.afterRingReset
      else if f.hop = 30 then
        State.afterRingReset { u with port := { u.port with
          counters := { u.port.counters with hopLimit := bump u.port.counters.hopLimit } } }
      else
        { u with port := { u.port with
          control := some (.forwarded { f with hop := f.hop + 1 })
          counters := { u.port.counters with
            txDiscarded := if u.port.control.isSome then bump u.port.counters.txDiscarded
              else u.port.counters.txDiscarded } } })) ∧
  ∀ s : State, Rest s →
    (s.en.returnTimer = .stopped → exec .returnTimerExpiry s = .next s) ∧
    ∀ us, s.en.returnTimer = .running us →
      exec .returnTimerExpiry s = .next (State.afterRingReset { s with now := s.now + 1 })

/-! ### The request tracker -/

/-- Freeing an entry (R88 steps 2 to 4, R79, R62, R65): its timers stop, its frame is withdrawn, its tag joins the tail
of the free list, and its window's count falls; a RETIRING window that so falls to 0 is EMPTY, and a DEFERRED agent
that waits for it answers OK (`State.replied`); the lease timer restarts for a requester that owns the lock, and
otherwise a held one runs on (R142). A reply discarded while the link is not UP counts as placed (log 38). -/
def Obligations.FreeingAnEntry : Prop :=
  ∀ (s : State) (t : Tag),
    let e := s.rt.entries.get t
    let freed : State :=
      { s with
        rt := { s.rt with
          entries := s.rt.entries.set t.val
            { e with state := .free, responseTimer := .stopped, backoffTimer := .stopped } t.isLt
          freeList := s.rt.freeList ++ [t]
          allocOrder := s.rt.allocOrder.erase t }
        port := { s.port with offer := s.port.offer.filter fun o => decide (o.tag ≠ t) } }
    (e.window = none → s.freeEntry t = freed) ∧
    ∀ w, e.window = some w →
      let x := s.wt.owt.get w
      let drained := x.state = .retiring ∧ x.inFlight ≤ 1
      let v : State :=
        { freed with wt := { s.wt with
          owt := s.wt.owt.set w.val
            { x with inFlight := x.inFlight - 1, state := if drained then .empty else x.state } w.isLt } }
      (¬(drained ∧ s.ag.state = .deferred ∧ ∃ d, s.ag.deferred = some d ∧ d.table = .outbound ∧ d.index = w) →
        s.freeEntry t = v) ∧
      ∀ d, drained → s.ag.state = .deferred → s.ag.deferred = some d → d.table = .outbound → d.index = w →
        s.freeEntry t = State.replied
          { v with ag := { v.ag with
            deferred := none
            holdTimer := .stopped
            leaseTimer :=
              if s.ag.lockOwner = d.requester ∧ d.requester ≠ 0 then .running (s.ag.leaseTime.toNat * 10000)
              else match s.ag.leaseTimer with
                | .held left => .running left
                | y => y } }
          (replyFrame d.requester d.dest d.tag d.gen 6 .ok []) .plain

/-- A completed entry hands its originator the result before it is freed (R88 step 1, R89, R120, R151, R174). The event
router asks for a code with a refire count at once, as for a grant (R174 step 3), and the mover for what its channels
need (R163): the ask is noted, and taken at the end of the event, before its firings (log 6). A mover that stands as a
claim already is tried by the rotation alone (R77). -/
def Obligations.CompletionHandsOver : Prop :=
  (∀ (s : State) (t : Tag) (r : Result) (data : List Word),
    let e := s.rt.entries.get t
    (e.originator = .localPosted ∨ e.originator = .abandoned → s.completeEntry r data t = s.freeEntry t) ∧
    (∀ j, e.originator = .delayed j →
      let sl := s.lt.slots.get j
      s.completeEntry r data t = State.freeEntry
        { s with
          lt := { s.lt with
            slots := s.lt.slots.set j.val
              { sl with
                state := .ready
                result := r
                data := if r = .ok ∧ sl.key.dir = .read then data.map (laneWord (s.wt.owt.get sl.window).laneOrder)
                  else []
                discardTimer := .running (s.ag.params.discardTime.toNat * 64) } j.isLt } } t) ∧
    (e.originator = .issueSlot →
      s.completeEntry r data t = State.freeEntry
        { s with
          ag := { s.ag with issue := { s.ag.issue with
            state := .replied, result := some r, reply := if r = .ok then data else [] } }
          firings := s.firings ++ [13] } t) ∧
    (∀ c i, e.originator = .mover c i →
      let v := s.moverCompleted c i e.kind r data
      s.completeEntry r data t =
        State.freeEntry (if s.moverWaits then v else { v with asks := v.asks ++ [.mover c i] }) t) ∧
    ∀ c, e.originator = .event c →
      let v : State :=
        { s with
          asks := s.asks ++ [.event c]
          ev := { s.ev with ring := s.ev.ring.set c.val { s.ev.ring.get c with tag := none } c.isLt } }
      (r = .ok → s.completeEntry r data t = v.freeEntry t) ∧
      (r ≠ .ok → s.completeEntry r data t = State.freeEntry
        { v with
          ag := s.ag.withRecord
            { kind := .eventLost, node := some e.dest, index := some (BitVec.ofNat 6 c.val), detail := some (.result r) }
          firings := s.firings ++ [5] } t)) ∧
  ∀ s : State,
    (s.asks = [] → s.takeAsks = s) ∧
    ∀ o l, s.asks = o :: l →
      let u : State := { s with asks := l }
      (∀ c, o = .event c →
        ((s.ev.ring.get c).tag = none → 0 < (s.ev.ring.get c).refire →
          (u.grantHeld c = none → s.takeAsks = u.takeAsks) ∧
          ∀ v, u.grantHeld c = some v → s.takeAsks = v.takeAsks) ∧
        (¬((s.ev.ring.get c).tag = none ∧ 0 < (s.ev.ring.get c).refire) → s.takeAsks = u.takeAsks)) ∧
      ((∃ c i, o = .mover c i) → s.takeAsks = (u.moverAsks 16).takeAsks)

/-- A response for this node acts on the entry its tag names, if it matches (R9, R83, R84, R85); otherwise it is stale.
EXHAUSTED rises once, for the entry it names (log 35), and a posted write out of retries fails its destination's whole
run (R103). What else an answer to a posted write does is said in `PostedRunEnds`. -/
def Obligations.TrackerAnswers : Prop :=
  (∀ (kind : ReqKind) (n : Nat) (f : Frame), answers kind n f = true ↔
    match f.body with
    | .readData _ => kind = .read ∧ f.length.toNat = n
    | .accept _ => kind = .write ∨ kind = .postedWrite ∨ kind = .event
    | .mgmtReply _ => kind = .mgmtRequest
    | .refuse _ why =>
      why.code = 1 ∨ (why.code = 2 ∧ kind = .postedWrite) ∨
        ((why.code = 3 ∨ why.code = 4) ∧ (kind = .read ∨ kind = .write ∨ kind = .postedWrite)) ∨
        (why.code = 5 ∧ (kind = .read ∨ kind = .write))
    | _ => False) ∧
  ∀ (i : Instr) (f : Frame) (s u : State) (ref : Ref), Rest s → Arrival i f s u → f.malformed = false → s.forMe f →
    (f.body = .readData ref ∨ f.body = .accept ref ∨ f.body = .mgmtReply ref ∨ ∃ why, f.body = .refuse ref why) →
    let t := ref.tag
    let e := s.rt.entries.get t
    let matched := e.state ≠ .free ∧ e.gen = ref.gen ∧ e.dest = f.source ∧ e.sentOnce = true ∧
      answers e.kind e.length f = true
    (¬matched → exec i s = .next
      { u with rt := { u.rt with
        counters := { u.rt.counters with staleResponse := bump u.rt.counters.staleResponse } } }) ∧
    (matched → f.body = .readData ref ∨ f.body = .mgmtReply ref →
      exec i s = .next (u.completeEntry .ok f.payload t).endOfEvent) ∧
    (matched → f.body = .accept ref → e.kind ≠ .postedWrite →
      exec i s = .next (u.completeEntry .ok [] t).endOfEvent) ∧
    (matched → ∀ why code, f.body = .refuse ref why → e.kind ≠ .postedWrite →
      (why.code = 3 ∧ code = .noWindow) ∨ (why.code = 4 ∧ code = .denied) ∨ (why.code = 5 ∧ code = .localFault) →
      exec i s = .next (u.completeEntry (.refused code) [] t).endOfEvent) ∧
    (matched → ∀ why, f.body = .refuse ref why → why.code = 1 →
      (e.retry < s.ag.params.retryLimit.toNat → e.state = .sent →
        exec i s = .next (u.withBackoff t).endOfEvent) ∧
      (e.retry < s.ag.params.retryLimit.toNat → e.state ≠ .sent →
        exec i s = .next (State.endOfEvent
          { u with rt := { u.rt with entries := u.rt.entries.set t.val { e with retry := e.retry + 1 } t.isLt } })) ∧
      (s.ag.params.retryLimit.toNat ≤ e.retry → e.kind ≠ .postedWrite →
        let v : State :=
          { u with rt := { u.rt with counters := { u.rt.counters with exhausted := bump u.rt.counters.exhausted } } }
        exec i s = .next (v.completeEntry .retryExhausted [] t).endOfEvent) ∧
      (s.ag.params.retryLimit.toNat ≤ e.retry → e.kind = .postedWrite →
        let v : State :=
          { u with rt := { u.rt with counters := { u.rt.counters with exhausted := bump u.rt.counters.exhausted } } }
        exec i s = .next (v.failRun e.dest .retryExhausted).endOfEvent))

/-- The tracker's two timers (R81, R82): an expiry while a timer is stopped has no effect (log 4). -/
def Obligations.RetryTimers : Prop :=
  ∀ (s : State) (t : Tag), Rest s →
    let e := s.rt.entries.get t
    let v : State :=
      { s with
        now := s.now + 1
        rt := { s.rt with counters := { s.rt.counters with timeouts := bump s.rt.counters.timeouts } } }
    let again := (e.kind = .read ∨ e.kind = .postedWrite) ∧ e.retry < s.ag.params.retryLimit.toNat
    (e.responseTimer = .stopped → exec (.responseTimerExpiry t) s = .next s) ∧
    (∀ us, e.responseTimer = .running us →
      (again → exec (.responseTimerExpiry t) s = .next (v.withBackoff t).endOfEvent) ∧
      (¬again → e.kind ≠ .postedWrite →
        exec (.responseTimerExpiry t) s = .next (v.completeEntry .timeout [] t).endOfEvent) ∧
      (¬again → e.kind = .postedWrite →
        exec (.responseTimerExpiry t) s = .next (v.failRun e.dest .timeout).endOfEvent)) ∧
    (e.backoffTimer = .stopped → exec (.backoffTimerExpiry t) s = .next s) ∧
    ∀ us, e.backoffTimer = .running us →
      exec (.backoffTimerExpiry t) s = .next (State.endOfEvent
        { s with
          now := s.now + 1
          rt := { s.rt with
            entries := s.rt.entries.set t.val
              { e with state := .ready, responseTimer := .stopped, backoffTimer := .stopped } t.isLt } })

/-- How a destination's unaccepted posted writes go on (R97 to R103). An ACCEPT accepts the write it names and every
earlier one; a refusal by window completes it with the earlier ones, and is recorded; a refusal for order goes back to
the sequence that the target expects, or, UNSYNCED or outside the run, marks the oldest write for synchronisation, in
its entry and, if it is presented, in its frame, which keeps its place in the offer (log 10); and a failure fails the
whole run. What each operation leaves is said after: the run returned, STALLED settled, the entries in ORDER_WAIT
released, writes accepted, and the run failed. A write's own hand-over (`CompletionHandsOver`) comes first, and the
POSTED_LOST records after those it brings (log 6); that a RUNNING channel of the mover starts frames at each of several
hand-overs is the model's choice (log 54). -/
def Obligations.PostedRunEnds : Prop :=
  (∀ (i : Instr) (f : Frame) (s u : State) (ref : Ref), Rest s → Arrival i f s u → f.malformed = false → s.forMe f →
    let t := ref.tag
    let e := s.rt.entries.get t
    let d := e.dest
    let q := s.ord.send.get d.toFin
    let settled (v : State) : State := (v.settleStalled d).releaseOrderWait d
    e.state ≠ .free → e.gen = ref.gen → e.dest = f.source → e.sentOnce = true → e.kind = .postedWrite →
    (f.body = .accept ref → exec i s = .next
      (settled (u.acceptOldest d ((s.postedRun d).idxOf t + 1))).endOfEvent) ∧
    (∀ why code, f.body = .refuse ref why → (why.code = 3 ∧ code = .noWindow) ∨ (why.code = 4 ∧ code = .denied) →
      let a := (u.acceptOldest d ((s.postedRun d).idxOf t)).completeEntry (.refused code) [] t
      let b := a.ord.send.get d.toFin
      exec i s = .next (settled
        { a with
          ag := a.ag.withRecord
            { kind := .postedLost, node := some d, tag := some t, address := some e.addr
              detail := some (.result (.refused code)) }
          firings := a.firings ++ [5]
          ord := { a.ord with
            send := a.ord.send.set d.toNat { b with count := b.count - 1, oldest := b.oldest + 1 } d.isLt } }).endOfEvent) ∧
    (∀ why, f.body = .refuse ref why → why.code = 2 →
      let k := (why.seq - q.oldest).toNat
      (why.unsynced = true ∨ q.count < k → exec i s = .next (u.unsyncedGoBack d).endOfEvent) ∧
      (why.unsynced = false → k = 0 → exec i s = .next (u.returnRun d).endOfEvent) ∧
      (why.unsynced = false → 1 ≤ k → k ≤ q.count → exec i s = .next
        ((settled (u.acceptOldest d k)).returnRun d).endOfEvent))) ∧
  ∀ (s : State) (d : NodeId),
    let q := s.ord.send.get d.toFin
    let run := s.postedRun d
    let ready (e : TrackerEntry) : TrackerEntry :=
      { e with state := .ready, responseTimer := .stopped, backoffTimer := .stopped }
    let postedTo (x : Tag) : Prop := (s.rt.entries.get x).kind = .postedWrite ∧ (s.rt.entries.get x).dest = d
    let returned (e : TrackerEntry) : TrackerEntry := if e.state = .sent ∨ e.state = .backoff then ready e else e
    (run = s.rt.allocOrder.filter fun x => postedTo x) ∧
    (s.returnRun d = { s with rt := { s.rt with
      entries := Vector.ofFn fun x =>
        if x ∈ run then returned (s.rt.entries.get x) else s.rt.entries.get x } }) ∧
    (let v : State :=
        { s with rt := { s.rt with
          entries := Vector.ofFn fun x =>
            let e := s.rt.entries.get x
            if x ∈ run then returned { e with sync := if run.head? = some x then true else e.sync } else e } }
     s.unsyncedGoBack d =
        { v with port := { v.port with
          offer := v.port.offer.map fun o =>
            if run.head? = some o.tag then ⟨o.tag, v.requestFrame o.tag⟩ else o } }) ∧
    (s.settleStalled d = { s with ord := { s.ord with
      send := s.ord.send.set d.toNat
        { q with stalled := run.head?.any fun x => (s.rt.entries.get x).state = .backoff } d.isLt } }) ∧
    (s.releaseOrderWait d = { s with rt := { s.rt with
      entries := Vector.ofFn fun x =>
        let e := s.rt.entries.get x
        if x ∈ s.rt.allocOrder.takeWhile (fun y => ¬postedTo y) ∧ e.dest = d ∧ e.state = .orderWait then ready e
        else e } }) ∧
    (∀ n, s.acceptOldest d n =
      let v := (run.take n).foldl (State.completeEntry .ok []) s
      { v with ord := { v.ord with
        send := v.ord.send.set d.toNat { q with count := q.count - n, oldest := q.oldest + BitVec.ofNat 6 n } d.isLt } }) ∧
    (∀ r, s.failRun d r =
      let v := run.foldl (State.completeEntry r []) s
      let lost := run.map fun x =>
        { kind := .postedLost
          node := some d
          tag := some x
          address := some (s.rt.entries.get x).addr
          detail := some (.result r) : FaultRecord }
      State.releaseOrderWait
        { v with
          ag := lost.foldl Agent.withRecord v.ag
          firings := v.firings ++ lost.map fun _ => 5
          ord := { v.ord with
            send := v.ord.send.set d.toNat
              { next := q.next, oldest := q.next, count := 0, syncNeeded := true, stalled := false } d.isLt } } d) ∧
    (s.rt.allocOrder.Nodup → ∀ l : List Tag, l.Sublist run → ∀ r,
      let v := l.foldl (State.completeEntry r []) s
      v.rt.freeList = s.rt.freeList ++ l ∧ v.rt.allocOrder = (s.rt.allocOrder.filter fun x => !l.contains x) ∧
        (∀ x ∈ l, v.rt.entries.get x =
          { s.rt.entries.get x with state := .free, responseTimer := .stopped, backoffTimer := .stopped }) ∧
        (∀ x, x ∉ l → v.rt.entries.get x = s.rt.entries.get x) ∧ v.ord = s.ord) ∧
    (s.rt.allocOrder.Nodup → ∀ r, ∀ x, x ∈ s.rt.allocOrder → x ∉ run → (s.rt.entries.get x).dest = d →
      (s.rt.entries.get x).state = .orderWait → (s.failRun d r).rt.entries.get x = ready (s.rt.entries.get x))

/-! ### Enumeration -/

/-- The manager's two timers (R38, R39, R46). Settled, a run that waits starts at once; in a PASS state the pass is
sent again twice, and then the run fails and a waiting run starts, after the firings and the claims that the end of the
run brought (log 28). What becomes of an ENUM presented over a waiting ENUM, which it replaces, or over this node's own
waiting RING_RESET, which stays, is log 18's (`State.withControl`). Outside a PASS state the pass timer's expiry only
stops it (log 27); a stopped timer does not expire (log 4). -/
def Obligations.ManagerTimers : Prop :=
  ∀ s : State, Rest s →
    let b : State := { s with now := s.now + 1 }
    let settled : State := { b with en := { b.en with settle := .expired } }
    (s.en.settle = .stopped ∨ s.en.settle = .expired → exec .settleTimerExpiry s = .next s) ∧
    (∀ us, s.en.settle = .running us →
      (¬(s.en.manager = true ∧ s.en.state = .settling ∧ s.en.runPending.isSome = true) →
        exec .settleTimerExpiry s = .next settled) ∧
      ∀ keep, s.en.manager = true → s.en.state = .settling → s.en.runPending = some keep →
        exec .settleTimerExpiry s = .next (settled.withRun keep).endOfEvent ∧
          (keep = true → (settled.withRun keep).endOfEvent = settled.withRun keep)) ∧
    (s.en.passTimer = .stopped → exec .passTimerExpiry s = .next s) ∧
    ∀ us, s.en.passTimer = .running us →
      let v : State := { b with en := { b.en with passTimer := .stopped } }
      (s.en.manager = false ∨ (s.en.state ≠ .passCensus ∧ s.en.state ≠ .passAssign ∧ s.en.state ≠ .passPublish) →
        exec .passTimerExpiry s = .next v) ∧
      ∀ pass, s.en.manager = true →
        (s.en.state = .passCensus ∧ pass = 1) ∨ (s.en.state = .passAssign ∧ pass = 2) ∨
          (s.en.state = .passPublish ∧ pass = 3) →
        (s.en.attempt.toNat < 3 →
          let w : State :=
            { v with en := { v.en with
              attempt := v.en.attempt + 1
              counters := { v.en.counters with passResends := bump v.en.counters.passResends } } }
          exec .passTimerExpiry s = .next (w.withControl (w.enumFrame pass))) ∧
        (3 ≤ s.en.attempt.toNat →
          let w : State :=
            { v with
              en := { v.en with state := .failed }
              ag := v.ag.withRecord { kind := .enumFailed }
              firings := [5, 3] }
          (s.en.runPending = none → exec .passTimerExpiry s = .next w.endOfEvent) ∧
          ∀ keep, s.en.runPending = some keep →
            exec .passTimerExpiry s = .next (w.takeFirings.serveClaims.withRun keep).endOfEvent)

/-- An ENUM at a manager (R41, R43, R45, R46, R48): the frame of the pass under way ends that pass and begins the next;
a stale one is removed; another manager's is removed, counted and recorded. A run that waits when PUBLISH ends starts
after the firings and the claims that the end of the run brought (log 28). The frame of a pass that begins replaces an
ENUM that waits, and not a RING_RESET of this node's own, by log 18 (`State.withControl`). -/
def Obligations.EnumReturns : Prop :=
  ∀ (i : Instr) (f : Frame) (s u : State) (e : EnumFields), Rest s → Arrival i f s u → f.malformed = false →
    f.body = .enumPass e → s.en.manager = true →
    (e.serial ≠ s.serial →
      let v : State :=
        { u with
          en := { u.en with counters := { u.en.counters with foreignEnum := bump u.en.counters.foreignEnum } }
          ag := u.ag.withRecord
            { kind := .managerConflict, node := if f.source ≠ 0 ∧ f.source ≠ 31 then some f.source else none } }
      let t := State.endOfEvent { v with firings := [5] }
      exec i s = .next t ∧ Settled [5] v t) ∧
    (e.serial = s.serial →
      (¬(e.attempt = s.en.attempt ∧ ((s.en.state = .passCensus ∧ e.pass = 1) ∨ (s.en.state = .passAssign ∧ e.pass = 2) ∨
          (s.en.state = .passPublish ∧ e.pass = 3))) → exec i s = .next u) ∧
      (e.attempt = s.en.attempt →
        let v : State := { u with en := { u.en with passTimer := .stopped, runSet := e.taken, runCount := e.count } }
        (s.en.state = .passCensus → e.pass = 1 →
          let w : State :=
            if e.duplicate = true then { v with ag := v.ag.withRecord { kind := .duplicateId }, firings := [5] } else v
          (s.en.idMode = .strapped ∨ s.en.ownId ≠ 0 →
            exec i s = .next (w.withPass .passAssign 2).endOfEvent) ∧
          (s.en.idMode = .assigned → s.en.ownId = 0 →
            (∀ id : NodeId, id ≠ 0 → id ≠ 31 → e.taken.getLsbD id.toNat = false →
              (∀ k : NodeId, k ≠ 0 → k.toNat < id.toNat → e.taken.getLsbD k.toNat = true) →
              exec i s = .next (State.endOfEvent (State.withPass
                { w with en := { w.en with
                  ownId := id
                  role := .provisional
                  runSet := e.taken ||| BitVec.twoPow 32 id.toNat
                  runCount := e.count + 1 } } .passAssign 2))) ∧
            ((∀ id : NodeId, id ≠ 0 → id ≠ 31 → e.taken.getLsbD id.toNat = true) →
              exec i s = .next (State.endOfEvent (State.withPass
                { w with ag := w.ag.withRecord { kind := .enumOverflow }, firings := w.firings ++ [5] }
                .passAssign 2))))) ∧
        (s.en.state = .passAssign → e.pass = 2 →
          let w : State :=
            if e.overflow = true then { v with ag := v.ag.withRecord { kind := .enumOverflow }, firings := [5] } else v
          exec i s = .next (w.withPass .passPublish 3).endOfEvent) ∧
        (s.en.state = .passPublish → e.pass = 3 →
          let w : State :=
            { u with
              en := { u.en with
                passTimer := .stopped
                census := s.en.runSet
                censusCount := s.en.runCount
                role := if s.en.role = .provisional then .numbered else s.en.role
                state := .done }
              firings := [2] }
          (s.en.runPending = none → exec i s = .next w.endOfEvent) ∧
          ∀ keep, s.en.runPending = some keep →
            exec i s = .next (w.takeFirings.serveClaims.withRun keep).endOfEvent)))

/-- An ENUM at a node that is no manager (R40, R42, R44): the node takes, keeps or gives up its id by the pass, and the
frame, changed as the pass says, is forwarded (R24, R28). -/
def Obligations.EnumPasses : Prop :=
  ∀ (i : Instr) (f : Frame) (s u : State) (e : EnumFields), Rest s → Arrival i f s u → f.malformed = false →
    f.body = .enumPass e → s.en.manager = false →
    let frame (e' : EnumFields) : Frame := { f with body := .enumPass e' }
    let added (id : NodeId) : EnumFields :=
      { e with taken := e.taken ||| BitVec.twoPow 32 id.toNat, count := e.count + 1 }
    let withId (v : State) (id : NodeId) (role : Role) : State := { v with en := { v.en with ownId := id, role := role } }
    (e.pass = 1 →
      let a := if e.keep = true then u else u.withoutIds
      let b := if a.en.idMode = .strapped ∧ a.en.role = .unnumbered ∧ a.en.holdWithdrawn = false then
          withId a a.en.strappedId .provisional
        else a
      (b.en.ownId = 0 → exec i s = .next (b.withForward (frame e)).endOfEvent) ∧
      (b.en.ownId ≠ 0 → e.taken.getLsbD b.en.ownId.toNat = false →
        exec i s = .next (b.withForward (frame (added b.en.ownId))).endOfEvent) ∧
      (b.en.ownId ≠ 0 → e.taken.getLsbD b.en.ownId.toNat = true →
        let c : State :=
          { withId b 0 .unnumbered with
            ag := b.ag.withRecord { kind := .duplicateId, node := some b.en.ownId }
            firings := b.firings ++ [5] }
        let d := if e.keep = true then
            let x := c.abort .renumbered
            { x with ord := { x.ord with
              send := x.ord.send.map fun e => { e with syncNeeded := true }
              recv := Vector.replicate 32 RecvEntry.reset } }
          else c
        exec i s = .next (State.endOfEvent (State.withForward
          { d with en := { d.en with holdWithdrawn := d.en.holdWithdrawn || d.en.idMode == .strapped } }
          (frame { e with duplicate := true }))))) ∧
    (e.pass = 2 →
      (s.en.role ≠ .unnumbered → exec i s = .next (State.endOfEvent (u.withForward (frame
        (if e.taken.getLsbD s.en.ownId.toNat = true then e else added s.en.ownId))))) ∧
      (s.en.role = .unnumbered → s.en.idMode = .assigned →
        (∀ id : NodeId, id ≠ 0 → id ≠ 31 → e.taken.getLsbD id.toNat = false →
          (∀ k : NodeId, k ≠ 0 → k.toNat < id.toNat → e.taken.getLsbD k.toNat = true) →
          exec i s = .next (State.endOfEvent ((withId u id .provisional).withForward (frame (added id))))) ∧
        ((∀ id : NodeId, id ≠ 0 → id ≠ 31 → e.taken.getLsbD id.toNat = true) →
          exec i s = .next (State.endOfEvent (u.withForward (frame { e with overflow := true }))))) ∧
      (s.en.role = .unnumbered → s.en.idMode = .strapped →
        exec i s = .next (State.endOfEvent (
          if s.en.holdWithdrawn = true ∨ e.taken.getLsbD s.en.strappedId.toNat = true then u.withForward (frame e)
          else (withId u s.en.strappedId .provisional).withForward (frame (added s.en.strappedId)))))) ∧
    (e.pass = 3 →
      let v : State := { u with en := { u.en with census := e.taken, censusCount := e.count } }
      (s.en.role ≠ .provisional → exec i s = .next (State.endOfEvent (v.withForward (frame e)))) ∧
      (s.en.role = .provisional →
        exec i s = .next (State.endOfEvent (
          if e.taken.getLsbD s.en.ownId.toNat = true then
            State.withForward { withId v s.en.ownId .numbered with firings := [2] } (frame e)
          else (withId v 0 .unnumbered).withForward (frame e)))))

/-- The lock-loss timer expires (R18, R20, R38, R47, R90): the link leaves UP, LINK_DOWN is recorded and fires, the
queues are emptied and counted, every request ends LINK_DOWN, and the manager stops settling and ends its run; a
RING_RESET that was being forwarded makes it a RING reset (R25). What ends every request completes every entry, in
allocation order, with the result, and posted writes are recorded as lost (R88, R90, R103), after the records that the
hand-overs bring (log 6). The order of these, the firings taken before the queues are emptied or, with a NODE reset
pending or a RING reset to come, after it, is log 26's, and so is that the RING reset cancels a NODE reset whose reply
has left in the same event; that the RING reset comes after all that leaving UP brings, and before the RING_RESET of a
command whose reply has left in that event could be presented, so that none is, that it discards a held reply or
response unplaced, and that it drops the asks, is log 55's; that a settle timer stops even once expired, log 37's. A
stopped timer does not expire (log 4). What a RING reset leaves in such an event is said whole: the part as
`State.afterRingReset` has it (its kept loop path log 9's, run fields log 19's, zero fields, the next offsets among
them, log 24's), no report and no ask, the pending set empty, and the firings of the event, of its records and of the
asserted attention inputs (log 17) still to be taken. -/
def Obligations.LinkLeavesUp : Prop :=
  (∀ s : State, Rest s →
    (s.port.lockLossTimer = .stopped → exec .lockLossTimerExpiry s = .next s) ∧
    ∀ us, s.port.lockLossTimer = .running us →
      let b : State :=
        { s with
          now := s.now + 1
          port := { s.port with link := .down, lockLossTimer := .stopped }
          ag := s.ag.withRecord { kind := .linkDown }
          firings := [1, 5] }
      let emptied (v : State) : State :=
        { v with
          port := { v.port with
            forwardQ := []
            responseQ := []
            counters := { v.port.counters with
              txDiscarded := bumpBy (v.port.forwardQ.length + v.port.responseQ.length) v.port.counters.txDiscarded } }
          left := (v.port.responseQ.map (·.purpose)).filter (· ≠ .plain) }
      let ended (v : State) : State :=
        if v.en.manager = true then
          let run := v.en.state = .passCensus ∨ v.en.state = .passAssign ∨ v.en.state = .passPublish
          let withdrawn : Bool := match v.port.control with
            | some (.own g) => match g.body with
              | .ringReset _ => false
              | _ => true
            | _ => false
          { v with
            en := { v.en with
              settle := .stopped
              passTimer := if run then .stopped else v.en.passTimer
              runPending := if run then none else v.en.runPending
              state := if run then .idle else v.en.state }
            port := { v.port with
              control := if withdrawn then none else v.port.control
              counters := { v.port.counters with
                txDiscarded := if withdrawn then bump v.port.counters.txDiscarded
                  else v.port.counters.txDiscarded } } }
        else v
      ((∀ g, s.port.control ≠ some (.forwarded g)) →
        exec .lockLossTimerExpiry s = .next
          (ended ((emptied (if s.ag.resetPending = true then b else b.takeFirings)).abort .linkDown)).endOfEvent) ∧
      ((∃ g, s.port.control = some (.forwarded g)) →
        exec .lockLossTimerExpiry s = .next (ended ((emptied b).abort .linkDown)).performRingReset.endOfEvent)) ∧
  (∀ s : State,
    let asserted : List EventCode :=
      [(15, 0), (16, 1), (17, 2), (18, 3)].filterMap fun (c, i) =>
        if s.localResetIn = false ∧ s.ev.attnInput.getLsbD i = true then some c else none
    s.performRingReset =
      { s.afterRingReset with
        ev := { s.afterRingReset.ev with pendingSet := 0 }
        firings := s.firings ++ (5 :: s.discardRecords.map fun _ => 5) ++ asserted
        left := []
        asks := [] }) ∧
  ∀ (s : State) (r : Result),
    let v := s.abort r
    let posted := s.rt.allocOrder.filter fun x => (s.rt.entries.get x).kind = .postedWrite
    let lost := posted.map fun x =>
      { kind := .postedLost
        node := some (s.rt.entries.get x).dest
        tag := some x
        address := some (s.rt.entries.get x).addr
        detail := some (.result r) : FaultRecord }
    let failed (q : Table SendEntry 32) (x : Tag) : Table SendEntry 32 :=
      let d := (s.rt.entries.get x).dest
      q.set d.toNat
        { next := (q.get d.toFin).next, oldest := (q.get d.toFin).next, count := 0, syncNeeded := true, stalled := false }
        d.isLt
    (v =
      let c := s.rt.allocOrder.foldl (State.completeEntry r []) s
      { c with
        ag := lost.foldl Agent.withRecord c.ag
        firings := c.firings ++ lost.map fun _ => 5
        port := { c.port with offer := none }
        ord := { c.ord with send := posted.foldl failed c.ord.send } }) ∧
    v.rt.allocOrder = [] ∧ v.rt.freeList = s.rt.freeList ++ s.rt.allocOrder ∧ v.port.offer = none ∧
      (∀ x ∈ s.rt.allocOrder, (v.rt.entries.get x).state = .free ∧ (v.rt.entries.get x).responseTimer = .stopped ∧
        (v.rt.entries.get x).backoffTimer = .stopped ∧ (v.rt.entries.get x).gen = (s.rt.entries.get x).gen) ∧
      (∀ x, x ∉ s.rt.allocOrder → v.rt.entries.get x = s.rt.entries.get x) ∧
      ∀ x ∈ s.rt.allocOrder, (s.rt.entries.get x).kind = .postedWrite →
        let d := (s.rt.entries.get x).dest.toFin
        (v.ord.send.get d).count = 0 ∧ (v.ord.send.get d).syncNeeded = true ∧ (v.ord.send.get d).stalled = false ∧
          (v.ord.send.get d).next = (s.ord.send.get d).next

/-! ### The local reset, the slots' and the agent's timers, the local master -/

/-- LOCAL_RESET (R124, R135, R169, R176, R93): the RUNNING channels halt; the transaction is withdrawn and every queued
request ended, those that want an answer with REFUSE LOCAL_FAULT, posted ones with a record; and the card-side state is
cleared (emptied delayed slots and the issue slot hold zero, log 24). A pin that is asserted already is not asserted
again (log 4). The halt offset is that of the oldest busy slot that is not detached, taken before the release (log 13),
the halt frees uncommitted slots that are detached too (log 12), a buffer slot that it frees keeps its place, addresses
and lane order, its data and tag cleared (log 24), channel A halts before B and the halts come before the queue's
records (log 7), and an entry is answered before it leaves the queue (log 36), the ignored bits of its REFUSE zero (log
20). -/
def Obligations.LocalReset : Prop :=
  (∀ s : State, Rest s →
    let halted (v : State) (c : ChannelId) : State :=
      if (v.chan c).state = .running then
        v.withHalt c
          (match (v.chan c).oldest fun sl => sl.state != .free && !sl.detached with
            | some i => ((v.chan c).slots.get i).offset
            | none => (v.chan c).nextOffset) (some .localFault)
      else v
    let b := halted (halted { s with now := s.now + 1, localResetIn := true } .a) .b
    let u := b.inboundLocalReset
    (s.localResetIn = true → exec .localReset s = .next s) ∧
    (s.localResetIn = false →
      exec .localReset s = .next (State.endOfEvent
        { u with
          rt := { u.rt with
            entries := u.rt.entries.map fun e =>
              if e.state = .free then e
              else
                { e with originator := match e.originator with
                  | .delayed _ => .abandoned
                  | .issueSlot => .abandoned
                  | o => o } }
          lt := { u.lt with slots := Vector.replicate 4 DelayedSlot.reset, lastFault := none, latch := none }
          ag := { u.ag with issue := IssueSlot.reset }
          ev := { u.ev with pendingSet := 0, attnRecorded := 0, inbox := [] } })) ∧
    u.inb.queue = [] ∧ u.inb.current = none ∧ u.inb.held = s.inb.held ∧
    (s.inb.current = none → u = s.inb.queue.foldl State.endEntry b) ∧
    ∀ tx, s.inb.current = some tx →
      let d : State :=
        { b with inb := { b.inb with
          current := none
          counters := { b.inb.counters with localMasterFaults := bump b.inb.counters.localMasterFaults } } }
      (∀ e l, tx.owner = .inbound → s.inb.queue = e :: l → u = (e :: l).foldl State.endEntry d) ∧
      ∀ c i, tx.owner = .mover c i →
        (d.slot c i).state = .localPending ∨ (d.slot c i).state = .landing →
        u = s.inb.queue.foldl State.endEntry (d.frameFailed c i .localFault)) ∧
  ∀ (s : State) (e : InboundEntry),
    let answered : State :=
      if e.kind = .postedWrite then
        { s with
          ag := s.ag.withRecord
            { kind := .postedDiscarded
              node := some e.source
              tag := some e.tag
              index := some (BitVec.ofNat 6 e.window.val)
              address := some (e.address.setWidth 40)
              detail := some .localFault }
          firings := s.firings ++ [5] }
      else if s.port.responseQ.length < 8 then
        s.placed (Frame.answer e.source e.answering
          (.refuse ⟨e.tag, e.gen⟩ { code := 5, present := false, unsynced := false, seq := 0 })) .plain
      else s.counted fun c => { c with responseOverrun := bump c.responseOverrun }
    s.endEntry e =
      State.fallIwt { answered with inb := { answered.inb with queue := answered.inb.queue.tail } } e.window

/-- Three timers (R121, R142, R143): a READY slot whose discard timer expires is FREE and counted; the hold timer's
expiry lets a held lease timer run on; and the lease's expiry frees the lock and records LEASE_LOST, and with the action
RETIRE_ALL retires every ACTIVE window (R67) and stops every RUNNING channel (R165), channel A before B by the model's
choice (log 7), whose release frees detached slots too (log 12). A buffer slot that the release frees keeps its place,
addresses and lane order, its data, tag and detached flag cleared (log 24); a FREE delayed slot keeps its last fields
(log 44), and a stopped or held timer does not expire (log 4). -/
def Obligations.AgentAndSlotTimers : Prop :=
  ∀ s : State, Rest s →
    (∀ i : Fin 4,
      let sl := s.lt.slots.get i
      (sl.discardTimer = .stopped → exec (.discardTimerExpiry i) s = .next s) ∧
      ∀ us, sl.discardTimer = .running us → exec (.discardTimerExpiry i) s = .next
        { s with lt := { s.lt with
          slots := s.lt.slots.set i.val { sl with state := .free, discardTimer := .stopped } i.isLt
          counters := { s.lt.counters with discarded := bump s.lt.counters.discarded } } }) ∧
    (s.ag.holdTimer = .stopped → exec .holdTimerExpiry s = .next s) ∧
    (∀ us, s.ag.holdTimer = .running us → exec .holdTimerExpiry s = .next
      { s with ag := { s.ag with
        holdTimer := .stopped
        leaseTimer := match s.ag.leaseTimer with
          | .held left => .running left
          | x => x } }) ∧
    (s.ag.leaseTimer = .stopped ∨ (∃ us, s.ag.leaseTimer = .held us) → exec .leaseTimerExpiry s = .next s) ∧
    ∀ us, s.ag.leaseTimer = .running us →
      let a := s.ag.withRecord { kind := .leaseLost, node := some s.ag.lockOwner }
      let u : State := { s with now := s.now + 1, ag := { a with lockOwner := 0, leaseTimer := .stopped } }
      let retired (st : WindowState) (n : Nat) : WindowState :=
        if st = .active then (if n = 0 then .empty else .retiring) else st
      let v : State :=
        { u with
          wt :=
            { owt := s.wt.owt.map fun e => { e with state := retired e.state e.inFlight }
              iwt := s.wt.iwt.map fun e => { e with state := retired e.state e.inFlight } }
          firings := [5, 4] }
      let stopped (x : State) (c : ChannelId) : State := if (x.chan c).state = .running then x.withStop c else x
      (s.ag.leaseAction = .none →
        let t := State.endOfEvent { u with firings := [5, 4] }
        exec .leaseTimerExpiry s = .next t ∧ Settled [5, 4] u t) ∧
      (s.ag.leaseAction = .retireAll →
        exec .leaseTimerExpiry s = .next (stopped (stopped v .a) .b).endOfEvent)

/-- How the card's terminations end an attempt of the local master (R131), and what the end of the head entry's
transaction is to its requester (R132, R133). A RETRY with reattempts left waits for the next attempt; the last RETRY
and the cycle timer's expiry end the transaction like a FAULT. The window's count falls, and the last request of a
RETIRING window answers the RETIRE_WINDOW that waits for it (R62, R65, R142). READ_DATA carries zero bytes in the lanes
that the READ's masks leave out, and an answer without payload has length 1 and hop count 0 (R8). A termination or an
expiry that finds no transaction, or no attempt in progress, changes nothing (R131; the cases that it does not name are
log 4's). The ignored bits of a REFUSE are zero (log 20). -/
def Obligations.BusTerminations : Prop :=
  (∀ (dest source : NodeId) (b : Body), Frame.answer dest source b =
    { dest := dest, source := source, hop := 0, length := 1, body := b, payload := [] }) ∧
  (∀ (s : State) (w : Fin 16),
    let x := s.wt.iwt.get w
    let drained := x.state = .retiring ∧ x.inFlight ≤ 1
    let v : State :=
      { s with wt := { s.wt with
        iwt := s.wt.iwt.set w.val
          { x with inFlight := x.inFlight - 1, state := if drained then .empty else x.state } w.isLt } }
    (¬(drained ∧ s.ag.state = .deferred ∧ ∃ d, s.ag.deferred = some d ∧ d.table = .inbound ∧ d.index = w) →
      s.fallIwt w = v) ∧
    ∀ d, drained → s.ag.state = .deferred → s.ag.deferred = some d → d.table = .inbound → d.index = w →
      s.fallIwt w = State.replied
        { v with ag := { v.ag with
          deferred := none
          holdTimer := .stopped
          leaseTimer :=
            if s.ag.lockOwner = d.requester ∧ d.requester ≠ 0 then .running (s.ag.leaseTime.toNat * 10000)
            else match s.ag.leaseTimer with
              | .held left => .running left
              | y => y } }
        (replyFrame d.requester d.dest d.tag d.gen 6 .ok []) .plain) ∧
  ∀ s : State, Rest s →
    (s.inb.current = none ∨ (∃ tx, s.inb.current = some tx ∧ tx.cycleTimer = .stopped) →
      (∀ data, exec (.terminationDone data) s = .next s) ∧ exec .terminationFault s = .next s ∧
        exec .terminationRetry s = .next s ∧ exec .cycleTimerExpiry s = .next s) ∧
    (s.inb.current = none ∨ (∃ tx, s.inb.current = some tx ∧ tx.delayTimer = .stopped) →
      exec .reattemptDelayExpiry s = .next s) ∧
    ∀ tx, s.inb.current = some tx →
      (tx.delayTimer ≠ .stopped → exec .reattemptDelayExpiry s = .next
        { s with
          inb := { s.inb with
            current := some
              { tx with
                reattempts := tx.reattempts + 1
                cycleTimer := .running s.ag.params.localCycleLimit.toNat
                delayTimer := .stopped } } }) ∧
      (tx.cycleTimer ≠ .stopped →
        (tx.reattempts < s.ag.params.localRetryLimit.toNat → exec .terminationRetry s = .next
          { s with
            now := s.now + 1
            inb := { s.inb with current := some { tx with cycleTimer := .stopped, delayTimer := .running 1 } } }) ∧
        (s.ag.params.localRetryLimit.toNat ≤ tx.reattempts →
          exec .terminationRetry s = exec .terminationFault s) ∧
        ∀ e l, tx.owner = .inbound → s.inb.queue = e :: l →
          let order := (s.wt.iwt.get e.window).laneOrder
          let u (counters : InboundCounters) : State :=
            State.fallIwt
              { s with
                now := s.now + 1
                inb := { s.inb with current := none, queue := l, counters := counters } } e.window
          let done := u s.inb.counters
          let failed := u { s.inb.counters with localMasterFaults := bump s.inb.counters.localMasterFaults }
          let answered (v : State) (f : Frame) : State :=
            if v.port.responseQ.length < 8 then v.placed f .plain
            else { v with inb := { v.inb with held := some ⟨f, v.now⟩ } }
          let words (data : Table Word 16) : List Word := if tx.dir = .read then data.toList.take tx.count else []
          let valid (n : Nat) : Mask := (if n = 0 then e.first else 15) &&& (if n + 1 = e.length then e.last else 15)
          let byte (w : Word) (m : Mask) (n : Nat) : BitVec 8 := if m.getLsbD n then w.extractLsb' (8 * n) 8 else 0
          let kept (m : Mask) (w : Word) : Word := byte w m 3 ++ byte w m 2 ++ byte w m 1 ++ byte w m 0
          (e.kind = .read →
            ∀ data, exec (.terminationDone data) s = .next (answered done
              { dest := e.source
                source := e.answering
                hop := 0
                length := BitVec.ofNat 5 e.length
                body := .readData ⟨e.tag, e.gen⟩
                payload := ((words data).map (laneWord order)).mapIdx fun n w => kept (valid n) w }).endOfEvent) ∧
          (e.kind = .write → ∀ data, exec (.terminationDone data) s = .next (answered done
            (Frame.answer e.source e.answering (.accept ⟨e.tag, e.gen⟩))).endOfEvent) ∧
          (e.kind = .postedWrite → (∀ data, exec (.terminationDone data) s = .next done.endOfEvent) ∧
            ∀ i, i = .terminationFault ∨ i = .cycleTimerExpiry → exec i s = .next (State.endOfEvent
              { failed with
                ag := failed.ag.withRecord
                  { kind := .postedDiscarded
                    node := some e.source
                    tag := some e.tag
                    index := some (BitVec.ofNat 6 e.window.val)
                    address := some (e.address.setWidth 40)
                    detail := some .localFault }
                firings := failed.firings ++ [5] })) ∧
          (e.kind ≠ .postedWrite → ∀ i, i = .terminationFault ∨ i = .cycleTimerExpiry → exec i s = .next (answered failed
            (Frame.answer e.source e.answering
              (.refuse ⟨e.tag, e.gen⟩ { code := 5, present := false, unsynced := false, seq := 0 }))).endOfEvent))

/-- How a frame of the mover ends (R161, R162, R164, R166, R167, R168), whether by the local master or by the tracker:
the slot is freed, its words are counted, a completed descriptor ends the move or is followed by the next, and a failure
halts the channel. A channel that goes on starts frames, and the mover asks for what its slots need (`StartStopMove`),
unless it stood as a claim before, when the rotation alone tries it (R77, log 6), at the end of the event (log 51). What
a PUSH read's end makes of a slot goes by its channel's state, detached or not, and a halt releases detached slots too
(log 12). A freed slot keeps its place, addresses and lane order (log 24). Where one event frees several slots of a
RUNNING channel, that frames start at each freeing, and not once after all, is the model's choice (log 54). -/
def Obligations.MoverFrames : Prop :=
  ([.a, .b].map codeMoveDone = [6, 7] ∧ [.a, .b].map codeMoveHalt = [8, 9] ∧ [.a, .b].map codeMoveIdle = [10, 11]) ∧
  (∀ (s : State) (tx : Transaction) (c : ChannelId) (i : Fin 8), s.inb.current = some tx → tx.cycleTimer ≠ .stopped →
    tx.owner = .mover c i →
    let b : State := { s with now := s.now + 1, inb := { s.inb with current := none } }
    let f : State :=
      { b with inb := { b.inb with
        counters := { b.inb.counters with localMasterFaults := bump b.inb.counters.localMasterFaults } } }
    let ch := s.chan c
    let sl := ch.slots.get i
    let put (x : Slot) : State := b.withChannel c { ch with slots := ch.slots.set i.val x i.isLt }
    (∀ data, sl.state = .landing →
      exec (.terminationDone data) s = .next ((b.frameDone c i).withMoverAsks s.moverWaits).endOfEvent) ∧
    (∀ data, sl.state = .localPending → ch.state = .running ∨ ch.state = .idle →
      exec (.terminationDone data) s = .next (((put
        { sl with
          state := .ringPending
          tag := none
          data := (if tx.dir = .read then data.toList.take tx.count else []).map (laneWord sl.laneOrder)
          entered := b.now }).withMoverAsks s.moverWaits).endOfEvent)) ∧
    (∀ data, sl.state = .localPending → ch.state = .stopping ∨ ch.state = .halted →
      exec (.terminationDone data) s = .next (((put
        { sl with state := .free, data := [], tag := none, detached := false, entered := b.now }).slotFreed
          c).withMoverAsks s.moverWaits).endOfEvent) ∧
    (sl.state = .landing ∨ sl.state = .localPending → ∀ x, x = .terminationFault ∨ x = .cycleTimerExpiry →
      exec x s = .next ((f.frameFailed c i .localFault).withMoverAsks s.moverWaits).endOfEvent)) ∧
  (∀ (s : State) (kind : ReqKind) (r : Result) (data : List Word) (c : ChannelId) (i : Fin 8),
    let ch := s.chan c
    let sl := ch.slots.get i
    (r = .ok → kind = .read → s.moverCompleted c i kind r data = s.withChannel c
      { ch with
        slots := ch.slots.set i.val
          { sl with state := .landing, tag := none, data := data.map (laneWord sl.laneOrder), entered := s.now }
          i.isLt }) ∧
    (r = .ok → kind ≠ .read → s.moverCompleted c i kind r data = s.frameDone c i) ∧
    (r ≠ .ok → s.moverCompleted c i kind r data = s.frameFailed c i (.result r))) ∧
  ∀ (s : State) (c : ChannelId) (i : Fin 8),
    let ch := s.chan c
    let sl := ch.slots.get i
    let d := s.bm.descriptors.get (ch.current.getD 0)
    let freed : Channel :=
      { ch with
        slots := ch.slots.set i.val
          { sl with state := .free, data := [], tag := none, detached := false, entered := s.now } i.isLt }
    let moved (v : State) : State :=
      { v with bm := { v.bm with counters := match c with
        | .a => { v.bm.counters with wordsMovedA := bumpBy sl.count v.bm.counters.wordsMovedA }
        | .b => { v.bm.counters with wordsMovedB := bumpBy sl.count v.bm.counters.wordsMovedB } } }
    let counted : Channel := { freed with completed := ch.completed + sl.count }
    let working := ch.state = .running ∨ ch.state = .stopping
    let fired (v : State) (cs : List EventCode) : State := { v with firings := v.firings ++ cs }
    let notified : List EventCode := if d.notify = true then [codeMoveDone c] else []
    (sl.detached = true → s.frameDone c i = (moved (s.withChannel c freed)).slotFreed c) ∧
    (sl.detached = false → ¬(working ∧ ch.completed + sl.count = d.length) →
      s.frameDone c i = (moved (s.withChannel c counted)).slotFreed c) ∧
    (sl.detached = false → ch.completed + sl.count = d.length →
      let v := fired (moved (s.withChannel c counted)) notified
      (ch.state = .stopping → s.frameDone c i =
        fired (v.withChannel c { counted with state := .idle }) [codeMoveIdle c]) ∧
      (ch.state = .running → d.next = none → s.frameDone c i =
        fired (v.withChannel c { counted with state := .idle }) [codeMoveIdle c]) ∧
      ∀ n, ch.state = .running → d.next = some n →
        let d' := s.bm.descriptors.get n
        (d'.loaded = true → s.frameDone c i = v.withChannel c (Channel.startFrames
          { counted with
            current := some n
            remaining := d'.length
            nextOffset := 0
            completed := 0
            remote := d'.remote
            localAddr := d'.localAddr } d' s.now)) ∧
        (d'.loaded = false → s.frameDone c i = v.withHalt c d.length none)) ∧
    (∀ why, sl.detached = false → working →
      s.frameFailed c i why = (s.withChannel c freed).withHalt c sl.offset (some why)) ∧
    (∀ why, ¬(sl.detached = false ∧ working) → s.frameFailed c i why = (s.withChannel c freed).slotFreed c) ∧
    (ch.state = .running → s.slotFreed c = s.withChannel c (ch.startFrames d s.now)) ∧
    (ch.state = .stopping → s.slotFreed c =
      if ch.slots.toList.any (fun x => x.state != .free && !x.detached) then s
      else fired (s.withChannel c { ch with state := .idle }) [codeMoveIdle c]) ∧
    (ch.state = .idle ∨ ch.state = .halted → s.slotFreed c = s)

/-! ### The local bus, the page, the move and reset commands -/

/-- OUTBOUND_ACCESS (R112, R116 to R119): while LOCAL_RESET_IN is asserted it ends RETRY; the first of NOT_NUMBERED,
NO_WINDOW, PAST_END and NOT_ALLOWED that applies ends it FAULT; a hit of a posted window is DONE when the tracker
allocates, and RETRY otherwise; any other hit is collected from its slot, or starts one. A collected slot is FREE and
keeps its last fields, and a PENDING one holds OK and no data (log 44). What an allocation makes, for the mover too, is
said first (R74, R75, R96, R62). -/
def Obligations.OutboundAccess : Prop :=
  (∀ (s : State) (r : AllocRequest),
    let full := r.kind = .postedWrite ∧ 16 ≤ (s.ord.send.get r.dest.toFin).count
    (s.en.role ≠ .numbered ∨ s.rt.freeList = [] ∨ full → s.alloc r = none) ∧
    let holds (c : ChannelId) : Nat := (s.rt.allocOrder.filter fun x =>
      match (s.rt.entries.get x).originator with
      | .mover c' _ => c' == c
      | _ => false).length
    (∀ c i, r.originator = .mover c i → s.rt.freeList.length < 5 ∨ 8 ≤ holds c → s.alloc r = none) ∧
    ∀ t l, s.en.role = .numbered → s.rt.freeList = t :: l → ¬full →
      (∀ c i, r.originator = .mover c i → 5 ≤ s.rt.freeList.length ∧ holds c < 8) →
      let q := s.ord.send.get r.dest.toFin
      s.alloc r = some (t,
        { s with
          rt := { s.rt with
            freeList := l
            allocOrder := s.rt.allocOrder ++ [t]
            entries := s.rt.entries.set t.val
              { state :=
                  if (r.kind = .read ∨ r.kind = .write ∨ r.kind = .event) ∧ s.postedRun r.dest ≠ [] then .orderWait
                  else .ready
                originator := r.originator
                kind := r.kind
                dest := r.dest
                addr := r.addr
                length := r.length
                first := r.first
                last := r.last
                payload := r.payload
                seq := if r.kind = .postedWrite then q.next else 0
                sync := r.kind == .postedWrite && q.syncNeeded
                number := r.number
                count := r.count
                window := r.window
                gen := (s.rt.entries.get t).gen + 1
                retry := 0
                responseTimer := .stopped
                backoffTimer := .stopped
                sentOnce := false } t.isLt }
          ord :=
            if r.kind = .postedWrite then
              { s.ord with
                send := s.ord.send.set r.dest.toNat
                  { next := q.next + 1
                    oldest := if q.count = 0 then q.next else q.oldest
                    count := q.count + 1
                    syncNeeded := false
                    stalled := q.stalled } r.dest.isLt }
            else s.ord
          wt := match r.window with
            | some w =>
              let e := s.wt.owt.get w
              { s.wt with owt := s.wt.owt.set w.val { e with inFlight := e.inFlight + 1 } w.isLt }
            | none => s.wt })) ∧
  ∀ (dir : Direction) (acc : Access) (s : State), Rest s →
    let b : State := { s with now := s.now + 1 }
    (s.localResetIn = true → exec (.outboundAccess dir acc) s = .next (s.ended .retry)) ∧
    (s.localResetIn = false →
      (s.en.role ≠ .numbered → exec (.outboundAccess dir acc) s = .next (State.faulted
        { b with lt := { b.lt with counters := { b.lt.counters with notNumbered := bump b.lt.counters.notNumbered } } }
        .notNumbered acc.start)) ∧
      (s.en.role = .numbered →
        (∀ cause, (s.outboundMatch dir acc.start acc.count = .noWindow ∧ cause = .noWindow) ∨
            (s.outboundMatch dir acc.start acc.count = .pastEnd ∧ cause = .pastEnd) ∨
            (s.outboundMatch dir acc.start acc.count = .notAllowed ∧ cause = .notAllowed) →
          exec (.outboundAccess dir acc) s = .next (b.faulted cause acc.start)) ∧
        ∀ w, s.outboundMatch dir acc.start acc.count = .hit w →
          let e := s.wt.owt.get w
          let h : State :=
            { b with wt := { b.wt with owt := b.wt.owt.set w.val { e with hits := bump e.hits } w.isLt } }
          let request (o : Originator) (kind : ReqKind) : AllocRequest :=
            { originator := o
              kind := kind
              dest := e.dest
              addr := e.ringBase + (acc.start - e.localBase).setWidth 40
              length := acc.count
              first := laneMask e.laneOrder acc.first
              last := laneMask e.laneOrder acc.last
              payload := if kind = .read then [] else (acc.data.toList.take acc.count).map (laneWord e.laneOrder)
              number := 0
              count := 0
              window := some w }
          (dir = .write → e.posted = true →
            (h.alloc (request .localPosted .postedWrite) = none →
              exec (.outboundAccess dir acc) s = .next (State.ended
                { h with lt := { h.lt with
                  counters := { h.lt.counters with postedRetry := bump h.lt.counters.postedRetry } } } .retry)) ∧
            ∀ t v, h.alloc (request .localPosted .postedWrite) = some (t, v) →
              exec (.outboundAccess dir acc) s = .next (v.ended (.done [])).endOfEvent) ∧
          (dir = .read ∨ e.posted = false →
            let key : DelayedKey :=
              { dir := dir
                address := acc.start
                count := acc.count
                first := acc.first
                last := acc.last
                data := if dir = .read then [] else acc.data.toList.take acc.count }
            let kind : ReqKind := if dir = .read then .read else .write
            (∀ j, (s.lt.slots.get j).state ≠ .free → (s.lt.slots.get j).key = key →
              (∀ k, k < j → (s.lt.slots.get k).state = .free ∨ (s.lt.slots.get k).key ≠ key) →
              let sl := s.lt.slots.get j
              let freed : State :=
                { h with lt := { h.lt with
                  slots := h.lt.slots.set j.val { sl with state := .free, discardTimer := .stopped } j.isLt } }
              (sl.state ≠ .ready → exec (.outboundAccess dir acc) s = .next (h.ended .retry)) ∧
              (sl.state = .ready → sl.result = .ok →
                exec (.outboundAccess dir acc) s = .next (freed.ended (.done sl.data))) ∧
              (sl.state = .ready → sl.result ≠ .ok →
                exec (.outboundAccess dir acc) s = .next (freed.faulted (.result sl.result) acc.start))) ∧
            ((∀ j, (s.lt.slots.get j).state = .free ∨ (s.lt.slots.get j).key ≠ key) →
              ((∀ j, (s.lt.slots.get j).state ≠ .free) →
                exec (.outboundAccess dir acc) s = .next (h.ended .retry)) ∧
              ∀ j, (s.lt.slots.get j).state = .free → (∀ k, k < j → (s.lt.slots.get k).state ≠ .free) →
                (h.alloc (request (.delayed j) kind) = none →
                  exec (.outboundAccess dir acc) s = .next (h.ended .retry)) ∧
                ∀ t v, h.alloc (request (.delayed j) kind) = some (t, v) →
                  exec (.outboundAccess dir acc) s = .next (State.endOfEvent (State.ended
                    { v with lt := { v.lt with
                      slots := v.lt.slots.set j.val
                        { state := .pending
                          key := key
                          window := w
                          tag := t
                          result := .ok
                          data := []
                          discardTimer := .stopped } j.isLt } } .retry))))))

/-- The accesses to the local page (R112 to R115, R49, R150, R172, R175): word by word in address order, a read skips a
word without valid lanes, and a write takes only a word with all four. What each word reads as is spelled from bit 31
down (R180), and what each does is said for each; unoccupied words read zero and take no write (R113). The model
settles: zero in the bits of a word that no field occupies (log 50), in the other bits of the EMPTY indications and in
word 13 without a fault (log 21), code 0 without a result (log 45), the issue slot's states numbered in the order
listed (log 53), zero for what a record does not hold (log 46), and an outstanding reset first (log 40). -/
def Obligations.PageAccesses : Prop :=
  (∀ (acc : Access) (n : Nat),
    acc.lanes n = (if n = 0 then acc.first else 15) &&& (if n + 1 = acc.count then acc.last else 15)) ∧
  (∀ (s : State) (i : Instr) (acc : Access), i = .eventInboxHeadRead acc ∨ i = .faultHeadRead acc →
    let read (x : State × List Word) (i : Nat) : State × List Word :=
      if acc.lanes i = 0 then (x.1, x.2 ++ [0])
      else
        let y := x.1.pageReadWord ((acc.start.toNat / 4 + i) % 64)
        (y.1, x.2 ++ [y.2])
    let r := (List.range acc.count).foldl read (s, [])
    exec i s = .next (if s.localResetIn = true then s.ended .retry else r.1.ended (.done r.2))) ∧
  (∀ (s : State) (i : Instr) (acc : Access), Rest s → i = .pendingEventClear acc ∨ i = .lastLocalFaultClear acc ∨
      i = .issueTrigger acc ∨ i = .ringResetRequest acc ∨ i = .pageWrite acc →
    let b : State := { s with now := s.now + 1 }
    let write (x : State) (i : Nat) : State :=
      if acc.lanes i = 15 then x.pageWriteWord ((acc.start.toNat / 4 + i) % 64) (acc.data.toList.getD i 0) else x
    exec i s = .next (
      if s.localResetIn = true then b.ended .retry
      else (State.ended ((List.range acc.count).foldl write b) (.done [])).endOfEvent)) ∧
  (∀ s : State,
    (s.ev.inbox = [] → s.pageReadWord 6 = (s, 0x80000000)) ∧
    (∀ r l, s.ev.inbox = r :: l → s.pageReadWord 6 =
      ({ s with ev := { s.ev with inbox := l } },
        0#11 ++ r.source ++ 0#2 ++ r.number ++ BitVec.ofNat 8 r.count)) ∧
    (s.ag.faults = [] → s.pageReadWord 8 =
      ({ s with lt := { s.lt with latch := none } }, 0#24 ++ BitVec.ofNat 8 s.ag.overflow)) ∧
    (∀ r l, s.ag.faults = r :: l → s.pageReadWord 8 =
      ({ s with ag := { s.ag with faults := l }, lt := { s.lt with latch := some r } },
        r.kind.code ++ BitVec.ofBool r.node.isSome ++ BitVec.ofBool r.tag.isSome ++ BitVec.ofBool r.index.isSome ++
          BitVec.ofBool r.address.isSome ++ BitVec.ofBool r.detail.isSome ++ 0#2 ++ BitVec.ofNat 5 l.length ++ 0#8 ++
          BitVec.ofNat 8 s.ag.overflow)) ∧
    ([.malformedFrame, .linkDown, .strapFault, .duplicateId, .enumOverflow, .enumFailed, .managerConflict, .ringReset,
      .postedLost, .postedDiscarded, .eventLost, .leaseLost, .moveHalt] : List FaultKind).map (·.code) =
      [1, 2, 3, 4, 5, 6, 7, 8, 9, 10, 11, 12, 13] ∧
    (∀ n, n ≠ 6 → n ≠ 8 → (s.pageReadWord n).1 = s) ∧
    (s.pageReadWord 0).2 = 0x0D7A7316 ∧ (s.pageReadWord 1).2 = 3 ∧ (s.pageReadWord 2).2 = s.serial ∧
    (s.pageReadWord 4).2 =
      0#11 ++ s.en.censusCount ++ 0#5 ++
        (match s.port.link with
          | .down => 0#2
          | .locking => 1#2
          | .up => 2#2) ++
        BitVec.ofBool s.en.manager ++ BitVec.ofBool (s.en.idMode == .strapped) ++
        (match s.en.role with
          | .unnumbered => 0#2
          | .provisional => 1#2
          | .numbered => 2#2) ++ s.en.ownId ∧
    (s.pageReadWord 5).2 = 0#13 ++ s.ev.pendingSet ∧
    (∀ r, s.lt.latch = some r →
      (s.pageReadWord 9).2 =
        r.kind.code ++ BitVec.ofBool r.node.isSome ++ BitVec.ofBool r.tag.isSome ++ BitVec.ofBool r.index.isSome ++
          BitVec.ofBool r.address.isSome ++ BitVec.ofBool r.detail.isSome ++ r.node.getD 0 ++
          BitVec.ofNat 5 (r.tag.getD 0).val ++ r.index.getD 0 ++ 0#7 ∧
      (s.pageReadWord 10).2 = (r.address.getD 0).extractLsb' 0 32 ∧
      (s.pageReadWord 11).2 = (r.address.getD 0).extractLsb' 32 8 ++ 0#16 ++ (match r.detail with
        | some (.result x) => x.code
        | some .localFault => 9#8
        | none => 0#8)) ∧
    (s.lt.latch = none → (s.pageReadWord 9).2 = 0 ∧ (s.pageReadWord 10).2 = 0 ∧ (s.pageReadWord 11).2 = 0) ∧
    (∀ cause addr, s.lt.lastFault = some (cause, addr) →
      (s.pageReadWord 12).2 = 0#24 ++ (match cause with
        | .noWindow => 16#8
        | .pastEnd => 17#8
        | .notAllowed => 18#8
        | .notNumbered => 19#8
        | .result x => x.code) ∧ (s.pageReadWord 13).2 = addr) ∧
    (s.lt.lastFault = none → (s.pageReadWord 12).2 = 0 ∧ (s.pageReadWord 13).2 = 0) ∧
    (s.pageReadWord 33).2 =
      0#16 ++ (match s.ag.issue.result with
        | some x => x.code
        | none => 0#8) ++ 0#6 ++
        (match s.ag.issue.state with
          | .empty => 0#2
          | .waitingTag => 1#2
          | .issued => 2#2
          | .replied => 3#2) ∧
    ([.ok, .noTarget, .timeout, .retryExhausted, .refused .noWindow, .refused .denied, .refused .localFault, .linkDown,
      .renumbered] : List Result).map (·.code) = [0, 1, 2, 3, 4, 5, 6, 7, 8] ∧
    (s.pageReadWord 50).2 = (if s.en.resetOutstanding = true then 1 else 0) ∧
    (∀ n, n = 3 ∨ n = 7 ∨ n = 14 ∨ n = 15 ∨ n = 32 ∨ 50 < n → (s.pageReadWord n).2 = 0) ∧
    ∀ n : Fin 16, (s.pageReadWord (16 + n.val)).2 = s.lt.requestArea.get n ∧
      (s.pageReadWord (34 + n.val)).2 = s.ag.issue.reply.getD n.val 0) ∧
  ∀ (s : State) (w : Word),
    let stays (c : EventCode) : Bool :=
      decide (15 ≤ c.val) && (s.ev.routes.get c).level && (s.ev.routes.get c).route.isLine &&
        s.ev.attnInput.getLsbD (c.val - 15)
    let area := s.lt.requestArea
    let dest : NodeId := (area.get 0).extractLsb' 0 5
    let length := ((area.get 0).extractLsb' 8 5).toNat
    let counted (f : AgentCounters → AgentCounters) : State := { s with ag := { s.ag with counters := f s.ag.counters } }
    let ignored : State :=
      { s with en := { s.en with
        counters := { s.en.counters with resetReqIgnored := bump s.en.counters.resetReqIgnored } } }
    Changes [.pendingSet] s (s.pageWriteWord 5 w) ∧
    (∀ c : EventCode, (s.pageWriteWord 5 w).ev.pendingSet.getLsbD c.val =
      (s.ev.pendingSet.getLsbD c.val && (!w.getLsbD c.val || stays c))) ∧
    s.pageWriteWord 12 w = { s with lt := { s.lt with lastFault := none } } ∧
    s.pageWriteWord 13 w = { s with lt := { s.lt with lastFault := none } } ∧
    (∀ n : Fin 16, s.pageWriteWord (16 + n.val) w =
      { s with lt := { s.lt with requestArea := s.lt.requestArea.set n.val w n.isLt } }) ∧
    (∀ n, n ≠ 5 → n ≠ 12 → n ≠ 13 → n < 16 ∨ 31 < n → n ≠ 32 → n ≠ 50 → s.pageWriteWord n w = s) ∧
    (s.ag.issue.state = .waitingTag ∨ s.ag.issue.state = .issued →
      s.pageWriteWord 32 w = counted fun c => { c with issueCollision := bump c.issueCollision }) ∧
    (s.ag.issue.state = .empty ∨ s.ag.issue.state = .replied →
      (dest = 0 ∨ dest = 31 ∨ length = 0 ∨ 16 ≤ length →
        s.pageWriteWord 32 w = counted fun c => { c with issueRejected := bump c.issueRejected }) ∧
      (dest ≠ 0 → dest ≠ 31 → 1 ≤ length → length ≤ 15 →
        let words := (area.toList.drop 1).take length
        let v (state : IssueState) (x : State) : State :=
          { x with ag := { x.ag with
            issue := { state := state, dest := dest, length := length, words := words, result := none, reply := [] } } }
        let request : AllocRequest :=
          { originator := .issueSlot, kind := .mgmtRequest, dest := dest, length := length, payload := words }
        ((v .waitingTag s).alloc request = none → s.pageWriteWord 32 w = v .waitingTag s) ∧
        ∀ t x, (v .waitingTag s).alloc request = some (t, x) → s.pageWriteWord 32 w = v .issued x)) ∧
    (w ≠ 1 → s.pageWriteWord 50 w = s) ∧
    (w = 1 →
      (s.en.manager = false → s.pageWriteWord 50 w = ignored) ∧
      (s.en.manager = true → s.en.resetOutstanding = true → s.pageWriteWord 50 w = s) ∧
      (s.en.manager = true → s.en.resetOutstanding = false → s.en.ownId = 0 → s.pageWriteWord 50 w = ignored) ∧
      (s.en.manager = true → s.en.resetOutstanding = false → s.en.ownId ≠ 0 → s.pageWriteWord 50 w = State.withControl
        { s with en := { s.en with
          passTimer := .stopped, runPending := none, state := .idle, resetOutstanding := true } }
        { dest := 31, source := s.en.ownId, hop := 0, length := 1, body := .ringReset s.serial, payload := [] }))

/-- START_MOVE and STOP_MOVE by the lock's owner (R159, R160, R165): their tests, and what becomes of the channel. A
channel that starts cuts frames into its FREE slots, each as long as the descriptor's frame size, the words that remain
and the 4 KiB blocks of its incrementing sides allow; the oldest slot is the one longest in its state (R158). The mover
asks for the oldest RING_PENDING slot without a tag, of the channel not served last where both have one, and goes on
while it is granted (R161, R162, R163, R168), at a START_MOVE unless it stood as a claim already (R77, log 6), when the
rotation tries it at the end of the event (log 51). The channel is the whole operand word (log 29); a release at a stop
frees detached slots too (log 12), and a freed slot keeps its place, addresses and lane order (log 24); an address that
reaches the top of its space wraps to 0 (log 48), and the next offset of a descriptor of 1,048,576 words reaches
1,048,576 with its last frame (log 52). -/
def Obligations.StartStopMove : Prop :=
  (∀ (q : MgmtRequest) (s : State), AgentReady s → s.ag.lockOwner = q.source →
    let v := s.tookRequest
    let w1 := q.operands.headD 0
    let index := ((q.operands.getD 1 0).extractLsb' 0 7).toNat
    let detached (ch : Channel) : Table Slot 8 :=
      ch.slots.map fun sl => if sl.state = .free then sl else { sl with detached := true }
    (q.operands.length = 2 →
      (2 ≤ w1.toNat ∨ 64 ≤ index → exec (.startMove q) s = .next (v.withFailure 12 q .badIndex)) ∧
      ∀ (c : ChannelId) (i : Fin 64), w1 = (match c with | .a => 0 | .b => 1) → index = i.val →
        let ch := s.chan c
        let d := s.bm.descriptors.get i
        let working := ch.state = .running ∨ ch.state = .stopping
        (working → exec (.startMove q) s = .next (v.withFailure 12 q .wrongState)) ∧
        (¬working → d.loaded = false → exec (.startMove q) s = .next (v.withFailure 12 q .badIndex)) ∧
        (¬working → d.loaded = true → exec (.startMove q) s = .next (
          let started := v.withChannel c (Channel.startFrames
            { ch with
              state := .running
              current := some i
              remaining := d.length
              nextOffset := 0
              completed := 0
              remote := d.remote
              localAddr := d.localAddr
              halt := none
              slots := detached ch } d v.now)
          ((started.withMoverAsks s.moverWaits).repliedOk 12 q .plain).endOfEvent))) ∧
    (q.operands.length = 1 →
      (2 ≤ w1.toNat → exec (.stopMove q) s = .next (v.withFailure 13 q .badIndex)) ∧
      ∀ c : ChannelId, w1 = (match c with | .a => 0 | .b => 1) →
        let ch := s.chan c
        (ch.state = .running → exec (.stopMove q) s = .next ((v.withStop c).repliedOk 13 q .plain).endOfEvent) ∧
        (ch.state = .halted → exec (.stopMove q) s = .next (State.endOfEvent (State.repliedOk
          { v.withChannel c { ch with state := .idle, slots := detached ch } with firings := [codeMoveIdle c] }
          13 q .plain))) ∧
        (ch.state = .stopping ∨ ch.state = .idle → exec (.stopMove q) s = .next (v.withOk 13 q [])))) ∧
  (∀ (ch : Channel) (d : Descriptor) (now : Nat),
    ((ch.remaining = 0 ∨ ∀ i, (ch.slots.get i).state ≠ .free) → ch.startFrames d now = ch) ∧
    ∀ i, 0 < ch.remaining → (ch.slots.get i).state = .free → (∀ j, j < i → (ch.slots.get j).state ≠ .free) →
      let block (addr : Nat) : Nat := (4096 - addr % 4096) / 4
      let n := min (min (min d.frameSize ch.remaining)
        (if d.remoteFixed = true then ch.remaining else block ch.remote.toNat))
        (if d.localFixed = true then ch.remaining else block ch.localAddr.toNat)
      ch.startFrames d now = Channel.startFrames
        { ch with
          nextOffset := ch.nextOffset + n
          remaining := ch.remaining - n
          remote := if d.remoteFixed = true then ch.remote else ch.remote + BitVec.ofNat 40 (4 * n)
          localAddr := if d.localFixed = true then ch.localAddr else ch.localAddr + BitVec.ofNat 32 (4 * n)
          slots := ch.slots.set i.val
            { state := if d.pull = true then .ringPending else .localPending
              offset := ch.nextOffset
              count := n
              remote := ch.remote
              localAddr := ch.localAddr
              laneOrder := d.laneOrder
              data := []
              tag := none
              detached := false
              entered := now
              pull := d.pull
              node := d.node } i.isLt } d now) ∧
  (∀ (ch : Channel) (p : Slot → Bool),
    (ch.oldest p = none ↔ ∀ i, p (ch.slots.get i) = false) ∧
    ∀ i, ch.oldest p = some i ↔ p (ch.slots.get i) = true ∧ ∀ j, p (ch.slots.get j) = true →
      (ch.slots.get i).entered < (ch.slots.get j).entered ∨
        ((ch.slots.get i).entered = (ch.slots.get j).entered ∧ i ≤ j)) ∧
  ∀ s : State,
    let wants (sl : Slot) : Bool := sl.state == .ringPending && sl.tag.isNone
    let first : ChannelId := match s.bm.turn with
      | .a => .b
      | .b => .a
    ((∀ c, (s.chan c).oldest wants = none) → s.moverGrant = none) ∧
    (∀ c i, (s.chan c).oldest wants = some i → (c = first ∨ (s.chan first).oldest wants = none) →
      let sl := (s.chan c).slots.get i
      let granted := s.alloc
        { originator := .mover c i
          kind := if sl.pull = true then .read else .postedWrite
          dest := sl.node
          addr := sl.remote
          length := sl.count
          first := 15
          last := 15
          payload := if sl.pull = true then [] else sl.data }
      (granted = none → s.moverGrant = none) ∧
      ∀ t u, granted = some (t, u) →
        let sent := match c with
          | .a => { u.bm.counters with framesSentA := bump u.bm.counters.framesSentA }
          | .b => { u.bm.counters with framesSentB := bump u.bm.counters.framesSentB }
        s.moverGrant = some (State.withChannel { u with bm := { u.bm with turn := c, counters := sent } } c
          { s.chan c with slots := (s.chan c).slots.set i.val { sl with tag := some t } i.isLt })) ∧
    (s.moverGrant = none → s.moverAsks 16 = s) ∧
    ∀ u, s.moverGrant = some u → s.moverAsks 16 = u.moverAsks 16

/-- NODE_RESET, RENUMBER and RING_RESET (R152, R153, R49, R38): what they leave with the reply placed, what follows
when the reply has left (R30), and the NODE reset itself (R152, R35, R51, R70, R93, R111, R125, R136, R154, R169,
R176). A manager with own id 0 receives no command (R37, R49): a RING_RESET command that one takes is answered OK and
does nothing else (log 43). Keep is the whole operand word (log 29), an outstanding reset comes first (log 40), a
RING_RESET whose sender has lost its id since lapses (log 42), and emptied slots and the channels' next offsets hold
zero (log 24). Where the card has sent the NODE_RESET to its own node, its issue slot ends REPLIED with the reply, or
EMPTY, by the order of the looped reply and the reset, which the free value of log 41 settles (R125). An ENUM presented
over a waiting ENUM replaces it, and over this node's own waiting RING_RESET is discarded (log 18); a reply discarded
while the link is not UP has left in the same event (log 38). -/
def Obligations.ResetCommands : Prop :=
  (∀ (q : MgmtRequest) (s : State), AgentReady s → s.ag.lockOwner = q.source →
    let v := s.tookRequest
    let w1 := q.operands.headD 0
    (q.operands.length = 0 → exec (.nodeReset q) s = .next (State.endOfEvent (State.repliedOk
      { v with ag := { v.ag with resetPending := true } } 20 q .nodeReset))) ∧
    (s.en.manager = true → q.operands.length = 1 →
      (w1 ≠ 0 → w1 ≠ 1 → exec (.renumber q) s = .next (v.withFailure 21 q .badValue)) ∧
      ∀ keep : Bool, w1 = (if keep = true then 1 else 0) →
        let merged : Bool := match s.en.runPending with
          | some k => k && keep
          | none => keep
        let settling := s.en.state = .idle ∨ s.en.state = .settling ∨ s.en.state = .done ∨ s.en.state = .failed
        let u : State :=
          { v with en := { v.en with
            runPending := some merged
            state := if settling then .settling else v.en.state } }
        (settling ∧ s.en.settle = .expired →
          exec (.renumber q) s = .next ((u.withRun merged).repliedOk 21 q .plain).endOfEvent) ∧
        (¬(settling ∧ s.en.settle = .expired) → exec (.renumber q) s = .next (u.withOk 21 q []))) ∧
    (s.en.manager = true → s.en.ownId ≠ 0 → q.operands.length = 0 →
      (s.en.resetOutstanding = true → exec (.ringReset q) s = .next (v.withOk 22 q [])) ∧
      (s.en.resetOutstanding = false → exec (.ringReset q) s = .next (State.endOfEvent (State.repliedOk
        { v with en := { v.en with
          passTimer := .stopped, runPending := none, state := .idle, resetOutstanding := true } }
        22 q .ringReset)))) ∧
    (s.en.manager = true → s.en.ownId = 0 → q.operands.length = 0 →
      exec (.ringReset q) s = .next (v.withOk 22 q []))) ∧
  ∀ s : State,
    (s.leftReport .plain = s) ∧
    (s.leftReport .nodeReset = if s.ag.resetPending = true then s.performNodeReset else s) ∧
    (s.leftReport .ringReset =
      if s.en.resetOutstanding = true then
        if s.en.ownId = 0 then { s with en := { s.en with resetOutstanding := false } }
        else s.withControl
          { dest := 31, source := s.en.ownId, hop := 0, length := 1, body := .ringReset s.serial, payload := [] }
      else s) ∧
    (let drained (st : WindowState) : WindowState := if st = .retiring then .empty else st
    let v : State :=
      { s with
        port := { s.port with offer := none }
        wt :=
          { owt := s.wt.owt.map fun e => { e with inFlight := 0, state := drained e.state }
            iwt := s.wt.iwt.map fun e => { e with inFlight := 0, state := drained e.state } }
        rt := s.rt.afterReset
        ord := { SequenceTables.reset with counters := s.ord.counters }
        lt := { s.lt with slots := Vector.replicate 4 DelayedSlot.reset }
        inb := { s.inb with queue := [], current := none, held := none }
        ag :=
          let a := s.discardRecords.foldl Agent.withRecord s.ag
          { a with
            state := .idle
            heldReply := none
            deferred := none
            resetPending := false
            issue := if a.issue.state = .waitingTag ∨ a.issue.state = .issued then IssueSlot.reset else a.issue }
        bm := { s.bm with chA := Channel.reset, chB := Channel.reset }
        ev := { s.ev with ring := Vector.replicate 19 RingRoute.reset }
        firings := s.firings ++ s.discardRecords.map fun _ => 5
        asks := [] }
    s.performNodeReset = State.takeFirings { v.takeFirings with firings := [14] }) ∧
    ∀ (r : Response) (l : List Response) (ref : Ref), s.left = [] → s.port.responseQ = r :: l →
      r.frame.dest = s.en.ownId → r.purpose = .nodeReset → s.ag.resetPending = true → r.frame.malformed = false →
      r.frame.body = .mgmtReply ref → s.ag.issue.state = .issued →
      let e := s.rt.entries.get ref.tag
      e.originator = .issueSlot → e.kind = .mgmtRequest → e.state ≠ .free → e.gen = ref.gen →
      e.dest = r.frame.source → e.sentOnce = true →
      s.endOfEvent.ag.issue =
        if Config.loopedReplyFirst s.now = true then
          { s.ag.issue with state := .replied, result := some .ok, reply := r.frame.payload }
        else { state := .empty, dest := 0, length := 0, words := [], result := none, reply := [] }
end

