-- ==== Sys2Proof/Laws/State.lean ====
section
/-! SUPPORT. One lemma per field for each update of the state, all true by definition. -/

namespace Sys2Proof.Machine

/-! ### modPort -/

section
variable (s : State) (f : RingPort → RingPort)

@[simp] theorem State.modPort_serial : (s.modPort f).serial = s.serial := rfl
@[simp] theorem State.modPort_localResetIn : (s.modPort f).localResetIn = s.localResetIn := rfl
@[simp] theorem State.modPort_port : (s.modPort f).port = f s.port := rfl
@[simp] theorem State.modPort_en : (s.modPort f).en = s.en := rfl
@[simp] theorem State.modPort_wt : (s.modPort f).wt = s.wt := rfl
@[simp] theorem State.modPort_rt : (s.modPort f).rt = s.rt := rfl
@[simp] theorem State.modPort_ord : (s.modPort f).ord = s.ord := rfl
@[simp] theorem State.modPort_lt : (s.modPort f).lt = s.lt := rfl
@[simp] theorem State.modPort_inb : (s.modPort f).inb = s.inb := rfl
@[simp] theorem State.modPort_ag : (s.modPort f).ag = s.ag := rfl
@[simp] theorem State.modPort_bm : (s.modPort f).bm = s.bm := rfl
@[simp] theorem State.modPort_ev : (s.modPort f).ev = s.ev := rfl
@[simp] theorem State.modPort_now : (s.modPort f).now = s.now := rfl
@[simp] theorem State.modPort_firings : (s.modPort f).firings = s.firings := rfl
@[simp] theorem State.modPort_left : (s.modPort f).left = s.left := rfl
@[simp] theorem State.modPort_asks : (s.modPort f).asks = s.asks := rfl
@[simp] theorem State.modPort_pending : (s.modPort f).pending = s.pending := rfl

end

/-! ### modEn -/

section
variable (s : State) (f : Enumeration → Enumeration)

@[simp] theorem State.modEn_serial : (s.modEn f).serial = s.serial := rfl
@[simp] theorem State.modEn_localResetIn : (s.modEn f).localResetIn = s.localResetIn := rfl
@[simp] theorem State.modEn_port : (s.modEn f).port = s.port := rfl
@[simp] theorem State.modEn_en : (s.modEn f).en = f s.en := rfl
@[simp] theorem State.modEn_wt : (s.modEn f).wt = s.wt := rfl
@[simp] theorem State.modEn_rt : (s.modEn f).rt = s.rt := rfl
@[simp] theorem State.modEn_ord : (s.modEn f).ord = s.ord := rfl
@[simp] theorem State.modEn_lt : (s.modEn f).lt = s.lt := rfl
@[simp] theorem State.modEn_inb : (s.modEn f).inb = s.inb := rfl
@[simp] theorem State.modEn_ag : (s.modEn f).ag = s.ag := rfl
@[simp] theorem State.modEn_bm : (s.modEn f).bm = s.bm := rfl
@[simp] theorem State.modEn_ev : (s.modEn f).ev = s.ev := rfl
@[simp] theorem State.modEn_now : (s.modEn f).now = s.now := rfl
@[simp] theorem State.modEn_firings : (s.modEn f).firings = s.firings := rfl
@[simp] theorem State.modEn_left : (s.modEn f).left = s.left := rfl
@[simp] theorem State.modEn_asks : (s.modEn f).asks = s.asks := rfl
@[simp] theorem State.modEn_pending : (s.modEn f).pending = s.pending := rfl

end

/-! ### modWt -/

section
variable (s : State) (f : WindowTables → WindowTables)

@[simp] theorem State.modWt_serial : (s.modWt f).serial = s.serial := rfl
@[simp] theorem State.modWt_localResetIn : (s.modWt f).localResetIn = s.localResetIn := rfl
@[simp] theorem State.modWt_port : (s.modWt f).port = s.port := rfl
@[simp] theorem State.modWt_en : (s.modWt f).en = s.en := rfl
@[simp] theorem State.modWt_wt : (s.modWt f).wt = f s.wt := rfl
@[simp] theorem State.modWt_rt : (s.modWt f).rt = s.rt := rfl
@[simp] theorem State.modWt_ord : (s.modWt f).ord = s.ord := rfl
@[simp] theorem State.modWt_lt : (s.modWt f).lt = s.lt := rfl
@[simp] theorem State.modWt_inb : (s.modWt f).inb = s.inb := rfl
@[simp] theorem State.modWt_ag : (s.modWt f).ag = s.ag := rfl
@[simp] theorem State.modWt_bm : (s.modWt f).bm = s.bm := rfl
@[simp] theorem State.modWt_ev : (s.modWt f).ev = s.ev := rfl
@[simp] theorem State.modWt_now : (s.modWt f).now = s.now := rfl
@[simp] theorem State.modWt_firings : (s.modWt f).firings = s.firings := rfl
@[simp] theorem State.modWt_left : (s.modWt f).left = s.left := rfl
@[simp] theorem State.modWt_asks : (s.modWt f).asks = s.asks := rfl
@[simp] theorem State.modWt_pending : (s.modWt f).pending = s.pending := rfl

end

/-! ### modRt -/

section
variable (s : State) (f : Tracker → Tracker)

@[simp] theorem State.modRt_serial : (s.modRt f).serial = s.serial := rfl
@[simp] theorem State.modRt_localResetIn : (s.modRt f).localResetIn = s.localResetIn := rfl
@[simp] theorem State.modRt_port : (s.modRt f).port = s.port := rfl
@[simp] theorem State.modRt_en : (s.modRt f).en = s.en := rfl
@[simp] theorem State.modRt_wt : (s.modRt f).wt = s.wt := rfl
@[simp] theorem State.modRt_rt : (s.modRt f).rt = f s.rt := rfl
@[simp] theorem State.modRt_ord : (s.modRt f).ord = s.ord := rfl
@[simp] theorem State.modRt_lt : (s.modRt f).lt = s.lt := rfl
@[simp] theorem State.modRt_inb : (s.modRt f).inb = s.inb := rfl
@[simp] theorem State.modRt_ag : (s.modRt f).ag = s.ag := rfl
@[simp] theorem State.modRt_bm : (s.modRt f).bm = s.bm := rfl
@[simp] theorem State.modRt_ev : (s.modRt f).ev = s.ev := rfl
@[simp] theorem State.modRt_now : (s.modRt f).now = s.now := rfl
@[simp] theorem State.modRt_firings : (s.modRt f).firings = s.firings := rfl
@[simp] theorem State.modRt_left : (s.modRt f).left = s.left := rfl
@[simp] theorem State.modRt_asks : (s.modRt f).asks = s.asks := rfl
@[simp] theorem State.modRt_pending : (s.modRt f).pending = s.pending := rfl

end

/-! ### modOrd -/

section
variable (s : State) (f : SequenceTables → SequenceTables)

@[simp] theorem State.modOrd_serial : (s.modOrd f).serial = s.serial := rfl
@[simp] theorem State.modOrd_localResetIn : (s.modOrd f).localResetIn = s.localResetIn := rfl
@[simp] theorem State.modOrd_port : (s.modOrd f).port = s.port := rfl
@[simp] theorem State.modOrd_en : (s.modOrd f).en = s.en := rfl
@[simp] theorem State.modOrd_wt : (s.modOrd f).wt = s.wt := rfl
@[simp] theorem State.modOrd_rt : (s.modOrd f).rt = s.rt := rfl
@[simp] theorem State.modOrd_ord : (s.modOrd f).ord = f s.ord := rfl
@[simp] theorem State.modOrd_lt : (s.modOrd f).lt = s.lt := rfl
@[simp] theorem State.modOrd_inb : (s.modOrd f).inb = s.inb := rfl
@[simp] theorem State.modOrd_ag : (s.modOrd f).ag = s.ag := rfl
@[simp] theorem State.modOrd_bm : (s.modOrd f).bm = s.bm := rfl
@[simp] theorem State.modOrd_ev : (s.modOrd f).ev = s.ev := rfl
@[simp] theorem State.modOrd_now : (s.modOrd f).now = s.now := rfl
@[simp] theorem State.modOrd_firings : (s.modOrd f).firings = s.firings := rfl
@[simp] theorem State.modOrd_left : (s.modOrd f).left = s.left := rfl
@[simp] theorem State.modOrd_asks : (s.modOrd f).asks = s.asks := rfl
@[simp] theorem State.modOrd_pending : (s.modOrd f).pending = s.pending := rfl

end

/-! ### modLt -/

section
variable (s : State) (f : LocalTarget → LocalTarget)

@[simp] theorem State.modLt_serial : (s.modLt f).serial = s.serial := rfl
@[simp] theorem State.modLt_localResetIn : (s.modLt f).localResetIn = s.localResetIn := rfl
@[simp] theorem State.modLt_port : (s.modLt f).port = s.port := rfl
@[simp] theorem State.modLt_en : (s.modLt f).en = s.en := rfl
@[simp] theorem State.modLt_wt : (s.modLt f).wt = s.wt := rfl
@[simp] theorem State.modLt_rt : (s.modLt f).rt = s.rt := rfl
@[simp] theorem State.modLt_ord : (s.modLt f).ord = s.ord := rfl
@[simp] theorem State.modLt_lt : (s.modLt f).lt = f s.lt := rfl
@[simp] theorem State.modLt_inb : (s.modLt f).inb = s.inb := rfl
@[simp] theorem State.modLt_ag : (s.modLt f).ag = s.ag := rfl
@[simp] theorem State.modLt_bm : (s.modLt f).bm = s.bm := rfl
@[simp] theorem State.modLt_ev : (s.modLt f).ev = s.ev := rfl
@[simp] theorem State.modLt_now : (s.modLt f).now = s.now := rfl
@[simp] theorem State.modLt_firings : (s.modLt f).firings = s.firings := rfl
@[simp] theorem State.modLt_left : (s.modLt f).left = s.left := rfl
@[simp] theorem State.modLt_asks : (s.modLt f).asks = s.asks := rfl
@[simp] theorem State.modLt_pending : (s.modLt f).pending = s.pending := rfl

end

/-! ### modInb -/

section
variable (s : State) (f : Inbound → Inbound)

@[simp] theorem State.modInb_serial : (s.modInb f).serial = s.serial := rfl
@[simp] theorem State.modInb_localResetIn : (s.modInb f).localResetIn = s.localResetIn := rfl
@[simp] theorem State.modInb_port : (s.modInb f).port = s.port := rfl
@[simp] theorem State.modInb_en : (s.modInb f).en = s.en := rfl
@[simp] theorem State.modInb_wt : (s.modInb f).wt = s.wt := rfl
@[simp] theorem State.modInb_rt : (s.modInb f).rt = s.rt := rfl
@[simp] theorem State.modInb_ord : (s.modInb f).ord = s.ord := rfl
@[simp] theorem State.modInb_lt : (s.modInb f).lt = s.lt := rfl
@[simp] theorem State.modInb_inb : (s.modInb f).inb = f s.inb := rfl
@[simp] theorem State.modInb_ag : (s.modInb f).ag = s.ag := rfl
@[simp] theorem State.modInb_bm : (s.modInb f).bm = s.bm := rfl
@[simp] theorem State.modInb_ev : (s.modInb f).ev = s.ev := rfl
@[simp] theorem State.modInb_now : (s.modInb f).now = s.now := rfl
@[simp] theorem State.modInb_firings : (s.modInb f).firings = s.firings := rfl
@[simp] theorem State.modInb_left : (s.modInb f).left = s.left := rfl
@[simp] theorem State.modInb_asks : (s.modInb f).asks = s.asks := rfl
@[simp] theorem State.modInb_pending : (s.modInb f).pending = s.pending := rfl

end

/-! ### modAg -/

section
variable (s : State) (f : Agent → Agent)

@[simp] theorem State.modAg_serial : (s.modAg f).serial = s.serial := rfl
@[simp] theorem State.modAg_localResetIn : (s.modAg f).localResetIn = s.localResetIn := rfl
@[simp] theorem State.modAg_port : (s.modAg f).port = s.port := rfl
@[simp] theorem State.modAg_en : (s.modAg f).en = s.en := rfl
@[simp] theorem State.modAg_wt : (s.modAg f).wt = s.wt := rfl
@[simp] theorem State.modAg_rt : (s.modAg f).rt = s.rt := rfl
@[simp] theorem State.modAg_ord : (s.modAg f).ord = s.ord := rfl
@[simp] theorem State.modAg_lt : (s.modAg f).lt = s.lt := rfl
@[simp] theorem State.modAg_inb : (s.modAg f).inb = s.inb := rfl
@[simp] theorem State.modAg_ag : (s.modAg f).ag = f s.ag := rfl
@[simp] theorem State.modAg_bm : (s.modAg f).bm = s.bm := rfl
@[simp] theorem State.modAg_ev : (s.modAg f).ev = s.ev := rfl
@[simp] theorem State.modAg_now : (s.modAg f).now = s.now := rfl
@[simp] theorem State.modAg_firings : (s.modAg f).firings = s.firings := rfl
@[simp] theorem State.modAg_left : (s.modAg f).left = s.left := rfl
@[simp] theorem State.modAg_asks : (s.modAg f).asks = s.asks := rfl
@[simp] theorem State.modAg_pending : (s.modAg f).pending = s.pending := rfl

end

/-! ### modBm -/

section
variable (s : State) (f : Mover → Mover)

@[simp] theorem State.modBm_serial : (s.modBm f).serial = s.serial := rfl
@[simp] theorem State.modBm_localResetIn : (s.modBm f).localResetIn = s.localResetIn := rfl
@[simp] theorem State.modBm_port : (s.modBm f).port = s.port := rfl
@[simp] theorem State.modBm_en : (s.modBm f).en = s.en := rfl
@[simp] theorem State.modBm_wt : (s.modBm f).wt = s.wt := rfl
@[simp] theorem State.modBm_rt : (s.modBm f).rt = s.rt := rfl
@[simp] theorem State.modBm_ord : (s.modBm f).ord = s.ord := rfl
@[simp] theorem State.modBm_lt : (s.modBm f).lt = s.lt := rfl
@[simp] theorem State.modBm_inb : (s.modBm f).inb = s.inb := rfl
@[simp] theorem State.modBm_ag : (s.modBm f).ag = s.ag := rfl
@[simp] theorem State.modBm_bm : (s.modBm f).bm = f s.bm := rfl
@[simp] theorem State.modBm_ev : (s.modBm f).ev = s.ev := rfl
@[simp] theorem State.modBm_now : (s.modBm f).now = s.now := rfl
@[simp] theorem State.modBm_firings : (s.modBm f).firings = s.firings := rfl
@[simp] theorem State.modBm_left : (s.modBm f).left = s.left := rfl
@[simp] theorem State.modBm_asks : (s.modBm f).asks = s.asks := rfl
@[simp] theorem State.modBm_pending : (s.modBm f).pending = s.pending := rfl

end

/-! ### modEv -/

section
variable (s : State) (f : Events → Events)

@[simp] theorem State.modEv_serial : (s.modEv f).serial = s.serial := rfl
@[simp] theorem State.modEv_localResetIn : (s.modEv f).localResetIn = s.localResetIn := rfl
@[simp] theorem State.modEv_port : (s.modEv f).port = s.port := rfl
@[simp] theorem State.modEv_en : (s.modEv f).en = s.en := rfl
@[simp] theorem State.modEv_wt : (s.modEv f).wt = s.wt := rfl
@[simp] theorem State.modEv_rt : (s.modEv f).rt = s.rt := rfl
@[simp] theorem State.modEv_ord : (s.modEv f).ord = s.ord := rfl
@[simp] theorem State.modEv_lt : (s.modEv f).lt = s.lt := rfl
@[simp] theorem State.modEv_inb : (s.modEv f).inb = s.inb := rfl
@[simp] theorem State.modEv_ag : (s.modEv f).ag = s.ag := rfl
@[simp] theorem State.modEv_bm : (s.modEv f).bm = s.bm := rfl
@[simp] theorem State.modEv_ev : (s.modEv f).ev = f s.ev := rfl
@[simp] theorem State.modEv_now : (s.modEv f).now = s.now := rfl
@[simp] theorem State.modEv_firings : (s.modEv f).firings = s.firings := rfl
@[simp] theorem State.modEv_left : (s.modEv f).left = s.left := rfl
@[simp] theorem State.modEv_asks : (s.modEv f).asks = s.asks := rfl
@[simp] theorem State.modEv_pending : (s.modEv f).pending = s.pending := rfl

end

/-! ### begin and fire -/

section
variable (s : State) (c : EventCode)

@[simp] theorem State.begin_serial : s.begin.serial = s.serial := rfl
@[simp] theorem State.begin_localResetIn : s.begin.localResetIn = s.localResetIn := rfl
@[simp] theorem State.begin_port : s.begin.port = s.port := rfl
@[simp] theorem State.begin_en : s.begin.en = s.en := rfl
@[simp] theorem State.begin_wt : s.begin.wt = s.wt := rfl
@[simp] theorem State.begin_rt : s.begin.rt = s.rt := rfl
@[simp] theorem State.begin_ord : s.begin.ord = s.ord := rfl
@[simp] theorem State.begin_lt : s.begin.lt = s.lt := rfl
@[simp] theorem State.begin_inb : s.begin.inb = s.inb := rfl
@[simp] theorem State.begin_ag : s.begin.ag = s.ag := rfl
@[simp] theorem State.begin_bm : s.begin.bm = s.bm := rfl
@[simp] theorem State.begin_ev : s.begin.ev = s.ev := rfl
@[simp] theorem State.begin_now : s.begin.now = s.now + 1 := rfl
@[simp] theorem State.begin_firings : s.begin.firings = s.firings := rfl
@[simp] theorem State.begin_left : s.begin.left = s.left := rfl
@[simp] theorem State.begin_asks : s.begin.asks = s.asks := rfl
@[simp] theorem State.begin_pending : s.begin.pending = s.pending := rfl
@[simp] theorem State.fire_serial : (s.fire c).serial = s.serial := rfl
@[simp] theorem State.fire_localResetIn : (s.fire c).localResetIn = s.localResetIn := rfl
@[simp] theorem State.fire_port : (s.fire c).port = s.port := rfl
@[simp] theorem State.fire_en : (s.fire c).en = s.en := rfl
@[simp] theorem State.fire_wt : (s.fire c).wt = s.wt := rfl
@[simp] theorem State.fire_rt : (s.fire c).rt = s.rt := rfl
@[simp] theorem State.fire_ord : (s.fire c).ord = s.ord := rfl
@[simp] theorem State.fire_lt : (s.fire c).lt = s.lt := rfl
@[simp] theorem State.fire_inb : (s.fire c).inb = s.inb := rfl
@[simp] theorem State.fire_ag : (s.fire c).ag = s.ag := rfl
@[simp] theorem State.fire_bm : (s.fire c).bm = s.bm := rfl
@[simp] theorem State.fire_ev : (s.fire c).ev = s.ev := rfl
@[simp] theorem State.fire_now : (s.fire c).now = s.now := rfl
@[simp] theorem State.fire_firings : (s.fire c).firings = s.firings ++ [c] := rfl
@[simp] theorem State.fire_left : (s.fire c).left = s.left := rfl
@[simp] theorem State.fire_asks : (s.fire c).asks = s.asks := rfl
@[simp] theorem State.fire_pending : (s.fire c).pending = s.pending := rfl

end

/-! ### raiseAsk -/

section
variable (s : State) (o : Originator)

@[simp] theorem State.raiseAsk_serial : (s.raiseAsk o).serial = s.serial := rfl
@[simp] theorem State.raiseAsk_localResetIn : (s.raiseAsk o).localResetIn = s.localResetIn := rfl
@[simp] theorem State.raiseAsk_port : (s.raiseAsk o).port = s.port := rfl
@[simp] theorem State.raiseAsk_en : (s.raiseAsk o).en = s.en := rfl
@[simp] theorem State.raiseAsk_wt : (s.raiseAsk o).wt = s.wt := rfl
@[simp] theorem State.raiseAsk_rt : (s.raiseAsk o).rt = s.rt := rfl
@[simp] theorem State.raiseAsk_ord : (s.raiseAsk o).ord = s.ord := rfl
@[simp] theorem State.raiseAsk_lt : (s.raiseAsk o).lt = s.lt := rfl
@[simp] theorem State.raiseAsk_inb : (s.raiseAsk o).inb = s.inb := rfl
@[simp] theorem State.raiseAsk_ag : (s.raiseAsk o).ag = s.ag := rfl
@[simp] theorem State.raiseAsk_bm : (s.raiseAsk o).bm = s.bm := rfl
@[simp] theorem State.raiseAsk_ev : (s.raiseAsk o).ev = s.ev := rfl
@[simp] theorem State.raiseAsk_now : (s.raiseAsk o).now = s.now := rfl
@[simp] theorem State.raiseAsk_firings : (s.raiseAsk o).firings = s.firings := rfl
@[simp] theorem State.raiseAsk_left : (s.raiseAsk o).left = s.left := rfl
@[simp] theorem State.raiseAsk_asks : (s.raiseAsk o).asks = s.asks ++ [o] := rfl
@[simp] theorem State.raiseAsk_pending : (s.raiseAsk o).pending = s.pending := rfl

end

/-! ### Counters -/

theorem State.countPort_eq (s : State) (f : PortCounters → PortCounters) :
    s.countPort f = s.modPort fun b => { b with counters := f b.counters } := rfl
@[simp] theorem State.countPort_serial (s : State) (f : PortCounters → PortCounters) : (s.countPort f).serial = s.serial := rfl
@[simp] theorem State.countPort_localResetIn (s : State) (f : PortCounters → PortCounters) : (s.countPort f).localResetIn = s.localResetIn := rfl
@[simp] theorem State.countPort_port (s : State) (f : PortCounters → PortCounters) :
    (s.countPort f).port = { s.port with counters := f s.port.counters } := rfl
@[simp] theorem State.countPort_en (s : State) (f : PortCounters → PortCounters) : (s.countPort f).en = s.en := rfl
@[simp] theorem State.countPort_wt (s : State) (f : PortCounters → PortCounters) : (s.countPort f).wt = s.wt := rfl
@[simp] theorem State.countPort_rt (s : State) (f : PortCounters → PortCounters) : (s.countPort f).rt = s.rt := rfl
@[simp] theorem State.countPort_ord (s : State) (f : PortCounters → PortCounters) : (s.countPort f).ord = s.ord := rfl
@[simp] theorem State.countPort_lt (s : State) (f : PortCounters → PortCounters) : (s.countPort f).lt = s.lt := rfl
@[simp] theorem State.countPort_inb (s : State) (f : PortCounters → PortCounters) : (s.countPort f).inb = s.inb := rfl
@[simp] theorem State.countPort_ag (s : State) (f : PortCounters → PortCounters) : (s.countPort f).ag = s.ag := rfl
@[simp] theorem State.countPort_bm (s : State) (f : PortCounters → PortCounters) : (s.countPort f).bm = s.bm := rfl
@[simp] theorem State.countPort_ev (s : State) (f : PortCounters → PortCounters) : (s.countPort f).ev = s.ev := rfl
@[simp] theorem State.countPort_now (s : State) (f : PortCounters → PortCounters) : (s.countPort f).now = s.now := rfl
@[simp] theorem State.countPort_firings (s : State) (f : PortCounters → PortCounters) : (s.countPort f).firings = s.firings := rfl
@[simp] theorem State.countPort_left (s : State) (f : PortCounters → PortCounters) : (s.countPort f).left = s.left := rfl
@[simp] theorem State.countPort_asks (s : State) (f : PortCounters → PortCounters) : (s.countPort f).asks = s.asks := rfl
@[simp] theorem State.countPort_pending (s : State) (f : PortCounters → PortCounters) : (s.countPort f).pending = s.pending := rfl
theorem State.countEn_eq (s : State) (f : EnumCounters → EnumCounters) :
    s.countEn f = s.modEn fun b => { b with counters := f b.counters } := rfl
@[simp] theorem State.countEn_serial (s : State) (f : EnumCounters → EnumCounters) : (s.countEn f).serial = s.serial := rfl
@[simp] theorem State.countEn_localResetIn (s : State) (f : EnumCounters → EnumCounters) : (s.countEn f).localResetIn = s.localResetIn := rfl
@[simp] theorem State.countEn_port (s : State) (f : EnumCounters → EnumCounters) : (s.countEn f).port = s.port := rfl
@[simp] theorem State.countEn_en (s : State) (f : EnumCounters → EnumCounters) :
    (s.countEn f).en = { s.en with counters := f s.en.counters } := rfl
@[simp] theorem State.countEn_wt (s : State) (f : EnumCounters → EnumCounters) : (s.countEn f).wt = s.wt := rfl
@[simp] theorem State.countEn_rt (s : State) (f : EnumCounters → EnumCounters) : (s.countEn f).rt = s.rt := rfl
@[simp] theorem State.countEn_ord (s : State) (f : EnumCounters → EnumCounters) : (s.countEn f).ord = s.ord := rfl
@[simp] theorem State.countEn_lt (s : State) (f : EnumCounters → EnumCounters) : (s.countEn f).lt = s.lt := rfl
@[simp] theorem State.countEn_inb (s : State) (f : EnumCounters → EnumCounters) : (s.countEn f).inb = s.inb := rfl
@[simp] theorem State.countEn_ag (s : State) (f : EnumCounters → EnumCounters) : (s.countEn f).ag = s.ag := rfl
@[simp] theorem State.countEn_bm (s : State) (f : EnumCounters → EnumCounters) : (s.countEn f).bm = s.bm := rfl
@[simp] theorem State.countEn_ev (s : State) (f : EnumCounters → EnumCounters) : (s.countEn f).ev = s.ev := rfl
@[simp] theorem State.countEn_now (s : State) (f : EnumCounters → EnumCounters) : (s.countEn f).now = s.now := rfl
@[simp] theorem State.countEn_firings (s : State) (f : EnumCounters → EnumCounters) : (s.countEn f).firings = s.firings := rfl
@[simp] theorem State.countEn_left (s : State) (f : EnumCounters → EnumCounters) : (s.countEn f).left = s.left := rfl
@[simp] theorem State.countEn_asks (s : State) (f : EnumCounters → EnumCounters) : (s.countEn f).asks = s.asks := rfl
@[simp] theorem State.countEn_pending (s : State) (f : EnumCounters → EnumCounters) : (s.countEn f).pending = s.pending := rfl
theorem State.countRt_eq (s : State) (f : TrackerCounters → TrackerCounters) :
    s.countRt f = s.modRt fun b => { b with counters := f b.counters } := rfl
@[simp] theorem State.countRt_serial (s : State) (f : TrackerCounters → TrackerCounters) : (s.countRt f).serial = s.serial := rfl
@[simp] theorem State.countRt_localResetIn (s : State) (f : TrackerCounters → TrackerCounters) : (s.countRt f).localResetIn = s.localResetIn := rfl
@[simp] theorem State.countRt_port (s : State) (f : TrackerCounters → TrackerCounters) : (s.countRt f).port = s.port := rfl
@[simp] theorem State.countRt_en (s : State) (f : TrackerCounters → TrackerCounters) : (s.countRt f).en = s.en := rfl
@[simp] theorem State.countRt_wt (s : State) (f : TrackerCounters → TrackerCounters) : (s.countRt f).wt = s.wt := rfl
@[simp] theorem State.countRt_rt (s : State) (f : TrackerCounters → TrackerCounters) :
    (s.countRt f).rt = { s.rt with counters := f s.rt.counters } := rfl
@[simp] theorem State.countRt_ord (s : State) (f : TrackerCounters → TrackerCounters) : (s.countRt f).ord = s.ord := rfl
@[simp] theorem State.countRt_lt (s : State) (f : TrackerCounters → TrackerCounters) : (s.countRt f).lt = s.lt := rfl
@[simp] theorem State.countRt_inb (s : State) (f : TrackerCounters → TrackerCounters) : (s.countRt f).inb = s.inb := rfl
@[simp] theorem State.countRt_ag (s : State) (f : TrackerCounters → TrackerCounters) : (s.countRt f).ag = s.ag := rfl
@[simp] theorem State.countRt_bm (s : State) (f : TrackerCounters → TrackerCounters) : (s.countRt f).bm = s.bm := rfl
@[simp] theorem State.countRt_ev (s : State) (f : TrackerCounters → TrackerCounters) : (s.countRt f).ev = s.ev := rfl
@[simp] theorem State.countRt_now (s : State) (f : TrackerCounters → TrackerCounters) : (s.countRt f).now = s.now := rfl
@[simp] theorem State.countRt_firings (s : State) (f : TrackerCounters → TrackerCounters) : (s.countRt f).firings = s.firings := rfl
@[simp] theorem State.countRt_left (s : State) (f : TrackerCounters → TrackerCounters) : (s.countRt f).left = s.left := rfl
@[simp] theorem State.countRt_asks (s : State) (f : TrackerCounters → TrackerCounters) : (s.countRt f).asks = s.asks := rfl
@[simp] theorem State.countRt_pending (s : State) (f : TrackerCounters → TrackerCounters) : (s.countRt f).pending = s.pending := rfl
theorem State.countOrd_eq (s : State) (f : OrderingCounters → OrderingCounters) :
    s.countOrd f = s.modOrd fun b => { b with counters := f b.counters } := rfl
@[simp] theorem State.countOrd_serial (s : State) (f : OrderingCounters → OrderingCounters) : (s.countOrd f).serial = s.serial := rfl
@[simp] theorem State.countOrd_localResetIn (s : State) (f : OrderingCounters → OrderingCounters) : (s.countOrd f).localResetIn = s.localResetIn := rfl
@[simp] theorem State.countOrd_port (s : State) (f : OrderingCounters → OrderingCounters) : (s.countOrd f).port = s.port := rfl
@[simp] theorem State.countOrd_en (s : State) (f : OrderingCounters → OrderingCounters) : (s.countOrd f).en = s.en := rfl
@[simp] theorem State.countOrd_wt (s : State) (f : OrderingCounters → OrderingCounters) : (s.countOrd f).wt = s.wt := rfl
@[simp] theorem State.countOrd_rt (s : State) (f : OrderingCounters → OrderingCounters) : (s.countOrd f).rt = s.rt := rfl
@[simp] theorem State.countOrd_ord (s : State) (f : OrderingCounters → OrderingCounters) :
    (s.countOrd f).ord = { s.ord with counters := f s.ord.counters } := rfl
@[simp] theorem State.countOrd_lt (s : State) (f : OrderingCounters → OrderingCounters) : (s.countOrd f).lt = s.lt := rfl
@[simp] theorem State.countOrd_inb (s : State) (f : OrderingCounters → OrderingCounters) : (s.countOrd f).inb = s.inb := rfl
@[simp] theorem State.countOrd_ag (s : State) (f : OrderingCounters → OrderingCounters) : (s.countOrd f).ag = s.ag := rfl
@[simp] theorem State.countOrd_bm (s : State) (f : OrderingCounters → OrderingCounters) : (s.countOrd f).bm = s.bm := rfl
@[simp] theorem State.countOrd_ev (s : State) (f : OrderingCounters → OrderingCounters) : (s.countOrd f).ev = s.ev := rfl
@[simp] theorem State.countOrd_now (s : State) (f : OrderingCounters → OrderingCounters) : (s.countOrd f).now = s.now := rfl
@[simp] theorem State.countOrd_firings (s : State) (f : OrderingCounters → OrderingCounters) : (s.countOrd f).firings = s.firings := rfl
@[simp] theorem State.countOrd_left (s : State) (f : OrderingCounters → OrderingCounters) : (s.countOrd f).left = s.left := rfl
@[simp] theorem State.countOrd_asks (s : State) (f : OrderingCounters → OrderingCounters) : (s.countOrd f).asks = s.asks := rfl
@[simp] theorem State.countOrd_pending (s : State) (f : OrderingCounters → OrderingCounters) : (s.countOrd f).pending = s.pending := rfl
theorem State.countLt_eq (s : State) (f : LocalCounters → LocalCounters) :
    s.countLt f = s.modLt fun b => { b with counters := f b.counters } := rfl
@[simp] theorem State.countLt_serial (s : State) (f : LocalCounters → LocalCounters) : (s.countLt f).serial = s.serial := rfl
@[simp] theorem State.countLt_localResetIn (s : State) (f : LocalCounters → LocalCounters) : (s.countLt f).localResetIn = s.localResetIn := rfl
@[simp] theorem State.countLt_port (s : State) (f : LocalCounters → LocalCounters) : (s.countLt f).port = s.port := rfl
@[simp] theorem State.countLt_en (s : State) (f : LocalCounters → LocalCounters) : (s.countLt f).en = s.en := rfl
@[simp] theorem State.countLt_wt (s : State) (f : LocalCounters → LocalCounters) : (s.countLt f).wt = s.wt := rfl
@[simp] theorem State.countLt_rt (s : State) (f : LocalCounters → LocalCounters) : (s.countLt f).rt = s.rt := rfl
@[simp] theorem State.countLt_ord (s : State) (f : LocalCounters → LocalCounters) : (s.countLt f).ord = s.ord := rfl
@[simp] theorem State.countLt_lt (s : State) (f : LocalCounters → LocalCounters) :
    (s.countLt f).lt = { s.lt with counters := f s.lt.counters } := rfl
@[simp] theorem State.countLt_inb (s : State) (f : LocalCounters → LocalCounters) : (s.countLt f).inb = s.inb := rfl
@[simp] theorem State.countLt_ag (s : State) (f : LocalCounters → LocalCounters) : (s.countLt f).ag = s.ag := rfl
@[simp] theorem State.countLt_bm (s : State) (f : LocalCounters → LocalCounters) : (s.countLt f).bm = s.bm := rfl
@[simp] theorem State.countLt_ev (s : State) (f : LocalCounters → LocalCounters) : (s.countLt f).ev = s.ev := rfl
@[simp] theorem State.countLt_now (s : State) (f : LocalCounters → LocalCounters) : (s.countLt f).now = s.now := rfl
@[simp] theorem State.countLt_firings (s : State) (f : LocalCounters → LocalCounters) : (s.countLt f).firings = s.firings := rfl
@[simp] theorem State.countLt_left (s : State) (f : LocalCounters → LocalCounters) : (s.countLt f).left = s.left := rfl
@[simp] theorem State.countLt_asks (s : State) (f : LocalCounters → LocalCounters) : (s.countLt f).asks = s.asks := rfl
@[simp] theorem State.countLt_pending (s : State) (f : LocalCounters → LocalCounters) : (s.countLt f).pending = s.pending := rfl
theorem State.countInb_eq (s : State) (f : InboundCounters → InboundCounters) :
    s.countInb f = s.modInb fun b => { b with counters := f b.counters } := rfl
@[simp] theorem State.countInb_serial (s : State) (f : InboundCounters → InboundCounters) : (s.countInb f).serial = s.serial := rfl
@[simp] theorem State.countInb_localResetIn (s : State) (f : InboundCounters → InboundCounters) : (s.countInb f).localResetIn = s.localResetIn := rfl
@[simp] theorem State.countInb_port (s : State) (f : InboundCounters → InboundCounters) : (s.countInb f).port = s.port := rfl
@[simp] theorem State.countInb_en (s : State) (f : InboundCounters → InboundCounters) : (s.countInb f).en = s.en := rfl
@[simp] theorem State.countInb_wt (s : State) (f : InboundCounters → InboundCounters) : (s.countInb f).wt = s.wt := rfl
@[simp] theorem State.countInb_rt (s : State) (f : InboundCounters → InboundCounters) : (s.countInb f).rt = s.rt := rfl
@[simp] theorem State.countInb_ord (s : State) (f : InboundCounters → InboundCounters) : (s.countInb f).ord = s.ord := rfl
@[simp] theorem State.countInb_lt (s : State) (f : InboundCounters → InboundCounters) : (s.countInb f).lt = s.lt := rfl
@[simp] theorem State.countInb_inb (s : State) (f : InboundCounters → InboundCounters) :
    (s.countInb f).inb = { s.inb with counters := f s.inb.counters } := rfl
@[simp] theorem State.countInb_ag (s : State) (f : InboundCounters → InboundCounters) : (s.countInb f).ag = s.ag := rfl
@[simp] theorem State.countInb_bm (s : State) (f : InboundCounters → InboundCounters) : (s.countInb f).bm = s.bm := rfl
@[simp] theorem State.countInb_ev (s : State) (f : InboundCounters → InboundCounters) : (s.countInb f).ev = s.ev := rfl
@[simp] theorem State.countInb_now (s : State) (f : InboundCounters → InboundCounters) : (s.countInb f).now = s.now := rfl
@[simp] theorem State.countInb_firings (s : State) (f : InboundCounters → InboundCounters) : (s.countInb f).firings = s.firings := rfl
@[simp] theorem State.countInb_left (s : State) (f : InboundCounters → InboundCounters) : (s.countInb f).left = s.left := rfl
@[simp] theorem State.countInb_asks (s : State) (f : InboundCounters → InboundCounters) : (s.countInb f).asks = s.asks := rfl
@[simp] theorem State.countInb_pending (s : State) (f : InboundCounters → InboundCounters) : (s.countInb f).pending = s.pending := rfl
theorem State.countAg_eq (s : State) (f : AgentCounters → AgentCounters) :
    s.countAg f = s.modAg fun b => { b with counters := f b.counters } := rfl
@[simp] theorem State.countAg_serial (s : State) (f : AgentCounters → AgentCounters) : (s.countAg f).serial = s.serial := rfl
@[simp] theorem State.countAg_localResetIn (s : State) (f : AgentCounters → AgentCounters) : (s.countAg f).localResetIn = s.localResetIn := rfl
@[simp] theorem State.countAg_port (s : State) (f : AgentCounters → AgentCounters) : (s.countAg f).port = s.port := rfl
@[simp] theorem State.countAg_en (s : State) (f : AgentCounters → AgentCounters) : (s.countAg f).en = s.en := rfl
@[simp] theorem State.countAg_wt (s : State) (f : AgentCounters → AgentCounters) : (s.countAg f).wt = s.wt := rfl
@[simp] theorem State.countAg_rt (s : State) (f : AgentCounters → AgentCounters) : (s.countAg f).rt = s.rt := rfl
@[simp] theorem State.countAg_ord (s : State) (f : AgentCounters → AgentCounters) : (s.countAg f).ord = s.ord := rfl
@[simp] theorem State.countAg_lt (s : State) (f : AgentCounters → AgentCounters) : (s.countAg f).lt = s.lt := rfl
@[simp] theorem State.countAg_inb (s : State) (f : AgentCounters → AgentCounters) : (s.countAg f).inb = s.inb := rfl
@[simp] theorem State.countAg_ag (s : State) (f : AgentCounters → AgentCounters) :
    (s.countAg f).ag = { s.ag with counters := f s.ag.counters } := rfl
@[simp] theorem State.countAg_bm (s : State) (f : AgentCounters → AgentCounters) : (s.countAg f).bm = s.bm := rfl
@[simp] theorem State.countAg_ev (s : State) (f : AgentCounters → AgentCounters) : (s.countAg f).ev = s.ev := rfl
@[simp] theorem State.countAg_now (s : State) (f : AgentCounters → AgentCounters) : (s.countAg f).now = s.now := rfl
@[simp] theorem State.countAg_firings (s : State) (f : AgentCounters → AgentCounters) : (s.countAg f).firings = s.firings := rfl
@[simp] theorem State.countAg_left (s : State) (f : AgentCounters → AgentCounters) : (s.countAg f).left = s.left := rfl
@[simp] theorem State.countAg_asks (s : State) (f : AgentCounters → AgentCounters) : (s.countAg f).asks = s.asks := rfl
@[simp] theorem State.countAg_pending (s : State) (f : AgentCounters → AgentCounters) : (s.countAg f).pending = s.pending := rfl
theorem State.countBm_eq (s : State) (f : MoverCounters → MoverCounters) :
    s.countBm f = s.modBm fun b => { b with counters := f b.counters } := rfl
@[simp] theorem State.countBm_serial (s : State) (f : MoverCounters → MoverCounters) : (s.countBm f).serial = s.serial := rfl
@[simp] theorem State.countBm_localResetIn (s : State) (f : MoverCounters → MoverCounters) : (s.countBm f).localResetIn = s.localResetIn := rfl
@[simp] theorem State.countBm_port (s : State) (f : MoverCounters → MoverCounters) : (s.countBm f).port = s.port := rfl
@[simp] theorem State.countBm_en (s : State) (f : MoverCounters → MoverCounters) : (s.countBm f).en = s.en := rfl
@[simp] theorem State.countBm_wt (s : State) (f : MoverCounters → MoverCounters) : (s.countBm f).wt = s.wt := rfl
@[simp] theorem State.countBm_rt (s : State) (f : MoverCounters → MoverCounters) : (s.countBm f).rt = s.rt := rfl
@[simp] theorem State.countBm_ord (s : State) (f : MoverCounters → MoverCounters) : (s.countBm f).ord = s.ord := rfl
@[simp] theorem State.countBm_lt (s : State) (f : MoverCounters → MoverCounters) : (s.countBm f).lt = s.lt := rfl
@[simp] theorem State.countBm_inb (s : State) (f : MoverCounters → MoverCounters) : (s.countBm f).inb = s.inb := rfl
@[simp] theorem State.countBm_ag (s : State) (f : MoverCounters → MoverCounters) : (s.countBm f).ag = s.ag := rfl
@[simp] theorem State.countBm_bm (s : State) (f : MoverCounters → MoverCounters) :
    (s.countBm f).bm = { s.bm with counters := f s.bm.counters } := rfl
@[simp] theorem State.countBm_ev (s : State) (f : MoverCounters → MoverCounters) : (s.countBm f).ev = s.ev := rfl
@[simp] theorem State.countBm_now (s : State) (f : MoverCounters → MoverCounters) : (s.countBm f).now = s.now := rfl
@[simp] theorem State.countBm_firings (s : State) (f : MoverCounters → MoverCounters) : (s.countBm f).firings = s.firings := rfl
@[simp] theorem State.countBm_left (s : State) (f : MoverCounters → MoverCounters) : (s.countBm f).left = s.left := rfl
@[simp] theorem State.countBm_asks (s : State) (f : MoverCounters → MoverCounters) : (s.countBm f).asks = s.asks := rfl
@[simp] theorem State.countBm_pending (s : State) (f : MoverCounters → MoverCounters) : (s.countBm f).pending = s.pending := rfl
theorem State.countEv_eq (s : State) (f : EventCounters → EventCounters) :
    s.countEv f = s.modEv fun b => { b with counters := f b.counters } := rfl
@[simp] theorem State.countEv_serial (s : State) (f : EventCounters → EventCounters) : (s.countEv f).serial = s.serial := rfl
@[simp] theorem State.countEv_localResetIn (s : State) (f : EventCounters → EventCounters) : (s.countEv f).localResetIn = s.localResetIn := rfl
@[simp] theorem State.countEv_port (s : State) (f : EventCounters → EventCounters) : (s.countEv f).port = s.port := rfl
@[simp] theorem State.countEv_en (s : State) (f : EventCounters → EventCounters) : (s.countEv f).en = s.en := rfl
@[simp] theorem State.countEv_wt (s : State) (f : EventCounters → EventCounters) : (s.countEv f).wt = s.wt := rfl
@[simp] theorem State.countEv_rt (s : State) (f : EventCounters → EventCounters) : (s.countEv f).rt = s.rt := rfl
@[simp] theorem State.countEv_ord (s : State) (f : EventCounters → EventCounters) : (s.countEv f).ord = s.ord := rfl
@[simp] theorem State.countEv_lt (s : State) (f : EventCounters → EventCounters) : (s.countEv f).lt = s.lt := rfl
@[simp] theorem State.countEv_inb (s : State) (f : EventCounters → EventCounters) : (s.countEv f).inb = s.inb := rfl
@[simp] theorem State.countEv_ag (s : State) (f : EventCounters → EventCounters) : (s.countEv f).ag = s.ag := rfl
@[simp] theorem State.countEv_bm (s : State) (f : EventCounters → EventCounters) : (s.countEv f).bm = s.bm := rfl
@[simp] theorem State.countEv_ev (s : State) (f : EventCounters → EventCounters) :
    (s.countEv f).ev = { s.ev with counters := f s.ev.counters } := rfl
@[simp] theorem State.countEv_now (s : State) (f : EventCounters → EventCounters) : (s.countEv f).now = s.now := rfl
@[simp] theorem State.countEv_firings (s : State) (f : EventCounters → EventCounters) : (s.countEv f).firings = s.firings := rfl
@[simp] theorem State.countEv_left (s : State) (f : EventCounters → EventCounters) : (s.countEv f).left = s.left := rfl
@[simp] theorem State.countEv_asks (s : State) (f : EventCounters → EventCounters) : (s.countEv f).asks = s.asks := rfl
@[simp] theorem State.countEv_pending (s : State) (f : EventCounters → EventCounters) : (s.countEv f).pending = s.pending := rfl

/-! ### Tables -/

/-- What a table holds at `j` after its entry `i` was changed. -/
theorem get_modAt {α : Type} {n : Nat} (t : Table α n) (i j : Fin n) (f : α → α) :
    (modAt t i f).get j = if i = j then f (t.get j) else t.get j := by
  unfold modAt
  by_cases h : i = j
  · subst h
    simp [Vector.get_eq_getElem]
  · have hij : i.val ≠ j.val := fun e => h (Fin.ext e)
    simp [Vector.get_eq_getElem, h, hij]

@[simp] theorem get_modAt_self {α : Type} {n : Nat} (t : Table α n) (i : Fin n) (f : α → α) :
    (modAt t i f).get i = f (t.get i) := by simp [get_modAt]

theorem get_modAt_ne {α : Type} {n : Nat} (t : Table α n) {i j : Fin n} (f : α → α) (h : i ≠ j) :
    (modAt t i f).get j = t.get j := by simp [get_modAt, h]

@[simp] theorem get_replicate {α : Type} {n : Nat} (a : α) (i : Fin n) : (Vector.replicate n a).get i = a := by
  simp [Vector.get_eq_getElem]

@[simp] theorem get_map {α β : Type} {n : Nat} (f : α → β) (t : Table α n) (i : Fin n) :
    (t.map f).get i = f (t.get i) := by simp [Vector.get_eq_getElem]

/-- Two tables with the same entries are equal. -/
theorem table_ext {α : Type} {n : Nat} {t u : Table α n} (h : ∀ i : Fin n, t.get i = u.get i) : t = u := by
  apply Vector.ext
  intro i hi
  simpa [Vector.get_eq_getElem] using h ⟨i, hi⟩

end Sys2Proof.Machine
end

