-- ==== Sys2Proof/Laws/Tracker.lean ====
section
/-! SUPPORT. What an allocation does, and when it is refused (R74, R75). -/

namespace Sys2Proof.Machine

section
variable (s : State) (r : AllocRequest) (x : Tag) (l : List Tag)

@[simp] theorem allocated_rt : (s.allocated r x l).rt =
    { s.rt with
      freeList := l
      allocOrder := s.rt.allocOrder ++ [x]
      entries := modAt s.rt.entries x (s.allocatedEntry r) } := by
  unfold State.allocated; dsimp only; split <;> split <;> rfl

@[simp] theorem allocated_ord : (s.allocated r x l).ord =
    if r.kind = .postedWrite then { s.ord with send := modAt s.ord.send r.dest.toFin SendEntry.assign }
    else s.ord := by
  unfold State.allocated; dsimp only; split <;> split <;> rfl

@[simp] theorem allocated_wt : (s.allocated r x l).wt =
    match r.window with
    | some w => { s.wt with owt := modAt s.wt.owt w fun e => { e with inFlight := e.inFlight + 1 } }
    | none => s.wt := by
  unfold State.allocated; dsimp only; cases r.window <;> dsimp only <;> split <;> rfl

@[simp] theorem allocated_port : (s.allocated r x l).port = s.port := by
  unfold State.allocated; dsimp only; split <;> split <;> rfl
@[simp] theorem allocated_en : (s.allocated r x l).en = s.en := by
  unfold State.allocated; dsimp only; split <;> split <;> rfl
@[simp] theorem allocated_lt : (s.allocated r x l).lt = s.lt := by
  unfold State.allocated; dsimp only; split <;> split <;> rfl
@[simp] theorem allocated_inb : (s.allocated r x l).inb = s.inb := by
  unfold State.allocated; dsimp only; split <;> split <;> rfl
@[simp] theorem allocated_ag : (s.allocated r x l).ag = s.ag := by
  unfold State.allocated; dsimp only; split <;> split <;> rfl
@[simp] theorem allocated_bm : (s.allocated r x l).bm = s.bm := by
  unfold State.allocated; dsimp only; split <;> split <;> rfl
@[simp] theorem allocated_ev : (s.allocated r x l).ev = s.ev := by
  unfold State.allocated; dsimp only; split <;> split <;> rfl
@[simp] theorem allocated_firings : (s.allocated r x l).firings = s.firings := by
  unfold State.allocated; dsimp only; split <;> split <;> rfl
@[simp] theorem allocated_left : (s.allocated r x l).left = s.left := by
  unfold State.allocated; dsimp only; split <;> split <;> rfl
@[simp] theorem allocated_asks : (s.allocated r x l).asks = s.asks := by
  unfold State.allocated; dsimp only; split <;> split <;> rfl
@[simp] theorem allocated_now : (s.allocated r x l).now = s.now := by
  unfold State.allocated; dsimp only; split <;> split <;> rfl
@[simp] theorem allocated_serial : (s.allocated r x l).serial = s.serial := by
  unfold State.allocated; dsimp only; split <;> split <;> rfl
@[simp] theorem allocated_pending : (s.allocated r x l).pending = s.pending := by
  unfold State.allocated; dsimp only; split <;> split <;> rfl
@[simp] theorem allocated_localResetIn : (s.allocated r x l).localResetIn = s.localResetIn := by
  unfold State.allocated; dsimp only; split <;> split <;> rfl

end

/-- What an allocation gives (R75): the head of the free list, and the state that R75 describes. -/
theorem alloc_some {s u : State} {r : AllocRequest} {x : Tag} (h : s.alloc r = some (x, u)) :
    s.numbered = true ∧ s.moverReserved r.originator = false ∧ s.placesFull r = false ∧
      ∃ l, s.rt.freeList = x :: l ∧ u = s.allocated r x l := by
  unfold State.alloc at h
  split at h
  · cases h
  · rename_i hn
    split at h
    · cases h
    · rename_i y l hl
      split at h
      · cases h
      · split at h
        · cases h
        · rename_i h1 h2
          cases h
          exact ⟨by simpa using hn, by simpa using h1, by simpa using h2, l, hl, rfl⟩

/-- When an allocation is refused (R74). -/
theorem alloc_none_iff {s : State} {r : AllocRequest} :
    s.alloc r = none ↔ s.numbered = false ∨ s.rt.freeList = [] ∨ s.moverReserved r.originator = true ∨
      s.placesFull r = true := by
  unfold State.alloc
  cases hn : s.numbered
  · simp
  · cases hl : s.rt.freeList with
    | nil => simp
    | cons y l =>
      cases h1 : s.moverReserved r.originator <;> cases h2 : s.placesFull r <;> simp

/-- An entry after an allocation. -/
theorem allocated_entry (s : State) (r : AllocRequest) (x y : Tag) (l : List Tag) :
    (s.allocated r x l).entry y = if x = y then s.allocatedEntry r (s.entry y) else s.entry y := by
  simp [State.entry, get_modAt]

/-- A request for an entry that is not a posted write finds its destination's places free (R74, test 4). -/
theorem placesFull_of_kind {s : State} {r : AllocRequest} (h : r.kind ≠ .postedWrite) : s.placesFull r = false := by
  simp [State.placesFull, h]

end Sys2Proof.Machine
end

