-- ==== Sys2Proof/Laws/Claims.lean ====
section
/-! SUPPORT. Standing claims (R77): what they read, that serving them ends with none that can be granted, and that a
NODE reset leaves none. -/

namespace Sys2Proof.Machine

/-! ### What the claims read -/

/-- The two states agree in what decides whether a claim can be granted. -/
structure ClaimSame (s u : State) : Prop where
  numbered : u.numbered = s.numbered
  freeList : u.rt.freeList = s.rt.freeList
  holds : ∀ c, u.channelHolds c = s.channelHolds c
  places : ∀ d, (u.sendOf d).count = (s.sendOf d).count
  issue : u.ag.issue.state = s.ag.issue.state
  held : ∀ c, u.isHeld c = s.isHeld c
  granted : u.ev.lastGranted = s.ev.lastGranted
  chans : ∀ c, (u.chan c).slots = (s.chan c).slots
  turn : u.bm.turn = s.bm.turn

theorem ClaimSame.refl (s : State) : ClaimSame s s := ⟨rfl, rfl, fun _ => rfl, fun _ => rfl, rfl, fun _ => rfl, rfl, fun _ => rfl, rfl⟩

theorem ClaimSame.trans {s t u : State} (a : ClaimSame s t) (b : ClaimSame t u) : ClaimSame s u :=
  ⟨b.numbered.trans a.numbered, b.freeList.trans a.freeList, fun c => (b.holds c).trans (a.holds c),
    fun d => (b.places d).trans (a.places d), b.issue.trans a.issue, fun c => (b.held c).trans (a.held c), b.granted.trans a.granted,
    fun c => (b.chans c).trans (a.chans c), b.turn.trans a.turn⟩

/-- A request that differs only in what no test of R74 reads is refused alike. -/
theorem ClaimSame.alloc_none {s u : State} (h : ClaimSame s u) {r r' : AllocRequest} (ho : r'.originator = r.originator)
    (hk : r'.kind = r.kind) (hd : r'.dest = r.dest ∨ r.kind ≠ .postedWrite) :
    u.alloc r' = none ↔ s.alloc r = none := by
  rw [alloc_none_iff, alloc_none_iff, h.numbered, h.freeList]
  have h1 : u.moverReserved r'.originator = s.moverReserved r.originator := by
    rw [ho]; unfold State.moverReserved; split
    · rw [h.freeList, h.holds]
    · rfl
  have h2 : u.placesFull r' = s.placesFull r := by
    unfold State.placesFull
    rw [hk, h.places]
    rcases hd with hd | hd
    · rw [hd]
    · have hk : (r.kind == ReqKind.postedWrite) = false := by simpa using hd
      rw [hk, Bool.false_and, Bool.false_and]
  rw [h1, h2]

theorem issueGrant_none {s : State} : s.issueGrant = none ↔ s.alloc s.issueRequest = none := by
  unfold State.issueGrant; cases s.alloc s.issueRequest <;> simp

theorem grantHeld_none {s : State} {c : EventCode} :
    s.grantHeld c = none ↔ s.alloc (s.eventRequest c (s.ringRoute c).refire) = none := by
  unfold State.grantHeld; cases s.alloc (s.eventRequest c (s.ringRoute c).refire) <;> simp

theorem moverGrant_none {s : State} :
    s.moverGrant = none ↔ ∀ c i, s.moverAsk = some (c, i) → s.alloc (s.moverRequest c i) = none := by
  unfold State.moverGrant
  split
  · rename_i h
    simp [h]
  · rename_i c i h
    rw [h]
    split
    · rename_i ha
      refine ⟨fun _ c' i' e => ?_, fun _ => rfl⟩
      cases e
      exact ha
    · rename_i ha
      refine ⟨fun e => (by cases e), fun e => ?_⟩
      have := e c i rfl
      rw [ha] at this
      cases this

theorem ClaimSame.heldCode {s u : State} (h : ClaimSame s u) : u.heldCode = s.heldCode := by
  unfold State.heldCode
  rw [h.granted]
  congr 1
  funext c
  exact h.held c

theorem ClaimSame.slot {s u : State} (h : ClaimSame s u) (c : ChannelId) (i : Fin 8) : u.slot c i = s.slot c i := by
  unfold State.slot; rw [h.chans]

/-- The slots alone say which of them asks. -/
theorem askSlot_congr {ch ch' : Channel} (h : ch'.slots = ch.slots) : ch'.askSlot = ch.askSlot := by
  unfold Channel.askSlot Channel.oldest; rw [h]

theorem ClaimSame.moverAsk {s u : State} (h : ClaimSame s u) : u.moverAsk = s.moverAsk := by
  have k : ∀ c, (u.chan c).askSlot = (s.chan c).askSlot := fun c => askSlot_congr (h.chans c)
  unfold State.moverAsk; simp only [h.turn, k]

/-- Whether a claim is refused depends only on what the claims read. -/
theorem ClaimSame.claimGrant {s u : State} (h : ClaimSame s u) (c : Claimant) :
    u.claimGrant c = none ↔ s.claimGrant c = none := by
  cases c with
  | issueSlot =>
    simp only [State.claimGrant, h.issue]
    split
    · rw [issueGrant_none, issueGrant_none]
      exact h.alloc_none rfl rfl (.inr (by simp [State.issueRequest]))
    · rfl
  | router =>
    simp only [State.claimGrant, h.heldCode]
    split
    · rw [grantHeld_none, grantHeld_none]
      exact h.alloc_none rfl rfl (.inr (by simp [State.eventRequest]))
    · rfl
  | mover =>
    simp only [State.claimGrant]
    rw [moverGrant_none, moverGrant_none, h.moverAsk]
    have key : ∀ c i, u.alloc (u.moverRequest c i) = none ↔ s.alloc (s.moverRequest c i) = none := by
      intro c i
      refine h.alloc_none rfl ?_ (.inl ?_) <;> simp only [State.moverRequest, h.slot]
    simp only [key]

/-- A step of the rotation exists exactly when some claim is granted. -/
theorem claimStep_none {s : State} : s.claimStep = none ↔ ∀ c, s.claimGrant c = none := by
  unfold State.claimStep
  rw [List.findSome?_eq_none_iff]
  simp only [Option.map_eq_none_iff]
  constructor
  · intro h c
    apply h
    cases c <;> cases s.rt.lastClaimant <;> simp [claimantsAfter]
  · intro h c _
    exact h c

theorem ClaimSame.claimStep {s u : State} (h : ClaimSame s u) : u.claimStep = none ↔ s.claimStep = none := by
  rw [claimStep_none, claimStep_none]
  exact forall_congr' h.claimGrant

/-! ### Serving the claims ends -/

theorem alloc_freeList {s u : State} {r : AllocRequest} {x : Tag} (h : s.alloc r = some (x, u)) :
    s.rt.freeList = x :: u.rt.freeList := by
  obtain ⟨_, _, _, l, hl, rfl⟩ := alloc_some h
  simpa using hl

theorem claimGrant_freeList {s u : State} {c : Claimant} (h : s.claimGrant c = some u) :
    s.rt.freeList.length = u.rt.freeList.length + 1 := by
  cases c with
  | issueSlot =>
    simp only [State.claimGrant, State.issueGrant] at h
    split at h
    · split at h
      · rename_i e; cases h; simp [alloc_freeList e]
      · cases h
    · cases h
  | router =>
    simp only [State.claimGrant, State.grantHeld] at h
    split at h
    · split at h
      · rename_i e; cases h; simp [alloc_freeList e, State.recordEventTag, State.modRing]
      · cases h
    · cases h
  | mover =>
    simp only [State.claimGrant, State.moverGrant] at h
    split at h
    · cases h
    · split at h
      · cases h
      · rename_i e; cases h; simp [alloc_freeList e, State.modSlot, State.modChan]

theorem claimStep_freeList {s u : State} (h : s.claimStep = some u) :
    s.rt.freeList.length = u.rt.freeList.length + 1 := by
  unfold State.claimStep at h
  obtain ⟨c, _, hc⟩ := List.exists_of_findSome?_eq_some h
  cases hg : s.claimGrant c with
  | none => simp [hg] at hc
  | some v => simp [hg] at hc; subst hc; simpa using claimGrant_freeList hg

theorem claimSteps_done {s : State} {n : Nat} (h : s.rt.freeList.length ≤ n) : (s.claimSteps n).claimStep = none := by
  induction n generalizing s with
  | zero =>
    unfold State.claimSteps
    cases hc : s.claimStep with
    | none => rfl
    | some u => have := claimStep_freeList hc; omega
  | succ n ih =>
    unfold State.claimSteps
    cases hc : s.claimStep with
    | none => simpa using hc
    | some u => have := claimStep_freeList hc; exact ih (by omega)

/-- After the claims are served none can be granted (R77). -/
theorem serveClaims_done (s : State) : s.serveClaims.claimStep = none := claimSteps_done (Nat.le_refl _)

/-- With nothing to grant, serving the claims does nothing. -/
theorem serveClaims_eq {s : State} (h : s.claimStep = none) : s.serveClaims = s := by
  unfold State.serveClaims
  cases s.rt.freeList.length with
  | zero => rfl
  | succ n => simp [State.claimSteps, h]

/-- A grant of the rotation is followed by the rest of it (R77). -/
theorem serveClaims_step {s v : State} (h : s.claimStep = some v) : s.serveClaims = v.serveClaims := by
  unfold State.serveClaims
  rw [claimStep_freeList h]
  show (match s.claimStep with | some s' => s'.claimSteps _ | none => s) = _
  rw [h]

/-- A held code (R174). -/
theorem isHeld_iff {s : State} {c : EventCode} :
    s.isHeld c = true ↔ (s.ev.ring.get c).tag = none ∧ 0 < (s.ev.ring.get c).refire := by
  unfold State.isHeld State.ringRoute
  rw [Bool.and_eq_true, Option.isNone_iff_eq_none, decide_eq_true_eq]

/-- The codes in order after the one granted last, by their distance from it (R174). -/
theorem codesAfter_rank : ∀ last : EventCode, (codesAfter last).Pairwise (fun a b =>
    (a.val + 18 - last.val) % 19 < (b.val + 18 - last.val) % 19) := by decide

/-- Every code is among them. -/
theorem codesAfter_mem : ∀ last c : EventCode, c ∈ codesAfter last := by decide

/-- The member of least rank that passes a test is the first found. -/
theorem find_first {α} (f : α → Nat) (p : α → Bool) {l : List α} (hs : l.Pairwise fun a b => f a < f b) {c : α}
    (hm : c ∈ l) (hc : p c = true) (hmin : ∀ d, p d = true → f c ≤ f d) : l.find? p = some c := by
  induction l with
  | nil => cases hm
  | cons a l ih =>
    rw [List.find?_cons]
    rw [List.pairwise_cons] at hs
    rcases List.mem_cons.1 hm with e | e
    · subst e; simp [hc]
    · have : p a = false := by
        by_contra h
        have := hmin a (by simpa using h)
        have := hs.1 c e
        omega
      simp [this, ih hs.2 e]

/-- The held code that is granted is the first after the one granted last (R174). -/
theorem heldCode_some {s : State} {c : EventCode} (hc : s.isHeld c = true)
    (hm : ∀ d, s.isHeld d = true →
      (c.val + 18 - s.ev.lastGranted.val) % 19 ≤ (d.val + 18 - s.ev.lastGranted.val) % 19) :
    s.heldCode = some c :=
  find_first _ _ (codesAfter_rank s.ev.lastGranted) (codesAfter_mem _ c) hc hm

/-! ### Firings with no way to be granted -/

/-- No entry can be had for an event: the node is not NUMBERED, or no entry is FREE (R74). -/
def State.noEntry (s : State) : Prop := s.numbered = false ∨ s.rt.freeList = []

/-- Every held code is held for want of an entry. -/
def State.heldForWant (s : State) : Prop := ∀ c, s.isHeld c = true → s.noEntry

theorem eventAlloc_none {s : State} {c : EventCode} {n : Nat} :
    s.alloc (s.eventRequest c n) = none ↔ s.noEntry := by
  rw [alloc_none_iff]
  have h1 : s.moverReserved (s.eventRequest c n).originator = false := rfl
  have h2 : s.placesFull (s.eventRequest c n) = false := placesFull_of_kind (by simp [State.eventRequest])
  simp [h1, h2, State.noEntry]

/-- What a firing changes: the ring route state, the tracker, and the pending set. -/
structure FiringSame (s u : State) : Prop where
  issue : u.ag = s.ag
  chans : u.bm = s.bm
  en : u.en = s.en
  port : u.port = s.port
  inb : u.inb = s.inb
  left : u.left = s.left
  pin : u.localResetIn = s.localResetIn
  wt : u.wt = s.wt
  lt : u.lt = s.lt
  ord : u.ord = s.ord
  now : u.now = s.now
  asks : u.asks = s.asks

theorem FiringSame.refl (s : State) : FiringSame s s :=
  ⟨rfl, rfl, rfl, rfl, rfl, rfl, rfl, rfl, rfl, rfl, rfl, rfl⟩

theorem FiringSame.trans {s t u : State} (a : FiringSame s t) (b : FiringSame t u) : FiringSame s u :=
  ⟨b.1.trans a.1, b.2.trans a.2, b.3.trans a.3, b.4.trans a.4, b.5.trans a.5, b.6.trans a.6, b.7.trans a.7,
    b.8.trans a.8, b.9.trans a.9, b.10.trans a.10, b.11.trans a.11, b.12.trans a.12⟩

theorem FiringSame.modEv (s : State) (f : Events → Events) : FiringSame s (s.modEv f) :=
  ⟨rfl, rfl, rfl, rfl, rfl, rfl, rfl, rfl, rfl, rfl, rfl, rfl⟩

/-- An entry for an event changes only the tracker. -/
theorem eventAlloc_same {s u : State} {c : EventCode} {n : Nat} {x : Tag}
    (h : s.alloc (s.eventRequest c n) = some (x, u)) : FiringSame s u ∧ u.ev = s.ev ∧ u.firings = s.firings := by
  obtain ⟨_, _, _, l, _, rfl⟩ := alloc_some h
  refine ⟨⟨by simp, by simp, by simp, by simp, by simp, by simp, by simp, ?_, by simp, ?_, by simp, by simp⟩, by simp,
    by simp⟩
  · simp [State.eventRequest]
  · simp [State.eventRequest]

theorem ringFire_same (s : State) (c : EventCode) : FiringSame s (s.ringFire c) := by
  unfold State.ringFire
  dsimp only
  split
  · exact (FiringSame.modEv s _).trans (FiringSame.modEv _ _)
  · split
    · rename_i e
      refine (eventAlloc_same e).1.trans ?_
      unfold State.recordEventTag State.modRing
      exact (FiringSame.modEv _ _).trans (FiringSame.modEv _ _)
    · exact FiringSame.modEv s _

theorem takeFiring_same (s : State) (c : EventCode) : FiringSame s (s.takeFiring c) := by
  unfold State.takeFiring
  split
  · exact FiringSame.refl s
  · exact FiringSame.modEv s _
  · exact FiringSame.modEv s _
  · exact ringFire_same s c

theorem takeFirings_fold_same (l : List EventCode) (s : State) : FiringSame s (l.foldl State.takeFiring s) := by
  induction l generalizing s with
  | nil => exact FiringSame.refl s
  | cons c l ih => exact (takeFiring_same s c).trans (ih _)

/-- Taking the firings changes the tracker and the Events block, and nothing else. -/
theorem takeFirings_same (s : State) : FiringSame s s.takeFirings :=
  FiringSame.trans (t := { s with firings := [] })
    ⟨rfl, rfl, rfl, rfl, rfl, rfl, rfl, rfl, rfl, rfl, rfl, rfl⟩
    (takeFirings_fold_same s.firings { s with firings := [] })

theorem ringFire_firings (s : State) (c : EventCode) : (s.ringFire c).firings = s.firings := by
  unfold State.ringFire
  dsimp only
  split
  · rfl
  · split
    · rename_i e
      exact (eventAlloc_same e).2.2
    · rfl

theorem takeFiring_firings (s : State) (c : EventCode) : (s.takeFiring c).firings = s.firings := by
  unfold State.takeFiring
  split
  · rfl
  · rfl
  · rfl
  · exact ringFire_firings s c

theorem takeFirings_fold_firings (l : List EventCode) (s : State) :
    (l.foldl State.takeFiring s).firings = s.firings := by
  induction l generalizing s with
  | nil => rfl
  | cons c l ih => rw [List.foldl_cons, ih, takeFiring_firings]

/-- After the firings are taken none waits. -/
@[simp] theorem takeFirings_firings (s : State) : s.takeFirings.firings = [] :=
  takeFirings_fold_firings s.firings { s with firings := [] }

/-- With no firing, there is nothing to take. -/
theorem takeFirings_eq {s : State} (h : s.firings = []) : s.takeFirings = s := by
  unfold State.takeFirings
  rw [h]
  cases s
  simp_all

theorem modRing_isHeld {s : State} {c d : EventCode} {f : RingRoute → RingRoute} :
    (s.modRing c f).isHeld d = if c = d then ((f (s.ringRoute d)).tag.isNone && decide (0 < (f (s.ringRoute d)).refire))
      else s.isHeld d := by
  unfold State.isHeld State.ringRoute State.modRing
  simp only [State.modEv_ev, get_modAt]
  split <;> rfl

theorem ringFire_want {s : State} {c : EventCode} (h : s.heldForWant) : (s.ringFire c).heldForWant := by
  unfold State.ringFire
  dsimp only
  split
  · rename_i hc
    intro d hd
    have hd : (s.modRing c fun r => { r with refire := min 255 (r.refire + 1) }).isHeld d = true := hd
    rw [modRing_isHeld] at hd
    split at hd
    · rename_i e; subst e
      simp at hd
      rcases hc with hc | hc
      · rw [hd] at hc; cases hc
      · exact h c (by simp [State.isHeld, hd, hc])
    · exact h d hd
  · split
    · rename_i x u e
      have hn := alloc_some e
      intro d hd
      have hs := eventAlloc_same e
      have hd : (u.modRing c fun r => { r with tag := some x }).isHeld d = true := hd
      rw [modRing_isHeld] at hd
      split at hd
      · simp at hd
      · have hd' : s.isHeld d = true := by
          unfold State.isHeld State.ringRoute at hd ⊢
          rw [hs.2.1] at hd
          exact hd
        rcases h d hd' with hw | hw
        · rw [hw] at hn; cases hn.1
        · obtain ⟨_, _, _, l, hl, _⟩ := hn
          rw [hw] at hl; cases hl
    · rename_i e
      have hne := eventAlloc_none.1 e
      intro d _
      exact hne

theorem takeFiring_want {s : State} {c : EventCode} (h : s.heldForWant) : (s.takeFiring c).heldForWant := by
  unfold State.takeFiring
  split
  · exact h
  · exact h
  · exact h
  · exact ringFire_want h

theorem takeFirings_fold_want (l : List EventCode) {s : State} (h : s.heldForWant) :
    (l.foldl State.takeFiring s).heldForWant := by
  induction l generalizing s with
  | nil => exact h
  | cons c l ih => exact ih (takeFiring_want h)

theorem takeFirings_want {s : State} (h : s.heldForWant) : s.takeFirings.heldForWant :=
  takeFirings_fold_want s.firings (s := { s with firings := [] }) h

/-- With no slot that waits for an entry and no waiting issue slot, codes held for want of an entry are no claim that
can be granted. -/
theorem claimStep_none_of_want {s : State} (hi : s.ag.issue.state ≠ .waitingTag) (hw : s.heldForWant)
    (ha : s.moverAsk = none) : s.claimStep = none := by
  rw [claimStep_none]
  intro c
  cases c with
  | issueSlot => simp [State.claimGrant, hi]
  | router =>
    simp only [State.claimGrant]
    split
    · rename_i c hc
      rw [grantHeld_none]
      have hh : s.isHeld c = true := List.find?_some hc
      exact eventAlloc_none.2 (hw c hh)
    · rfl
  | mover =>
    simp only [State.claimGrant]
    rw [moverGrant_none, ha]
    intro c i h; cases h

/-- The channels after a reset ask for nothing. -/
theorem moverAsk_reset {s : State} (ha : s.bm.chA = Channel.reset) (hb : s.bm.chB = Channel.reset) :
    s.moverAsk = none := by
  have hr : Channel.reset.askSlot = none := by decide
  unfold State.moverAsk
  have h : ∀ c, (s.chan c).askSlot = none := by
    intro c; cases c
    · simpa [State.chan, ha] using hr
    · simpa [State.chan, hb] using hr
  simp [h]

end Sys2Proof.Machine
end

