-- ==== Sys2Proof/Laws/HandOver.lean ====
section
/-! SUPPORT. What handing a result over leaves unchanged: the tracker, the sequence tables, the port, the windows, the
local master and the reports; and what the completion of one entry makes of the response insertion queue. -/

namespace Sys2Proof.Machine

/-- What handing a result to an originator never changes (R88 step 1). -/
structure HandOver (s t : State) : Prop where
  rt : t.rt = s.rt
  ord : t.ord = s.ord
  port : t.port = s.port
  wt : t.wt = s.wt
  inb : t.inb = s.inb
  left : t.left = s.left

namespace HandOver

variable {s t u : State}

theorem refl (s : State) : HandOver s s := ⟨rfl, rfl, rfl, rfl, rfl, rfl⟩

theorem trans (a : HandOver s t) (b : HandOver t u) : HandOver s u :=
  ⟨b.rt.trans a.rt, b.ord.trans a.ord, b.port.trans a.port, b.wt.trans a.wt, b.inb.trans a.inb,
    b.left.trans a.left⟩

theorem modBm {f : Mover → Mover} (h : HandOver s t) : HandOver s (t.modBm f) := h.trans ⟨rfl, rfl, rfl, rfl, rfl, rfl⟩

theorem modChan {c : ChannelId} {f : Channel → Channel} (h : HandOver s t) : HandOver s (t.modChan c f) := h.modBm

theorem modSlot {c : ChannelId} {i : Fin 8} {f : Slot → Slot} (h : HandOver s t) : HandOver s (t.modSlot c i f) := h.modChan

theorem freeSlot {c : ChannelId} {i : Fin 8} (h : HandOver s t) : HandOver s (t.freeSlot c i) := h.modSlot

theorem countBm {f : MoverCounters → MoverCounters} (h : HandOver s t) : HandOver s (t.countBm f) := h.modBm

theorem fire {c : EventCode} (h : HandOver s t) : HandOver s (t.fire c) := h.trans ⟨rfl, rfl, rfl, rfl, rfl, rfl⟩

theorem raiseAsk {o : Originator} (h : HandOver s t) : HandOver s (t.raiseAsk o) :=
  h.trans ⟨rfl, rfl, rfl, rfl, rfl, rfl⟩

theorem recordFault {r : FaultRecord} (h : HandOver s t) : HandOver s (t.recordFault r) := by
  exact h.trans ⟨rfl, rfl, rfl, rfl, rfl, rfl⟩

theorem foldl {α : Type} {f : State → α → State} (h : HandOver s t) (hf : ∀ s a, HandOver s (f s a)) (l : List α) :
    HandOver s (l.foldl f t) := by
  induction l generalizing t with
  | nil => exact h
  | cons a l ih => exact ih (h.trans (hf t a))

theorem startFrames {c : ChannelId} (h : HandOver s t) : HandOver s (t.startFrames c) := by
  unfold State.startFrames
  split
  · exact h.modChan
  · exact h

theorem releaseChannel {c : ChannelId} (h : HandOver s t) : HandOver s (t.releaseChannel c) := by
  refine h.foldl (fun s i => ?_) _
  dsimp only
  split
  · exact (refl s).freeSlot
  · exact refl s

theorem channelIdle {c : ChannelId} (h : HandOver s t) : HandOver s (t.channelIdle c) := h.modBm.fire

theorem stopChannel {c : ChannelId} (h : HandOver s t) : HandOver s (t.stopChannel c) := by
  unfold State.stopChannel
  dsimp only
  split
  · exact h.modChan.releaseChannel
  · exact h.modChan.releaseChannel.channelIdle

theorem haltChannel {c : ChannelId} {n : Nat} {d : Option Detail} (h : HandOver s t) :
    HandOver s (t.haltChannel c n d) := h.modChan.releaseChannel.modChan.recordFault.fire

theorem slotFreed {c : ChannelId} (h : HandOver s t) : HandOver s (t.slotFreed c) := by
  unfold State.slotFreed
  split
  · exact h.startFrames
  · split
    · exact h
    · exact h.channelIdle
  · exact h
  · exact h

theorem chainNext {c : ChannelId} (h : HandOver s t) : HandOver s (t.chainNext c) := by
  unfold State.chainNext
  dsimp only
  split
  · exact h.channelIdle
  · split
    · exact h.modChan.startFrames
    · exact h.haltChannel

theorem descriptorComplete {c : ChannelId} (h : HandOver s t) : HandOver s (t.descriptorComplete c) := by
  have h1 : HandOver s (if (t.descriptor (t.currentIndex c)).notify then t.fire (codeMoveDone c) else t) := by
    split
    · exact h.fire
    · exact h
  unfold State.descriptorComplete
  dsimp only
  split
  · exact h1.channelIdle
  · exact h1.chainNext
  · exact h1
  · exact h1

theorem frameDone {c : ChannelId} {i : Fin 8} (h : HandOver s t) : HandOver s (t.frameDone c i) := by
  unfold State.frameDone
  dsimp only
  split
  · exact h.freeSlot.countBm.slotFreed
  · split
    · exact h.freeSlot.countBm.modChan.descriptorComplete
    · exact h.freeSlot.countBm.modChan.slotFreed

theorem frameFailed {c : ChannelId} {i : Fin 8} {d : Detail} (h : HandOver s t) :
    HandOver s (t.frameFailed c i d) := by
  unfold State.frameFailed
  dsimp only
  split
  · exact h.freeSlot.haltChannel
  · exact h.freeSlot.slotFreed

theorem moverCompleted {c : ChannelId} {i : Fin 8} {k : ReqKind} {r : Result} {d : List Word} (h : HandOver s t) :
    HandOver s (t.moverCompleted c i k r d) := by
  unfold State.moverCompleted
  split
  · split
    · exact h.modSlot
    · exact h.frameDone
  · exact h.frameFailed

theorem moverBusFault {c : ChannelId} {i : Fin 8} (h : HandOver s t) : HandOver s (t.moverBusFault c i) := by
  unfold State.moverBusFault
  split
  · exact h.frameFailed
  · exact h.frameFailed
  · exact h
  · exact h

theorem handOver {x : Tag} {r : Result} {d : List Word} (h : HandOver s t) : HandOver s (t.handOver x r d) := by
  unfold State.handOver
  dsimp only
  split
  · exact h
  · exact h
  · exact h.trans ⟨rfl, rfl, rfl, rfl, rfl, rfl⟩
  · split
    · exact h.moverCompleted
    · exact h.moverCompleted.raiseAsk
  · refine HandOver.raiseAsk ?_
    unfold State.eventCompleted
    dsimp only
    split
    · exact h.trans ⟨rfl, rfl, rfl, rfl, rfl, rfl⟩
    · exact (h.trans ⟨rfl, rfl, rfl, rfl, rfl, rfl⟩ : HandOver s (t.modRing _ _)).recordFault
  · exact h.trans ⟨rfl, rfl, rfl, rfl, rfl, rfl⟩

end HandOver

/-! ### An entry freed, and a reply taken -/

/-- What the completion of an entry makes of the response insertion queue, the reports and the issue slot, besides what
its originator makes of the result: a window so drained may place one answer, for which nobody waits. -/
structure Drained (s t : State) : Prop where
  queue : t.port.responseQ.length ≤ s.port.responseQ.length + 1
  left : t.left = s.left
  issue : t.ag.issue = s.ag.issue

/-- Placing a reply that nobody waits for (R30, R138). -/
theorem agentPlace_drained (s : State) (f : Frame) : Drained s (s.agentPlace f .plain) := by
  unfold State.agentPlace
  split
  · rename_i u hu
    unfold State.placeResponse State.insertResponse at hu
    split at hu
    · cases hu
      split
      · exact ⟨by simp, rfl, rfl⟩
      · exact ⟨Nat.le_succ _, rfl, rfl⟩
    · cases hu
  · exact ⟨Nat.le_succ _, rfl, rfl⟩

/-- An entry freed may drain a window whose retirement is then answered (R65, R88). -/
theorem freeEntry_drained (s : State) (t : Tag) : Drained s (s.freeEntry t) := by
  have fall : ∀ (v : State) (w : Fin 16), Drained v (v.fallOwt w) := by
    intro v w
    unfold State.fallOwt
    dsimp only
    split
    · unfold State.reportDrained
      split
      · split
        · obtain ⟨a, b, c⟩ := agentPlace_drained _ _
          exact ⟨a, b, c⟩
        · exact ⟨Nat.le_succ _, rfl, rfl⟩
      · exact ⟨Nat.le_succ _, rfl, rfl⟩
    · exact ⟨Nat.le_succ _, rfl, rfl⟩
  unfold State.freeEntry
  dsimp only
  split
  · obtain ⟨a, b, c⟩ := fall ((s.modEntry t TrackerEntry.freed).withdraw t) _
    exact ⟨a, b, c⟩
  · exact ⟨Nat.le_succ _, rfl, rfl⟩

/-- A MGMT_REPLY that the tracker takes (R83, R84): the entry that it matches completes with OK, and any other reply is
stale. -/
theorem takeResponse_reply (s : State) {ref : Ref} {f : Frame} (h : f.body = .mgmtReply ref) :
    s.takeResponse ref f = if s.responseMatches ref f then s.completeEntry .ok f.payload ref.tag else s.stale := by
  unfold State.takeResponse State.answered
  rw [h]

/-- It lengthens the queue by one at most, and tells nobody of a response that left. -/
theorem takeResponse_reply_queue (s : State) {ref : Ref} {f : Frame} (h : f.body = .mgmtReply ref) :
    (s.takeResponse ref f).port.responseQ.length ≤ s.port.responseQ.length + 1 ∧
      (s.takeResponse ref f).left = s.left := by
  rw [takeResponse_reply s h]
  split
  · have d := freeEntry_drained (s.handOver ref.tag .ok f.payload) ref.tag
    have o := (HandOver.refl s).handOver (x := ref.tag) (r := .ok) (d := f.payload)
    have q := d.queue
    rw [o.port] at q
    exact ⟨q, d.left.trans o.left⟩
  · exact ⟨Nat.le_succ _, rfl⟩

end Sys2Proof.Machine
end

