-- ==== Sys2Proof/Laws/Rest.lean ====
section
/-! SUPPORT. The end of an event leaves the part at rest (Rest), and does nothing to a part at rest. -/

namespace Sys2Proof.Machine

/-! ### Fault records -/

/-- What `recordFault` keeps, `recordFaults` keeps. -/
theorem recordFaults_keep {β : Type} (g : State → β) (hg : ∀ s r, g (s.recordFault r) = g s) (rs : List FaultRecord)
    (s : State) : g (s.recordFaults rs) = g s := by
  unfold State.recordFaults
  induction rs generalizing s with
  | nil => rfl
  | cons r rs ih => rw [List.foldl_cons, ih, hg]

theorem inboundDiscard_port (s : State) : s.inboundDiscard.port = s.port :=
  recordFaults_keep State.port (fun _ _ => rfl) _ _
theorem inboundDiscard_en (s : State) : s.inboundDiscard.en = s.en :=
  recordFaults_keep State.en (fun _ _ => rfl) _ _
theorem inboundDiscard_held (s : State) : s.inboundDiscard.inb.held = none :=
  recordFaults_keep (fun s => s.inb.held) (fun _ _ => rfl) _ _
theorem inboundDiscard_left (s : State) : s.inboundDiscard.left = s.left :=
  recordFaults_keep State.left (fun _ _ => rfl) _ _

/-! ### The NODE reset -/

/-- The state of a NODE reset before its firings are taken. -/
theorem performNodeReset_spec (s : State) : ∃ v : State, s.performNodeReset = v.takeFirings ∧
    v.port = { s.port with offer := none } ∧ v.inb.held = none ∧ v.ag.heldReply = none ∧
    v.ag.resetPending = false ∧ v.ag.issue.state ≠ .waitingTag ∧ v.bm.chA = Channel.reset ∧
    v.bm.chB = Channel.reset ∧ v.left = s.left ∧ v.en = s.en ∧ v.heldForWant ∧ v.asks = [] := by
  let s1 := s.inboundDiscard
  let s2 := ((s1.modRt Tracker.freeAll).modPort fun p => { p with offer := none }).modWt WindowTables.drainAll
  let s3 := (((s2.modOrd SequenceTables.reset').modLt LocalTarget.nodeReset).modAg Agent.nodeReset).modBm
    Mover.nodeReset
  let s4 : State := { s3.modEv Events.clearRing with asks := [] }
  have hw : s4.heldForWant := by
    intro c hc
    simp [s4, State.isHeld, State.ringRoute, Events.clearRing, RingRoute.reset] at hc
  have hf := takeFirings_same s4
  refine ⟨s4.takeFirings.fire codeNodeResetDone, rfl, ?_, ?_, ?_, ?_, ?_, ?_, ?_, ?_, ?_, ?_, ?_⟩
  · rw [State.fire_port, hf.port]
    simp [s4, s3, s2, s1, inboundDiscard_port]
  · rw [State.fire_inb, hf.inb]
    simpa [s4, s3, s2, s1] using inboundDiscard_held s
  · rw [State.fire_ag, hf.issue]
    rfl
  · rw [State.fire_ag, hf.issue]
    rfl
  · rw [State.fire_ag, hf.issue]
    simp only [s4, s3, State.modEv_ag, State.modBm_ag, State.modAg_ag, Agent.nodeReset, IssueSlot.nodeReset]
    split
    · simp [IssueSlot.reset]
    · simp [IssueSlot.reset]
    · rename_i h; rw [h]; simp
    · rename_i h; rw [h]; simp
  · rw [State.fire_bm, hf.chans]; rfl
  · rw [State.fire_bm, hf.chans]; rfl
  · rw [State.fire_left, hf.left]
    simpa [s4, s3, s2, s1] using inboundDiscard_left s
  · rw [State.fire_en, hf.en]
    simpa [s4, s3, s2, s1] using inboundDiscard_en s
  · exact takeFirings_want hw
  · rw [State.fire_asks, hf.asks]

theorem performNodeReset_port (s : State) : s.performNodeReset.port = { s.port with offer := none } := by
  obtain ⟨v, hv, hp, _⟩ := performNodeReset_spec s
  rw [hv, (takeFirings_same v).port, hp]

theorem performNodeReset_firings (s : State) : s.performNodeReset.firings = [] := by
  obtain ⟨v, hv, _⟩ := performNodeReset_spec s
  rw [hv, takeFirings_firings]

theorem performNodeReset_left (s : State) : s.performNodeReset.left = s.left := by
  obtain ⟨v, hv, _, _, _, _, _, _, _, hl, _⟩ := performNodeReset_spec s
  rw [hv, (takeFirings_same v).left, hl]

theorem performNodeReset_asks (s : State) : s.performNodeReset.asks = [] := by
  obtain ⟨v, hv, _, _, _, _, _, _, _, _, _, _, ha⟩ := performNodeReset_spec s
  rw [hv, (takeFirings_same v).asks, ha]

/-- After a NODE reset no standing claim can be granted. -/
theorem performNodeReset_claims (s : State) : s.performNodeReset.claimStep = none := by
  obtain ⟨v, hv, _, _, _, _, hi, ha, hb, _, _, hw, _⟩ := performNodeReset_spec s
  have hs := takeFirings_same v
  rw [hv]
  refine claimStep_none_of_want ?_ (takeFirings_want hw) (moverAsk_reset ?_ ?_)
  · rw [hs.issue]; exact hi
  · rw [hs.chans]; exact ha
  · rw [hs.chans]; exact hb

/-! ### How much there is to settle -/

/-- The number of READY entries. -/
def readyCount (s : State) : Nat := (List.finRange 32).countP fun t => (s.entry t).state == .ready

/-- What the offer has yet to do. -/
def offerCost (s : State) : Nat :=
  match s.port.offer with
  | none => 1
  | some o => if s.numbered && s.eligible o.tag then 0 else 2

/-- A bound on the steps that settling takes. -/
def settleCost (s : State) : Nat :=
  s.port.responseQ.length + 3 * s.inb.held.isSome.toNat + 3 * s.ag.heldReply.isSome.toNat +
    2 * readyCount s + offerCost s + 80 * s.ag.resetPending.toNat

theorem readyCount_le (s : State) : readyCount s ≤ 32 := by
  have := List.countP_le_length (p := fun t => (s.entry t).state == .ready) (l := List.finRange 32)
  simpa [readyCount] using this

theorem offerCost_le (s : State) : offerCost s ≤ 2 := by
  unfold offerCost
  split
  · omega
  · split <;> omega

theorem settleCost_le (s : State) : settleCost s ≤ s.settleBound := by
  have h1 := readyCount_le s
  have h2 := offerCost_le s
  have h3 := Bool.toNat_le s.inb.held.isSome
  have h4 := Bool.toNat_le s.ag.heldReply.isSome
  have h5 := Bool.toNat_le s.ag.resetPending
  unfold settleCost State.settleBound
  omega

/-- The offer depends on the offer, the tracker, the role and the Send Sequence Table. -/
theorem offerCost_congr {s u : State} (ho : u.port.offer = s.port.offer) (hr : u.rt = s.rt) (he : u.en = s.en)
    (hs : u.ord.send = s.ord.send) : offerCost u = offerCost s := by
  unfold offerCost State.eligible State.oldestPosted State.postedRun State.isPostedTo State.sendOf State.entry
    State.numbered
  simp only [ho, hr, he, hs]

theorem readyCount_congr {s u : State} (hr : u.rt = s.rt) : readyCount u = readyCount s := by
  unfold readyCount State.entry
  rw [hr]

theorem countP_except {n : Nat} {p q : Fin n → Bool} {x : Fin n} (hx : p x = true) (hq : q x = false)
    (h : ∀ y, y ≠ x → q y = p y) : (List.finRange n).countP q + 1 = (List.finRange n).countP p := by
  have key : ∀ l : List (Fin n), l.Nodup → x ∈ l → l.countP q + 1 = l.countP p := by
    intro l
    induction l with
    | nil => intro _ hm; cases hm
    | cons y l ih =>
      intro hn hm
      rw [List.nodup_cons] at hn
      rcases List.mem_cons.1 hm with e | hm
      · subst e
        have hc : l.countP q = l.countP p := by
          apply List.countP_congr
          intro z hz
          rw [h z (fun e => hn.1 (e ▸ hz))]
        simp [hx, hq, hc]
      · have hy : y ≠ x := fun e => hn.1 (e ▸ hm)
        have := ih hn.2 hm
        simp only [List.countP_cons, h y hy]
        omega
  exact key _ (List.nodup_finRange n) (List.mem_finRange x)

/-- A transmission takes one entry out of READY and empties the offer. -/
theorem transmitted_ready {s : State} {x : Tag} (h : (s.entry x).state = .ready) :
    readyCount (s.transmitted x) + 1 = readyCount s := by
  unfold readyCount
  apply countP_except (x := x)
  · simp [h]
  · simp [State.transmitted, State.entry, State.modEntry]
  · intro y hy
    simp [State.transmitted, State.entry, State.modEntry, get_modAt, Ne.symm hy]

@[simp] theorem transmitted_offer (s : State) (x : Tag) : (s.transmitted x).port.offer = none := rfl
@[simp] theorem transmitted_responseQ (s : State) (x : Tag) : (s.transmitted x).port.responseQ = s.port.responseQ := rfl
@[simp] theorem transmitted_en (s : State) (x : Tag) : (s.transmitted x).en = s.en := rfl
@[simp] theorem transmitted_inb (s : State) (x : Tag) : (s.transmitted x).inb = s.inb := rfl
@[simp] theorem transmitted_ag (s : State) (x : Tag) : (s.transmitted x).ag = s.ag := rfl
@[simp] theorem transmitted_left (s : State) (x : Tag) : (s.transmitted x).left = s.left := rfl
@[simp] theorem transmitted_firings (s : State) (x : Tag) : (s.transmitted x).firings = s.firings := rfl

theorem eligible_ready {s : State} {x : Tag} (h : s.eligible x = true) : (s.entry x).state = .ready := by
  unfold State.eligible at h
  simp at h
  exact h.1

/-! ### Each step of settling costs -/

theorem reportLeft_keep {β : Type} (g : State → β) (hg : ∀ (s : State) l, g { s with left := l } = g s) (s : State)
    (p : Purpose) : g (s.reportLeft p) = g s := by
  cases p
  · rfl
  · exact hg _ _
  · exact hg _ _

theorem settleCost_left (s : State) (l : List Purpose) : settleCost { s with left := l } = settleCost s := rfl

/-- After a NODE reset there is the queue to settle, and what the firings have allocated. -/
theorem settleCost_reset (s : State) : settleCost s.performNodeReset ≤ s.port.responseQ.length + 65 := by
  obtain ⟨v, hv, hp, hh, hr, hrp, _⟩ := performNodeReset_spec s
  have hs := takeFirings_same v
  have h1 := readyCount_le s.performNodeReset
  have ho : offerCost s.performNodeReset = 1 := by
    unfold offerCost
    rw [performNodeReset_port]
  unfold settleCost
  rw [ho, performNodeReset_port]
  have e1 : s.performNodeReset.inb.held = none := by rw [hv, hs.inb, hh]
  have e2 : s.performNodeReset.ag.heldReply = none := by rw [hv, hs.issue, hr]
  have e3 : s.performNodeReset.ag.resetPending = false := by rw [hv, hs.issue, hrp]
  rw [e1, e2, e3]
  simp
  omega

theorem settleCost_nodeReset {s : State} (h : s.ag.resetPending = true) :
    settleCost s.performNodeReset ≤ settleCost s := by
  have := settleCost_reset s
  unfold settleCost at this ⊢
  rw [h]
  simp at this ⊢
  omega

theorem settleCost_presentControl (s : State) (f : Frame) : settleCost (s.presentControl f) = settleCost s := by
  unfold State.presentControl
  split
  · rfl
  · split <;> rfl

theorem settleCost_presentOutstanding (s : State) : settleCost s.presentOutstanding = settleCost s := by
  unfold State.presentOutstanding
  split
  · rfl
  · exact settleCost_presentControl _ _

theorem leftReport_cost (s : State) (p : Purpose) : settleCost (s.leftReport p) ≤ settleCost s := by
  cases p <;> dsimp only [State.leftReport]
  · exact Nat.le_refl _
  · split
    · rename_i h; exact settleCost_nodeReset h
    · exact Nat.le_refl _
  · split
    · exact Nat.le_of_eq (settleCost_presentOutstanding _)
    · exact Nat.le_refl _

theorem drainLeft_cost (s : State) : settleCost s.drainLeft ≤ settleCost s := by
  have key : ∀ (l : List Purpose) (v : State), settleCost (l.foldl State.leftReport v) ≤ settleCost v := by
    intro l
    induction l with
    | nil => intro v; exact Nat.le_refl _
    | cons p l ih => intro v; exact (ih _).trans (leftReport_cost v p)
  exact key s.left { s with left := [] }

/-- Which of the two orders of R125 a pending NODE reset and its own reply take is the free value's (log 41). -/
theorem replyBeforeReset_reply {s : State} {r : Response} {ref : Ref} (hp : r.purpose = .nodeReset)
    (hb : r.frame.body = .mgmtReply ref) (hr : s.ag.resetPending = true) (hm : r.frame.malformed = false) :
    s.replyBeforeReset r = if Config.loopedReplyFirst s.now = true then some ref else none := by
  unfold State.replyBeforeReset
  rw [hp, hb]
  simp [hr, hm]

/-- When the reply of a NODE_RESET comes before the reset (R125): the reset is pending, and the frame is a MGMT_REPLY. -/
theorem replyBeforeReset_some {s : State} {r : Response} {ref : Ref} (h : s.replyBeforeReset r = some ref) :
    r.purpose = .nodeReset ∧ r.frame.body = .mgmtReply ref ∧ s.ag.resetPending = true ∧ r.frame.malformed = false ∧
      Config.loopedReplyFirst s.now = true := by
  unfold State.replyBeforeReset at h
  split at h
  · rename_i hp
    split at h
    · rename_i q hb
      split at h
      · rename_i hc; cases h; simp at hc; exact ⟨hp, hb, hc.1.1, hc.1.2, hc.2⟩
      · cases h
    · cases h
  all_goals cases h

/-- With no NODE reset pending no reply comes before one. -/
theorem replyBeforeReset_idle {s : State} (h : s.ag.resetPending = false) (r : Response) :
    s.replyBeforeReset r = none := by
  cases e : s.replyBeforeReset r with
  | none => rfl
  | some ref => have := (replyBeforeReset_some e).2.2.1; rw [h] at this; cases this

/-- A looped response waits on the loop path, its placer told, or, the reply of a pending NODE reset, has been taken by
the tracker with the reset after it. -/
theorem loopResponse_cases (s : State) (r : Response) :
    (∃ ref, s.replyBeforeReset r = some ref ∧
        s.loopResponse r = s.popResponse.countLooped.resetAfterReply ref r.frame) ∨
      (s.replyBeforeReset r = none ∧ s.loopResponse r =
        ((s.popResponse.modPort fun p => { p with loopQ := p.loopQ ++ [r.frame] }).countLooped).reportLeft
          r.purpose) := by
  unfold State.loopResponse
  cases e : s.replyBeforeReset r with
  | none => exact .inr ⟨rfl, rfl⟩
  | some ref => exact .inl ⟨ref, rfl, rfl⟩

/-- The reset that follows its own reply settles what was left to settle. -/
theorem resetAfterReply_cost {s v : State} {ref : Ref} {f : Frame} (hb : f.body = .mgmtReply ref)
    (hp : s.ag.resetPending = true) (hq : v.port.responseQ.length < s.port.responseQ.length) :
    settleCost (v.resetAfterReply ref f) < settleCost s := by
  have hl := (takeResponse_reply_queue v hb).1
  have hc := settleCost_reset (v.takeResponse ref f)
  unfold State.resetAfterReply
  have hs : s.port.responseQ.length + 80 ≤ settleCost s := by
    unfold settleCost
    rw [hp]
    simp
    omega
  omega

theorem loopStep_cost {s u : State} (h : s.loopStep = some u) : settleCost u < settleCost s := by
  unfold State.loopStep at h
  split at h
  · rename_i r l hq
    split at h
    · cases h
      have hlen : s.port.responseQ.tail.length < s.port.responseQ.length := by rw [hq]; exact Nat.lt_succ_self _
      obtain ⟨ref, e, h⟩ | ⟨_, h⟩ := loopResponse_cases s r
      · rw [h]
        obtain ⟨_, hb, hp, _⟩ := replyBeforeReset_some e
        exact resetAfterReply_cost hb hp hlen
      · rw [h, reportLeft_keep settleCost (fun _ _ => rfl)]
        unfold settleCost
        generalize hv : (s.popResponse.modPort fun p => { p with loopQ := p.loopQ ++ [r.frame] }).countLooped = v
        have h1 : readyCount v = readyCount s := by subst hv; rfl
        have h2 : offerCost v = offerCost s := by subst hv; rfl
        have h3 : v.port.responseQ = s.port.responseQ.tail := by subst hv; rfl
        have h4 : v.inb = s.inb := by subst hv; rfl
        have h5 : v.ag = s.ag := by subst hv; rfl
        rw [h1, h2, h3, h4, h5]
        omega
    · cases h
  · cases h

theorem insertResponse_cost (s : State) (r : Response) : settleCost (s.insertResponse r) ≤ settleCost s + 1 := by
  unfold State.insertResponse
  split
  · unfold settleCost
    have h1 : readyCount (s.modPort fun p => { p with responseQ := p.responseQ ++ [r] }) = readyCount s := rfl
    have h2 : offerCost (s.modPort fun p => { p with responseQ := p.responseQ ++ [r] }) = offerCost s := rfl
    rw [h1, h2]
    simp
    omega
  · rw [reportLeft_keep settleCost (fun _ _ => rfl)]
    exact Nat.le_succ _

theorem waiterStep_cost {s u : State} (h : s.waiterStep = some u) : settleCost u < settleCost s := by
  unfold State.waiterStep at h
  split at h
  · rename_i hroom
    have held : ∀ a, s.inb.held = some a → settleCost (s.placeHeldResponse a) < settleCost s := by
      intro a ha
      have := insertResponse_cost (s.modInb fun i => { i with held := none }) (plainResponse a.frame)
      have h3 : settleCost (s.modInb fun i => { i with held := none }) + 3 = settleCost s := by
        unfold settleCost
        have h1 : readyCount (s.modInb fun i => { i with held := none }) = readyCount s := rfl
        have h2 : offerCost (s.modInb fun i => { i with held := none }) = offerCost s := rfl
        rw [h1, h2, ha]
        simp
        omega
      unfold State.placeHeldResponse
      omega
    have reply : ∀ p, s.ag.heldReply = some p → settleCost (s.placeHeldReply p) < settleCost s := by
      intro p hp
      unfold State.placeHeldReply State.agentPlace State.placeResponse
      rw [if_pos hroom]
      dsimp only
      have hi := insertResponse_cost s ⟨p.frame, p.purpose⟩
      have hg : (s.insertResponse ⟨p.frame, p.purpose⟩).ag.heldReply = s.ag.heldReply := by
        unfold State.insertResponse
        split
        · rfl
        · rw [reportLeft_keep (fun s => s.ag.heldReply) (fun _ _ => rfl)]; rfl
      have h3 : ∀ v : State, v.ag.heldReply.isSome → settleCost (v.modAg fun a =>
          { a with heldReply := none, state := if a.resetPending then .executing else .idle }) + 3 = settleCost v := by
        intro v hv
        unfold settleCost
        have h1 : readyCount (v.modAg fun a =>
          { a with heldReply := none, state := if a.resetPending then .executing else .idle }) = readyCount v := rfl
        have h2 : offerCost (v.modAg fun a =>
          { a with heldReply := none, state := if a.resetPending then .executing else .idle }) = offerCost v := rfl
        rw [h1, h2]
        simp [hv]
        omega
      have := h3 (s.insertResponse ⟨p.frame, p.purpose⟩) (by rw [hg, hp]; rfl)
      omega
    split at h
    · cases h
    · rename_i a _ _; cases h; exact held _ (by assumption)
    · cases h; exact reply _ (by assumption)
    · split at h
      · cases h; exact reply _ (by assumption)
      · cases h; exact held _ (by assumption)
  · cases h

theorem nextOffer_eligible {s : State} {x : Tag} (h : s.nextOffer = some x) :
    s.numbered = true ∧ s.eligible x = true := by
  unfold State.nextOffer at h
  split at h
  · rename_i hn; exact ⟨hn, List.find?_some h⟩
  · cases h

theorem offerStep_cost {s u : State} (h : s.offerStep = some u) : settleCost u < settleCost s := by
  have trans : ∀ (v : State) (x : Tag), (s.entry x).state = .ready →
      v.rt = s.rt → v.port.responseQ = s.port.responseQ → v.inb = s.inb → v.ag = s.ag →
      settleCost (v.transmitted x) < settleCost s := by
    intro v x hx hr hq hi ha
    have hv : (v.entry x).state = .ready := by unfold State.entry; rw [hr]; exact hx
    have h1 := transmitted_ready hv
    have h2 : readyCount v = readyCount s := readyCount_congr hr
    have h3 : offerCost (v.transmitted x) = 1 := rfl
    unfold settleCost
    rw [h3]
    simp only [transmitted_responseQ, transmitted_inb, transmitted_ag, hq, hi, ha]
    omega
  unfold State.offerStep at h
  split at h
  · rename_i o ho
    split at h
    · rename_i hc
      cases h
      have h3 : offerCost s = 2 := by
        unfold offerCost
        rw [ho]
        have hc : (s.numbered && s.eligible o.tag) = false := by
          cases hb : (s.numbered && s.eligible o.tag) <;> simp [hb] at hc ⊢
        simp [hc]
      have h4 : offerCost (s.modPort fun p => { p with offer := none }) = 1 := rfl
      have h5 : readyCount (s.modPort fun p => { p with offer := none }) = readyCount s := rfl
      unfold settleCost
      rw [h3, h4, h5]
      simp only [State.modPort_port, State.modPort_inb, State.modPort_ag]
      omega
    · rename_i hc
      have hc : s.numbered = true ∧ s.eligible o.tag = true := by simpa using hc
      have hx := eligible_ready hc.2
      split at h
      · cases h
        exact trans _ o.tag hx rfl rfl rfl rfl
      · split at h
        · cases h
          exact trans _ o.tag hx rfl rfl rfl rfl
        · cases h
  · rename_i ho
    split at h
    · rename_i x hx
      cases h
      have he := nextOffer_eligible hx
      have h3 : offerCost s = 1 := by unfold offerCost; rw [ho]
      have h4 : offerCost (s.modPort fun p => { p with offer := some ⟨x, s.requestFrame x⟩ }) = 0 := by
        unfold offerCost
        have e1 : (s.modPort fun p => { p with offer := some ⟨x, s.requestFrame x⟩ }).numbered = true := he.1
        have e2 : (s.modPort fun p => { p with offer := some ⟨x, s.requestFrame x⟩ }).eligible x = true := he.2
        simp [e1, e2]
      have h5 : readyCount (s.modPort fun p => { p with offer := some ⟨x, s.requestFrame x⟩ }) = readyCount s := rfl
      unfold settleCost
      rw [h3, h4, h5]
      simp only [State.modPort_port, State.modPort_inb, State.modPort_ag]
      omega
    · cases h

/-- What a step of settling is: one of the three, followed by the reports. -/
theorem settleStep_some {s u : State} (h : s.settleStep = some u) : ∃ v, u = v.drainLeft ∧
    (s.loopStep = some v ∨ s.waiterStep = some v ∨ s.offerStep = some v) := by
  unfold State.settleStep at h
  obtain ⟨v, hv, rfl⟩ := Option.map_eq_some_iff.1 h
  refine ⟨v, rfl, ?_⟩
  cases h1 : s.loopStep with
  | some a => simp [h1] at hv; subst hv; exact .inl rfl
  | none =>
    cases h2 : s.waiterStep with
    | some a => simp [h1, h2] at hv; subst hv; exact .inr (.inl rfl)
    | none => simp [h1, h2] at hv; exact .inr (.inr hv)

theorem settleStep_none {s : State} :
    s.settleStep = none ↔ s.loopStep = none ∧ s.waiterStep = none ∧ s.offerStep = none := by
  unfold State.settleStep
  cases s.loopStep <;> cases s.waiterStep <;> cases s.offerStep <;> simp

theorem settleStep_cost {s u : State} (h : s.settleStep = some u) : settleCost u < settleCost s := by
  obtain ⟨v, rfl, hv⟩ := settleStep_some h
  refine Nat.lt_of_le_of_lt (drainLeft_cost v) ?_
  rcases hv with hv | hv | hv
  · exact loopStep_cost hv
  · exact waiterStep_cost hv
  · exact offerStep_cost hv

theorem settleSteps_done {s : State} {n : Nat} (h : settleCost s ≤ n) : (s.settleSteps n).settleStep = none := by
  induction n generalizing s with
  | zero =>
    unfold State.settleSteps
    cases hc : s.settleStep with
    | none => rfl
    | some u => have := settleStep_cost hc; omega
  | succ n ih =>
    unfold State.settleSteps
    cases hc : s.settleStep with
    | none => simpa using hc
    | some u => have := settleStep_cost hc; exact ih (by omega)

/-- After settling there is nothing left to settle. -/
theorem settle_done (s : State) : s.settle.settleStep = none := settleSteps_done (settleCost_le s)

/-- With nothing to settle, settling does nothing. -/
theorem settle_eq {s : State} (h : s.settleStep = none) : s.settle = s := by
  unfold State.settle State.settleBound State.settleSteps
  simp [h]

/-! ### What settling keeps -/

theorem drainLeft_keep (P : State → Prop) (hl : ∀ (s : State) l, P s → P { s with left := l })
    (hr : ∀ s p, P s → P (s.leftReport p)) {s : State} (h : P s) : P s.drainLeft := by
  unfold State.drainLeft
  have key : ∀ (l : List Purpose) (v : State), P v → P (l.foldl State.leftReport v) := by
    intro l
    induction l with
    | nil => intro v hv; exact hv
    | cons p l ih => intro v hv; exact ih _ (hr v p hv)
  exact key _ _ (hl s [] h)

/-- What every step of settling keeps, settling keeps. -/
theorem settle_keep (P : State → Prop) (hl : ∀ (s : State) l, P s → P { s with left := l })
    (hr : ∀ s p, P s → P (s.leftReport p)) (h1 : ∀ s u, s.loopStep = some u → P s → P u)
    (h2 : ∀ s u, s.waiterStep = some u → P s → P u) (h3 : ∀ s u, s.offerStep = some u → P s → P u) {s : State}
    (h : P s) : P s.settle := by
  have key : ∀ (n : Nat) (v : State), P v → P (v.settleSteps n) := by
    intro n
    induction n with
    | zero => intro v hv; exact hv
    | succ n ih =>
      intro v hv
      unfold State.settleSteps
      split
      · rename_i u hu
        obtain ⟨w, rfl, hw⟩ := settleStep_some hu
        refine ih _ (drainLeft_keep P hl hr ?_)
        rcases hw with hw | hw | hw
        · exact h1 v w hw hv
        · exact h2 v w hw hv
        · exact h3 v w hw hv
      · exact hv
  exact key _ _ h

theorem presentControl_keep {β : Type} (g : State → β) (hg : ∀ (s : State) p, g (s.modPort p) = g s) (s : State)
    (f : Frame) : g (s.presentControl f) = g s := by
  unfold State.presentControl
  split
  · exact hg _ _
  · split
    · unfold State.countDiscarded State.countPort; rw [hg]
    · unfold State.countDiscarded State.countPort; rw [hg, hg]

/-- A RING_RESET that is presented, or that lapses, changes the port or enumeration alone. -/
theorem presentOutstanding_keep {β : Type} (g : State → β) (hg : ∀ (s : State) p, g (s.modPort p) = g s)
    (he : ∀ (s : State) f, g (s.modEn f) = g s) (s : State) : g s.presentOutstanding = g s := by
  unfold State.presentOutstanding
  split
  · exact he _ _
  · exact presentControl_keep g hg s _

theorem insertResponse_keep {β : Type} (g : State → β) (hg : ∀ (s : State) p, g (s.modPort p) = g s)
    (hl : ∀ (s : State) l, g { s with left := l } = g s) (s : State) (r : Response) :
    g (s.insertResponse r) = g s := by
  unfold State.insertResponse
  split
  · exact hg _ _
  · rw [reportLeft_keep g hl]
    unfold State.countDiscarded State.countPort
    rw [hg]

theorem agentPlace_keep {β : Type} (g : State → β) (hg : ∀ (s : State) p, g (s.modPort p) = g s)
    (hl : ∀ (s : State) l, g { s with left := l } = g s)
    (ha : ∀ (s : State) (x : Agent → Option HeldReply) (y : Agent → AgentState),
      g (s.modAg fun a => { a with heldReply := x a, state := y a }) = g s)
    (s : State) (f : Frame) (p : Purpose) : g (s.agentPlace f p) = g s := by
  unfold State.agentPlace
  split
  · rename_i u hu
    unfold State.placeResponse at hu
    split at hu
    · cases hu
      rw [ha _ (fun _ => none) fun a => if a.resetPending then .executing else .idle]
      exact insertResponse_keep g hg hl s _
    · cases hu
  · exact ha s (fun _ => some ⟨f, p, s.now⟩) fun _ => .executing

theorem waiterStep_some {s u : State} (h : s.waiterStep = some u) : s.responseRoom = true ∧
    ((∃ a, s.inb.held = some a ∧ u = s.placeHeldResponse a) ∨
      ∃ p, s.ag.heldReply = some p ∧ u = s.placeHeldReply p) := by
  unfold State.waiterStep at h
  split at h
  · rename_i hr
    refine ⟨hr, ?_⟩
    split at h
    · cases h
    · cases h; exact .inl ⟨_, by assumption, rfl⟩
    · cases h; exact .inr ⟨_, by assumption, rfl⟩
    · split at h
      · cases h; exact .inr ⟨_, by assumption, rfl⟩
      · cases h; exact .inl ⟨_, by assumption, rfl⟩
  · cases h

theorem loopStep_some {s u : State} (h : s.loopStep = some u) : ∃ r l, s.port.responseQ = r :: l ∧
    r.frame.dest = s.en.ownId ∧ u = s.loopResponse r := by
  unfold State.loopStep at h
  split at h
  · rename_i r l hq
    split at h
    · rename_i hd; cases h; exact ⟨r, l, hq, hd, rfl⟩
    · cases h
  · cases h

/-- A step of the offer withdraws, presents, or transmits after an update of the port. -/
theorem offerStep_some {s u : State} (h : s.offerStep = some u) :
    (∃ f, u = s.modPort f ∧ ∀ p, f p = { p with offer := (f p).offer }) ∨
      ∃ f o, s.port.offer = some o ∧ u = (s.modPort f).transmitted o.tag ∧
        ∀ p, f p = { p with loopQ := (f p).loopQ, counters := (f p).counters } ∧
          (f p).counters = { p.counters with looped := (f p).counters.looped, txDiscarded := (f p).counters.txDiscarded } := by
  unfold State.offerStep at h
  split at h
  · rename_i o ho
    split at h
    · cases h; exact .inl ⟨_, rfl, fun _ => rfl⟩
    · split at h
      · cases h
        exact .inr ⟨fun p => { p with loopQ := p.loopQ ++ [o.frame], counters :=
          { p.counters with looped := bump p.counters.looped } }, o, ho, rfl, fun _ => ⟨rfl, rfl⟩⟩
      · split at h
        · cases h
          exact .inr ⟨fun p => { p with counters :=
            { p.counters with txDiscarded := bumpBy 1 p.counters.txDiscarded } }, o, ho, rfl, fun _ => ⟨rfl, rfl⟩⟩
        · cases h
  · split at h
    · cases h; exact .inl ⟨_, rfl, fun _ => rfl⟩
    · cases h

/-! ### Firings, asks, reports and claims after settling -/

/-- Settling leaves no firing and no ask where there was none. -/
theorem settle_clear {s : State} (h : s.firings = [] ∧ s.asks = []) : s.settle.firings = [] ∧ s.settle.asks = [] := by
  refine settle_keep (fun s => s.firings = [] ∧ s.asks = []) (fun _ _ h => h) ?_ ?_ ?_ ?_ h
  · intro s p h
    cases p <;> dsimp only [State.leftReport]
    · exact h
    · split
      · exact ⟨performNodeReset_firings s, performNodeReset_asks s⟩
      · exact h
    · split
      · exact ⟨(presentOutstanding_keep State.firings (fun _ _ => rfl) (fun _ _ => rfl) s).trans h.1,
          (presentOutstanding_keep State.asks (fun _ _ => rfl) (fun _ _ => rfl) s).trans h.2⟩
      · exact h
  · intro s u hu h
    obtain ⟨r, l, _, _, rfl⟩ := loopStep_some hu
    obtain ⟨_, _, e⟩ | ⟨_, e⟩ := loopResponse_cases s r
    · rw [e]; exact ⟨performNodeReset_firings _, performNodeReset_asks _⟩
    · rw [e, reportLeft_keep State.firings (fun _ _ => rfl), reportLeft_keep State.asks (fun _ _ => rfl)]
      exact h
  · intro s u hu h
    obtain ⟨_, ⟨a, _, rfl⟩ | ⟨p, _, rfl⟩⟩ := waiterStep_some hu
    · exact ⟨(insertResponse_keep State.firings (fun _ _ => rfl) (fun _ _ => rfl) _ _).trans h.1,
        (insertResponse_keep State.asks (fun _ _ => rfl) (fun _ _ => rfl) _ _).trans h.2⟩
    · exact ⟨(agentPlace_keep State.firings (fun _ _ => rfl) (fun _ _ => rfl) (fun _ _ _ => rfl) _ _ _).trans h.1,
        (agentPlace_keep State.asks (fun _ _ => rfl) (fun _ _ => rfl) (fun _ _ _ => rfl) _ _ _).trans h.2⟩
  · intro s u hu h
    obtain ⟨f, rfl, _⟩ | ⟨f, o, _, rfl, _⟩ := offerStep_some hu
    · exact h
    · exact h

theorem leftReport_left (s : State) (p : Purpose) : (s.leftReport p).left = s.left := by
  cases p <;> dsimp only [State.leftReport]
  · split
    · exact performNodeReset_left s
    · rfl
  · split
    · exact presentOutstanding_keep State.left (fun _ _ => rfl) (fun _ _ => rfl) s
    · rfl

/-- After the reports are taken none waits. -/
theorem drainLeft_left (s : State) : s.drainLeft.left = [] := by
  unfold State.drainLeft
  have key : ∀ (l : List Purpose) (v : State), (l.foldl State.leftReport v).left = v.left := by
    intro l
    induction l with
    | nil => intro v; rfl
    | cons p l ih => intro v; rw [List.foldl_cons, ih, leftReport_left]
  rw [key]

/-- With no report, there is nothing to take. -/
theorem drainLeft_eq {s : State} (h : s.left = []) : s.drainLeft = s := by
  unfold State.drainLeft
  rw [h]
  cases s
  simp_all

theorem settle_left {s : State} (h : s.left = []) : s.settle.left = [] := by
  have key : ∀ (n : Nat) (v : State), v.left = [] → (v.settleSteps n).left = [] := by
    intro n
    induction n with
    | zero => intro v hv; exact hv
    | succ n ih =>
      intro v hv
      unfold State.settleSteps
      split
      · rename_i u hu
        obtain ⟨w, rfl, _⟩ := settleStep_some hu
        exact ih _ (drainLeft_left w)
      · exact hv
  exact key _ _ h

theorem channelHolds_congr {s u : State} (ha : u.rt.allocOrder = s.rt.allocOrder)
    (ho : ∀ t, (u.entry t).originator = (s.entry t).originator) (c : ChannelId) :
    u.channelHolds c = s.channelHolds c := by
  unfold State.channelHolds
  rw [ha]
  congr 1
  funext t
  rw [ho]

theorem transmitted_claims (s : State) (x : Tag) : ClaimSame s (s.transmitted x) := by
  refine ⟨rfl, rfl, fun c => channelHolds_congr (s := s) (u := s.transmitted x) rfl (fun t => ?_) c, fun _ => rfl, rfl,
    fun _ => rfl, rfl, fun c => ?_, rfl⟩
  · simp only [State.entry, State.transmitted, State.modEntry, State.modPort_rt, State.countRt_rt, State.modRt_rt,
      get_modAt]
    split <;> rfl
  · cases c <;> rfl

/-- States with the same claim parts as whole blocks. -/
theorem ClaimSame.of_blocks {s u : State} (he : u.en = s.en) (hr : u.rt = s.rt) (ho : u.ord = s.ord)
    (hi : u.ag.issue = s.ag.issue) (hv : u.ev = s.ev) (hb : u.bm = s.bm) : ClaimSame s u := by
  refine ⟨by unfold State.numbered; rw [he], by rw [hr], fun c => ?_, fun d => by unfold State.sendOf; rw [ho],
    by rw [hi], fun c => by unfold State.isHeld State.ringRoute; rw [hv], by rw [hv],
    fun c => ?_, by rw [hb]⟩
  · exact channelHolds_congr (by rw [hr]) (fun t => by unfold State.entry; rw [hr]) c
  · cases c <;> simp only [State.chan, hb]

theorem leftReport_claims {s : State} {p : Purpose} (h : s.claimStep = none) : (s.leftReport p).claimStep = none := by
  cases p <;> dsimp only [State.leftReport]
  · exact h
  · split
    · exact performNodeReset_claims s
    · exact h
  · split
    · unfold State.presentOutstanding
      split
      · refine ClaimSame.claimStep ?_ |>.2 h
        exact ⟨rfl, rfl, fun _ => rfl, fun _ => rfl, rfl, fun _ => rfl, rfl, fun c => by cases c <;> rfl, rfl⟩
      · have k : ∀ {β : Type} (g : State → β), (∀ (s : State) p, g (s.modPort p) = g s) →
            g s.presentReset = g s := fun g hg => presentControl_keep g hg s _
        exact (ClaimSame.of_blocks (k State.en fun _ _ => rfl) (k State.rt fun _ _ => rfl)
          (k State.ord fun _ _ => rfl) (k (fun s => s.ag.issue) fun _ _ => rfl) (k State.ev fun _ _ => rfl)
          (k State.bm fun _ _ => rfl)).claimStep.2 h
    · exact h

theorem left_claims {s : State} {l : List Purpose} (h : s.claimStep = none) :
    ({ s with left := l } : State).claimStep = none :=
  (ClaimSame.of_blocks (s := s) (u := { s with left := l }) rfl rfl rfl rfl rfl rfl).claimStep.2 h

theorem settle_claims {s : State} (h : s.claimStep = none) : s.settle.claimStep = none := by
  refine settle_keep (fun s => s.claimStep = none) (fun _ _ h => left_claims h)
    (fun _ _ h => leftReport_claims h) ?_ ?_ ?_ h
  · intro s u hu h
    obtain ⟨r, l, _, _, rfl⟩ := loopStep_some hu
    obtain ⟨_, _, e⟩ | ⟨_, e⟩ := loopResponse_cases s r
    · rw [e]; exact performNodeReset_claims _
    have k : ∀ {β : Type} (g : State → β), (∀ (s : State) l, g { s with left := l } = g s) →
        (∀ (s : State) p, g (s.modPort p) = g s) → g (s.loopResponse r) = g s := by
      intro β g hl hg
      rw [e, reportLeft_keep g hl]
      unfold State.countLooped State.countPort State.popResponse
      rw [hg, hg, hg]
    exact (ClaimSame.of_blocks (k State.en (fun _ _ => rfl) fun _ _ => rfl) (k State.rt (fun _ _ => rfl) fun _ _ => rfl)
      (k State.ord (fun _ _ => rfl) fun _ _ => rfl) (k (fun s => s.ag.issue) (fun _ _ => rfl) fun _ _ => rfl)
      (k State.ev (fun _ _ => rfl) fun _ _ => rfl) (k State.bm (fun _ _ => rfl) fun _ _ => rfl)).claimStep.2 h
  · intro s u hu h
    obtain ⟨_, ⟨a, _, rfl⟩ | ⟨p, _, rfl⟩⟩ := waiterStep_some hu
    · have k : ∀ {β : Type} (g : State → β), (∀ (s : State) l, g { s with left := l } = g s) →
          (∀ (s : State) p, g (s.modPort p) = g s) → (∀ (s : State) p, g (s.modInb p) = g s) →
          g (s.placeHeldResponse a) = g s := by
        intro β g hl hg hi
        unfold State.placeHeldResponse
        rw [insertResponse_keep g hg hl, hi]
      exact (ClaimSame.of_blocks (k State.en (fun _ _ => rfl) (fun _ _ => rfl) fun _ _ => rfl)
        (k State.rt (fun _ _ => rfl) (fun _ _ => rfl) fun _ _ => rfl)
        (k State.ord (fun _ _ => rfl) (fun _ _ => rfl) fun _ _ => rfl)
        (k (fun s => s.ag.issue) (fun _ _ => rfl) (fun _ _ => rfl) fun _ _ => rfl)
        (k State.ev (fun _ _ => rfl) (fun _ _ => rfl) fun _ _ => rfl)
        (k State.bm (fun _ _ => rfl) (fun _ _ => rfl) fun _ _ => rfl)).claimStep.2 h
    · have k : ∀ {β : Type} (g : State → β), (∀ (s : State) p, g (s.modPort p) = g s) →
          (∀ (s : State) l, g { s with left := l } = g s) →
          (∀ (s : State) (x : Agent → Option HeldReply) (y : Agent → AgentState),
            g (s.modAg fun a => { a with heldReply := x a, state := y a }) = g s) →
          g (s.placeHeldReply p) = g s := fun g a b c => agentPlace_keep g a b c s _ _
      exact (ClaimSame.of_blocks (k State.en (fun _ _ => rfl) (fun _ _ => rfl) fun _ _ _ => rfl)
        (k State.rt (fun _ _ => rfl) (fun _ _ => rfl) fun _ _ _ => rfl)
        (k State.ord (fun _ _ => rfl) (fun _ _ => rfl) fun _ _ _ => rfl)
        (k (fun s => s.ag.issue) (fun _ _ => rfl) (fun _ _ => rfl) fun _ _ _ => rfl)
        (k State.ev (fun _ _ => rfl) (fun _ _ => rfl) fun _ _ _ => rfl)
        (k State.bm (fun _ _ => rfl) (fun _ _ => rfl) fun _ _ _ => rfl)).claimStep.2 h
  · intro s u hu h
    obtain ⟨f, rfl, _⟩ | ⟨f, o, _, rfl, _⟩ := offerStep_some hu
    · exact (ClaimSame.of_blocks (s := s) (u := s.modPort f) rfl rfl rfl rfl rfl rfl).claimStep.2 h
    · exact ((ClaimSame.of_blocks (s := s) (u := s.modPort f) rfl rfl rfl rfl rfl rfl).trans
        (transmitted_claims _ o.tag)).claimStep.2 h

/-! ### The local master -/

/-- With nobody to serve, the local master takes nothing. -/
theorem takeBus_eq {s : State} (h : s.busChoice = none) : s.takeBus = s := by
  unfold State.takeBus; rw [h]

/-- A local master that has taken a claimant, or found none, takes no further one. -/
theorem takeBus_done (s : State) : s.takeBus.busChoice = none := by
  unfold State.takeBus
  split
  · simp [State.busChoice, Inbound.idle]
  · assumption

theorem takeBus_keep {β : Type} (g : State → β)
    (hg : ∀ (s : State) (x : Option Transaction) (c : BusClaimant),
      g (s.modInb fun i => { i with current := x, lastServed := c }) = g s) (s : State) :
    g s.takeBus = g s := by
  unfold State.takeBus
  split
  · exact hg _ _ _
  · rfl

theorem takeBus_claims {s : State} (h : s.claimStep = none) : s.takeBus.claimStep = none := by
  have k : ∀ {β : Type} (g : State → β), (∀ (s : State) p, g (s.modInb p) = g s) → g s.takeBus = g s :=
    fun g hg => takeBus_keep g (fun s _ _ => hg s _) s
  exact (ClaimSame.of_blocks (k State.en fun _ _ => rfl) (k State.rt fun _ _ => rfl) (k State.ord fun _ _ => rfl)
    (k (fun s => s.ag.issue) fun _ _ => rfl) (k State.ev fun _ _ => rfl) (k State.bm fun _ _ => rfl)).claimStep.2 h

theorem takeBus_settle {s : State} (h : s.settleStep = none) : s.takeBus.settleStep = none := by
  unfold State.takeBus
  split
  · rw [settleStep_none] at h ⊢
    obtain ⟨h1, h2, h3⟩ := h
    refine ⟨?_, ?_, ?_⟩
    · unfold State.loopStep at h1 ⊢
      simp only [State.modInb_port, State.modInb_en]
      split at h1
      · split at h1
        · cases h1
        · simp_all
      · simp_all
    · unfold State.waiterStep at h2 ⊢
      simp only [State.modInb_ag, State.modInb_inb]
      have hr : ∀ f, (s.modInb f).responseRoom = s.responseRoom := fun _ => rfl
      rw [hr]
      split at h2
      · split at h2
        · simp_all
        · cases h2
        · cases h2
        · split at h2 <;> cases h2
      · simp_all
    · unfold State.offerStep at h3 ⊢
      simp only [State.modInb_port, State.modInb_en]
      have hn : ∀ f, (s.modInb f).numbered = s.numbered := fun _ => rfl
      have he : ∀ f x, (s.modInb f).eligible x = s.eligible x := fun _ _ => rfl
      have ho : ∀ f, (s.modInb f).nextOffer = s.nextOffer := fun _ => rfl
      simp only [hn, he, ho]
      split at h3
      · rename_i x hx
        split at h3
        · cases h3
        · split at h3
          · cases h3
          · split at h3
            · cases h3
            · simp_all
      · split at h3
        · cases h3
        · simp_all
  · exact h

/-! ### Asks, firings and claims taken -/

/-- What waits within an event: the firings, the reports and the asks. -/
def State.waiting (s : State) : List EventCode × List Purpose × List Originator := (s.firings, s.left, s.asks)

/-- An allocation leaves what waits. -/
theorem alloc_waiting {v u : State} {r : AllocRequest} {x : Tag} (h : v.alloc r = some (x, u)) :
    u.waiting = v.waiting := by
  obtain ⟨_, _, _, l, _, rfl⟩ := alloc_some h
  simp [State.waiting]

theorem grantHeld_waiting {v w : State} {c : EventCode} (h : v.grantHeld c = some w) : w.waiting = v.waiting := by
  unfold State.grantHeld at h
  split at h
  · rename_i e; cases h; exact (alloc_waiting e :)
  · cases h

theorem moverGrant_waiting {v w : State} (h : v.moverGrant = some w) : w.waiting = v.waiting := by
  unfold State.moverGrant at h
  split at h
  · cases h
  · split at h
    · cases h
    · rename_i e; cases h; exact (alloc_waiting e :)

theorem moverAsks_waiting (n : Nat) (v : State) : (v.moverAsks n).waiting = v.waiting := by
  induction n generalizing v with
  | zero => rfl
  | succ n ih =>
    unfold State.moverAsks
    split
    · rename_i w hw; exact (ih w).trans (moverGrant_waiting hw)
    · rfl

theorem askAgain_waiting (v : State) (o : Originator) : (v.askAgain o).waiting = v.waiting := by
  unfold State.askAgain
  split
  · split
    · rename_i c _
      cases e : v.grantHeld c with
      | none => rfl
      | some w => exact grantHeld_waiting e
    · rfl
  · exact moverAsks_waiting _ v
  all_goals rfl

/-- Taking the asks leaves the firings and the reports, and no ask. -/
theorem takeAsks_waiting (s : State) : s.takeAsks.waiting = (s.firings, s.left, []) := by
  have key : ∀ (l : List Originator) (v : State), (l.foldl State.askAgain v).waiting = v.waiting := by
    intro l
    induction l with
    | nil => intro v; rfl
    | cons o l ih => intro v; exact (ih _).trans (askAgain_waiting v o)
  exact key s.asks { s with asks := [] }

/-- With no ask, there is nothing to take. -/
theorem takeAsks_eq {s : State} (h : s.asks = []) : s.takeAsks = s := by
  unfold State.takeAsks
  rw [h]
  cases s
  simp_all

theorem claimGrant_waiting {v w : State} {c : Claimant} (h : v.claimGrant c = some w) : w.waiting = v.waiting := by
  cases c with
  | issueSlot =>
    simp only [State.claimGrant, State.issueGrant] at h
    split at h
    · split at h
      · rename_i e; cases h; exact (alloc_waiting e :)
      · cases h
    · cases h
  | router =>
    simp only [State.claimGrant] at h
    split at h
    · exact grantHeld_waiting h
    · cases h
  | mover => exact moverGrant_waiting h

theorem serveClaims_waiting (s : State) : s.serveClaims.waiting = s.waiting := by
  have key : ∀ (n : Nat) (v : State), (v.claimSteps n).waiting = v.waiting := by
    intro n
    induction n with
    | zero => intro v; rfl
    | succ n ih =>
      intro v
      unfold State.claimSteps
      split
      · rename_i w hw
        unfold State.claimStep at hw
        obtain ⟨c, _, hc⟩ := List.exists_of_findSome?_eq_some hw
        cases hg : v.claimGrant c with
        | none => simp [hg] at hc
        | some x =>
          simp [hg] at hc
          subst hc
          exact (ih _).trans ((show _ = x.waiting from rfl).trans (claimGrant_waiting hg))
      · rfl
  exact key _ s

/-! ### The responses -/

/-- A step of the responses is a step of settling. -/
theorem responseStep_some {s u : State} (h : s.responseStep = some u) : ∃ v, u = v.drainLeft ∧
    (s.loopStep = some v ∨ s.waiterStep = some v) := by
  unfold State.responseStep at h
  obtain ⟨v, hv, rfl⟩ := Option.map_eq_some_iff.1 h
  refine ⟨v, rfl, ?_⟩
  cases h1 : s.loopStep with
  | some a => simp [h1] at hv; subst hv; exact .inl rfl
  | none => simp [h1] at hv; exact .inr hv

theorem responseStep_none {s : State} : s.responseStep = none ↔ s.loopStep = none ∧ s.waiterStep = none := by
  unfold State.responseStep
  cases s.loopStep <;> cases s.waiterStep <;> simp

/-- A step of settling is one of the responses, or one of the offer. -/
theorem settleStep_cases {s u : State} (h : s.settleStep = some u) :
    s.responseStep = some u ∨ ∃ v, u = v.drainLeft ∧ s.offerStep = some v := by
  unfold State.settleStep at h
  unfold State.responseStep
  cases hr : s.loopStep.or s.waiterStep with
  | some a => left; rw [hr] at h; exact h
  | none =>
    right
    rw [hr] at h
    obtain ⟨v, hv, rfl⟩ := Option.map_eq_some_iff.1 h
    exact ⟨v, rfl, by simpa using hv⟩

theorem responseStep_cost {s u : State} (h : s.responseStep = some u) : settleCost u < settleCost s := by
  obtain ⟨v, rfl, hv⟩ := responseStep_some h
  refine Nat.lt_of_le_of_lt (drainLeft_cost v) ?_
  rcases hv with hv | hv
  · exact loopStep_cost hv
  · exact waiterStep_cost hv

theorem responseSteps_done {s : State} {n : Nat} (h : settleCost s ≤ n) : (s.responseSteps n).responseStep = none := by
  induction n generalizing s with
  | zero =>
    unfold State.responseSteps
    cases hc : s.responseStep with
    | none => rfl
    | some u => have := responseStep_cost hc; omega
  | succ n ih =>
    unfold State.responseSteps
    cases hc : s.responseStep with
    | none => simpa using hc
    | some u => have := responseStep_cost hc; exact ih (by omega)

/-- Once the responses have settled none can move. -/
theorem settleResponses_done (s : State) : s.settleResponses.responseStep = none :=
  responseSteps_done (settleCost_le _)

theorem responseSteps_eq {s : State} (h : s.responseStep = none) (n : Nat) : s.responseSteps n = s := by
  cases n with
  | zero => rfl
  | succ n => unfold State.responseSteps; rw [h]

/-- With no report and no response that can move, the responses do nothing. -/
theorem settleResponses_eq {s : State} (hl : s.left = []) (h : s.responseStep = none) : s.settleResponses = s := by
  unfold State.settleResponses
  rw [drainLeft_eq hl, responseSteps_eq h]

theorem settleResponses_left (s : State) : s.settleResponses.left = [] := by
  have key : ∀ (n : Nat) (v : State), v.left = [] → (v.responseSteps n).left = [] := by
    intro n
    induction n with
    | zero => intro v hv; exact hv
    | succ n ih =>
      intro v hv
      unfold State.responseSteps
      split
      · rename_i u hu
        obtain ⟨w, rfl, _⟩ := responseStep_some hu
        exact ih _ (drainLeft_left w)
      · exact hv
  exact key _ _ (drainLeft_left s)

/-! ### Rest -/

/-- The end of an event leaves the part at rest. -/
theorem endOfEvent_rest (s : State) : Rest s.endOfEvent := by
  let r := s.settleResponses
  let a := r.takeAsks.takeFirings.serveClaims
  have ha : a.claimStep = none := serveClaims_done _
  have hw : a.waiting = ([], [], []) := by
    have h1 := takeAsks_waiting r
    have h2 := takeFirings_same r.takeAsks
    have h3 : r.takeAsks.takeFirings.waiting = ([], r.takeAsks.left, r.takeAsks.asks) := by
      unfold State.waiting; rw [takeFirings_firings, h2.left, h2.asks]
    have h4 : r.takeAsks.left = r.left := congrArg (fun x => x.2.1) h1
    have h5 : r.takeAsks.asks = [] := congrArg (fun x => x.2.2) h1
    rw [(serveClaims_waiting _).trans h3, h4, h5, settleResponses_left]
  have hc := settle_clear (s := a) ⟨congrArg (fun x => x.1) hw, congrArg (fun x => x.2.2) hw⟩
  refine ⟨?_, ?_, ?_, ?_, ?_, ?_⟩
  · exact (takeBus_keep State.firings (fun _ _ _ => rfl) _).trans hc.1
  · exact (takeBus_keep State.left (fun _ _ _ => rfl) _).trans (settle_left (congrArg (fun x => x.2.1) hw))
  · exact takeBus_claims (settle_claims ha)
  · exact takeBus_settle (settle_done _)
  · exact takeBus_done _
  · exact (takeBus_keep State.asks (fun _ _ _ => rfl) _).trans hc.2

/-- The end of an event does nothing to a part at rest. -/
theorem endOfEvent_eq {s : State} (h : Rest s) : s.endOfEvent = s := by
  obtain ⟨h1, h2, h3, h4, h5, h6⟩ := h
  obtain ⟨s1, s2, _⟩ := settleStep_none.1 h4
  unfold State.endOfEvent
  rw [settleResponses_eq h2 (responseStep_none.2 ⟨s1, s2⟩), takeAsks_eq h6, takeFirings_eq h1, serveClaims_eq h3,
    settle_eq h4, takeBus_eq h5]

end Sys2Proof.Machine
end

