-- ==== Sys2Proof/Laws/Changes.lean ====
section
/-! SUPPORT. Frames: the relation Changes, and what the end of an event may change when no response waits that it could
move. -/

namespace Sys2Proof.Machine

namespace Changes

variable {xs ys : List Part} {s t u : State}

theorem refl (s : State) : Changes ys s s := by
  intro p _
  cases p <;> simp [Part.same]

theorem symm (h : Changes ys s t) : Changes ys t s := by
  intro p hp
  have := h p hp
  cases p <;> simp_all [Part.same]

theorem trans (a : Changes ys s t) (b : Changes ys t u) : Changes ys s u := by
  intro p hp
  have h1 := a p hp
  have h2 := b p hp
  cases p <;> simp_all [Part.same]

theorem mono (h : Changes xs s t) (hxy : ∀ p, p ∈ xs → p ∈ ys) : Changes ys s t :=
  fun p hp => h p fun hx => hp (hxy p hx)

/-- What one operation changes, then another. -/
theorem append (a : Changes xs s t) (b : Changes ys t u) : Changes (xs ++ ys) s u :=
  (a.mono fun _ h => List.mem_append_left _ h).trans (b.mono fun _ h => List.mem_append_right _ h)

/-- Enumeration is the same when both its parts are. -/
theorem enum (h : Changes ys s t) (h1 : Part.en ∉ ys) (h2 : Part.outstanding ∉ ys) : t.en = s.en := by
  have a : ({ t.en with resetOutstanding := false } : Enumeration) = { s.en with resetOutstanding := false } := h _ h1
  have b : t.en.resetOutstanding = s.en.resetOutstanding := h _ h2
  have e : ∀ (x : Enumeration), x = { ({ x with resetOutstanding := false } : Enumeration) with
      resetOutstanding := x.resetOutstanding } := fun _ => rfl
  rw [e t.en, e s.en, b]
  exact congrArg (fun x : Enumeration => { x with resetOutstanding := s.en.resetOutstanding }) a

/-- The own id does not depend on the outstanding reset. -/
theorem ownId (h : Changes ys s t) (h1 : Part.en ∉ ys) : t.en.ownId = s.en.ownId := by
  have a : ({ t.en with resetOutstanding := false } : Enumeration) = { s.en with resetOutstanding := false } := h _ h1
  have b := congrArg (fun x : Enumeration => x.ownId) a
  exact b

end Changes

/-! ### Firings -/

/-- The parts that taking the firings may change. -/
def firingParts : List Part := [.firings, .pendingSet, .ring, .evCounters, .rt]

/-- What a firing leaves of the Events block. -/
structure EvSame (e f : Events) : Prop where
  routes : f.routes = e.routes
  input : f.attnInput = e.attnInput
  recorded : f.attnRecorded = e.attnRecorded
  granted : f.lastGranted = e.lastGranted
  inbox : f.inbox = e.inbox

theorem EvSame.refl (e : Events) : EvSame e e := ⟨rfl, rfl, rfl, rfl, rfl⟩

theorem EvSame.trans {e f g : Events} (a : EvSame e f) (b : EvSame f g) : EvSame e g :=
  ⟨b.1.trans a.1, b.2.trans a.2, b.3.trans a.3, b.4.trans a.4, b.5.trans a.5⟩

theorem ringFire_ev (s : State) (c : EventCode) : EvSame s.ev (s.ringFire c).ev := by
  unfold State.ringFire
  dsimp only
  split
  · exact ⟨rfl, rfl, rfl, rfl, rfl⟩
  · split
    · rename_i x u e
      have := (eventAlloc_same e).2.1
      refine EvSame.trans (f := u.ev) ?_ ⟨rfl, rfl, rfl, rfl, rfl⟩
      rw [this]
      exact EvSame.refl _
    · exact ⟨rfl, rfl, rfl, rfl, rfl⟩

theorem takeFiring_ev (s : State) (c : EventCode) : EvSame s.ev (s.takeFiring c).ev := by
  unfold State.takeFiring
  split
  · exact EvSame.refl _
  · exact ⟨rfl, rfl, rfl, rfl, rfl⟩
  · exact ⟨rfl, rfl, rfl, rfl, rfl⟩
  · exact ringFire_ev s c

theorem takeFirings_ev (s : State) : EvSame s.ev s.takeFirings.ev := by
  have key : ∀ (l : List EventCode) (v : State), EvSame v.ev (l.foldl State.takeFiring v).ev := by
    intro l
    induction l with
    | nil => intro v; exact EvSame.refl _
    | cons c l ih => intro v; exact (takeFiring_ev v c).trans (ih _)
  exact key s.firings { s with firings := [] }

theorem takeFiring_serial (s : State) (c : EventCode) :
    (s.takeFiring c).serial = s.serial ∧ (s.takeFiring c).pending = s.pending := by
  unfold State.takeFiring
  split
  · exact ⟨rfl, rfl⟩
  · exact ⟨rfl, rfl⟩
  · exact ⟨rfl, rfl⟩
  · unfold State.ringFire
    dsimp only
    split
    · exact ⟨rfl, rfl⟩
    · split
      · rename_i x u e
        obtain ⟨_, _, _, l, _, rfl⟩ := alloc_some e
        exact ⟨allocated_serial .., allocated_pending ..⟩
      · exact ⟨rfl, rfl⟩

theorem takeFirings_serial (s : State) :
    s.takeFirings.serial = s.serial ∧ s.takeFirings.pending = s.pending := by
  have key : ∀ (l : List EventCode) (v : State), (l.foldl State.takeFiring v).serial = v.serial ∧
      (l.foldl State.takeFiring v).pending = v.pending := by
    intro l
    induction l with
    | nil => intro v; exact ⟨rfl, rfl⟩
    | cons c l ih =>
      intro v
      exact ⟨(ih _).1.trans (takeFiring_serial v c).1, (ih _).2.trans (takeFiring_serial v c).2⟩
  exact key s.firings { s with firings := [] }

theorem takeFirings_changes (s : State) : Changes firingParts s s.takeFirings := by
  have h := takeFirings_same s
  have e := takeFirings_ev s
  have k := takeFirings_serial s
  intro p hp
  cases p <;> first
    | exact absurd (by decide) hp
    | simp [Part.same, h.issue, h.chans, h.en, h.port, h.inb, h.left, h.asks, h.pin, h.wt, h.lt, h.ord, h.now, e.routes,
        e.input, e.recorded, e.granted, e.inbox, k.1, k.2]

/-! ### Claims -/

/-- The parts that serving the claims may change. -/
def claimParts : List Part :=
  [.ring, .evCounters, .lastGranted, .rt, .send, .issueState, .moverSlots, .turn, .bmCounters]

/-- An allocation without a window changes only the tracker and the Send Sequence Table. -/
theorem alloc_changes {s u : State} {r : AllocRequest} {x : Tag} (h : s.alloc r = some (x, u))
    (hw : r.window = none) : Changes [.rt, .send] s u := by
  obtain ⟨_, _, _, l, _, rfl⟩ := alloc_some h
  intro p hp
  cases p <;> first
    | exact absurd (by decide) hp
    | (simp [Part.same, hw]; done)
    | (simp [Part.same]; split <;> simp)

theorem issueGrant_changes {s u : State} (h : s.issueGrant = some u) : Changes claimParts s u := by
  unfold State.issueGrant at h
  split at h
  · rename_i v e
    cases h
    refine ((alloc_changes e rfl).mono (by decide)).trans ?_
    intro p hp
    cases p <;> first | exact absurd (by decide) hp | simp [Part.same]
  · cases h

theorem grantHeld_changes {s u : State} {c : EventCode} (h : s.grantHeld c = some u) : Changes claimParts s u := by
  unfold State.grantHeld at h
  split at h
  · rename_i x v e
    cases h
    refine ((alloc_changes e rfl).mono (by decide)).trans ?_
    intro p hp
    cases p <;> first | exact absurd (by decide) hp | simp [Part.same, State.recordEventTag, State.modRing]
  · cases h

theorem modSlot_changes (s : State) (c : ChannelId) (i : Fin 8) (f : Slot → Slot) :
    Changes [.moverSlots] s (s.modSlot c i f) := by
  intro p hp
  cases c <;> cases p <;> first
    | exact absurd (by decide) hp
    | simp [Part.same, State.modSlot, State.modChan, Channel.regs]

theorem moverGrant_changes {s u : State} (h : s.moverGrant = some u) : Changes claimParts s u := by
  unfold State.moverGrant at h
  split at h
  · cases h
  · split at h
    · cases h
    · rename_i c i _ _ x v e
      cases h
      refine ((alloc_changes e rfl).mono (by decide)).trans ?_
      refine ((modSlot_changes v c i fun sl => { sl with tag := some x }).mono (by decide)).trans ?_
      intro p hp
      cases p <;> first | exact absurd (by decide) hp | simp [Part.same]

theorem moverAsks_changes (n : Nat) (s : State) : Changes claimParts s (s.moverAsks n) := by
  induction n generalizing s with
  | zero => exact Changes.refl s
  | succ n ih =>
    unfold State.moverAsks
    split
    · rename_i u hu; exact (moverGrant_changes hu).trans (ih u)
    · exact Changes.refl s

theorem claimGrant_changes {s u : State} {c : Claimant} (h : s.claimGrant c = some u) : Changes claimParts s u := by
  cases c with
  | issueSlot =>
    simp only [State.claimGrant] at h
    split at h
    · exact issueGrant_changes h
    · cases h
  | router =>
    simp only [State.claimGrant] at h
    split at h
    · exact grantHeld_changes h
    · cases h
  | mover => exact moverGrant_changes h

theorem claimStep_changes {s u : State} (h : s.claimStep = some u) : Changes claimParts s u := by
  unfold State.claimStep at h
  obtain ⟨c, _, hc⟩ := List.exists_of_findSome?_eq_some h
  cases hg : s.claimGrant c with
  | none => simp [hg] at hc
  | some v =>
    simp [hg] at hc
    subst hc
    refine (claimGrant_changes hg).trans ?_
    intro p hp
    cases p <;> first | exact absurd (by decide) hp | simp [Part.same]

theorem serveClaims_changes (s : State) : Changes claimParts s s.serveClaims := by
  have key : ∀ (n : Nat) (v : State), Changes claimParts v (v.claimSteps n) := by
    intro n
    induction n with
    | zero => intro v; exact Changes.refl v
    | succ n ih =>
      intro v
      unfold State.claimSteps
      split
      · rename_i u hu; exact (claimStep_changes hu).trans (ih u)
      · exact Changes.refl v
  exact key _ s

/-! ### Asks -/

theorem askAgain_changes (s : State) (o : Originator) : Changes claimParts s (s.askAgain o) := by
  unfold State.askAgain
  split
  · split
    · rename_i c _
      cases e : s.grantHeld c with
      | none => exact Changes.refl s
      | some u => exact grantHeld_changes e
    · exact Changes.refl s
  · exact moverAsks_changes _ s
  all_goals exact Changes.refl s

/-- The parts that taking the asks may change. -/
def askParts : List Part := .asks :: claimParts

theorem takeAsks_changes (s : State) : Changes askParts s s.takeAsks := by
  have key : ∀ (l : List Originator) (v : State), Changes claimParts v (l.foldl State.askAgain v) := by
    intro l
    induction l with
    | nil => intro v; exact Changes.refl v
    | cons o l ih => intro v; exact (askAgain_changes v o).trans (ih _)
  have c : Changes [.asks] s { s with asks := [] } := by
    intro p hp
    cases p <;> first | exact absurd (by decide) hp | simp [Part.same]
  exact c.append (key s.asks { s with asks := [] })

/-! ### Settling without a response to move -/

/-- No response waits that the port or a placer could move: the head of the response insertion queue is not
self-addressed, and nobody who waits for a place finds one. -/
def Still (s : State) : Prop := s.loopStep = none ∧ s.waiterStep = none ∧ s.left = []

/-- What decides whether the part is still. -/
theorem Still.congr {s u : State} (h : Still s) (hq : u.port.responseQ = s.port.responseQ)
    (he : u.en.ownId = s.en.ownId) (hh : u.inb.held = s.inb.held) (hr : u.ag.heldReply = s.ag.heldReply)
    (hl : u.left = s.left) : Still u := by
  obtain ⟨h1, h2, h3⟩ := h
  refine ⟨?_, ?_, hl.trans h3⟩
  · unfold State.loopStep at h1 ⊢
    rw [hq, he]
    split at h1
    · split at h1
      · cases h1
      · rename_i hd; simp [hd]
    · rfl
  · unfold State.waiterStep at h2 ⊢
    have : u.responseRoom = s.responseRoom := by unfold State.responseRoom; rw [hq]
    rw [this, hh, hr]
    cases hroom : s.responseRoom
    · simp
    · simp only [hroom, if_true] at h2 ⊢
      split at h2
      · rfl
      · cases h2
      · cases h2
      · cases h2

/-- The parts that a change leaves alone decide whether the part is still. -/
theorem Still.of_changes {s u : State} {ys : List Part} (h : Still s) (hc : Changes ys s u)
    (h1 : Part.responses ∉ ys) (h2 : Part.en ∉ ys) (h3 : Part.held ∉ ys) (h4 : Part.agentRun ∉ ys)
    (h5 : Part.left ∉ ys) : Still u :=
  h.congr (hc _ h1) (hc.ownId h2) (hc _ h3) (hc _ h4).2.1 (hc _ h5)

/-- The parts that the offer may change. -/
def offerParts : List Part := [.rt, .offer, .loop, .portLocal]

theorem transmitted_changes (s : State) (x : Tag) : Changes [.rt, .offer] s (s.transmitted x) := by
  intro p hp
  cases p <;> first | exact absurd (by decide) hp | simp [Part.same, State.transmitted, State.modEntry]

theorem offerStep_changes {s u : State} (h : s.offerStep = some u) : Changes offerParts s u := by
  obtain ⟨f, rfl, hf⟩ | ⟨f, o, _, rfl, hf⟩ := offerStep_some h
  · intro p hp
    cases p <;> first
      | exact absurd (by decide) hp
      | (simp only [Part.same, State.modPort_port]; rw [hf]; simp)
      | (simp only [Part.same, State.modPort_port]; rw [hf])
      | simp [Part.same]
  · refine Changes.trans ?_ ((transmitted_changes _ o.tag).mono (by decide))
    intro p hp
    cases p <;> first
      | exact absurd (by decide) hp
      | (simp only [Part.same, State.modPort_port]; rw [(hf _).2]; simp)
      | (simp only [Part.same, State.modPort_port]; rw [(hf _).1]; simp)
      | (simp only [Part.same, State.modPort_port]; rw [(hf _).1])
      | simp [Part.same]

/-- A still part settles by its offer alone. -/
theorem settleSteps_changes (n : Nat) {v : State} (hv : Still v) :
    Changes offerParts v (v.settleSteps n) ∧ Still (v.settleSteps n) := by
  induction n generalizing v with
  | zero => exact ⟨Changes.refl v, hv⟩
  | succ n ih =>
    unfold State.settleSteps
    split
    · rename_i u hu
      obtain ⟨w, rfl, hw⟩ := settleStep_some hu
      obtain ⟨h1, h2, h3⟩ := hv
      rcases hw with hw | hw | hw
      · rw [h1] at hw; cases hw
      · rw [h2] at hw; cases hw
      · have c := offerStep_changes hw
        have sw : Still w := Still.of_changes ⟨h1, h2, h3⟩ c (by decide) (by decide) (by decide) (by decide) (by decide)
        rw [drainLeft_eq sw.2.2]
        exact ⟨c.trans (ih sw).1, (ih sw).2⟩
    · exact ⟨Changes.refl v, hv⟩

theorem settle_changes {s : State} (h : Still s) : Changes offerParts s s.settle ∧ Still s.settle :=
  settleSteps_changes _ h

/-! ### The end of an event -/

theorem takeBus_changes (s : State) : Changes [.bus] s s.takeBus := by
  unfold State.takeBus
  split
  · intro p hp
    cases p <;> first | exact absurd (by decide) hp | simp [Part.same]
  · exact Changes.refl s

/-- With no response that could move, an event ends with its asks, firings and claims, the offer and the bus. -/
theorem Still.endOfEvent {s : State} (h : Still s) :
    s.endOfEvent = s.takeAsks.takeFirings.serveClaims.settle.takeBus := by
  unfold State.endOfEvent
  rw [settleResponses_eq h.2.2 (responseStep_none.2 ⟨h.1, h.2.1⟩)]

/-- What follows the asks and firings when no response can move. -/
theorem Still.after {s : State} (h : Still s) :
    Changes (claimParts ++ offerParts ++ [.bus]) s.takeAsks.takeFirings s.endOfEvent := by
  have c := (takeAsks_changes s).append (takeFirings_changes s.takeAsks)
  have h1 : Still s.takeAsks.takeFirings := h.of_changes c (by decide) (by decide) (by decide) (by decide) (by decide)
  have c2 := serveClaims_changes s.takeAsks.takeFirings
  have h2 : Still s.takeAsks.takeFirings.serveClaims :=
    h1.of_changes c2 (by decide) (by decide) (by decide) (by decide) (by decide)
  rw [h.endOfEvent]
  exact (c2.append (settle_changes h2).1).append (takeBus_changes _)

/-- What the end of an event may change when no response waits that it could move. -/
theorem endOfEvent_changes {s : State} (h : Still s) : Changes (.firings :: .asks :: calmParts) s s.endOfEvent :=
  (((takeAsks_changes s).append (takeFirings_changes s.takeAsks)).append h.after).mono (by decide)

/-- A part at rest is still. -/
theorem Rest.still {s : State} (h : Rest s) : Still s :=
  ⟨(settleStep_none.1 h.2.2.2.1).1, (settleStep_none.1 h.2.2.2.1).2.1, h.2.1⟩

end Sys2Proof.Machine
end

