-- ==== Sys2Proof/Laws/Keeps.lean ====
section
/-! SUPPORT. What every operation keeps, whatever else it does: the bounds of the queues, the soundness of the windows
and of the agent, the legality of the ids, and the parts that no operation touches. One lemma per operation, up to the commands. -/

namespace Sys2Proof.Machine

/-- There is room for a response while the queue holds fewer than 8 (R30). -/
theorem State.responseRoom_iff {s : State} : s.responseRoom = true ↔ s.port.responseQ.length < 8 :=
  ⟨fun h => of_decide_eq_true h, fun h => decide_eq_true h⟩

/-- What the straps gave (R36). -/
def Enumeration.straps (e : Enumeration) : Bool × IdMode × NodeId := (e.manager, e.idMode, e.strappedId)

/-- From `s` to `t` the invariants are kept, and the queue of commands, the serial, the
reset pin and what the straps gave are the same. -/
structure Keeps (s t : State) : Prop where
  bounded : Bounded s → Bounded t
  windows : WindowsSound s.wt → WindowsSound t.wt
  ids : IdsLegal s.en → IdsLegal t.en
  agent : AgentSound s.ag → AgentSound t.ag
  queue : t.pending = s.pending
  straps : t.en.straps = s.en.straps
  serial : t.serial = s.serial
  pin : t.localResetIn = s.localResetIn

namespace Keeps

variable {s t u : State}

theorem manager (h : Keeps s t) : t.en.manager = s.en.manager := congrArg (fun x => x.1) h.straps

theorem refl (s : State) : Keeps s s := ⟨id, id, id, id, rfl, rfl, rfl, rfl⟩

theorem trans (a : Keeps s t) (b : Keeps t u) : Keeps s u :=
  ⟨fun h => b.bounded (a.bounded h), fun h => b.windows (a.windows h), fun h => b.ids (a.ids h),
    fun h => b.agent (a.agent h), b.queue.trans a.queue, b.straps.trans a.straps, b.serial.trans a.serial, b.pin.trans a.pin⟩

/-- Operations one after another keep what each keeps. -/
theorem foldl {α : Type} {f : State → α → State} (hf : ∀ s a, Keeps s (f s a)) (l : List α) (h : Keeps s t) :
    Keeps s (l.foldl f t) := by
  induction l generalizing t with
  | nil => exact h
  | cons a l ih => exact ih (h.trans (hf t a))

/-! ### Updates of one block -/

/-- The bounded fields of the Ring Port are the same after `f`. -/
abbrev PortSame (f : RingPort → RingPort) : Prop :=
  ∀ p, (f p).forwardQ = p.forwardQ ∧ (f p).responseQ = p.responseQ ∧ (f p).forwardRun = p.forwardRun ∧
    (f p).responseRun = p.responseRun

theorem modPort {f : RingPort → RingPort} (hf : PortSame f := by intro p; exact ⟨rfl, rfl, rfl, rfl⟩)
    (h : Keeps s t) : Keeps s (t.modPort f) := by
  obtain ⟨h1, h2, h3, h4⟩ := hf t.port
  refine ⟨fun b => ?_, h.windows, h.ids, h.agent, h.queue, h.straps, h.serial, h.pin⟩
  have := h.bounded b
  simpa [Bounded, h1, h2, h3, h4] using this

/-- An update of the Ring Port that keeps its own bounds. -/
theorem modPort' {f : RingPort → RingPort}
    (hf : t.port.forwardQ.length ≤ 4 → t.port.responseQ.length ≤ 8 → t.port.forwardRun ≤ 4 →
      t.port.responseRun ≤ 8 → (f t.port).forwardQ.length ≤ 4 ∧ (f t.port).responseQ.length ≤ 8 ∧
        (f t.port).forwardRun ≤ 4 ∧ (f t.port).responseRun ≤ 8)
    (h : Keeps s t) : Keeps s (t.modPort f) := by
  refine ⟨fun b => ?_, h.windows, h.ids, h.agent, h.queue, h.straps, h.serial, h.pin⟩
  obtain ⟨b1, b2, b3, b4, b5, b6, b7, b8⟩ := h.bounded b
  obtain ⟨c1, c2, c3, c4⟩ := hf b1 b2 b7 b8
  exact ⟨c1, c2, b3, b4, b5, b6, c3, c4⟩

theorem modEn {f : Enumeration → Enumeration} (hf : IdsLegal t.en → IdsLegal (f t.en))
    (hm : ∀ e, (f e).straps = e.straps := by intro e; rfl) (h : Keeps s t) : Keeps s (t.modEn f) :=
  ⟨h.bounded, h.windows, fun i => hf (h.ids i), h.agent, h.queue, (hm _).trans h.straps, h.serial, h.pin⟩

theorem modWt {f : WindowTables → WindowTables} (hf : WindowsSound t.wt → WindowsSound (f t.wt))
    (h : Keeps s t) : Keeps s (t.modWt f) :=
  ⟨h.bounded, fun w => hf (h.windows w), h.ids, h.agent, h.queue, h.straps, h.serial, h.pin⟩

theorem modRt {f : Tracker → Tracker} (h : Keeps s t) : Keeps s (t.modRt f) :=
  ⟨h.bounded, h.windows, h.ids, h.agent, h.queue, h.straps, h.serial, h.pin⟩

theorem modOrd {f : SequenceTables → SequenceTables} (h : Keeps s t) : Keeps s (t.modOrd f) :=
  ⟨h.bounded, h.windows, h.ids, h.agent, h.queue, h.straps, h.serial, h.pin⟩

theorem modLt {f : LocalTarget → LocalTarget} (h : Keeps s t) : Keeps s (t.modLt f) :=
  ⟨h.bounded, h.windows, h.ids, h.agent, h.queue, h.straps, h.serial, h.pin⟩

theorem modInb {f : Inbound → Inbound} (hf : (f t.inb).queue.length ≤ max t.inb.queue.length 8) (h : Keeps s t) :
    Keeps s (t.modInb f) := by
  refine ⟨fun b => ?_, h.windows, h.ids, h.agent, h.queue, h.straps, h.serial, h.pin⟩
  obtain ⟨b1, b2, b3, b4⟩ := h.bounded b
  exact ⟨b1, b2, by simp only [State.modInb_inb]; omega, b4⟩

theorem modAg {f : Agent → Agent}
    (hf : ∀ a, (f a).faults = a.faults ∧ (f a).overflow = a.overflow ∧ (f a).state = a.state ∧
      (f a).heldReply = a.heldReply ∧ (f a).resetPending = a.resetPending := by
        intro a; exact ⟨rfl, rfl, rfl, rfl, rfl⟩)
    (h : Keeps s t) : Keeps s (t.modAg f) := by
  obtain ⟨h1, h2, h3, h4, h5⟩ := hf t.ag
  refine ⟨fun b => ?_, h.windows, h.ids, fun a => ?_, h.queue, h.straps, h.serial, h.pin⟩
  · have := h.bounded b
    simpa [Bounded, h1, h2] using this
  · have := h.agent a
    simpa [AgentSound, h3, h4, h5] using this

/-- An update of the agent that keeps the bounds of the fault queue and its soundness. -/
theorem modAg' {f : Agent → Agent}
    (hf : t.ag.faults.length ≤ 16 → t.ag.overflow ≤ 255 →
      (f t.ag).faults.length ≤ 16 ∧ (f t.ag).overflow ≤ 255)
    (ha : AgentSound t.ag → AgentSound (f t.ag)) (h : Keeps s t) : Keeps s (t.modAg f) := by
  refine ⟨fun b => ?_, h.windows, h.ids, fun a => ha (h.agent a), h.queue, h.straps, h.serial, h.pin⟩
  obtain ⟨b1, b2, b3, b4, b5, b6⟩ := h.bounded b
  obtain ⟨c1, c2⟩ := hf b4 b5
  exact ⟨b1, b2, b3, c1, c2, b6⟩

/-- An update of how the agent runs. -/
theorem modRun {f : Agent → Agent} (hf : ∀ a, (f a).faults = a.faults ∧ (f a).overflow = a.overflow)
    (ha : AgentSound t.ag → AgentSound (f t.ag)) (h : Keeps s t) : Keeps s (t.modAg f) :=
  h.modAg' (fun b c => by rw [(hf _).1, (hf _).2]; exact ⟨b, c⟩) ha

theorem modBm {f : Mover → Mover} (h : Keeps s t) : Keeps s (t.modBm f) :=
  ⟨h.bounded, h.windows, h.ids, h.agent, h.queue, h.straps, h.serial, h.pin⟩

theorem modEv {f : Events → Events} (hf : (f t.ev).inbox.length ≤ max t.ev.inbox.length 16) (h : Keeps s t) :
    Keeps s (t.modEv f) := by
  refine ⟨fun b => ?_, h.windows, h.ids, h.agent, h.queue, h.straps, h.serial, h.pin⟩
  obtain ⟨b1, b2, b3, b4, b5, b6, b7⟩ := h.bounded b
  exact ⟨b1, b2, b3, b4, b5, by simp only [State.modEv_ev]; omega, b7⟩

theorem modEvSame {f : Events → Events} (hf : ∀ e, (f e).inbox = e.inbox := by intro e; rfl) (h : Keeps s t) :
    Keeps s (t.modEv f) := h.modEv (by rw [hf]; exact Nat.le_max_left _ _)

theorem modInbSame {f : Inbound → Inbound} (hf : ∀ e, (f e).queue = e.queue := by intro e; rfl) (h : Keeps s t) :
    Keeps s (t.modInb f) := h.modInb (by rw [hf]; exact Nat.le_max_left _ _)

theorem countPort {f : PortCounters → PortCounters} (h : Keeps s t) : Keeps s (t.countPort f) := h.modPort
theorem countEn {f : EnumCounters → EnumCounters} (h : Keeps s t) : Keeps s (t.countEn f) := h.modEn id
theorem countRt {f : TrackerCounters → TrackerCounters} (h : Keeps s t) : Keeps s (t.countRt f) := h.modRt
theorem countOrd {f : OrderingCounters → OrderingCounters} (h : Keeps s t) : Keeps s (t.countOrd f) := h.modOrd
theorem countLt {f : LocalCounters → LocalCounters} (h : Keeps s t) : Keeps s (t.countLt f) := h.modLt
theorem countInb {f : InboundCounters → InboundCounters} (h : Keeps s t) : Keeps s (t.countInb f) :=
  h.modInb (Nat.le_max_left _ _)
theorem countAg {f : AgentCounters → AgentCounters} (h : Keeps s t) : Keeps s (t.countAg f) := h.modAg
theorem countBm {f : MoverCounters → MoverCounters} (h : Keeps s t) : Keeps s (t.countBm f) := h.modBm
theorem countEv {f : EventCounters → EventCounters} (h : Keeps s t) : Keeps s (t.countEv f) :=
  h.modEv (Nat.le_max_left _ _)
theorem countDiscarded {n : Nat} (h : Keeps s t) : Keeps s (t.countDiscarded n) := h.countPort

theorem begin (h : Keeps s t) : Keeps s t.begin :=
  ⟨h.bounded, h.windows, h.ids, h.agent, h.queue, h.straps, h.serial, h.pin⟩

theorem fire {c : EventCode} (h : Keeps s t) : Keeps s (t.fire c) :=
  ⟨h.bounded, h.windows, h.ids, h.agent, h.queue, h.straps, h.serial, h.pin⟩

theorem setLeft {l : List Purpose} (h : Keeps s t) : Keeps s { t with left := l } :=
  ⟨h.bounded, h.windows, h.ids, h.agent, h.queue, h.straps, h.serial, h.pin⟩

theorem setAsks {l : List Originator} (h : Keeps s t) : Keeps s { t with asks := l } :=
  ⟨h.bounded, h.windows, h.ids, h.agent, h.queue, h.straps, h.serial, h.pin⟩

theorem raiseAsk {o : Originator} (h : Keeps s t) : Keeps s (t.raiseAsk o) := h.setAsks

theorem setFirings {l : List EventCode} (h : Keeps s t) : Keeps s { t with firings := l } :=
  ⟨h.bounded, h.windows, h.ids, h.agent, h.queue, h.straps, h.serial, h.pin⟩

/-! ### Ops -/

theorem recordFault {r : FaultRecord} (h : Keeps s t) : Keeps s (t.recordFault r) := by
  refine (h.modAg' (fun b c => ?_) fun a => ?_).fire
  · split
    · rename_i hl
      exact ⟨by simp [faultQueueSize] at hl ⊢; omega, c⟩
    · exact ⟨b, by simp⟩
  · split <;> exact a

theorem recordFaults {rs : List FaultRecord} (h : Keeps s t) : Keeps s (t.recordFaults rs) :=
  h.foldl (fun s _ => (refl s).recordFault) rs

theorem reportLeft {p : Purpose} (h : Keeps s t) : Keeps s (t.reportLeft p) := by
  cases p
  · exact h
  · exact h.setLeft
  · exact h.setLeft

/-- A response is inserted where there is room for it. -/
theorem insertResponse {r : Response} (hr : t.responseRoom = true) (h : Keeps s t) :
    Keeps s (t.insertResponse r) := by
  unfold State.insertResponse
  split
  · refine h.modPort' fun a _ c d => ⟨a, ?_, c, d⟩
    have hl := State.responseRoom_iff.1 hr
    simpa using hl
  · exact h.countDiscarded.reportLeft

theorem placeResponse {r : Response} (e : t.placeResponse r = some u) (h : Keeps s t) : Keeps s u := by
  unfold State.placeResponse at e
  split at e
  · cases e; exact h.insertResponse (by assumption)
  · cases e

theorem presentControl {f : Frame} (h : Keeps s t) : Keeps s (t.presentControl f) := by
  unfold State.presentControl
  split
  · exact h.modPort
  · split
    · exact h.countDiscarded
    · exact h.modPort.countDiscarded

theorem agentPlace {f : Frame} {p : Purpose} (h : Keeps s t) : Keeps s (t.agentPlace f p) := by
  unfold State.agentPlace
  split
  · rename_i e
    exact (h.placeResponse e).modRun (fun _ => ⟨rfl, rfl⟩) fun _ =>
      ⟨fun x => if_pos x, fun x => by cases x⟩
  · exact h.modRun (fun _ => ⟨rfl, rfl⟩) fun _ => ⟨fun _ => rfl, fun _ => rfl⟩

theorem reportDrained {w : WindowTable} {i : Fin 16} (h : Keeps s t) : Keeps s (t.reportDrained w i) := by
  unfold State.reportDrained
  split
  · split
    · exact h.modAg.agentPlace
    · exact h
  · exact h

end Keeps

/-! ### Windows -/

/-- An outbound entry that `f` gives its place in no wider a range, and sound, keeps the tables sound. -/
theorem WindowsSound.modOwt {w : WindowTables} {i : Fin 16} {f : OwtEntry → OwtEntry} (h : WindowsSound w)
    (hs : (w.owt.get i).sound → (f (w.owt.get i)).sound)
    (he : (w.owt.get i).state = .empty → (f (w.owt.get i)).state = .empty)
    (hb : (f (w.owt.get i)).localBase = (w.owt.get i).localBase)
    (hk : (f (w.owt.get i)).sizeExp = (w.owt.get i).sizeExp) :
    WindowsSound { w with owt := modAt w.owt i f } := by
  obtain ⟨h1, h2, h3, h4⟩ := h
  refine ⟨fun j => ?_, h2, fun j k hjk => ?_, h4⟩
  · rw [get_modAt]; split
    · rename_i e; subst e; exact hs (h1 _)
    · exact h1 j
  · have := h3 j k hjk
    unfold OwtEntry.apart at *
    rw [get_modAt, get_modAt]
    split <;> split
    · rename_i a b; exact absurd (a.symm.trans b) hjk
    · rename_i a _; subst a; rw [hb, hk]; exact this.imp he id
    · rename_i _ a; subst a; rw [hb, hk]; exact this.imp id (fun x => x.imp he id)
    · exact this

/-- An inbound entry that `f` gives its place in no wider a range, and sound, keeps the tables sound. -/
theorem WindowsSound.modIwt {w : WindowTables} {i : Fin 16} {f : IwtEntry → IwtEntry} (h : WindowsSound w)
    (hs : (w.iwt.get i).sound → (f (w.iwt.get i)).sound)
    (he : (w.iwt.get i).state = .empty → (f (w.iwt.get i)).state = .empty)
    (hb : (f (w.iwt.get i)).ringBase = (w.iwt.get i).ringBase)
    (hk : (f (w.iwt.get i)).sizeExp = (w.iwt.get i).sizeExp) :
    WindowsSound { w with iwt := modAt w.iwt i f } := by
  obtain ⟨h1, h2, h3, h4⟩ := h
  refine ⟨h1, fun j => ?_, h3, fun j k hjk => ?_⟩
  · rw [get_modAt]; split
    · rename_i e; subst e; exact hs (h2 _)
    · exact h2 j
  · have := h4 j k hjk
    unfold IwtEntry.apart at *
    rw [get_modAt, get_modAt]
    split <;> split
    · rename_i a b; exact absurd (a.symm.trans b) hjk
    · rename_i a _; subst a; rw [hb, hk]; exact this.imp he id
    · rename_i _ a; subst a; rw [hb, hk]; exact this.imp id (fun x => x.imp he id)
    · exact this

/-- Tables whose entries are all changed by `f` and `g` in place are sound if each entry is. -/
theorem WindowsSound.map {w : WindowTables} {f : OwtEntry → OwtEntry} {g : IwtEntry → IwtEntry}
    (h : WindowsSound w) (hf : ∀ e : OwtEntry, e.sound → (f e).sound) (hg : ∀ e : IwtEntry, e.sound → (g e).sound)
    (fe : ∀ e, e.state = .empty → (f e).state = .empty) (ge : ∀ e, e.state = .empty → (g e).state = .empty)
    (fb : ∀ e, (f e).localBase = e.localBase) (fk : ∀ e, (f e).sizeExp = e.sizeExp)
    (gb : ∀ e, (g e).ringBase = e.ringBase) (gk : ∀ e, (g e).sizeExp = e.sizeExp) :
    WindowsSound { owt := w.owt.map f, iwt := w.iwt.map g } := by
  obtain ⟨h1, h2, h3, h4⟩ := h
  refine ⟨fun j => ?_, fun j => ?_, fun j k hjk => ?_, fun j k hjk => ?_⟩
  · simpa using hf _ (h1 j)
  · simpa using hg _ (h2 j)
  · have := h3 j k hjk
    simp only [OwtEntry.apart, get_map, fb, fk] at *
    exact this.imp (fe _) (fun x => x.imp (fe _) id)
  · have := h4 j k hjk
    simp only [IwtEntry.apart, get_map, gb, gk] at *
    exact this.imp (ge _) (fun x => x.imp (ge _) id)

theorem WindowState.drainedAt_empty {n : Nat} : WindowState.empty.drainedAt n = .empty := rfl

theorem WindowState.retired_empty {n : Nat} : WindowState.empty.retired n = .empty := rfl

theorem OwtEntry.sound_fall {e : OwtEntry} (h : e.sound) : e.fall.sound := by
  obtain ⟨h1, h2⟩ := h
  constructor
  · intro h; simp only [OwtEntry.fall, WindowState.drainedAt] at *
    split at h
    · cases h
    · rename_i hn; simp [h] at hn; omega
  · intro h
    have : e.state ≠ .empty := by
      intro e0; simp [OwtEntry.fall, e0, WindowState.drainedAt] at h
    exact h2 this

theorem IwtEntry.sound_fall {e : IwtEntry} (h : e.sound) : e.fall.sound := by
  obtain ⟨h1, h2⟩ := h
  constructor
  · intro h; simp only [IwtEntry.fall, WindowState.drainedAt] at *
    split at h
    · cases h
    · rename_i hn; simp [h] at hn; omega
  · intro h
    have : e.state ≠ .empty := by
      intro e0; simp [IwtEntry.fall, e0, WindowState.drainedAt] at h
    exact h2 this

theorem OwtEntry.sound_retire {e : OwtEntry} (h : e.sound) : e.retire.sound := by
  obtain ⟨h1, h2⟩ := h
  constructor
  · intro h; simp only [OwtEntry.retire, WindowState.retired] at *
    split at h
    · split at h
      · cases h
      · omega
    · exact h1 h
  · intro h
    have : e.state ≠ .empty := by
      intro e0; simp [OwtEntry.retire, e0, WindowState.retired] at h
    exact h2 this

theorem IwtEntry.sound_retire {e : IwtEntry} (h : e.sound) : e.retire.sound := by
  obtain ⟨h1, h2⟩ := h
  constructor
  · intro h; simp only [IwtEntry.retire, WindowState.retired] at *
    split at h
    · split at h
      · cases h
      · omega
    · exact h1 h
  · intro h
    have : e.state ≠ .empty := by
      intro e0; simp [IwtEntry.retire, e0, WindowState.retired] at h
    exact h2 this

theorem OwtEntry.retire_empty {e : OwtEntry} (h : e.state = .empty) : e.retire.state = .empty := by
  simp [OwtEntry.retire, h, WindowState.retired]

theorem IwtEntry.retire_empty {e : IwtEntry} (h : e.state = .empty) : e.retire.state = .empty := by
  simp [IwtEntry.retire, h, WindowState.retired]

theorem WindowsSound.retireAll {w : WindowTables} (h : WindowsSound w) : WindowsSound w.retireAll :=
  h.map (fun _ => OwtEntry.sound_retire) (fun _ => IwtEntry.sound_retire) (fun _ => OwtEntry.retire_empty)
    (fun _ => IwtEntry.retire_empty) (fun _ => rfl) (fun _ => rfl) (fun _ => rfl) (fun _ => rfl)

theorem WindowsSound.retire {w : WindowTables} (t : WindowTable) (i : Fin 16) (h : WindowsSound w) :
    WindowsSound (w.retire t i) := by
  cases t
  · exact h.modOwt OwtEntry.sound_retire OwtEntry.retire_empty rfl rfl
  · exact h.modIwt IwtEntry.sound_retire IwtEntry.retire_empty rfl rfl

theorem WindowsSound.drainAll {w : WindowTables} (h : WindowsSound w) : WindowsSound w.drainAll := by
  refine h.map (fun e h => ⟨fun d => ?_, fun d => ?_⟩) (fun e h => ⟨fun d => ?_, fun d => ?_⟩)
    (fun e h => by simp [h, WindowState.drainedAt]) (fun e h => by simp [h, WindowState.drainedAt])
    (fun _ => rfl) (fun _ => rfl) (fun _ => rfl) (fun _ => rfl)
  · simp only [WindowState.drainedAt] at d
    split at d
    · cases d
    · rename_i hn; simp [d] at hn
  · have : e.state ≠ .empty := fun e0 => by simp [e0, WindowState.drainedAt] at d
    exact h.2 this
  · simp only [WindowState.drainedAt] at d
    split at d
    · cases d
    · rename_i hn; simp [d] at hn
  · have : e.state ≠ .empty := fun e0 => by simp [e0, WindowState.drainedAt] at d
    exact h.2 this

theorem WindowsSound.reset : WindowsSound WindowTables.reset := by
  refine ⟨fun i => ?_, fun i => ?_, fun i j _ => ?_, fun i j _ => ?_⟩ <;>
    simp [WindowTables.reset, OwtEntry.sound, IwtEntry.sound, OwtEntry.apart, IwtEntry.apart, OwtEntry.reset,
      IwtEntry.reset]

theorem rangesOverlap_comm (a k b j : Nat) : rangesOverlap a k b j = rangesOverlap b j a k := by
  simp [rangesOverlap, Bool.and_comm]

/-- What the overlap test of SET_WINDOW says about each entry of the outbound table (R63). -/
theorem WindowTables.owtOverlaps_false {w : WindowTables} {base k : Nat} (h : w.owtOverlaps base k = false)
    (i : Fin 16) : (w.owt.get i).state = .empty ∨
      rangesOverlap base k (w.owt.get i).localBase.toNat (w.owt.get i).sizeExp = false := by
  unfold WindowTables.owtOverlaps at h
  rw [List.any_eq_false] at h
  have hm : w.owt.get i ∈ w.owt.toList := by simp [Vector.get_eq_getElem]
  have := h _ hm
  simp at this
  by_cases he : (w.owt.get i).state = .empty
  · exact .inl he
  · exact .inr (by simpa using this he)

/-- What the overlap test of SET_WINDOW says about each entry of the inbound table (R63). -/
theorem WindowTables.iwtOverlaps_false {w : WindowTables} {base k : Nat} (h : w.iwtOverlaps base k = false)
    (i : Fin 16) : (w.iwt.get i).state = .empty ∨
      rangesOverlap base k (w.iwt.get i).ringBase.toNat (w.iwt.get i).sizeExp = false := by
  unfold WindowTables.iwtOverlaps at h
  rw [List.any_eq_false] at h
  have hm : w.iwt.get i ∈ w.iwt.toList := by simp [Vector.get_eq_getElem]
  have := h _ hm
  simp at this
  by_cases he : (w.iwt.get i).state = .empty
  · exact .inl he
  · exact .inr (by simpa using this he)

theorem WindowsSound.setOwt {w : WindowTables} {i : Fin 16} {e : OwtEntry} (h : WindowsSound w)
    (ha : e.state = .active) (hv : e.valid = true) (ho : w.owtOverlaps e.localBase.toNat e.sizeExp = false) :
    WindowsSound { w with owt := modAt w.owt i fun _ => e } := by
  obtain ⟨h1, h2, h3, h4⟩ := h
  refine ⟨fun j => ?_, h2, fun j k hjk => ?_, h4⟩
  · rw [get_modAt]; split
    · exact ⟨fun d => by simp [ha] at d, fun _ => hv⟩
    · exact h1 j
  · have := h3 j k hjk
    unfold OwtEntry.apart at *
    rw [get_modAt, get_modAt]
    split <;> split
    · rename_i a b; exact absurd (a.symm.trans b) hjk
    · exact .inr (WindowTables.owtOverlaps_false ho k)
    · refine (WindowTables.owtOverlaps_false ho j).imp id fun x => .inr ?_
      rw [rangesOverlap_comm]; exact x
    · exact this

theorem WindowsSound.setIwt {w : WindowTables} {i : Fin 16} {e : IwtEntry} (h : WindowsSound w)
    (ha : e.state = .active) (hv : e.valid = true) (ho : w.iwtOverlaps e.ringBase.toNat e.sizeExp = false) :
    WindowsSound { w with iwt := modAt w.iwt i fun _ => e } := by
  obtain ⟨h1, h2, h3, h4⟩ := h
  refine ⟨h1, fun j => ?_, h3, fun j k hjk => ?_⟩
  · rw [get_modAt]; split
    · exact ⟨fun d => by simp [ha] at d, fun _ => hv⟩
    · exact h2 j
  · have := h4 j k hjk
    unfold IwtEntry.apart at *
    rw [get_modAt, get_modAt]
    split <;> split
    · rename_i a b; exact absurd (a.symm.trans b) hjk
    · exact .inr (WindowTables.iwtOverlaps_false ho k)
    · refine (WindowTables.iwtOverlaps_false ho j).imp id fun x => .inr ?_
      rw [rangesOverlap_comm]; exact x
    · exact this

namespace Keeps

variable {s t u : State}

theorem hitOwt {i : Fin 16} (h : Keeps s t) : Keeps s (t.hitOwt i) :=
  h.modWt fun w => w.modOwt id id rfl rfl

theorem riseOwt {i : Fin 16} (h : Keeps s t) : Keeps s (t.riseOwt i) :=
  h.modWt fun w => w.modOwt (fun a => ⟨fun _ => Nat.succ_pos _, a.2⟩) id rfl rfl

theorem riseIwt {i : Fin 16} (h : Keeps s t) : Keeps s (t.riseIwt i) :=
  h.modWt fun w => w.modIwt (fun a => ⟨fun _ => Nat.succ_pos _, a.2⟩) id rfl rfl

theorem fallOwt {i : Fin 16} (h : Keeps s t) : Keeps s (t.fallOwt i) := by
  have hw : Keeps s (t.modWt fun w => { w with owt := modAt w.owt i OwtEntry.fall }) :=
    h.modWt fun w => w.modOwt OwtEntry.sound_fall (fun e => by simp [OwtEntry.fall, e, WindowState.drainedAt])
      rfl rfl
  unfold State.fallOwt
  dsimp only
  split
  · exact hw.reportDrained
  · exact hw

theorem fallIwt {i : Fin 16} (h : Keeps s t) : Keeps s (t.fallIwt i) := by
  have hw : Keeps s (t.modWt fun w => { w with iwt := modAt w.iwt i IwtEntry.fall }) :=
    h.modWt fun w => w.modIwt IwtEntry.sound_fall (fun e => by simp [IwtEntry.fall, e, WindowState.drainedAt])
      rfl rfl
  unfold State.fallIwt
  dsimp only
  split
  · exact hw.reportDrained
  · exact hw

end Keeps

end Sys2Proof.Machine
end

