-- ==== Sys2Proof/Laws/Quiet.lean ====
section
/-! SUPPORT. The end of an event whose effect leaves the part at rest but for the codes it fired and the one response
it placed: what t becomes, said once. -/

namespace Sys2Proof.Machine

/-! ### What rest reads -/

/-- The two states agree in what decides whether the request offer moves. -/
structure OfferSame (s u : State) : Prop where
  own : u.en.ownId = s.en.ownId := by rfl
  role : u.en.role = s.en.role := by rfl
  entries : u.rt.entries = s.rt.entries := by rfl
  order : u.rt.allocOrder = s.rt.allocOrder := by rfl
  send : u.ord.send = s.ord.send := by rfl
  link : u.port.link = s.port.link := by rfl
  offer : u.port.offer = s.port.offer := by rfl

namespace OfferSame

variable {s u : State}

theorem entry (h : OfferSame s u) (t : Tag) : u.entry t = s.entry t := by
  unfold State.entry; rw [h.entries]

theorem numbered (h : OfferSame s u) : u.numbered = s.numbered := by
  unfold State.numbered; rw [h.role]

theorem sendOf (h : OfferSame s u) (d : NodeId) : u.sendOf d = s.sendOf d := by
  unfold State.sendOf; rw [h.send]

theorem eligible (h : OfferSame s u) (t : Tag) : u.eligible t = s.eligible t := by
  have hp : ∀ d t, u.isPostedTo d t = s.isPostedTo d t := by
    intro d t; unfold State.isPostedTo; rw [h.entry]
  have ho : ∀ d, u.oldestPosted d = s.oldestPosted d := by
    intro d
    unfold State.oldestPosted State.postedRun
    rw [h.order]
    congr 2
    funext t
    exact hp d t
  unfold State.eligible
  rw [h.entry, h.sendOf, ho]

theorem offerStep (h : OfferSame s u) : u.offerStep = none ↔ s.offerStep = none := by
  have hn : u.nextOffer = s.nextOffer := by
    unfold State.nextOffer
    rw [h.numbered, h.order, funext h.eligible]
  unfold State.offerStep
  rw [h.offer, hn]
  split
  · rw [h.numbered, h.eligible, h.own, h.link]
    repeat' split
    all_goals simp
  · split <;> simp

end OfferSame

theorem loopStep_congr {s u : State} (hq : u.port.responseQ = s.port.responseQ) (ho : u.en.ownId = s.en.ownId) :
    u.loopStep = none ↔ s.loopStep = none := by
  unfold State.loopStep
  rw [hq, ho]
  split
  · split <;> simp
  · simp

/-- The two states agree in what decides whether the part has something to do, but for its local master. -/
structure ReadySame (s u : State) : Prop extends OfferSame s u where
  firings : u.firings = s.firings := by rfl
  left : u.left = s.left := by rfl
  asks : u.asks = s.asks := by rfl
  freeList : u.rt.freeList = s.rt.freeList := by rfl
  issue : u.ag.issue.state = s.ag.issue.state := by rfl
  reply : u.ag.heldReply = s.ag.heldReply := by rfl
  held : u.inb.held = s.inb.held := by rfl
  responses : u.port.responseQ = s.port.responseQ := by rfl
  ringHeld : ∀ c, u.isHeld c = s.isHeld c := by intro c; rfl
  granted : u.ev.lastGranted = s.ev.lastGranted := by rfl
  slotsA : u.bm.chA.slots = s.bm.chA.slots := by rfl
  slotsB : u.bm.chB.slots = s.bm.chB.slots := by rfl
  turn : u.bm.turn = s.bm.turn := by rfl

/-- The two states agree in what decides whether the part is at rest. -/
structure RestSame (s u : State) : Prop extends ReadySame s u where
  queue : u.inb.queue = s.inb.queue := by rfl
  current : u.inb.current = s.inb.current := by rfl
  served : u.inb.lastServed = s.inb.lastServed := by rfl
  pin : u.localResetIn = s.localResetIn := by rfl

namespace ReadySame

variable {s u : State}

theorem chanSlots (h : ReadySame s u) (c : ChannelId) : (u.chan c).slots = (s.chan c).slots := by
  cases c
  · exact h.slotsA
  · exact h.slotsB

theorem claims (h : ReadySame s u) : ClaimSame s u :=
  ⟨h.toOfferSame.numbered, h.freeList, fun c => channelHolds_congr h.order (fun t => by rw [h.toOfferSame.entry]) c,
    fun d => by rw [h.toOfferSame.sendOf], h.issue, h.ringHeld, h.granted, h.chanSlots, h.turn⟩

theorem loopStep (h : ReadySame s u) : u.loopStep = none ↔ s.loopStep = none := loopStep_congr h.responses h.own

theorem waiterStep (h : ReadySame s u) : u.waiterStep = none ↔ s.waiterStep = none := by
  unfold State.waiterStep State.responseRoom
  rw [h.responses, h.held, h.reply]
  repeat' split
  all_goals simp

theorem settleStep (h : ReadySame s u) : u.settleStep = none ↔ s.settleStep = none := by
  rw [settleStep_none, settleStep_none, h.loopStep, h.waiterStep, h.toOfferSame.offerStep]

end ReadySame

namespace RestSame

variable {s u : State}

theorem oldest_congr {ch ch' : Channel} (h : ch'.slots = ch.slots) (p : Slot → Bool) : ch'.oldest p = ch.oldest p := by
  unfold Channel.oldest; rw [h]

theorem busChoice (h : RestSame s u) : u.busChoice = none ↔ s.busChoice = none := by
  have hc : ∀ c, u.claimantOp c = none ↔ s.claimantOp c = none := by
    intro c
    cases c with
    | inbound => simp only [State.claimantOp, h.queue, Option.map_eq_none_iff]
    | channel c => simp only [State.claimantOp, oldest_congr (h.chanSlots c), Option.map_eq_none_iff]
  unfold State.busChoice Inbound.idle
  rw [h.current, h.held, h.pin, h.served]
  split
  · simp only [List.findSome?_eq_none_iff, Option.map_eq_none_iff, hc]
  · simp

end RestSame

/-- Rest depends only on what rest reads. -/
theorem Rest.of_same {s u : State} (h : Rest s) (k : RestSame s u) : Rest u :=
  ⟨k.firings.trans h.1, k.left.trans h.2.1, k.claims.claimStep.2 h.2.2.1, k.settleStep.2 h.2.2.2.1,
    k.busChoice.2 h.2.2.2.2.1, k.asks.trans h.2.2.2.2.2⟩

theorem Rest.firings {s : State} (h : Rest s) : s.firings = [] := h.1
theorem Rest.left {s : State} (h : Rest s) : s.left = [] := h.2.1
theorem Rest.busChoice {s : State} (h : Rest s) : s.busChoice = none := h.2.2.2.2.1
theorem Rest.asks {s : State} (h : Rest s) : s.asks = [] := h.2.2.2.2.2

/-! ### A response placed at rest -/

/-- At rest, but that an IDLE local master may have a claimant. -/
def Ready (s : State) : Prop :=
  s.firings = [] ∧ s.left = [] ∧ s.claimStep = none ∧ s.settleStep = none ∧ s.asks = []

theorem Rest.ready {s : State} (h : Rest s) : Ready s := ⟨h.1, h.2.1, h.2.2.1, h.2.2.2.1, h.asks⟩

theorem Ready.of_same {s u : State} (h : Ready s) (k : ReadySame s u) : Ready u :=
  ⟨k.firings.trans h.1, k.left.trans h.2.1, k.claims.claimStep.2 h.2.2.1, k.settleStep.2 h.2.2.2.1,
    k.asks.trans h.2.2.2.2⟩

theorem Ready.still {s : State} (h : Ready s) : Still s :=
  ⟨(settleStep_none.1 h.2.2.2.1).1, (settleStep_none.1 h.2.2.2.1).2.1, h.2.1⟩

/-- At rest with room for a response, nobody waits for room. -/
theorem Ready.nobodyWaits {s : State} (h : Ready s) (hr : s.port.responseQ.length < 8) :
    s.inb.held = none ∧ s.ag.heldReply = none := by
  have := (settleStep_none.1 h.2.2.2.1).2.1
  unfold State.waiterStep at this
  rw [if_pos (State.responseRoom_iff.2 hr)] at this
  split at this
  · exact ⟨by assumption, by assumption⟩
  · cases this
  · cases this
  · cases this

/-- At rest the head of the response insertion queue is for another node. -/
theorem Ready.headElsewhere {s : State} (h : Ready s) {r : Response} {l : List Response}
    (hq : s.port.responseQ = r :: l) : r.frame.dest ≠ s.en.ownId := by
  have := (settleStep_none.1 h.2.2.2.1).1
  unfold State.loopStep at this
  rw [hq] at this
  intro e
  simp [e] at this

theorem Rest.nobodyWaits {s : State} (h : Rest s) (hr : s.port.responseQ.length < 8) :
    s.inb.held = none ∧ s.ag.heldReply = none := h.ready.nobodyWaits hr

theorem Rest.headElsewhere {s : State} (h : Rest s) {r : Response} {l : List Response}
    (hq : s.port.responseQ = r :: l) : r.frame.dest ≠ s.en.ownId := h.ready.headElsewhere hq

/-- Only the local master acts. -/
theorem Ready.bus {s : State} (h : Ready s) : s.endOfEvent = s.takeBus := by
  rw [h.still.endOfEvent, takeAsks_eq h.2.2.2.2, takeFirings_eq h.1, serveClaims_eq h.2.2.1, settle_eq h.2.2.2.1]

/-- Firings that have been taken already. -/
theorem endOfEvent_takeFirings {s : State} (h : Still s) (ha : s.asks = []) :
    s.takeFirings.endOfEvent = s.endOfEvent := by
  have h1 : Still s.takeFirings := h.of_changes (takeFirings_changes s) (by decide) (by decide) (by decide) (by decide)
    (by decide)
  rw [h.endOfEvent, h1.endOfEvent, takeAsks_eq ha, takeAsks_eq ((takeFirings_same s).asks.trans ha),
    takeFirings_eq (takeFirings_firings s)]

theorem insertResponse_self {s : State} {f : Frame} (hd : f.dest = s.en.ownId) :
    s.insertResponse (plainResponse f) =
      s.modPort fun p => { p with responseQ := p.responseQ ++ [plainResponse f] } := by
  unfold State.insertResponse
  exact if_pos (Or.inr hd)

/-- A placement leaves the firings as they are. -/
theorem insertResponse_firings (u : State) (cs : List EventCode) (f : Frame) :
    ({ u with firings := cs } : State).insertResponse (plainResponse f) =
      { u.insertResponse (plainResponse f) with firings := cs } := by
  unfold State.insertResponse
  dsimp only
  split
  · rfl
  · rfl

/-- A response that does not leave at once joins the queue, or is discarded: the part stays at rest. -/
theorem Ready.insert_elsewhere {s : State} (h : Ready s) (hr : s.port.responseQ.length < 8) {f : Frame}
    (hn : ¬(f.dest = s.en.ownId ∧ s.port.responseQ = [])) :
    s.insertResponse (plainResponse f) = s.withResponse f ∧ Ready (s.withResponse f) := by
  obtain ⟨hh, hp⟩ := h.nobodyWaits hr
  unfold State.insertResponse State.withResponse
  rw [if_neg hn]
  by_cases hl : s.port.link = .up ∨ f.dest = s.en.ownId
  · rw [if_pos (show s.port.link = .up ∨ (plainResponse f).frame.dest = s.en.ownId from hl), if_pos hl]
    refine ⟨rfl, ?_⟩
    generalize hw : ({ s with port := { s.port with responseQ := s.port.responseQ ++ [⟨f, .plain⟩] } } : State) = w
    have hq : w.port.responseQ = s.port.responseQ ++ [⟨f, .plain⟩] := by rw [← hw]
    have ho : OfferSame s w := by rw [← hw]; exact {}
    have hc : w.claimStep = none := by
      refine (ClaimSame.of_blocks (s := s) (u := w) ?_ ?_ ?_ ?_ ?_ ?_).claimStep.2 h.2.2.1 <;> rw [← hw]
    have hwt : w.waiterStep = none := by
      have h1 : w.inb.held = none := by rw [← hw]; exact hh
      have h2 : w.ag.heldReply = none := by rw [← hw]; exact hp
      unfold State.waiterStep
      rw [h1, h2]
      split <;> rfl
    have hof : w.offerStep = none := ho.offerStep.2 (settleStep_none.1 h.2.2.2.1).2.2
    have hls : w.loopStep = none := by
      unfold State.loopStep
      rw [hq, ho.own]
      split
      · rename_i r l e
        rw [if_neg]
        cases hs : s.port.responseQ with
        | nil =>
          rw [hs] at e
          simp only [List.nil_append, List.cons.injEq] at e
          rw [← e.1]
          exact fun x => hn ⟨x, hs⟩
        | cons r' l' =>
          rw [hs] at e
          simp only [List.cons_append, List.cons.injEq] at e
          rw [← e.1]
          exact h.headElsewhere hs
      · rfl
    exact ⟨by rw [← hw]; exact h.1, by rw [← hw]; exact h.2.1, hc, settleStep_none.2 ⟨hls, hwt, hof⟩,
      by rw [← hw]; exact h.2.2.2.2⟩
  · rw [if_neg (show ¬(s.port.link = .up ∨ (plainResponse f).frame.dest = s.en.ownId) from hl), if_neg hl]
    exact ⟨rfl, h.of_same {}⟩

/-- A self-addressed response, alone in the queue with nobody waiting, is looped before all else that an event ends
with. -/
theorem endOfEvent_loop {w : State} {f : Frame} (hq : w.port.responseQ = [plainResponse f]) (hd : f.dest = w.en.ownId)
    (hh : w.inb.held = none) (hp : w.ag.heldReply = none) (hl : w.left = []) :
    Still (w.loopResponse (plainResponse f)) ∧ w.endOfEvent = (w.loopResponse (plainResponse f)).endOfEvent := by
  have hll : (w.loopResponse (plainResponse f)).left = [] := hl
  have hs : Still (w.loopResponse (plainResponse f)) := by
    refine ⟨?_, ?_, hll⟩
    · have : (w.loopResponse (plainResponse f)).port.responseQ = [] := by
        show w.port.responseQ.tail = []
        rw [hq]; rfl
      unfold State.loopStep
      rw [this]
    · have h1 : (w.loopResponse (plainResponse f)).inb.held = none := hh
      have h2 : (w.loopResponse (plainResponse f)).ag.heldReply = none := hp
      unfold State.waiterStep
      rw [h1, h2]
      split <;> rfl
  have hst : w.responseStep = some (w.loopResponse (plainResponse f)) := by
    unfold State.responseStep State.loopStep
    rw [hq]
    dsimp only
    rw [if_pos (by exact hd)]
    simp only [Option.some_or, Option.map_some]
    rw [drainLeft_eq hll]
  have hr : w.settleResponses = w.loopResponse (plainResponse f) := by
    unfold State.settleResponses
    rw [drainLeft_eq hl]
    have hn : w.settleBound = (w.port.responseQ.length + 159) + 1 := rfl
    rw [hn]
    unfold State.responseSteps
    rw [hst]
    exact responseSteps_eq (responseStep_none.2 ⟨hs.1, hs.2.1⟩) _
  refine ⟨hs, ?_⟩
  rw [hs.endOfEvent]
  unfold State.endOfEvent
  rw [hr]

/-- A response that nobody waits for, looped from an empty queue. -/
theorem loopResponse_placed {s : State} {f : Frame} (hn : f.dest = s.en.ownId ∧ s.port.responseQ = []) :
    (s.modPort fun p => { p with responseQ := p.responseQ ++ [plainResponse f] }).loopResponse (plainResponse f) =
      s.withResponse f := by
  have hq := hn.2
  unfold State.withResponse
  rw [if_pos hn]
  unfold State.loopResponse State.replyBeforeReset State.popResponse State.reportLeft State.countLooped
  simp only [plainResponse, State.modPort, State.countPort, hq, List.nil_append, List.tail_cons]

/-- A response that nobody waits for, placed in a part with room for it and nothing to do but for its local master. -/
theorem Ready.placed {s : State} (h : Ready s) (hr : s.port.responseQ.length < 8) (f : Frame) :
    (s.insertResponse (plainResponse f)).endOfEvent = (s.withResponse f).takeBus := by
  by_cases hn : f.dest = s.en.ownId ∧ s.port.responseQ = []
  · obtain ⟨hh, hp⟩ := h.nobodyWaits hr
    rw [insertResponse_self hn.1, (endOfEvent_loop (w := s.modPort fun p =>
      { p with responseQ := p.responseQ ++ [plainResponse f] }) (f := f) (by simp [hn.2]) hn.1 hh hp h.2.1).2,
      loopResponse_placed hn]
    have hz : Ready (s.withResponse f) := by
      unfold State.withResponse
      rw [if_pos hn]
      exact h.of_same {}
    exact hz.bus
  · obtain ⟨e, hrest⟩ := h.insert_elsewhere hr hn
    rw [e, hrest.bus]

/-- What the local master may take does not depend on a response. -/
theorem withResponse_busChoice (s : State) (f : Frame) : (s.withResponse f).busChoice = s.busChoice := by
  unfold State.withResponse
  repeat' split
  all_goals rfl

/-- A response that nobody waits for, placed in a part at rest with room for it. -/
theorem Rest.placed {s : State} (h : Rest s) (hr : s.port.responseQ.length < 8) (f : Frame) :
    (s.insertResponse (plainResponse f)).endOfEvent = s.withResponse f := by
  rw [h.ready.placed hr, takeBus_eq ((withResponse_busChoice s f).trans h.busChoice)]

theorem Rest.insert_elsewhere {s : State} (h : Rest s) (hr : s.port.responseQ.length < 8) {f : Frame}
    (hn : ¬(f.dest = s.en.ownId ∧ s.port.responseQ = [])) :
    s.insertResponse (plainResponse f) = s.withResponse f ∧ Rest (s.withResponse f) := by
  obtain ⟨e, r⟩ := h.ready.insert_elsewhere hr hn
  exact ⟨e, r.1, r.2.1, r.2.2.1, r.2.2.2.1, (withResponse_busChoice s f).trans h.busChoice, r.2.2.2.2⟩

/-- The agent's reply, placed in a part where it is ready: placed, or held for want of room (R138). -/
theorem AgentReady.reply {s : State} (h : AgentReady s) (f : Frame) :
    (s.agentPlace f .plain).endOfEvent = s.withReply f := by
  obtain ⟨hr, hi, hh, hp⟩ := h
  have hag : ({ s.ag with heldReply := none, state := .idle, resetPending := false } : Agent) = s.ag := by
    cases hs : s.ag; simp_all
  unfold State.agentPlace State.placeResponse State.withReply
  by_cases hroom : s.port.responseQ.length < 8
  · rw [if_pos (State.responseRoom_iff.2 hroom), if_pos hroom]
    have hag' : ∀ t : State, t.ag = s.ag →
        (t.modAg fun a => { a with heldReply := none, state := if a.resetPending then .executing else .idle }) = t := by
      intro t ht
      unfold State.modAg
      rw [ht]
      simp only [hp, Bool.false_eq_true, if_false]
      rw [hag, ← ht]
    dsimp only
    rw [hag']
    · exact hr.placed hroom f
    · unfold State.insertResponse; split <;> rfl
  · rw [if_neg (fun x => hroom (State.responseRoom_iff.1 x)), if_neg hroom]
    dsimp only
    have : Rest (s.modAg fun a => { a with heldReply := some ⟨f, .plain, s.now⟩, state := .executing }) := by
      obtain ⟨h1, h2, h3, h4, h5, h6⟩ := hr
      obtain ⟨s1, s2, s3⟩ := settleStep_none.1 h4
      refine ⟨h1, h2, ?_, ?_, h5, h6⟩
      · exact (ClaimSame.of_blocks (s := s) (u := s.modAg _) rfl rfl rfl rfl rfl rfl).claimStep.2 h3
      · rw [settleStep_none]
        refine ⟨(loopStep_congr (s := s) (u := s.modAg _) rfl rfl).2 s1, ?_,
          ({} : OfferSame s (s.modAg _)).offerStep.2 s3⟩
        unfold State.waiterStep
        rw [if_neg]
        exact fun x => hroom (State.responseRoom_iff.1 x)
    rw [endOfEvent_eq this]
    rfl

/-! ### Codes fired at rest -/

/-- What the firing of codes routed to lines, or nowhere, leaves. -/
theorem takeFirings_lines (s : State) (h : ∀ c ∈ s.firings, (s.routeEntry c).route ≠ .ring) :
    ∃ p, s.takeFirings = { s with firings := [], ev := { s.ev with pendingSet := p } } := by
  have key : ∀ (l : List EventCode) (v : State), (∀ c ∈ l, (v.routeEntry c).route ≠ .ring) →
      ∃ p, l.foldl State.takeFiring v = { v with ev := { v.ev with pendingSet := p } } := by
    intro l
    induction l with
    | nil => intro v _; exact ⟨v.ev.pendingSet, rfl⟩
    | cons c l ih =>
      intro v hv
      have hc := hv c (by simp)
      have h1 : ∃ p, v.takeFiring c = { v with ev := { v.ev with pendingSet := p } } := by
        unfold State.takeFiring
        split
        · exact ⟨v.ev.pendingSet, rfl⟩
        · exact ⟨_, rfl⟩
        · exact ⟨_, rfl⟩
        · rename_i e; exact absurd e hc
      obtain ⟨p, hp⟩ := h1
      obtain ⟨q, hq⟩ := ih (v.takeFiring c) (by
        intro d hd
        rw [hp]
        exact hv d (by simp [hd]))
      refine ⟨q, ?_⟩
      rw [List.foldl_cons, hq, hp]
  exact key s.firings { s with firings := [] } h

theorem getLsbD_twoPow19 (c d : EventCode) : (BitVec.twoPow 19 c.val).getLsbD d.val = (c == d) := by
  rw [BitVec.getLsbD_twoPow]
  have := c.isLt
  have := d.isLt
  by_cases h : c = d
  · subst h; simp
  · have : c.val ≠ d.val := fun e => h (Fin.ext e)
    simp [h, this]

/-- What the firings leave of the pending set. -/
theorem takeFirings_fired (s : State) : Fired s.firings s s.takeFirings := by
  have hring : ∀ (v : State) (c : EventCode), (v.ringFire c).ev.pendingSet = v.ev.pendingSet := by
    intro v c
    unfold State.ringFire
    dsimp only
    split
    · rfl
    · split
      · rename_i e
        have := (eventAlloc_same e).2.1
        show _ = v.ev.pendingSet
        rw [← this]
        rfl
      · rfl
  have one : ∀ (v : State) (c d : EventCode), (v.takeFiring c).ev.pendingSet.getLsbD d.val =
      (v.ev.pendingSet.getLsbD d.val || ((c == d) && (v.routeEntry c).route.isLine)) := by
    intro v c d
    unfold State.takeFiring
    split
    · rename_i e; rw [e]; simp [Route.isLine]
    · rename_i e; rw [e]
      simp only [State.modEv_ev, Events.addPending, BitVec.getLsbD_or, getLsbD_twoPow19, Route.isLine, Bool.and_true]
    · rename_i e; rw [e]
      simp only [State.modEv_ev, Events.addPending, BitVec.getLsbD_or, getLsbD_twoPow19, Route.isLine, Bool.and_true]
    · rename_i e; rw [e, hring]; simp [Route.isLine]
  have key : ∀ (l : List EventCode) (v : State), Fired l v (l.foldl State.takeFiring v) := by
    intro l
    induction l with
    | nil => intro v c; simp
    | cons c l ih =>
      intro v d
      rw [List.foldl_cons, ih (v.takeFiring c) d, one]
      have hr : (v.takeFiring c).routeEntry d = v.routeEntry d := by
        unfold State.routeEntry; rw [(takeFiring_ev v c).routes]
      rw [hr]
      rw [List.contains_cons]
      by_cases h : c = d
      · subst h
        simp only [beq_self_eq_true, Bool.true_and, Bool.true_or]
        cases v.ev.pendingSet.getLsbD c.val <;> cases (v.routeEntry c).route.isLine <;> simp
      · have h1 : (c == d) = false := by simpa using h
        have h2 : (d == c) = false := by simpa using fun e : d = c => h e.symm
        rw [h1, h2, Bool.false_and, Bool.or_false, Bool.false_or]
  exact key s.firings { s with firings := [] }

theorem firedFrame_lines {s : State} {cs : List EventCode} (h : ∀ c ∈ cs, (s.routeEntry c).route ≠ .ring) :
    s.firedFrame cs = [.pendingSet] := by
  unfold State.firedFrame
  rw [if_pos]
  simpa using h

theorem firedFrame_ring {s : State} {cs : List EventCode} (h : ¬ ∀ c ∈ cs, (s.routeEntry c).route ≠ .ring) :
    s.firedFrame cs = calmParts := by
  unfold State.firedFrame
  rw [if_neg]
  simpa using h

/-- Codes that fire in a part at rest. -/
theorem Rest.settled {u : State} (h : Rest u) (cs : List EventCode) :
    Settled cs u ({ u with firings := cs } : State).endOfEvent := by
  generalize hw : ({ u with firings := cs } : State) = w
  have hs : Still w := by
    rw [← hw]; exact h.still.congr rfl rfl rfl rfl rfl
  have hwf : w.firings = cs := by rw [← hw]
  have hwr : ∀ c, w.routeEntry c = u.routeEntry c := by rw [← hw]; intro c; rfl
  have cu : Changes [.firings] u w := by
    rw [← hw]
    intro p hp
    cases p <;> first | exact absurd (by decide) hp | simp [Part.same]
  refine ⟨?_, ?_⟩
  · intro c
    have hwa : w.takeAsks = w := takeAsks_eq (by rw [← hw]; exact h.asks)
    have e : w.endOfEvent.ev.pendingSet = w.takeFirings.ev.pendingSet := by
      have := (hs.after : Changes _ _ _) .pendingSet (by decide)
      rw [hwa] at this
      exact this
    rw [e, takeFirings_fired w c, hwf, hwr, ← hw]
  · by_cases hl : ∀ c ∈ cs, (u.routeEntry c).route ≠ .ring
    · rw [firedFrame_lines hl]
      obtain ⟨p, hp⟩ := takeFirings_lines w (by intro c hc; rw [hwr]; exact hl c (hwf ▸ hc))
      have hu : w.takeFirings = { u with ev := { u.ev with pendingSet := p } } := by
        rw [hp, ← hw]
        cases u
        simp_all [Rest]
      rw [← endOfEvent_takeFirings hs (by rw [← hw]; exact h.asks), hu, endOfEvent_eq (h.of_same {})]
      intro q hq
      cases q <;> first | exact absurd (by decide) hq | simp [Part.same]
    · rw [firedFrame_ring hl]
      have c := (cu.mono (ys := .firings :: .asks :: calmParts) (by decide)).trans (endOfEvent_changes hs)
      intro p hp
      by_cases hpf : p = .firings
      · subst hpf
        show _ = _
        rw [(endOfEvent_rest w).1, h.1]
      · by_cases hpa : p = .asks
        · subst hpa
          show _ = _
          rw [(endOfEvent_rest w).asks, h.asks]
        · exact c p (by simp [hp, hpf, hpa])

/-- Codes that fire, and a response that nobody waits for, placed, in a part at rest with room for it: the response
has been taken in as `State.withResponse` says when the firings are taken. -/
theorem Rest.settledPlaced {u : State} (h : Rest u) (hr : u.port.responseQ.length < 8) (cs : List EventCode)
    (f : Frame) :
    let t := State.endOfEvent { u.withResponse f with firings := cs }
    (({ u with firings := cs } : State).insertResponse (plainResponse f)).endOfEvent = t ∧
      Settled cs (u.withResponse f) t := by
  intro t
  by_cases hn : f.dest = u.en.ownId ∧ u.port.responseQ = []
  · obtain ⟨hh, hp⟩ := h.nobodyWaits hr
    have hw : Rest (u.withResponse f) := by
      unfold State.withResponse
      rw [if_pos hn]
      exact h.of_same {}
    have hv : ({ u with firings := cs } : State).withResponse f = { u.withResponse f with firings := cs } := by
      unfold State.withResponse
      rw [if_pos hn, if_pos (by exact hn)]
    rw [insertResponse_self (s := { u with firings := cs }) hn.1, (endOfEvent_loop (w := ({ u with firings := cs } :
      State).modPort fun p => { p with responseQ := p.responseQ ++ [plainResponse f] }) (f := f) (by simp [hn.2]) hn.1
      hh hp h.2.1).2, loopResponse_placed (s := { u with firings := cs }) hn, hv]
    exact ⟨rfl, hw.settled cs⟩
  · obtain ⟨e, hrest⟩ := h.insert_elsewhere hr hn
    rw [insertResponse_firings u cs f, e]
    exact ⟨rfl, hrest.settled cs⟩

end Sys2Proof.Machine
end

