-- ==== Sys2Proof/Laws/Flow.lean ====
section
/-! SUPPORT. The end of an event in which responses leave or are placed: what it may change when no NODE reset is
pending, and when every response that can move is one that nobody waits for. -/

namespace Sys2Proof.Machine

/-! ### With no NODE reset pending -/

/-- What the settling may change, besides a NODE reset. -/
def flowParts : List Part :=
  [.left, .responses, .rt, .offer, .loop, .portLocal, .held, .agentRun, .control, .outstanding]

theorem presentControl_changes (s : State) (f : Frame) : Changes [.control, .portLocal] s (s.presentControl f) := by
  unfold State.presentControl
  split
  · intro p hp
    cases p <;> first | exact absurd (by decide) hp | simp [Part.same]
  · split
    · intro p hp
      cases p <;> first | exact absurd (by decide) hp | simp [Part.same, State.countDiscarded]
    · intro p hp
      cases p <;> first | exact absurd (by decide) hp | simp [Part.same, State.countDiscarded]

theorem presentOutstanding_changes (s : State) :
    Changes [.control, .portLocal, .outstanding] s s.presentOutstanding := by
  unfold State.presentOutstanding
  split
  · intro p hp
    cases p <;> first | exact absurd (by decide) hp | simp [Part.same]
  · exact (presentControl_changes s _).mono (by decide)

/-- What a report may change when no NODE reset is pending. -/
def reportParts : List Part := [.control, .portLocal, .outstanding]

/-- With no NODE reset pending a report presents at most a RING_RESET, or lets it lapse. -/
theorem leftReport_changes {s : State} (h : s.ag.resetPending = false) (p : Purpose) :
    Changes reportParts s (s.leftReport p) := by
  cases p <;> dsimp only [State.leftReport]
  · exact Changes.refl s
  · rw [h]; exact Changes.refl s
  · split
    · exact presentOutstanding_changes s
    · exact Changes.refl s

theorem drainLeft_changes {s : State} (h : s.ag.resetPending = false) :
    Changes (.left :: reportParts) s s.drainLeft := by
  have key : ∀ (l : List Purpose) (v : State), v.ag.resetPending = false →
      Changes reportParts v (l.foldl State.leftReport v) := by
    intro l
    induction l with
    | nil => intro v _; exact Changes.refl v
    | cons p l ih =>
      intro v hv
      have c := leftReport_changes hv p
      have : (v.leftReport p).ag.resetPending = false :=
        (c .agentRun (by decide)).2.2.2.trans hv
      exact c.trans (ih _ this)
  have c : Changes [.left] s { s with left := [] } := by
    intro p hp
    cases p <;> first | exact absurd (by decide) hp | simp [Part.same]
  exact (c.mono (by decide)).trans ((key s.left { s with left := [] } h).mono (by decide))

theorem insertResponse_changes (s : State) (r : Response) :
    Changes [.responses, .portLocal, .left] s (s.insertResponse r) := by
  unfold State.insertResponse
  split
  · intro p hp
    cases p <;> first | exact absurd (by decide) hp | simp [Part.same]
  · intro p hp
    unfold State.reportLeft
    cases r.purpose <;> cases p <;> first
      | exact absurd (by decide) hp
      | simp [Part.same, State.countDiscarded]

theorem agentPlace_changes (s : State) (f : Frame) (q : Purpose) :
    Changes [.responses, .portLocal, .left, .agentRun] s (s.agentPlace f q) ∧
      (s.agentPlace f q).ag.resetPending = s.ag.resetPending := by
  unfold State.agentPlace State.placeResponse
  split
  · rename_i s' e
    split at e
    · cases e
      refine ⟨((insertResponse_changes s ⟨f, q⟩).mono (by decide)).trans ?_, ?_⟩
      · intro p hp
        cases p <;> first | exact absurd (by decide) hp | simp [Part.same]
      · exact ((insertResponse_changes s ⟨f, q⟩) .agentRun (by decide)).2.2.2
    · cases e
  · refine ⟨?_, rfl⟩
    intro p hp
    cases p <;> first | exact absurd (by decide) hp | simp [Part.same]

/-- With no NODE reset pending a looped response waits on the loop path. -/
theorem loopResponse_changes {s : State} (h : s.ag.resetPending = false) (r : Response) :
    Changes [.responses, .loop, .portLocal, .left] s (s.loopResponse r) := by
  intro p hp
  unfold State.loopResponse State.reportLeft
  rw [replyBeforeReset_idle h]
  cases r.purpose <;> cases p <;> first
    | exact absurd (by decide) hp
    | simp [Part.same, State.popResponse, State.countLooped]

theorem waiterStep_changes {s u : State} (h : s.waiterStep = some u) :
    Changes [.held, .agentRun, .responses, .portLocal, .left] s u ∧ u.ag.resetPending = s.ag.resetPending := by
  obtain ⟨_, ⟨a, _, rfl⟩ | ⟨p, _, rfl⟩⟩ := waiterStep_some h
  · refine ⟨?_, ?_⟩
    · refine Changes.trans (t := s.modInb fun i => { i with held := none }) ?_
        ((insertResponse_changes _ _).mono (by decide))
      intro p hp
      cases p <;> first | exact absurd (by decide) hp | simp [Part.same]
    · exact ((insertResponse_changes (s.modInb fun i => { i with held := none }) (plainResponse a.frame)) .agentRun
        (by decide)).2.2.2
  · exact ⟨(agentPlace_changes s _ _).1.mono (by decide), (agentPlace_changes s _ _).2⟩

theorem responseStep_flow {s u : State} (h : s.responseStep = some u) (hp : s.ag.resetPending = false) :
    Changes flowParts s u ∧ u.ag.resetPending = false := by
  obtain ⟨w, rfl, hw⟩ := responseStep_some h
  have key : Changes flowParts s w ∧ w.ag.resetPending = false := by
    rcases hw with hw | hw
    · obtain ⟨r, l, _, _, rfl⟩ := loopStep_some hw
      have c := loopResponse_changes hp r
      exact ⟨c.mono (by decide), (c .agentRun (by decide)).2.2.2.trans hp⟩
    · have c := waiterStep_changes hw
      exact ⟨c.1.mono (by decide), c.2.trans hp⟩
  have c := drainLeft_changes key.2
  exact ⟨key.1.trans (c.mono (by decide)), (c .agentRun (by decide)).2.2.2.trans key.2⟩

theorem settleStep_flow {s u : State} (h : s.settleStep = some u) (hp : s.ag.resetPending = false) :
    Changes flowParts s u ∧ u.ag.resetPending = false := by
  rcases settleStep_cases h with h | ⟨w, rfl, hw⟩
  · exact responseStep_flow h hp
  · have c := offerStep_changes hw
    have hw' : w.ag.resetPending = false := (c .agentRun (by decide)).2.2.2.trans hp
    have d := drainLeft_changes hw'
    exact ⟨(c.mono (by decide)).trans (d.mono (by decide)), (d .agentRun (by decide)).2.2.2.trans hw'⟩

theorem settleSteps_flow (n : Nat) {s : State} (hp : s.ag.resetPending = false) :
    Changes flowParts s (s.settleSteps n) := by
  induction n generalizing s with
  | zero => exact Changes.refl s
  | succ n ih =>
    unfold State.settleSteps
    split
    · rename_i u hu
      obtain ⟨c, hu'⟩ := settleStep_flow hu hp
      exact c.trans (ih hu')
    · exact Changes.refl s

theorem responseSteps_flow (n : Nat) {s : State} (hp : s.ag.resetPending = false) :
    Changes flowParts s (s.responseSteps n) ∧ (s.responseSteps n).ag.resetPending = false := by
  induction n generalizing s with
  | zero => exact ⟨Changes.refl s, hp⟩
  | succ n ih =>
    unfold State.responseSteps
    split
    · rename_i u hu
      obtain ⟨c, hu'⟩ := responseStep_flow hu hp
      exact ⟨c.trans (ih hu').1, (ih hu').2⟩
    · exact ⟨Changes.refl s, hp⟩

/-- What the responses may change when no NODE reset is pending. -/
theorem settleResponses_flow {s : State} (hp : s.ag.resetPending = false) :
    Changes flowParts s s.settleResponses ∧ s.settleResponses.ag.resetPending = false := by
  have c := drainLeft_changes hp
  have h := responseSteps_flow s.drainLeft.settleBound ((c .agentRun (by decide)).2.2.2.trans hp)
  exact ⟨(c.mono (by decide)).trans h.1, h.2⟩

/-- Codes that have fired, when neither they nor the routes nor the pending set have changed before they are taken, nor
the pending set after. -/
theorem Fired.between {s a b : State} {ys zs : List Part} (c : Changes ys s a) (d : Changes zs a.takeFirings b)
    (h1 : Part.firings ∉ ys) (h2 : Part.routes ∉ ys) (h3 : Part.pendingSet ∉ ys) (h4 : Part.pendingSet ∉ zs) :
    Fired s.firings s b := by
  intro x
  have e1 : a.firings = s.firings := c _ h1
  have e2 : a.ev.routes = s.ev.routes := c _ h2
  have e3 : a.ev.pendingSet = s.ev.pendingSet := c _ h3
  have e4 : b.ev.pendingSet = a.takeFirings.ev.pendingSet := d _ h4
  rw [e4, takeFirings_fired a x, e1, e3]
  unfold State.routeEntry
  rw [e2]

/-- What follows the firings when no NODE reset is pending. -/
theorem afterFirings_flow {a : State} (hp : a.ag.resetPending = false) :
    Changes (claimParts ++ flowParts ++ [.bus]) a.takeFirings a.takeFirings.serveClaims.settle.takeBus := by
  have h1 : a.takeFirings.ag.resetPending = false :=
    ((takeFirings_changes a) .agentRun (by decide)).2.2.2.trans hp
  have c2 := serveClaims_changes a.takeFirings
  have h2 : a.takeFirings.serveClaims.ag.resetPending = false := (c2 .agentRun (by decide)).2.2.2.trans h1
  exact (c2.append (settleSteps_flow _ h2)).append (takeBus_changes _)

/-- What the end of an event may change when no NODE reset is pending, and the codes that have fired. -/
theorem endOfEvent_flow_fired {s : State} (hp : s.ag.resetPending = false) :
    Changes (.firings :: .left :: .asks :: movingParts) s s.endOfEvent ∧ Fired s.firings s s.endOfEvent := by
  obtain ⟨c1, h1⟩ := settleResponses_flow hp
  have c2 := takeAsks_changes s.settleResponses
  have h2 : s.settleResponses.takeAsks.ag.resetPending = false := (c2 .agentRun (by decide)).2.2.2.trans h1
  have c := c1.append c2
  have d := afterFirings_flow h2
  exact ⟨((c.append (takeFirings_changes _)).append d).mono (by decide),
    Fired.between c d (by decide) (by decide) (by decide) (by decide)⟩

theorem endOfEvent_flow {s : State} (hp : s.ag.resetPending = false) :
    Changes (.firings :: .left :: .asks :: movingParts) s s.endOfEvent := (endOfEvent_flow_fired hp).1

theorem endOfEvent_fired {s : State} (hp : s.ag.resetPending = false) : Fired s.firings s s.endOfEvent :=
  (endOfEvent_flow_fired hp).2

/-! ### With responses that nobody waits for -/

/-- Every response that could move is one that nobody waits for. -/
def Quiet (s : State) : Prop :=
  s.left = [] ∧ ((s.loopStep = none ∧ s.waiterStep = none) ∨
    (s.inb.held = none ∧ s.ag.heldReply = none ∧ ∀ r ∈ s.port.responseQ, r.purpose = .plain))

theorem Still.quiet {s : State} (h : Still s) : Quiet s := ⟨h.2.2, .inl ⟨h.1, h.2.1⟩⟩

theorem Quiet.of_changes {s u : State} {ys : List Part} (h : Quiet s) (hc : Changes ys s u)
    (h1 : Part.responses ∉ ys) (h2 : Part.en ∉ ys) (h3 : Part.held ∉ ys) (h4 : Part.agentRun ∉ ys)
    (h5 : Part.left ∉ ys) : Quiet u := by
  obtain ⟨hl, ⟨a, b⟩ | ⟨a, b, c⟩⟩ := h
  · exact (Still.of_changes ⟨a, b, hl⟩ hc h1 h2 h3 h4 h5).quiet
  · refine ⟨(hc _ h5 : _ = _).trans hl, .inr ⟨(hc _ h3 : _ = _).trans a, (hc _ h4).2.1.trans b, ?_⟩⟩
    rw [(hc _ h1 : _ = _)]; exact c

/-- What settling may change in a quiet part. -/
def quietFlow : List Part := [.responses, .rt, .offer, .loop, .portLocal]

theorem responseStep_quiet {s u : State} (h : s.responseStep = some u) (hq : Quiet s) :
    Changes quietFlow s u ∧ Quiet u := by
  obtain ⟨w, rfl, hw⟩ := responseStep_some h
  obtain ⟨hl, hs⟩ := hq
  rcases hw with hw | hw
  · obtain ⟨r, l, hr, _, rfl⟩ := loopStep_some hw
    rcases hs with ⟨a, _⟩ | ⟨a, b, c⟩
    · rw [a] at hw; cases hw
    · have hpl : r.purpose = .plain := c r (by rw [hr]; simp)
      have hleft : (s.loopResponse r).left = [] := by
        unfold State.loopResponse State.replyBeforeReset State.reportLeft
        rw [hpl]; exact hl
      rw [drainLeft_eq hleft]
      have hc : Changes quietFlow s (s.loopResponse r) := by
        intro p hp
        unfold State.loopResponse State.replyBeforeReset State.reportLeft
        rw [hpl]
        cases p <;> first | exact absurd (by decide) hp | simp [Part.same, State.popResponse, State.countLooped]
      have hq' : (s.loopResponse r).port.responseQ = l := by
        unfold State.loopResponse State.replyBeforeReset State.reportLeft
        rw [hpl]
        show s.port.responseQ.tail = l
        rw [hr]; rfl
      refine ⟨hc, hleft, .inr ⟨(hc .held (by decide) : _ = _).trans a, (hc .agentRun (by decide)).2.1.trans b, ?_⟩⟩
      rw [hq']
      intro x hx
      exact c x (by rw [hr]; exact List.mem_cons_of_mem _ hx)
  · rcases hs with ⟨_, b⟩ | ⟨a, b, _⟩
    · rw [b] at hw; cases hw
    · unfold State.waiterStep at hw
      rw [a, b] at hw
      split at hw <;> cases hw

theorem responseSteps_quiet (n : Nat) {s : State} (h : Quiet s) :
    Changes quietFlow s (s.responseSteps n) ∧ Quiet (s.responseSteps n) := by
  induction n generalizing s with
  | zero => exact ⟨Changes.refl s, h⟩
  | succ n ih =>
    unfold State.responseSteps
    split
    · rename_i u hu
      obtain ⟨c, hq⟩ := responseStep_quiet hu h
      exact ⟨c.trans (ih hq).1, (ih hq).2⟩
    · exact ⟨Changes.refl s, h⟩

/-- What the responses may change in a quiet part. -/
theorem settleResponses_quiet {s : State} (h : Quiet s) :
    Changes quietFlow s s.settleResponses ∧ Quiet s.settleResponses := by
  unfold State.settleResponses
  rw [drainLeft_eq h.1]
  exact responseSteps_quiet _ h

theorem settleStep_quiet {s u : State} (h : s.settleStep = some u) (hq : Quiet s) :
    Changes quietFlow s u ∧ Quiet u := by
  rcases settleStep_cases h with h | ⟨w, rfl, hw⟩
  · exact responseStep_quiet h hq
  · have c := offerStep_changes hw
    have hq' : Quiet w := hq.of_changes c (by decide) (by decide) (by decide) (by decide) (by decide)
    rw [drainLeft_eq hq'.1]
    exact ⟨c.mono (by decide), hq'⟩

theorem settleSteps_quiet (n : Nat) {s : State} (h : Quiet s) : Changes quietFlow s (s.settleSteps n) := by
  induction n generalizing s with
  | zero => exact Changes.refl s
  | succ n ih =>
    unfold State.settleSteps
    split
    · rename_i u hu
      obtain ⟨c, hq⟩ := settleStep_quiet hu h
      exact c.trans (ih hq)
    · exact Changes.refl s

/-- What follows the firings in a quiet part. -/
theorem afterFirings_quiet {a : State} (h : Quiet a) :
    Changes (claimParts ++ quietFlow ++ [.bus]) a.takeFirings a.takeFirings.serveClaims.settle.takeBus := by
  have h1 : Quiet a.takeFirings := h.of_changes (takeFirings_changes a) (by decide) (by decide) (by decide) (by decide)
    (by decide)
  have c2 := serveClaims_changes a.takeFirings
  have h2 : Quiet a.takeFirings.serveClaims :=
    h1.of_changes c2 (by decide) (by decide) (by decide) (by decide) (by decide)
  exact (c2.append (settleSteps_quiet _ h2)).append (takeBus_changes _)

/-- What the end of an event may change in a quiet part, and the codes that have fired. -/
theorem endOfEvent_quiet_both {s : State} (h : Quiet s) :
    Changes (.firings :: .asks :: quietParts) s s.endOfEvent ∧ Fired s.firings s s.endOfEvent := by
  obtain ⟨c1, h1⟩ := settleResponses_quiet h
  have c2 := takeAsks_changes s.settleResponses
  have h2 : Quiet s.settleResponses.takeAsks :=
    h1.of_changes c2 (by decide) (by decide) (by decide) (by decide) (by decide)
  have c := c1.append c2
  have d := afterFirings_quiet h2
  exact ⟨((c.append (takeFirings_changes _)).append d).mono (by decide),
    Fired.between c d (by decide) (by decide) (by decide) (by decide)⟩

theorem endOfEvent_quiet {s : State} (h : Quiet s) : Changes (.firings :: .asks :: quietParts) s s.endOfEvent :=
  (endOfEvent_quiet_both h).1

theorem endOfEvent_quiet_fired {s : State} (h : Quiet s) : Fired s.firings s s.endOfEvent :=
  (endOfEvent_quiet_both h).2

end Sys2Proof.Machine
end

