-- ==== Sys2Proof/Laws/Commands.lean ====
section
/-! SUPPORT. What a command answers, by the shape of its effect: the part at rest, codes fired in it, one response
placed in it. -/

namespace Sys2Proof.Machine

variable {s u : State} {f : State → State}

/-- The effect leaves the part at rest. -/
theorem event_rest (h : f s.begin = u) (hu : Rest u) : s.event f = .next u := by
  unfold State.event; rw [h, endOfEvent_eq hu]

/-- The effect leaves the part at rest, but for codes it fired. -/
theorem event_settled {cs : List EventCode} (h : f s.begin = { u with firings := cs }) (hu : Rest u) :
    let t := State.endOfEvent { u with firings := cs }
    s.event f = .next t ∧ Settled cs u t := by
  unfold State.event; rw [h]; exact ⟨rfl, hu.settled cs⟩

/-- The effect leaves the part at rest, but for a response it placed. -/
theorem event_placed {r : Frame} (h : f s.begin = u.insertResponse (plainResponse r)) (hu : Rest u)
    (hr : u.port.responseQ.length < 8) : s.event f = .next (u.withResponse r) := by
  unfold State.event; rw [h, hu.placed hr]

/-- The effect leaves the part at rest, but for a response it placed and codes it fired. -/
theorem event_settledPlaced {r : Frame} {cs : List EventCode}
    (h : f s.begin = ({ u with firings := cs } : State).insertResponse (plainResponse r)) (hu : Rest u)
    (hr : u.port.responseQ.length < 8) :
    let t := State.endOfEvent { u.withResponse r with firings := cs }
    s.event f = .next t ∧ Settled cs (u.withResponse r) t := by
  obtain ⟨e, k⟩ := hu.settledPlaced hr cs r
  unfold State.event; rw [h, e]; exact ⟨rfl, k⟩

/-- The effect leaves the part at rest, but that an IDLE local master may have a claimant. -/
theorem event_bus (h : f s.begin = u) (hu : Ready u) : s.event f = .next u.takeBus := by
  unfold State.event; rw [h, hu.bus]

/-- The same, with a response placed. -/
theorem event_placedBus {r : Frame} (h : f s.begin = u.insertResponse (plainResponse r)) (hu : Ready u)
    (hr : u.port.responseQ.length < 8) : s.event f = .next (u.withResponse r).takeBus := by
  unfold State.event; rw [h, hu.placed hr]

/-- An event begins in a part at rest. -/
theorem Rest.begin (h : Rest s) : Rest s.begin := h.of_same {}

/-- A part at rest has no firings and no reports. -/
theorem Rest.withFirings (h : Rest s) : ({ s with firings := [] } : State) = s := by
  cases s; cases h.1; rfl

/-- A fault record arrives, and FAULT_RECORDED fires (R147). -/
theorem recordFault_eq (s : State) (r : FaultRecord) :
    s.recordFault r = { s with ag := s.ag.withRecord r, firings := s.firings ++ [codeFaultRecorded] } := by
  unfold State.recordFault Agent.withRecord State.modAg State.fire faultQueueSize
  by_cases h : s.ag.faults.length < 16
  · simp [h]
  · simp [h]

/-- One code that fires is taken by its route. -/
theorem takeFirings_one {s : State} {c : EventCode} (h : s.firings = [c]) :
    s.takeFirings = ({ s with firings := [] } : State).takeFiring c := by
  unfold State.takeFirings; rw [h]; rfl

/-- A code routed to line 0 joins the pending set. -/
theorem takeFiring_line0 {s : State} {c : EventCode} (h : (s.routeEntry c).route = .line0) :
    s.takeFiring c = { s with ev := s.ev.addPending c } := by
  unfold State.takeFiring; rw [h]; rfl

/-- At rest the link may enter UP: while it is not UP no request is offered. -/
theorem Rest.linkUp (h : Rest s) (hl : s.port.link ≠ .up ∨ u.port.link = s.port.link)
    (ho : u.en.ownId = s.en.ownId := by rfl) (hr : u.en.role = s.en.role := by rfl)
    (he : u.rt = s.rt := by rfl) (hs : u.ord = s.ord := by rfl) (ha : u.ag = s.ag := by rfl)
    (hi : u.inb = s.inb := by rfl) (hb : u.bm = s.bm := by rfl) (hv : u.ev = s.ev := by rfl)
    (hf : u.firings = s.firings := by rfl) (hp : u.left = s.left := by rfl)
    (hk : u.asks = s.asks := by rfl)
    (hpin : u.localResetIn = s.localResetIn := by rfl) (hoff : u.port.offer = s.port.offer := by rfl)
    (hq : u.port.responseQ = s.port.responseQ := by rfl) : Rest u := by
  rcases hl with hl | hl
  · have h3 := (settleStep_none.1 h.2.2.2.1)
    have hoffer : s.port.offer = none := by
      cases hx : s.port.offer with
      | none => rfl
      | some t =>
        have := h3.2.2
        unfold State.offerStep at this
        rw [hx] at this
        dsimp only at this
        split at this
        · cases this
        · split at this
          · cases this
          · cases this
    have hnext : s.nextOffer = none := by
      have := h3.2.2
      unfold State.offerStep at this
      rw [hoffer] at this
      dsimp only at this
      split at this
      · cases this
      · assumption
    have hc : ClaimSame s u := by
      refine ⟨by unfold State.numbered; rw [hr], by rw [he], fun c => channelHolds_congr (by rw [he])
        (fun t => by unfold State.entry; rw [he]) c, fun d => by unfold State.sendOf; rw [hs], by rw [ha],
        fun c => by unfold State.isHeld State.ringRoute; rw [hv], by rw [hv], ?_, by rw [hb]⟩
      intro c; cases c <;> simp only [State.chan, hb]
    have hn : u.nextOffer = none := by
      have k : ({ u with port := { u.port with link := s.port.link } } : State).nextOffer = u.nextOffer := rfl
      rw [← k, ← hnext]
      have ho' : OfferSame s ({ u with port := { u.port with link := s.port.link } } : State) :=
        ⟨ho, hr, by rw [he], by rw [he], by rw [hs], rfl, hoff⟩
      unfold State.nextOffer
      rw [ho'.numbered, ho'.order, funext ho'.eligible]
    refine ⟨hf.trans h.1, hp.trans h.2.1, hc.claimStep.2 h.2.2.1, ?_, ?_, hk.trans h.asks⟩
    · rw [settleStep_none]
      refine ⟨(loopStep_congr hq ho).2 h3.1, ?_, ?_⟩
      · have hx := h3.2.1
        have : u.waiterStep = none ↔ s.waiterStep = none := by
          unfold State.waiterStep State.responseRoom
          rw [hq, hi, ha]
          repeat' split
          all_goals simp
        exact this.2 hx
      · unfold State.offerStep
        rw [hoff, hoffer, hn]
    · have : u.busChoice = none ↔ s.busChoice = none := by
        have k : ∀ c, u.claimantOp c = none ↔ s.claimantOp c = none := by
          intro c
          cases c with
          | inbound => simp only [State.claimantOp, hi, Option.map_eq_none_iff]
          | channel c => cases c <;> simp only [State.claimantOp, State.chan, hb, Option.map_eq_none_iff]
        unfold State.busChoice Inbound.idle
        rw [hi, hpin]
        split
        · simp only [List.findSome?_eq_none_iff, Option.map_eq_none_iff, k]
        · simp
      exact this.2 h.busChoice
  · refine h.of_same ⟨⟨⟨ho, hr, by rw [he], by rw [he], by rw [hs], hl, hoff⟩, hf, hp, hk, by rw [he], by rw [ha], by rw [ha],
      by rw [hi], hq, ?_, by rw [hv], by rw [hb], by rw [hb], by rw [hb]⟩, by rw [hi], by rw [hi], by rw [hi], hpin⟩
    intro c; unfold State.isHeld State.ringRoute; rw [hv]

/-! ### The agent's answers -/

/-- The agent stays ready while what rest and its run read stay the same. -/
theorem AgentReady.same {s u : State} (h : AgentReady s) (k : RestSame s u) (ha : u.ag.state = s.ag.state := by rfl)
   (hr : u.ag.heldReply = s.ag.heldReply := by rfl) (hp : u.ag.resetPending = s.ag.resetPending := by rfl) : AgentReady u :=
  ⟨h.1.of_same k, ha.trans h.2.1, hr.trans h.2.2.1, hp.trans h.2.2.2⟩

/-- A command of a ready agent that ends with OK. -/
theorem AgentReady.ok {v : State} (h : AgentReady v) (code : BitVec 8) (q : MgmtRequest) (data : List Word) :
    (v.answerOk code q data).endOfEvent = v.withOk code q data := by
  unfold State.answerOk State.answerFor State.withOk State.withLease
  have h2 : AgentReady (v.modAg Agent.restartLease) := h.same {}
  by_cases hl : v.ag.lockOwner = q.source
  · simp only [hl, and_self, if_true]
    rw [h2.reply]; unfold State.modAg Agent.restartLease; rw [← hl]; rfl
  · simp only [hl, and_false, if_false]
    rw [h.reply]

/-- A command of a ready agent that fails a test. -/
theorem AgentReady.failure {v : State} (h : AgentReady v) (code : BitVec 8) (q : MgmtRequest) (r : MgmtResult) (hr : r ≠ .ok) :
    (v.answerFail code q r).endOfEvent = v.withFailure code q r := by
  unfold State.answerFail State.answerFor State.withFailure
  simp only [hr, false_and, if_false]
  rw [h.reply]

/-- A command of a ready agent that fails the lock test. -/
theorem AgentReady.notOwner {v : State} (h : AgentReady v) (code : BitVec 8) (q : MgmtRequest) :
    (v.answerNotOwner code q).endOfEvent = v.withNotOwner code q := by
  unfold State.answerNotOwner State.answerFor State.withNotOwner
  simp only [reduceCtorEq, false_and, if_false]
  rw [h.reply]
  congr 3
  unfold fieldAt; simp

theorem AgentReady.took {s : State} (h : AgentReady s) : AgentReady s.tookRequest := h.same {}
theorem begin_taken (s : State) : s.begin.taken = s.tookRequest := rfl

/-- A command that passes tests 2 to 4 of R139 runs. -/
theorem AgentReady.command {s : State} (h : AgentReady s) (form : CommandForm) (q : MgmtRequest) (run : State → State)
   (h1 : q.operands.length = form.operands) (h2 : form.lock = true → s.ag.lockOwner = q.source)
   (h3 : form.manager = true → s.en.manager = true) :
   s.event (fun s => s.command form q run) = .next (run s.tookRequest).endOfEvent := by
  unfold State.event State.command
  have e : s.begin.ag = s.ag := rfl
  have e' : s.begin.en = s.en := rfl
  dsimp only
  rw [e, e', if_neg (by simp [h.2.1]), if_neg (by simp [h1]), if_neg, if_neg]
  · rfl
  · rintro ⟨a, b⟩; rw [h3 a] at b; cases b
  · rintro ⟨a, b⟩; exact b (h2 a)

/-- Every known command is taken by `State.command` with its form. -/
theorem mgmtForm_exec {i : Instr} {form : CommandForm} {q : MgmtRequest} (hm : mgmtForm i = some (form, q)) (s : State) :
    ∃ run, exec i s = s.event (fun s => s.command form q run) := by
  cases i <;> simp only [mgmtForm, reduceCtorEq, Option.some.injEq, Prod.mk.injEq] at hm
  all_goals (obtain ⟨rfl, rfl⟩ := hm; exact ⟨_, rfl⟩)

/-! ### Names of items (R179) -/

/-- No window is named. -/
theorem windowName_none {w : Word} (h : 16 ≤ (w.extractLsb' 0 5).toNat ∨ 2 ≤ (w.extractLsb' 8 2).toNat) :
    windowName w = none := by
  unfold windowName
  dsimp only
  by_cases hz : (w.extractLsb' 0 5).toNat < 16
  · have h2 : 2 ≤ (w.extractLsb' 8 2).toNat := h.resolve_left (by omega)
    rw [dif_pos hz, if_neg (fun e => by rw [e] at h2; revert h2; decide),
      if_neg (fun e => by rw [e] at h2; revert h2; decide)]
  · rw [dif_neg hz]

/-- An outbound entry is named. -/
theorem windowName_outbound {w : Word} {i : Fin 16} (hi : (w.extractLsb' 0 5).toNat = i.val)
    (hz : w.extractLsb' 8 2 = 0) : windowName w = some (.outbound, i) := by
  unfold windowName; rw [dif_pos (by rw [hi]; exact i.isLt), if_pos hz]; simp [hi]

/-- An inbound entry is named. -/
theorem windowName_inbound {w : Word} {i : Fin 16} (hi : (w.extractLsb' 0 5).toNat = i.val)
    (hz : w.extractLsb' 8 2 = 1) : windowName w = some (.inbound, i) := by
  unfold windowName
  rw [dif_pos (by rw [hi]; exact i.isLt), if_neg (by rw [hz]; decide), if_pos hz]; simp [hi]

end Sys2Proof.Machine
end

