-- ==== Sys2Proof/Laws/Resets.lean ====
section
/-! SUPPORT. The attention inputs compared, and a RING reset with the end of its event. -/

namespace Sys2Proof.Machine

/-! ### The attention inputs (R173) -/

/-- The codes that fire when the inputs are compared: those of the inputs that are asserted and not recorded so. -/
def Events.risen (e : Events) : List EventCode :=
  ((List.finRange 4).filter fun i => e.attnInput.getLsbD i.val && !e.attnRecorded.getLsbD i.val).map codeAttn

/-- One input compared. -/
theorem compareInput_eq {s : State} (i : Fin 4) (h : s.localResetIn = false) : s.compareInput i =
    { s with
      ev := { s.ev with attnRecorded := putLevel s.ev.attnRecorded i (s.ev.attnInput.getLsbD i.val) }
      firings := s.firings ++
        if s.ev.attnInput.getLsbD i.val && !s.ev.attnRecorded.getLsbD i.val then [codeAttn i] else [] } := by
  have hput : ∀ (v : BitVec 4) (i : Fin 4), putLevel v i (v.getLsbD i.val) = v := by decide
  unfold State.compareInput
  dsimp only
  by_cases e : s.ev.attnRecorded.getLsbD i.val = s.ev.attnInput.getLsbD i.val
  · rw [if_pos (Or.inr e), ← e, hput, Bool.and_not_self, if_neg Bool.false_ne_true, List.append_nil]
  · rw [if_neg (by rw [h]; exact not_or.2 ⟨Bool.false_ne_true, e⟩)]
    cases hi : s.ev.attnInput.getLsbD i.val <;> cases hr : s.ev.attnRecorded.getLsbD i.val
    · exact absurd (hr.trans hi.symm) e
    · simp [State.modEv]
    · simp [State.modEv, State.fire]
    · exact absurd (hr.trans hi.symm) e

/-- The four inputs compared: the recorded levels are the inputs', and the inputs that have risen fire. -/
theorem compareInputs_eq {s : State} (h : s.localResetIn = false) : s.compareInputs =
    { s with ev := { s.ev with attnRecorded := s.ev.attnInput }, firings := s.firings ++ s.ev.risen } := by
  have hput : ∀ r p : BitVec 4, putLevel (putLevel (putLevel (putLevel r 0 (p.getLsbD 0)) 1 (p.getLsbD 1)) 2
      (p.getLsbD 2)) 3 (p.getLsbD 3) = p := by decide
  have hget : ∀ (v : BitVec 4) (b : Bool) (i j : Fin 4), i ≠ j → (putLevel v i b).getLsbD j.val = v.getLsbD j.val := by
    decide
  have g1 := fun v b => hget v b 0 1 (by decide)
  have g2 := fun v b => hget v b 0 2 (by decide)
  have g3 := fun v b => hget v b 0 3 (by decide)
  have g4 := fun v b => hget v b 1 2 (by decide)
  have g5 := fun v b => hget v b 1 3 (by decide)
  have g6 := fun v b => hget v b 2 3 (by decide)
  have hl : List.finRange 4 = [0, 1, 2, 3] := by decide
  unfold State.compareInputs Events.risen
  rw [hl]
  simp only [List.foldl_cons, List.foldl_nil]
  rw [compareInput_eq 0 h]
  rw [compareInput_eq 1 (by exact h)]
  rw [compareInput_eq 2 (by exact h)]
  rw [compareInput_eq 3 (by exact h)]
  dsimp only
  rw [g1, g4, g2, g6, g5, g3]
  have := hput s.ev.attnRecorded s.ev.attnInput
  simp only [Fin.val_zero, Fin.val_one, Fin.val_two, show ((3 : Fin 4).val) = 3 from rfl] at *
  rw [this]
  congr 1
  simp only [List.append_assoc]
  congr 1
  have key : ∀ f : Fin 4 → Bool, (if f 0 then [codeAttn 0] else []) ++ ((if f 1 then [codeAttn 1] else []) ++
      ((if f 2 then [codeAttn 2] else []) ++ if f 3 then [codeAttn 3] else [])) =
      ([0, 1, 2, 3].filter f).map codeAttn := by
    intro f
    simp only [List.filter_cons, List.filter_nil]
    generalize f 0 = a0; generalize f 1 = a1; generalize f 2 = a2; generalize f 3 = a3
    cases a0 <;> cases a1 <;> cases a2 <;> cases a3 <;> rfl
  exact key fun i => s.ev.attnInput.getLsbD i.val && !s.ev.attnRecorded.getLsbD i.val

/-- While LOCAL_RESET_IN is asserted the inputs are not compared. -/
theorem compareInputs_held {s : State} (h : s.localResetIn = true) : s.compareInputs = s := by
  have one : ∀ i, s.compareInput i = s := by
    intro i; unfold State.compareInput; simp [h]
  unfold State.compareInputs
  have key : ∀ l : List (Fin 4), l.foldl State.compareInput s = s := by
    intro l
    induction l with
    | nil => rfl
    | cons i l ih => rw [List.foldl_cons, one, ih]
  exact key _

/-! ### Fault records -/

/-- Fault records arrive one after another. -/
theorem recordFaults_eq (rs : List FaultRecord) : ∀ s : State, s.recordFaults rs =
    { s with ag := rs.foldl Agent.withRecord s.ag, firings := s.firings ++ rs.map fun _ => codeFaultRecorded } := by
  induction rs with
  | nil => intro s; simp [State.recordFaults]
  | cons r rs ih =>
    intro s
    have : s.recordFaults (r :: rs) = (s.recordFault r).recordFaults rs := rfl
    rw [this, ih, recordFault_eq]
    simp

/-- Codes routed nowhere have no effect. -/
theorem takeFiring_off (cs : List EventCode) (s : State) (h : ∀ c ∈ cs, (s.routeEntry c).route = .off) :
    cs.foldl State.takeFiring s = s := by
  induction cs with
  | nil => rfl
  | cons c cs ih =>
    have : s.takeFiring c = s := by unfold State.takeFiring; rw [h c (by simp)]
    rw [List.foldl_cons, this]
    exact ih fun d hd => h d (by simp [hd])

/-- However often FAULT_RECORDED fires, routed to line 0 it joins the pending set; codes routed nowhere add nothing. -/
theorem takeFirings_faults (n : Nat) (cs : List EventCode) : ∀ s : State, (s.routeEntry 5).route = .line0 →
    (∀ c ∈ cs, (s.routeEntry c).route = .off) → s.firings = List.replicate (n+1) 5 ++ cs →
    s.takeFirings = { s with firings := [], ev := { s.ev with pendingSet := s.ev.pendingSet ||| 0x20 } } := by
  have key : ∀ (n : Nat) (v : State), (v.routeEntry 5).route = .line0 → v.ev.pendingSet ||| 0x20#19 = v.ev.pendingSet → (List.replicate n (5 : EventCode)).foldl State.takeFiring v = v := by
    intro n
    induction n with
    | zero => intro v _ _; rfl
    | succ n ih =>
      intro v hr hp
      rw [List.replicate_succ, List.foldl_cons]
      have : v.takeFiring 5 = v := by
        rw [takeFiring_line0 hr]
        unfold Events.addPending
        have e : BitVec.twoPow 19 (5 : EventCode).val = 0x20#19 := by decide
        rw [e, hp]
      rw [this]; exact ih v hr hp
  intro s hr hc hf
  unfold State.takeFirings
  rw [hf, List.replicate_succ, List.cons_append, List.foldl_cons, List.foldl_append]
  have hr' : (({ s with firings := [] } : State).routeEntry 5).route = .line0 := hr
  rw [takeFiring_line0 hr']
  have e : BitVec.twoPow 19 (5 : EventCode).val = 0x20#19 := by decide
  rw [key n, takeFiring_off]
  · unfold Events.addPending; rw [e]; rfl
  · exact hc
  · exact hr
  · unfold Events.addPending; rw [e]; 
    show (s.ev.pendingSet ||| 0x20#19) ||| 0x20#19 = s.ev.pendingSet ||| 0x20#19
    rw [BitVec.or_assoc, BitVec.or_self]

/-! ### The RING reset -/

/-- After a RING reset the part is at rest. -/
theorem afterRingReset_rest (s : State) (hf : s.firings = []) (hl : s.left = []) (ha : s.asks = []) :
    Rest s.afterRingReset := by
  have hchan : s.afterRingReset.bm.chA = Channel.reset ∧ s.afterRingReset.bm.chB = Channel.reset := ⟨rfl, rfl⟩
  refine ⟨hf, hl, ?_, ?_, ?_, ha⟩
  · refine claimStep_none_of_want ?_ ?_ (moverAsk_reset hchan.1 hchan.2)
    · show Agent.reset.issue.state ≠ _; decide
    · intro c hc
      exfalso
      revert hc
      have : s.afterRingReset.isHeld c = (((Vector.replicate 19 RingRoute.reset).get c).tag.isNone && decide (0 < ((Vector.replicate 19 RingRoute.reset).get c).refire)) := rfl
      rw [this]
      have : (Vector.replicate 19 RingRoute.reset).get c = RingRoute.reset := by simp [Vector.get]
      rw [this]; decide
  · rw [settleStep_none]
    refine ⟨rfl, ?_, ?_⟩
    · unfold State.waiterStep
      have a : s.afterRingReset.inb.held = none := rfl
      have b : s.afterRingReset.ag.heldReply = none := rfl
      rw [a, b]; split <;> rfl
    · have : s.afterRingReset.nextOffer = none := by
        unfold State.nextOffer; split <;> rfl
      unfold State.offerStep
      have a : s.afterRingReset.port.offer = none := rfl
      rw [a, this]
  · unfold State.busChoice
    split
    · rw [List.findSome?_eq_none_iff]
      intro c _
      rw [Option.map_eq_none_iff]
      have hr : Channel.reset.oldest Slot.wantsBus = none := by decide
      cases c with
      | inbound => rfl
      | channel c =>
        have h : (s.afterRingReset.chan c).oldest Slot.wantsBus = none := by cases c <;> exact hr
        simp only [State.claimantOp, h, Option.map_none]
    · rfl

/-- Fault records arrive alike before and after the agent's RING reset. -/
theorem foldl_withRecord_ringReset (rs : List FaultRecord) : ∀ a : Agent, rs.foldl Agent.withRecord a.ringReset = (rs.foldl Agent.withRecord a).ringReset := by
  induction rs with
  | nil => intro a; rfl
  | cons r rs ih =>
    intro a
    rw [List.foldl_cons, List.foldl_cons, ← ih]
    rfl

/-- Fault records leave the counters. -/
theorem foldl_withRecord_counters (rs : List FaultRecord) : ∀ a : Agent, (rs.foldl Agent.withRecord a).counters = a.counters := by
  induction rs with
  | nil => intro a; rfl
  | cons r rs ih => intro a; rw [List.foldl_cons, ih]; rfl

/-- Enumeration's RING reset. -/
theorem Enumeration.ringReset_eq (e : Enumeration) (up : Bool) : e.ringReset up = e.afterRingReset up := by
  unfold Enumeration.ringReset Enumeration.afterRingReset Enumeration.runFields Enumeration.freshNode Enumeration.startSet
  cases hm : e.manager <;> cases hi : e.idMode <;> by_cases hs : e.strappedId = noNode <;>
    simp [hs, IdSet.add, Config.settleTime]

/-- What the blocks hold when they have taken the RING reset. -/
theorem blocksRingReset_eq (s : State) : s.blocksRingReset =
    { s.afterRingReset with
      left := []
      asks := []
      firings := s.firings ++ List.replicate (s.discardRecords.length + 1) codeFaultRecorded
      ev := { s.afterRingReset.ev with pendingSet := 0, attnRecorded := 0 } } := by
  have hag : List.foldl Agent.withRecord (s.ag.withRecord (bareRecord FaultKind.ringReset)).ringReset
        (List.map (fun e => e.discarded none) (List.filter (fun e => e.kind == InboundKind.postedWrite) s.inb.queue)) =
      (let a := s.discardRecords.foldl Agent.withRecord (s.ag.withRecord { kind := .ringReset })
       { Agent.reset with faults := a.faults, overflow := a.overflow, counters := s.ag.counters }) := by
    rw [foldl_withRecord_ringReset]
    unfold Agent.ringReset
    rw [foldl_withRecord_counters]
    rfl
  unfold State.blocksRingReset State.inboundDiscard
  simp only [recordFaults_eq, recordFault_eq]
  unfold State.afterRingReset
  rw [← Enumeration.ringReset_eq]
  simp only [State.modAg, State.modInb, State.modRt, State.modWt, State.modOrd, State.modLt, State.modBm,
    State.modEv, State.modPort, State.modEn, State.countDiscarded, State.countPort]
  rw [hag, List.map_const', List.replicate_succ, List.append_assoc]
  simp only [State.discardRecords, List.length_map, List.singleton_append]
  rfl

/-- Every code's route is the reset one after the RING reset. -/
theorem afterRingReset_route (s : State) (c : EventCode) : s.afterRingReset.routeEntry c = RouteEntry.reset c := by
  unfold State.routeEntry
  show (Vector.ofFn RouteEntry.reset).get c = _
  revert c; decide

/-- What the RING reset leaves before its firings are taken: the codes of its records, and of the attention inputs that
are asserted as it ends (R170, R173). -/
theorem performRingReset_eq (s : State) : s.performRingReset =
    { s.afterRingReset with
      left := []
      asks := []
      firings := s.firings ++ (List.replicate (s.discardRecords.length + 1) codeFaultRecorded ++
        if s.localResetIn then [] else ({ s.ev with attnRecorded := 0 } : Events).risen)
      ev := { s.afterRingReset.ev with pendingSet := 0 } } := by
  unfold State.performRingReset
  have e := blocksRingReset_eq s
  have hk : s.blocksRingReset.localResetIn = s.localResetIn := by rw [e]; rfl
  cases hi : s.localResetIn with
  | true =>
    rw [compareInputs_held (hk.trans hi), e]
    unfold State.afterRingReset
    simp [hi]
  | false =>
    rw [compareInputs_eq (hk.trans hi), e]
    unfold State.afterRingReset
    simp [hi, Events.risen]

/-- The RING reset's firings, once taken, leave the part as `State.afterRingReset` says. -/
theorem performRingReset_takeFirings (s : State) (hf : s.firings = []) (hl : s.left = []) (ha : s.asks = []) :
    s.performRingReset.takeFirings = s.afterRingReset := by
  have hr : ∀ c, s.performRingReset.routeEntry c = RouteEntry.reset c := by
    intro c; rw [performRingReset_eq]; exact afterRingReset_route s c
  have off : ∀ i : Fin 4, (RouteEntry.reset (codeAttn i)).route = .off := by decide
  rw [takeFirings_faults s.discardRecords.length
    (if s.localResetIn then [] else ({ s.ev with attnRecorded := 0 } : Events).risen) s.performRingReset (by rw [hr]; rfl) ?_ (by rw [performRingReset_eq, hf]; rfl), performRingReset_eq]
  · have hp : (0 : BitVec 19) ||| 0x20 = 0x20 := by decide
    dsimp only
    rw [hp]
    unfold State.afterRingReset
    rw [← hf, ← hl, ← ha]
  · intro c hm
    rw [hr]
    split at hm
    · cases hm
    · obtain ⟨i, _, rfl⟩ := List.mem_map.1 hm
      exact off i

/-- A RING reset, with the end of its event. -/
theorem performRingReset_endOfEvent (s : State) (hf : s.firings = []) (hl : s.left = []) (ha : s.asks = []) :
    s.performRingReset.endOfEvent = s.afterRingReset := by
  have hr := afterRingReset_rest s hf hl ha
  have e := performRingReset_takeFirings s hf hl ha
  have c := takeFirings_changes s.performRingReset
  rw [e] at c
  have h1 : Still s.performRingReset :=
    hr.still.of_changes c.symm (by decide) (by decide) (by decide) (by decide) (by decide)
  have h2 : s.performRingReset.asks = [] := (c .asks (by decide) : _ = _).symm.trans ha
  rw [← endOfEvent_takeFirings h1 h2, e, endOfEvent_eq hr]

end Sys2Proof.Machine
end

