-- ==== Sys2Proof/Laws/Arrivals.lean ====
section
/-! SUPPORT. What an arriving frame begins, and what enumeration makes of it. -/

namespace Sys2Proof.Machine

/-- The command that brings a frame classifies it. -/
theorem arrival_exec {i : Instr} {f : Frame} {s u : State} (h : Arrival i f s u) :
    exec i s = .next (u.classify f).endOfEvent := by
  rcases h with ⟨ws, rfl, hl, hc, hf, rfl⟩ | ⟨l, rfl, hl, rfl⟩
  · simp only [exec, execRxFrame]
    rw [if_pos hl]
    unfold State.event State.arrive State.receive
    simp only [hc, if_true]
    unfold State.classifyWords
    rw [hf]
    rfl
  · simp only [exec, execLoopArrival]
    rw [hl]
    dsimp only
    unfold State.event State.loopIn
    congr 2
    show State.classify { s with now := s.now + 1, port := { s.port with loopQ := s.port.loopQ.tail } } f = _
    rw [hl]; rfl

/-- A frame that arrives finds the part at rest. -/
theorem arrival_rest {i : Instr} {f : Frame} {s u : State} (h : Arrival i f s u) (hr : Rest s) : Rest u := by
  rcases h with ⟨ws, rfl, hl, hc, hf, rfl⟩ | ⟨l, rfl, hl, rfl⟩
  · exact hr.of_same {}
  · exact hr.of_same {}

/-- What an arrival leaves. -/
theorem arrival_same {i : Instr} {f : Frame} {s u : State} (h : Arrival i f s u) :
    ∃ p, u = { s with now := s.now + 1, port := p } ∧ p.responseQ = s.port.responseQ ∧ p.forwardQ = s.port.forwardQ ∧ p.link = s.port.link ∧ p.control = s.port.control := by
  rcases h with ⟨ws, rfl, hl, hc, hf, rfl⟩ | ⟨l, rfl, hl, rfl⟩
  · exact ⟨_, rfl, rfl, rfl, rfl, rfl⟩
  · exact ⟨_, rfl, rfl, rfl, rfl, rfl⟩

/-- A frame that is neither malformed nor a control frame goes by its destination. -/
theorem classify_route {u : State} {f : Frame} (hm : f.malformed = false) (hc : f.body.isControl = false) :
    u.classify f = u.route f := by
  unfold State.classify
  rw [if_neg (by simp [hm])]
  cases hb : f.body <;> simp_all [Body.isControl]

/-- An effect that leaves the part at rest. -/
theorem rest_eq {s u : State} (hu : Rest u) (h : s = u) : s.endOfEvent = u := by rw [h, endOfEvent_eq hu]

/-- The only member of a table that satisfies a test is found. -/
theorem find_unique {n : Nat} {p : Fin n → Bool} {i : Fin n} (hp : p i = true) (hu : ∀ j, p j = true → j = i) :
    (List.finRange n).find? p = some i := by
  cases h : (List.finRange n).find? p with
  | none => rw [List.find?_eq_none] at h; exact absurd hp (h i (List.mem_finRange i))
  | some j => rw [hu j (List.find?_some h)]

/-- The first member of a table that satisfies a test is found. -/
theorem find_unique' {n : Nat} {p : Fin n → Bool} {i : Fin n} (hp : p i = true) (hu : ∀ j, j < i → p j = false) :
    (List.finRange n).find? p = some i := by
  rw [List.find?_eq_some_iff_getElem]
  refine ⟨hp, i.val, by simp, by simp, ?_⟩
  intro j hj
  have : (List.finRange n)[j]'(by simp; omega) = ⟨j, by omega⟩ := by simp
  rw [this, hu ⟨j, by omega⟩ hj]; rfl

/-- Forwarding a frame. -/
theorem forward_eq (s : State) (f : Frame) : s.forward f = s.withForward f := by
  unfold State.forward State.withForward forwardQueueSize
  have e30 : f.hop.toNat = 30 ↔ f.hop = 30 := by
    constructor
    · intro e; apply BitVec.eq_of_toNat_eq; rw [e]; rfl
    · intro e; rw [e]; rfl
  simp only [e30]
  rfl

/-- Presenting a control frame. -/
theorem presentControl_eq (s : State) (f : Frame) : s.presentControl f = s.withControl f := by
  unfold State.presentControl State.withControl
  cases hc : s.port.control with
  | none => rfl
  | some c =>
    dsimp only
    by_cases hr : c.isReset = true
    · rw [if_pos hr, if_pos hr]
      unfold State.countDiscarded State.countPort State.modPort
      simp only [Option.isSome_some, if_true]
      rw [← hc]; rfl
    · rw [if_neg hr, if_neg hr]; rfl

/-- A control frame that waits leaves the part at rest. -/
theorem withControl_rest {s : State} (h : Rest s) (f : Frame) : Rest (s.withControl f) := h.of_same {}

/-- A pass begun. -/
theorem beginPass_eq (s : State) (p : Pass) : s.beginPass p = s.withPass p.state p.code := by
  unfold State.beginPass State.withPass
  dsimp only
  rw [presentControl_eq]; rfl

/-- Renumbering without keep. -/
theorem withoutIds_eq (s : State) : s.dropIds = s.withoutIds := by
  unfold State.dropIds State.dropAssigned State.withoutIds State.renumberAbort SequenceTables.desync
  generalize s.abort .renumbered = a
  dsimp only [State.modOrd]
  by_cases hi : a.en.idMode = .assigned
  · rw [if_pos hi]; exact (if_pos hi).trans rfl
  · rw [if_neg hi]; exact (if_neg hi).trans rfl

/-- A run started. -/
theorem startRun_eq (s : State) (k : Bool) : s.startRun k = s.withRun k := by
  unfold State.startRun State.withRun
  dsimp only
  rw [beginPass_eq, withoutIds_eq]
  have key : ∀ b : State, (b.modEn Enumeration.startSet) = { b with en := { b.en with
      runSet := if b.en.ownId = 0 then 0 else BitVec.twoPow 32 b.en.ownId.toNat
      runCount := if b.en.ownId = 0 then 0 else 1 } } := by
    intro b
    unfold State.modEn Enumeration.startSet IdSet.add
    simp [noNode]
  rw [key]; rfl

/-- A run that ends with none waiting. -/
theorem runEnded_none {s : State} (h : s.en.runPending = none) : s.runEnded = s := by
  unfold State.runEnded; rw [h]

/-- A run that ends with another waiting. -/
theorem runEnded_some {s : State} {k : Bool} (h : s.en.runPending = some k) :
    s.runEnded = s.takeFirings.serveClaims.withRun k := by
  unfold State.runEnded; rw [h]; exact startRun_eq _ k

/-- The ids that nodes hold. -/
theorem isNode_iff (d : NodeId) : isNode d = true ↔ d ≠ 0 ∧ d ≠ 31 := by
  unfold isNode noNode allNodes; simp

/-- A record that names the source of a frame. -/
theorem sourceRecord_eq (k : FaultKind) (d : NodeId) : sourceRecord k d = { kind := k, node := if d ≠ 0 ∧ d ≠ 31 then some d else none } := by
  unfold sourceRecord
  by_cases h : d ≠ 0 ∧ d ≠ 31
  · rw [if_pos ((isNode_iff d).2 h), if_pos h]
  · rw [if_neg ((isNode_iff d).not.2 h), if_neg h]

/-- The lowest id that a set leaves free. -/
theorem lowest_some {set : IdSet} {id : NodeId} (h0 : id ≠ 0) (h31 : id ≠ 31) (hn : set.getLsbD id.toNat = false)
   (hl : ∀ k : NodeId, k ≠ 0 → k.toNat < id.toNat → set.getLsbD k.toNat = true) : IdSet.lowestFree set = some id := by
  unfold IdSet.lowestFree
  have hid : id.toNat < 31 := by
    have := id.isLt
    have : id.toNat ≠ 31 := fun e => h31 (BitVec.eq_of_toNat_eq e)
    omega
  have hf : ((List.range 31).find? fun n => n != 0 && !set.getLsbD n) = some id.toNat := by
    rw [List.find?_range_eq_some]
    refine ⟨?_, by simpa using hid, ?_⟩
    · have : id.toNat ≠ 0 := fun e => h0 (BitVec.eq_of_toNat_eq e)
      simp [this, hn]
    · intro j hj
      by_cases hj0 : j = 0
      · simp [hj0]
      · have := hl (BitVec.ofNat 5 j) (by
          intro e
          have := congrArg BitVec.toNat e
          simp at this; omega) (by simp; omega)
        have hjj : (BitVec.ofNat 5 j).toNat = j := by simp; omega
        rw [hjj] at this
        simp [this]
  rw [hf]; simp

/-- No id is free. -/
theorem lowest_none {set : IdSet} (hl : ∀ k : NodeId, k ≠ 0 → k ≠ 31 → set.getLsbD k.toNat = true) : IdSet.lowestFree set = none := by
  unfold IdSet.lowestFree
  rw [Option.map_eq_none_iff, List.find?_eq_none]
  intro n hn
  rw [List.mem_range] at hn
  by_cases h0 : n = 0
  · simp [h0]
  · have := hl (BitVec.ofNat 5 n) (by
        intro e
        have := congrArg BitVec.toNat e
        simp at this; omega) (by
        intro e
        have := congrArg BitVec.toNat e
        simp at this; omega)
    have hjj : (BitVec.ofNat 5 n).toNat = n := by simp; omega
    rw [hjj] at this
    simp [this]

end Sys2Proof.Machine
end

