-- ==== Sys2Proof/Laws/Channels.lean ====
section
/-! SUPPORT. A channel released, stopped and halted, as one update. -/

namespace Sys2Proof.Machine

variable {s : State} {c : ChannelId}

/-- A channel changed is a channel replaced. -/
theorem modChan_eq (s : State) (c : ChannelId) (f : Channel → Channel) : s.modChan c f = s.withChannel c (f (s.chan c)) := by
  cases c <;> rfl

/-- The channel that has been replaced. -/
theorem chan_withChannel (s : State) (c : ChannelId) (ch : Channel) : (s.withChannel c ch).chan c = ch := by
  cases c <;> rfl

/-- Of two replacements the later stands. -/
theorem withChannel_withChannel (s : State) (c : ChannelId) (ch ch' : Channel) :
    (s.withChannel c ch).withChannel c ch' = s.withChannel c ch' := by
  cases c <;> rfl

/-- A channel replaced by itself. -/
theorem withChannel_chan (s : State) (c : ChannelId) : s.withChannel c (s.chan c) = s := by
  cases c <;> rfl

/-- The entries of a table given by a function. -/
theorem get_ofFn {α : Type} {n : Nat} (f : Fin n → α) (i : Fin n) : (Vector.ofFn f).get i = f i := by
  show (Vector.ofFn f)[i.val] = f i
  simp

/-- The entry that has been set. -/
theorem get_set {α : Type} {n : Nat} (t : Table α n) (i : Fin n) (x : α) : (t.set i.val x i.isLt).get i = x := by
  show (t.set i.val x i.isLt)[i.val] = x
  simp

/-- Another entry than the one that has been set. -/
theorem get_set_ne {α : Type} {n : Nat} (t : Table α n) {i j : Fin n} (h : j ≠ i) (x : α) :
    (t.set i.val x i.isLt).get j = t.get j := by
  show (t.set i.val x i.isLt)[j.val] = t[j.val]
  rw [Vector.getElem_set_ne]
  exact fun e => h (Fin.ext e.symm)

/-- A slot of a released channel. -/
theorem releasedSlots_get (s : State) (c : ChannelId) (i : Fin 8) : (s.releasedSlots c).get i =
    if ((s.slot c i).state = .localPending ∧ s.underBus c i = false) ∨ (s.slot c i).wantsTag then
      (s.slot c i).freed s.now else s.slot c i := by
  unfold State.releasedSlots
  have hu : (s.inb.current.any fun tx => tx.owner == .mover c i) = s.underBus c i := by
    unfold State.underBus; cases s.inb.current <;> rfl
  have hw : (s.slot c i).wantsTag = true ↔ ((s.slot c i).state = .ringPending ∧ (s.slot c i).tag = none) := by
    unfold Slot.wantsTag; simp
  rw [get_ofFn]
  simp only [hu, hw]
  rfl

/-- Releasing some slots of a channel. -/
theorem release_foldl (l : List (Fin 8)) : ∀ s : State, l.Nodup →
    l.foldl (fun s i =>
      let sl := s.slot c i
      if (sl.state = .localPending ∧ s.underBus c i = false) ∨ sl.wantsTag then s.freeSlot c i else s) s =
    s.withChannel c { s.chan c with
      slots := Vector.ofFn fun i => if i ∈ l then (s.releasedSlots c).get i else (s.chan c).slots.get i } := by
  induction l with
  | nil =>
    intro s _
    have : (Vector.ofFn fun i => (s.chan c).slots.get i) = (s.chan c).slots :=
      table_ext fun i => get_ofFn _ i
    simp only [List.foldl_nil, List.not_mem_nil, if_false, this]
    exact (withChannel_chan s c).symm
  | cons j l ih =>
    intro s hn
    rw [List.nodup_cons] at hn
    rw [List.foldl_cons]
    dsimp only
    by_cases hc : ((s.slot c j).state = .localPending ∧ s.underBus c j = false) ∨ (s.slot c j).wantsTag
    · rw [if_pos hc]
      have step : s.freeSlot c j = s.withChannel c { s.chan c with
          slots := (s.chan c).slots.set j.val ((s.slot c j).freed s.now) j.isLt } := by
        unfold State.freeSlot State.modSlot; rw [modChan_eq]; rfl
      have hslot : ∀ i, i ≠ j → (s.freeSlot c j).slot c i = s.slot c i := by
        intro i hi
        unfold State.slot
        rw [step, chan_withChannel]
        exact get_set_ne _ hi _
      have hrel : ∀ i, i ≠ j → ((s.freeSlot c j).releasedSlots c).get i = (s.releasedSlots c).get i := by
        intro i hi
        have e1 : (s.freeSlot c j).underBus c i = s.underBus c i := by rw [step]; cases c <;> rfl
        have e2 : (s.freeSlot c j).now = s.now := by rw [step]; cases c <;> rfl
        rw [releasedSlots_get, releasedSlots_get, hslot i hi, e1, e2]
      rw [ih _ hn.2]
      have hch : (s.freeSlot c j).chan c = { s.chan c with
          slots := (s.chan c).slots.set j.val ((s.slot c j).freed s.now) j.isLt } := by
        rw [step, chan_withChannel]
      have hw : ∀ ch, (s.freeSlot c j).withChannel c ch = s.withChannel c ch := by
        intro ch; rw [step, withChannel_withChannel]
      rw [hw]
      refine congrArg (s.withChannel c) ?_
      have key : (Vector.ofFn fun i => if i ∈ l then ((s.freeSlot c j).releasedSlots c).get i
          else ((s.freeSlot c j).chan c).slots.get i) =
          Vector.ofFn fun i => if i ∈ j :: l then (s.releasedSlots c).get i else (s.chan c).slots.get i := by
        refine table_ext fun i => ?_
        rw [get_ofFn, get_ofFn]
        by_cases h1 : i = j
        · subst h1
          rw [if_neg hn.1, if_pos List.mem_cons_self, releasedSlots_get, if_pos hc, hch]
          exact get_set _ _ _
        · have hmem : i ∈ j :: l ↔ i ∈ l := by simp [h1]
          simp only [hmem]
          rw [hrel i h1]
          have := hslot i h1
          unfold State.slot at this
          rw [this]
      rw [key, hch]
    · rw [if_neg hc, ih _ hn.2]
      refine congrArg (s.withChannel c) ?_
      have key : (Vector.ofFn fun i => if i ∈ l then (s.releasedSlots c).get i else (s.chan c).slots.get i) =
          Vector.ofFn fun i => if i ∈ j :: l then (s.releasedSlots c).get i else (s.chan c).slots.get i := by
        refine table_ext fun i => ?_
        rw [get_ofFn, get_ofFn]
        by_cases h1 : i = j
        · subst h1
          rw [if_neg hn.1, if_pos List.mem_cons_self, releasedSlots_get, if_neg hc]
          rfl
        · have hmem : i ∈ j :: l ↔ i ∈ l := by simp [h1]
          simp only [hmem]
      rw [key]

/-- A channel released (R165). -/
theorem releaseChannel_eq (s : State) (c : ChannelId) :
    s.releaseChannel c = s.withChannel c { s.chan c with slots := s.releasedSlots c } := by
  unfold State.releaseChannel
  rw [release_foldl _ _ (List.nodup_finRange 8)]
  have key : (Vector.ofFn fun i => if i ∈ List.finRange 8 then (s.releasedSlots c).get i
      else (s.chan c).slots.get i) = s.releasedSlots c := by
    refine table_ext fun i => ?_
    rw [get_ofFn, if_pos (List.mem_finRange i)]
  rw [key]

/-- Releasing a channel does not read its state or its halt record. -/
theorem releasedSlots_withChannel (s : State) (c : ChannelId) (ch : Channel) (h : ch.slots = (s.chan c).slots) :
    (s.withChannel c ch).releasedSlots c = s.releasedSlots c := by
  unfold State.releasedSlots
  rw [chan_withChannel, h]
  cases c <;> rfl

/-- A channel stopped (R165). -/
theorem stopChannel_eq (s : State) (c : ChannelId) : s.stopChannel c = s.withStop c := by
  unfold State.stopChannel State.withStop
  have hr := releasedSlots_withChannel s c { s.chan c with state := .stopping } rfl
  simp only [modChan_eq, releaseChannel_eq, chan_withChannel, withChannel_withChannel, hr]
  unfold Channel.busy State.channelIdle
  have hb : ∀ l : List Slot, l.any Slot.busyAttached = l.any fun sl => sl.state != .free && !sl.detached := fun _ => rfl
  dsimp only
  rw [hb]
  by_cases h : ((s.releasedSlots c).toList.any fun sl => sl.state != .free && !sl.detached) = true
  · rw [if_pos h]
    simp only [h, if_true]
    cases c <;> rfl
  · rw [if_neg h]
    simp only [h]
    rw [modChan_eq, chan_withChannel, withChannel_withChannel]
    cases c <;> rfl

/-- A channel halted (R164, R166). -/
theorem haltChannel_eq (s : State) (c : ChannelId) (n : Nat) (r : Option Detail) :
    s.haltChannel c n r = s.withHalt c n r := by
  unfold State.haltChannel State.withHalt
  have hr := releasedSlots_withChannel s c { s.chan c with state := .halted } rfl
  simp only [modChan_eq, releaseChannel_eq, chan_withChannel, withChannel_withChannel, recordFault_eq, hr]
  unfold State.fire State.currentIndex
  dsimp only
  rw [List.append_assoc]
  cases c <;> rfl

end Sys2Proof.Machine
end

