-- ==== Sys2Proof/Laws/Forms.lean ====
section
/-! SUPPORT. The agent's replies, the local master's attempts and the mover's slots, as one update each. -/

namespace Sys2Proof.Machine

/-- When fewer codes are held, no claim can be granted that could not be before. -/
theorem claimStep_fewer {s u : State} (h : s.claimStep = none) (hn : u.numbered = s.numbered)
   (hf : u.rt.freeList = s.rt.freeList) (ha : u.ag = s.ag) (hb : u.bm = s.bm) (he : u.rt = s.rt) (ho : u.ord = s.ord) (hen : u.en = s.en)
   (hh : ∀ c, u.isHeld c = true → s.isHeld c = true) : u.claimStep = none := by
  rw [claimStep_none] at h ⊢
  have k : ClaimSame s ({ u with ev := s.ev } : State) := ClaimSame.of_blocks hen he ho (by exact congrArg _ ha) rfl hb
  intro c
  cases c with
  | issueSlot =>
    have := (k.claimGrant .issueSlot).2 (h .issueSlot)
    simp only [State.claimGrant] at this ⊢
    split at this
    · rename_i hi
      rw [if_pos (by exact hi)]
      rw [issueGrant_none, alloc_none_iff] at this ⊢
      exact this
    · rename_i hi
      exact if_neg (by exact hi)
  | mover =>
    have := (k.claimGrant .mover).2 (h .mover)
    simp only [State.claimGrant] at this ⊢
    rw [moverGrant_none] at this ⊢
    intro c i hci
    have := this c i hci
    rw [alloc_none_iff] at this ⊢
    exact this
  | router =>
    have hr := h .router
    simp only [State.claimGrant] at hr ⊢
    split
    · rename_i c hc
      have hc' := hh c (List.find?_some hc)
      rw [grantHeld_none]
      have hs : s.noEntry := by
        split at hr
        · rename_i c2 hc2
          rw [grantHeld_none] at hr
          exact eventAlloc_none.1 hr
        · rename_i hx
          exfalso
          unfold State.heldCode at hx
          rw [List.find?_eq_none] at hx
          refine hx c ?_ hc'
          unfold codesAfter
          simp only [List.mem_append, List.mem_filter, List.mem_finRange, true_and, decide_eq_true_eq]
          exact lt_or_ge _ _
      have hu : u.noEntry := by
        unfold State.noEntry at hs ⊢
        rw [hn, hf]; exact hs
      exact eventAlloc_none.2 hu
    · rfl

/-- An attempt in progress. -/
theorem attempt_some {s : State} {tx : Transaction} (hc : s.inb.current = some tx) (h : tx.cycleTimer ≠ .stopped) : s.attempt = some tx := by
  unfold State.attempt; rw [hc]; exact if_neg h

/-- No attempt in progress. -/
theorem attempt_none {s : State} (h : s.inb.current = none ∨ (∃ tx, s.inb.current = some tx ∧ tx.cycleTimer = .stopped)) : s.attempt = none := by
  unfold State.attempt
  rcases h with h | ⟨tx, h, ht⟩
  · rw [h]
  · rw [h]; exact if_pos ht

/-- An answer placed or held. -/
theorem answerOrHold_some (v : State) (f : Frame) : v.answerOrHold (some f) = if v.port.responseQ.length < 8 then v.insertResponse ⟨f, .plain⟩ else { v with inb := { v.inb with held := some ⟨f, v.now⟩ } } := by
  unfold State.answerOrHold State.placeResponse State.responseRoom responseQueueSize
  dsimp only
  by_cases hr : v.port.responseQ.length < 8
  · rw [if_pos (by simpa using hr), if_pos hr]; rfl
  · rw [if_neg (by simpa using hr), if_neg hr]; rfl

/-- A reply placed or held. -/
theorem agentPlace_eq (s : State) (f : Frame) (p : Purpose) : s.agentPlace f p = s.replied f p := by
  unfold State.agentPlace State.placeResponse State.responseRoom responseQueueSize State.replied
  dsimp only
  by_cases hr : s.port.responseQ.length < 8
  · rw [if_pos (by simpa using hr), if_neg (by omega)]
    unfold State.insertResponse
    dsimp only
    split
    · rfl
    · cases p <;> rfl
  · rw [if_neg (by simpa using hr), if_pos (by omega)]; rfl

/-- A command answered OK. -/
theorem answerFor_eq (v : State) (code : BitVec 8) (q : MgmtRequest) (p : Purpose) :
    v.answerFor code q .ok [] p = v.repliedOk code q p := by
  unfold State.answerFor State.repliedOk State.withLease
  dsimp only
  rw [agentPlace_eq]
  by_cases h : v.ag.lockOwner = q.source
  · rw [if_pos ⟨rfl, h⟩, if_pos h]
    rfl
  · rw [if_neg (fun x => h x.2), if_neg h]

/-- A slot changed. -/
theorem modSlot_eq (s : State) (c : ChannelId) (i : Fin 8) (f : Slot → Slot) : s.modSlot c i f = s.withChannel c { s.chan c with slots := (s.chan c).slots.set i.val (f ((s.chan c).slots.get i)) i.isLt } := by
  unfold State.modSlot; rw [modChan_eq]; rfl

/-- A node that may send requests. -/
theorem numbered_iff (s : State) : s.numbered = true ↔ s.en.role = .numbered := by
  unfold State.numbered; simp

/-- The fall of a window count leaves the local master. -/
theorem fallIwt_inb (s : State) (w : Fin 16) : (s.fallIwt w).inb = s.inb := by
  unfold State.fallIwt
  dsimp only
  split
  · unfold State.reportDrained
    split
    · split
      · exact agentPlace_keep State.inb (fun _ _ => rfl) (fun _ _ => rfl) (fun _ _ _ => rfl) _ _ _
      · rfl
    · rfl
  · rfl

/-- Without words or FREE slots no frame starts. -/
theorem foldl_none (l : List (Fin 8)) (d : Descriptor) (now : Nat) : ∀ ch : Channel, (ch.remaining = 0 ∨ ∀ i ∈ l, (ch.slots.get i).state ≠ .free) →
    l.foldl (fun ch i => if 0 < ch.remaining ∧ (ch.slots.get i).state = .free then ch.startFrame d now i else ch) ch = ch := by
  induction l with
  | nil => intro ch _; rfl
  | cons a l ih =>
    intro ch h
    rw [List.foldl_cons, if_neg]
    · exact ih ch (h.imp_right fun h i hi => h i (by simp [hi]))
    · rintro ⟨x, y⟩
      rcases h with h | h
      · omega
      · exact h a (by simp) y

/-- The search for the oldest slot. -/
theorem oldest_fold (ch : Channel) (p : Slot → Bool) (l : List (Fin 8)) : ∀ best : Option (Fin 8), (∀ j, best = some j → p (ch.slots.get j) = true ∧ ∀ k ∈ l, j < k) → l.Pairwise (· < ·) →
    let r := l.foldl (fun best i =>
    if p (ch.slots.get i) then
      match best with
      | none => some i
      | some j => if (ch.slots.get i).entered < (ch.slots.get j).entered then some i else best
    else best) best
    (r = none → best = none ∧ ∀ i ∈ l, p (ch.slots.get i) = false) ∧
    (∀ i, r = some i → p (ch.slots.get i) = true ∧ (∀ j, (best = some j ∨ (j ∈ l ∧ p (ch.slots.get j) = true)) → 
      (ch.slots.get i).entered < (ch.slots.get j).entered ∨
        ((ch.slots.get i).entered = (ch.slots.get j).entered ∧ i ≤ j)) ∧ (best = some i ∨ i ∈ l)) := by
  induction l with
  | nil => 
    intro best hb _
    refine ⟨fun h => ⟨h, by simp⟩, ?_⟩
    intro i hi
    refine ⟨(hb i hi).1, ?_, .inl hi⟩
    rintro j (hj | ⟨hj, _⟩)
    · have : i = j := by rw [show best = some i from hi] at hj; cases hj; rfl
      subst this; exact .inr ⟨rfl, le_refl _⟩
    · cases hj
  | cons a l ih =>
    intro best hb hp
    rw [List.pairwise_cons] at hp
    dsimp only
    rw [List.foldl_cons]
    by_cases ha : p (ch.slots.get a) = true
    · rw [if_pos ha]
      cases hbest : best with
      | none =>
        dsimp only
        obtain ⟨h1, h2⟩ := ih (some a) (by rintro j hj; cases hj; exact ⟨ha, fun k hk => hp.1 k hk⟩) hp.2
        refine ⟨fun h => (by cases (h1 h).1), ?_⟩
        intro i hi
        obtain ⟨b1, b2, b3⟩ := h2 i hi
        refine ⟨b1, ?_, ?_⟩
        · rintro j (hj | ⟨hj, hpj⟩)
          · cases hj
          · rcases List.mem_cons.1 hj with rfl | hj
            · exact b2 j (.inl rfl)
            · exact b2 j (.inr ⟨hj, hpj⟩)
        · rcases b3 with b3 | b3
          · cases b3; exact .inr (by simp)
          · exact .inr (by simp [b3])
      | some j0 =>
        dsimp only
        have hj0 := hb j0 hbest
        by_cases hlt : (ch.slots.get a).entered < (ch.slots.get j0).entered
        · rw [if_pos hlt]
          obtain ⟨h1, h2⟩ := ih (some a) (by rintro j hj; cases hj; exact ⟨ha, fun k hk => hp.1 k hk⟩) hp.2
          refine ⟨fun h => (by cases (h1 h).1), ?_⟩
          intro i hi
          obtain ⟨b1, b2, b3⟩ := h2 i hi
          refine ⟨b1, ?_, ?_⟩
          · rintro j (hj | ⟨hj, hpj⟩)
            · cases hj
              have := b2 a (.inl rfl)
              left; omega
            · rcases List.mem_cons.1 hj with rfl | hj
              · exact b2 j (.inl rfl)
              · exact b2 j (.inr ⟨hj, hpj⟩)
          · rcases b3 with b3 | b3
            · cases b3; exact .inr (by simp)
            · exact .inr (by simp [b3])
        · rw [if_neg hlt]
          obtain ⟨h1, h2⟩ := ih (some j0) (by rintro j hj; cases hj; exact ⟨hj0.1, fun k hk => hj0.2 k (by simp [hk])⟩) hp.2
          refine ⟨fun h => (by cases (h1 h).1), ?_⟩
          intro i hi
          obtain ⟨b1, b2, b3⟩ := h2 i hi
          refine ⟨b1, ?_, ?_⟩
          · rintro j (hj | ⟨hj, hpj⟩)
            · cases hj; exact b2 _ (.inl rfl)
            · rcases List.mem_cons.1 hj with rfl | hj
              · have k := b2 j0 (.inl rfl)
                have kj := hj0.2 j (by simp)
                rcases k with k | ⟨k, k'⟩
                · left; omega
                · by_cases he : (ch.slots.get j).entered = (ch.slots.get j0).entered
                  · right; exact ⟨by omega, le_trans k' (le_of_lt kj)⟩
                  · left; omega
              · exact b2 j (.inr ⟨hj, hpj⟩)
          · rcases b3 with b3 | b3
            · exact .inl b3
            · exact .inr (by simp [b3])
    · rw [if_neg ha]
      obtain ⟨h1, h2⟩ := ih best (fun j hj => ⟨(hb j hj).1, fun k hk => (hb j hj).2 k (by simp [hk])⟩) hp.2
      refine ⟨?_, ?_⟩
      · intro h
        refine ⟨(h1 h).1, ?_⟩
        intro i hi
        rcases List.mem_cons.1 hi with rfl | hi
        · simpa using ha
        · exact (h1 h).2 i hi
      · intro i hi
        obtain ⟨b1, b2, b3⟩ := h2 i hi
        refine ⟨b1, ?_, ?_⟩
        · rintro j (hj | ⟨hj, hpj⟩)
          · exact b2 j (.inl hj)
          · rcases List.mem_cons.1 hj with rfl | hj
            · exact absurd hpj ha
            · exact b2 j (.inr ⟨hj, hpj⟩)
        · rcases b3 with b3 | b3
          · exact .inl b3
          · exact .inr (by simp [b3])

/-- There is no oldest slot exactly when none passes the test. -/
theorem oldest_none {ch : Channel} {p : Slot → Bool} : ch.oldest p = none ↔ ∀ i, p (ch.slots.get i) = false := by
  obtain ⟨h1, h2⟩ := oldest_fold ch p (List.finRange 8) none (by simp) (by decide)
  refine ⟨fun h i => (h1 h).2 i (List.mem_finRange i), fun h => ?_⟩
  cases hc : ch.oldest p with
  | none => rfl
  | some i => have := (h2 i hc).1; rw [h i] at this; cases this

/-- The oldest slot is the one longest in its state, the lower-numbered first (R158). -/
theorem oldest_eq {ch : Channel} {p : Slot → Bool} {i : Fin 8} (hi : p (ch.slots.get i) = true)
    (h : ∀ j, p (ch.slots.get j) = true → (ch.slots.get i).entered < (ch.slots.get j).entered ∨
      ((ch.slots.get i).entered = (ch.slots.get j).entered ∧ i ≤ j)) : ch.oldest p = some i := by
  obtain ⟨_, h2⟩ := oldest_fold ch p (List.finRange 8) none (by simp) (by decide)
  cases hc : ch.oldest p with
  | none => rw [oldest_none.1 hc i] at hi; cases hi
  | some k =>
    obtain ⟨c, d, _⟩ := h2 k hc
    have x := d i (.inr ⟨List.mem_finRange i, hi⟩)
    have y := h k c
    congr 1
    apply Fin.ext
    omega

/-- A channel named. -/
theorem channelName_eq (w : Word) (c : ChannelId) (h : w = (match c with | .a => 0 | .b => 1)) : channelName w = some c := by
  subst h; cases c <;> rfl

/-- No channel named. -/
theorem channelName_none {w : Word} (h : 2 ≤ w.toNat) : channelName w = none := by
  unfold channelName
  rw [if_neg, if_neg]
  · rintro rfl; revert h; decide
  · rintro rfl; revert h; decide

/-- A descriptor named. -/
theorem descriptorName_some {w : Word} {i : Fin 64} (h : (w.extractLsb' 0 7).toNat = i.val) : descriptorName w = some i := by
  unfold descriptorName
  dsimp only
  rw [dif_pos (by rw [h]; exact i.isLt)]
  congr 1
  exact Fin.ext h

/-- No descriptor named. -/
theorem descriptorName_none {w : Word} (h : 64 ≤ (w.extractLsb' 0 7).toNat) : descriptorName w = none := by
  unfold descriptorName
  dsimp only
  rw [dif_neg (by omega)]

end Sys2Proof.Machine
end

