-- ==== Sys2Proof/Laws/Asks.lean ====
section
/-! SUPPORT. The asks of originators whose entries have completed (R163, R174 step 3): they are taken one after another,
and the mover's end. -/

namespace Sys2Proof.Machine

/-! ### The asks one after another -/

/-- The part with other asks waiting. -/
def State.withAsks (s : State) (l : List Originator) : State := { s with asks := l }

/-- The tracker does not look at the asks that wait, and keeps them. -/
theorem alloc_withAsks (s : State) (l : List Originator) (r : AllocRequest) :
    (s.withAsks l).alloc r = (s.alloc r).map fun p => (p.1, p.2.withAsks l) := by
  have h1 : (s.withAsks l).moverReserved r.originator = s.moverReserved r.originator := rfl
  have h2 : (s.withAsks l).placesFull r = s.placesFull r := rfl
  have h3 : (s.withAsks l).numbered = s.numbered := rfl
  have h4 : ∀ t rest, (s.withAsks l).allocated r t rest = (s.allocated r t rest).withAsks l := by
    intro t rest
    unfold State.allocated
    cases r.window <;> (dsimp only; split <;> rfl)
  unfold State.alloc
  rw [h1, h2, h3]
  simp only [h4]
  show (if _ then _ else match s.rt.freeList with | [] => _ | _ :: _ => _) = _
  cases s.numbered <;> [rfl; skip]
  cases s.rt.freeList with
  | nil => rfl
  | cons t rest =>
    cases s.moverReserved r.originator <;> [skip; rfl]
    cases s.placesFull r <;> rfl

/-- The router's ask for a held code does not look at the asks that wait. -/
theorem grantHeld_withAsks (s : State) (l : List Originator) (c : EventCode) :
    (s.withAsks l).grantHeld c = (s.grantHeld c).map fun u => u.withAsks l := by
  have e : (s.withAsks l).eventRequest c ((s.withAsks l).ringRoute c).refire =
      s.eventRequest c (s.ringRoute c).refire := rfl
  unfold State.grantHeld
  rw [e, alloc_withAsks]
  cases s.alloc (s.eventRequest c (s.ringRoute c).refire) <;> rfl

/-- The mover's ask does not look at the asks that wait. -/
theorem moverGrant_withAsks (s : State) (l : List Originator) :
    (s.withAsks l).moverGrant = s.moverGrant.map fun u => u.withAsks l := by
  have e : (s.withAsks l).moverAsk = s.moverAsk := rfl
  have e2 : ∀ c i, (s.withAsks l).moverRequest c i = s.moverRequest c i := fun _ _ => rfl
  unfold State.moverGrant
  rw [e]
  cases s.moverAsk with
  | none => rfl
  | some p =>
    obtain ⟨c, i⟩ := p
    dsimp only
    rw [e2, alloc_withAsks]
    cases s.alloc (s.moverRequest c i) <;> rfl

/-- The mover's asks do not look at the asks that wait. -/
theorem moverAsks_withAsks (n : Nat) (s : State) (l : List Originator) :
    (s.withAsks l).moverAsks n = (s.moverAsks n).withAsks l := by
  induction n generalizing s with
  | zero => rfl
  | succ n ih =>
    unfold State.moverAsks
    rw [moverGrant_withAsks]
    cases s.moverGrant with
    | none => rfl
    | some u => exact ih u

/-- One originator's ask does not look at those that wait. -/
theorem askAgain_withAsks (s : State) (l : List Originator) (o : Originator) :
    (s.withAsks l).askAgain o = (s.askAgain o).withAsks l := by
  unfold State.askAgain
  cases o with
  | event c =>
    dsimp only
    rw [show (s.withAsks l).isHeld c = s.isHeld c from rfl, grantHeld_withAsks]
    cases s.isHeld c <;> [rfl; skip]
    cases s.grantHeld c <;> rfl
  | mover c i => exact moverAsks_withAsks _ _ _
  | _ => rfl

/-- The asks are taken one after another, the first raised first (log 6). -/
theorem takeAsks_cons {s : State} {o : Originator} {l : List Originator} (h : s.asks = o :: l) :
    s.takeAsks = (State.askAgain { s with asks := l } o).takeAsks := by
  have e : ∀ k, ({ s with asks := k } : State).askAgain o = (s.askAgain o).withAsks k :=
    fun k => askAgain_withAsks s k o
  unfold State.takeAsks
  rw [h, e l]
  simp only [List.foldl_cons]
  rw [e []]
  rfl

/-! ### The mover's asks end (R163) -/

/-- How many slots of a channel wait for a tracker entry. -/
def Channel.asking (ch : Channel) : Nat := (List.finRange 8).countP fun i => (ch.slots.get i).wantsTag

/-- How many slots of the two channels wait for a tracker entry. -/
def Mover.asking (m : Mover) : Nat := m.chA.asking + m.chB.asking

/-- One member less satisfies a test. -/
theorem countP_less {α : Type} {p q : α → Bool} {i : α} (hp : p i = true) (hq : q i = false) (h : ∀ j, j ≠ i → q j = p j) :
    ∀ l : List α, l.Nodup → i ∈ l → l.countP p = l.countP q + 1 := by
  intro l
  induction l with
  | nil => intro _ hm; cases hm
  | cons a l ih =>
    intro hn hm
    rw [List.nodup_cons] at hn
    rw [List.countP_cons, List.countP_cons]
    by_cases ha : a = i
    · subst ha
      have : l.countP p = l.countP q := by
        apply List.countP_congr
        intro x hx
        rw [h x (by rintro rfl; exact hn.1 hx)]
      simp [hp, hq, this]
    · have hl : i ∈ l := by
        rcases List.mem_cons.1 hm with e | e
        · exact absurd e.symm ha
        · exact e
      rw [ih hn.2 hl, h a ha]
      omega

/-- A slot that has its tag asks no longer. -/
theorem asking_set {ch : Channel} {i : Fin 8} {sl : Slot} (h : (ch.slots.get i).wantsTag = true) (hs : sl.wantsTag = false) :
    ch.asking = ({ ch with slots := ch.slots.set i.val sl i.isLt } : Channel).asking + 1 := by
  unfold Channel.asking
  refine countP_less (i := i) h ?_ ?_ _ (List.nodup_finRange 8) (List.mem_finRange i)
  · show ((ch.slots.set i.val sl i.isLt).get i).wantsTag = false
    rw [get_set]; exact hs
  · intro j hj
    show ((ch.slots.set i.val sl i.isLt).get j).wantsTag = _
    rw [get_set_ne _ hj]

/-- The oldest slot that passes a test passes it. -/
theorem oldest_wants {ch : Channel} {p : Slot → Bool} {i : Fin 8} (h : ch.oldest p = some i) : p (ch.slots.get i) = true :=
  ((oldest_fold ch p (List.finRange 8) none (by simp) (by decide)).2 i h).1

/-- The mover stands exactly when a slot of it waits for a tracker entry. -/
theorem moverStands_eq (s : State) : s.moverStands = s.moverWaits := by
  have channel : ∀ ch : Channel, ch.askSlot.isSome =
      ch.slots.toList.any fun sl => sl.state == .ringPending && sl.tag.isNone := by
    intro ch
    have any : (ch.slots.toList.any fun sl => sl.state == .ringPending && sl.tag.isNone) = true ↔
        ∃ i, (ch.slots.get i).wantsTag = true := by
      rw [List.any_eq_true]
      constructor
      · rintro ⟨sl, hm, hs⟩
        obtain ⟨i, hi, rfl⟩ := List.mem_iff_getElem.1 hm
        have hi : i < 8 := by simpa using hi
        exact ⟨⟨i, hi⟩, by simpa [Vector.get, Slot.wantsTag] using hs⟩
      · rintro ⟨i, hi⟩
        exact ⟨ch.slots.get i, by simp [Vector.get], hi⟩
    rw [Bool.eq_iff_iff, any]
    cases h : ch.askSlot with
    | none => simpa using oldest_none.1 h
    | some i => simpa using ⟨i, oldest_wants h⟩
  have key : s.moverStands = (s.bm.chA.askSlot.isSome || s.bm.chB.askSlot.isSome) := by
    unfold State.moverStands State.moverAsk
    cases s.bm.turn <;> simp only [ChannelId.other, State.chan] <;>
      cases s.bm.chA.askSlot <;> cases s.bm.chB.askSlot <;> rfl
  rw [key, channel, channel]
  simp [State.moverWaits]

/-- The mover's asks after an event gave it more to ask for. -/
theorem moverAsksUnless_eq (u s : State) : u.moverAsksUnless s.moverStands = u.withMoverAsks s.moverWaits := by
  rw [moverStands_eq]; rfl

/-- A grant gives one of the asking slots its tag. -/
theorem moverGrant_asking {s u : State} (h : s.moverGrant = some u) : s.bm.asking = u.bm.asking + 1 := by
  unfold State.moverGrant at h
  split at h
  · cases h
  · rename_i c i ha
    split at h
    · cases h
    · rename_i t v hv
      cases h
      obtain ⟨_, _, _, l, _, rfl⟩ := alloc_some hv
      have hc : ((s.chan c).slots.get i).wantsTag = true := by
        unfold State.moverAsk at ha
        dsimp only at ha
        split at ha
        · rename_i j hj
          cases ha
          exact oldest_wants hj
        · cases hq : (s.chan s.bm.turn).askSlot with
          | none => rw [hq] at ha; cases ha
          | some j => rw [hq] at ha; cases ha; exact oldest_wants hq
      have hb : (s.allocated (s.moverRequest c i) t l).bm = s.bm := by simp
      have hch : (s.allocated (s.moverRequest c i) t l).chan c = s.chan c := by unfold State.chan; rw [hb]
      have key := asking_set (sl := { ((s.chan c).slots.get i) with tag := some t }) hc (by simp [Slot.wantsTag])
      show _ = ((s.allocated (s.moverRequest c i) t l).modSlot c i fun sl => { sl with tag := some t }).bm.asking + 1
      rw [modSlot_eq, hch]
      cases c
      · show s.bm.chA.asking + s.bm.chB.asking = _ + (s.allocated (s.moverRequest .a i) t l).bm.chB.asking + 1
        rw [hb]
        have key : s.bm.chA.asking = _ := key
        rw [key]
        exact Nat.add_right_comm _ _ _
      · show s.bm.chA.asking + s.bm.chB.asking = (s.allocated (s.moverRequest .b i) t l).bm.chA.asking + _ + 1
        rw [hb]
        have key : s.bm.chB.asking = _ := key
        rw [key]
        rfl

/-- Asking goes on to its end within as many grants as there are slots that ask. -/
theorem moverAsks_enough (n : Nat) : ∀ s : State, s.bm.asking ≤ n → s.moverAsks n = s.moverAsks (n + 1) := by
  induction n with
  | zero =>
    intro s h
    unfold State.moverAsks
    cases hg : s.moverGrant with
    | none => rfl
    | some u => have := moverGrant_asking hg; omega
  | succ n ih =>
    intro s h
    show (match s.moverGrant with | some s' => s'.moverAsks n | none => s) = (match s.moverGrant with | some s' => s'.moverAsks (n + 1) | none => s)
    cases hg : s.moverGrant with
    | none => rfl
    | some u => have := moverGrant_asking hg; exact ih u (by omega)

/-- No more slots ask than there are. -/
theorem asking_le (m : Mover) : m.asking ≤ slotCount := by
  have : ∀ ch : Channel, ch.asking ≤ 8 := fun ch => by
    have := List.countP_le_length (l := List.finRange 8) (p := fun i => (ch.slots.get i).wantsTag)
    rw [List.length_finRange] at this; exact this
  have a := this m.chA; have b := this m.chB
  unfold Mover.asking slotCount; omega

/-- A grant is the first of the mover's asks. -/
theorem moverAsks_grant {s u : State} (h : s.moverGrant = some u) : s.moverAsks slotCount = u.moverAsks slotCount := by
  rw [moverAsks_enough _ s (asking_le _)]
  show (match s.moverGrant with | some s' => s'.moverAsks slotCount | none => s) = _
  rw [h]

end Sys2Proof.Machine
end

