-- ==== Sys2Proof/Laws/Entries.lean ====
section
/-! SUPPORT. Tracker entries freed one by one and in runs. -/

namespace Sys2Proof.Machine

/-- What the fall of a window count leaves. -/
theorem fallOwt_rt (s : State) (w : Fin 16) : (s.fallOwt w).rt = s.rt ∧ (s.fallOwt w).ord = s.ord ∧ (s.fallOwt w).port.offer = s.port.offer ∧ (s.fallOwt w).firings = s.firings ∧ (s.fallOwt w).ag.faults = s.ag.faults ∧ (s.fallOwt w).ag.overflow = s.ag.overflow := by
  unfold State.fallOwt
  dsimp only
  split
  · unfold State.reportDrained
    split
    · split
      · unfold State.agentPlace State.placeResponse
        split
        · rename_i s' e
          split at e
          · cases e
            unfold State.insertResponse
            split <;> exact ⟨rfl, rfl, rfl, rfl, rfl, rfl⟩
          · cases e
        · exact ⟨rfl, rfl, rfl, rfl, rfl, rfl⟩
      · exact ⟨rfl, rfl, rfl, rfl, rfl, rfl⟩
    · exact ⟨rfl, rfl, rfl, rfl, rfl, rfl⟩
  · exact ⟨rfl, rfl, rfl, rfl, rfl, rfl⟩

/-- What the fall of a window count makes of the tables. -/
theorem fallOwt_wt (s : State) (w : Fin 16) : (s.fallOwt w).wt = { s.wt with owt := modAt s.wt.owt w OwtEntry.fall } := by
  unfold State.fallOwt
  dsimp only
  split
  · unfold State.reportDrained
    split
    · split
      · unfold State.agentPlace State.placeResponse
        split
        · rename_i s' e
          split at e
          · cases e
            unfold State.insertResponse
            split <;> rfl
          · cases e
        · rfl
      · rfl
    · rfl
  · rfl

/-- An entry that goes to BACKOFF. -/
theorem withBackoff_eq (s : State) (t : Tag) : s.toBackoff t = s.withBackoff t := by
  unfold State.toBackoff State.withBackoff State.oldestPosted
  dsimp only
  by_cases h : (s.rt.entries.get t).kind = .postedWrite ∧ (s.postedRun (s.rt.entries.get t).dest).head? = some t
  · rw [if_pos h]
    refine (if_pos h).trans ?_
    rfl
  · rw [if_neg h]
    refine (if_neg h).trans ?_
    rfl

/-- What freeing a run of entries leaves. -/
structure Freed (s v : State) (run : List Tag) : Prop where
  free : v.rt.freeList = s.rt.freeList ++ run
  freed : ∀ x ∈ run, (v.rt.entries.get x).state = .free ∧ (v.rt.entries.get x).responseTimer = .stopped ∧
    (v.rt.entries.get x).backoffTimer = .stopped
  same : ∀ x, x ∉ run → v.rt.entries.get x = s.rt.entries.get x
  gen : ∀ x, (v.rt.entries.get x).gen = (s.rt.entries.get x).gen
  order : v.rt.allocOrder = run.foldl List.erase s.rt.allocOrder
  ord : v.ord = s.ord

/-- An entry that ends in an abort is freed. -/
theorem completeEntry_freed (s : State) (r : Result) (t : Tag) : Freed s (s.completeEntry r [] t) [t] := by
  have key : ∀ s : State, (s.freeEntry t).rt = { s.rt with entries := modAt s.rt.entries t TrackerEntry.freed, allocOrder := s.rt.allocOrder.erase t, freeList := s.rt.freeList ++ [t] } ∧ (s.freeEntry t).ord = s.ord := by
    intro s
    unfold State.freeEntry
    dsimp only
    cases (s.entry t).window with
    | none => exact ⟨rfl, rfl⟩
    | some w => 
      dsimp only [State.modRt]
      exact ⟨by rw [(fallOwt_rt _ w).1]; rfl, (fallOwt_rt _ w).2.1⟩
  have ho : HandOver s (s.handOver t r []) := (HandOver.refl s).handOver
  have k := key (s.handOver t r [])
  rw [ho.rt] at k
  have he : (s.completeEntry r [] t).rt.entries = modAt s.rt.entries t TrackerEntry.freed := by
    show ((s.handOver t r []).freeEntry t).rt.entries = _; rw [k.1]
  have hg : (modAt s.rt.entries t TrackerEntry.freed).get t = (s.rt.entries.get t).freed := get_set _ _ _
  refine ⟨?_, ?_, ?_, ?_, ?_, ?_⟩
  · show ((s.handOver t r []).freeEntry t).rt.freeList = _; rw [k.1]
  · intro x hx
    simp at hx; subst hx
    rw [he, hg]; exact ⟨rfl, rfl, rfl⟩
  · intro x hx
    simp at hx
    rw [he]; exact get_set_ne _ hx _
  · intro x
    rw [he]
    by_cases hx : x = t
    · subst hx; rw [hg]; rfl
    · rw [show (modAt s.rt.entries t TrackerEntry.freed).get x = _ from get_set_ne _ hx _]
  · show ((s.handOver t r []).freeEntry t).rt.allocOrder = _; rw [k.1]; rfl
  · exact k.2.trans ho.ord

/-- Entries that end in an abort are freed. -/
theorem foldAbort' (r : Result) (W : List Tag) : ∀ s : State, Freed s (W.foldl (State.completeEntry r []) s) W := by
  induction W with
  | nil => intro s; exact ⟨by simp, by simp, fun _ _ => rfl, fun _ => rfl, rfl, rfl⟩
  | cons t l ih =>
    intro s
    rw [List.foldl_cons]
    have a := completeEntry_freed s r t
    have b := ih (s.completeEntry r [] t)
    refine ⟨by rw [b.free, a.free]; simp, ?_, ?_, fun x => (b.gen x).trans (a.gen x), by rw [b.order, a.order]; rfl, b.ord.trans a.ord⟩
    · intro x hx
      by_cases hl : x ∈ l
      · exact b.freed x hl
      · rw [b.same x hl]
        have : x = t := by simpa [hl] using hx
        exact a.freed x (by simp [this])
    · intro x hx
      rw [List.mem_cons, not_or] at hx
      rw [b.same x hx.2, a.same x (by simpa using hx.1)]

/-- What freeing a run of entries leaves, when nobody is handed a result. -/
structure FreedRun (s v : State) (run : List Tag) : Prop where
  free : v.rt.freeList = s.rt.freeList ++ run
  freed : ∀ x ∈ run, (v.rt.entries.get x).state = .free
  same : ∀ x, x ∉ run → v.rt.entries.get x = s.rt.entries.get x
  order : v.rt.allocOrder = run.foldl List.erase s.rt.allocOrder
  ord : v.ord = s.ord
  firings : v.firings = s.firings
  faults : v.ag.faults = s.ag.faults
  overflow : v.ag.overflow = s.ag.overflow

/-- An entry freed. -/
theorem freeEntry_run (s : State) (t : Tag) : FreedRun s (s.freeEntry t) [t] := by
  have hrt : (s.freeEntry t).rt = { s.rt with entries := modAt s.rt.entries t TrackerEntry.freed, allocOrder := s.rt.allocOrder.erase t, freeList := s.rt.freeList ++ [t] } := by
    unfold State.freeEntry
    dsimp only
    cases (s.entry t).window with
    | none => rfl
    | some w => 
      dsimp only [State.modRt]
      rw [(fallOwt_rt _ w).1]; rfl
  have h2 : (s.freeEntry t).ord = s.ord ∧ (s.freeEntry t).firings = s.firings ∧ (s.freeEntry t).ag.faults = s.ag.faults ∧ (s.freeEntry t).ag.overflow = s.ag.overflow := by
    unfold State.freeEntry
    dsimp only
    cases (s.entry t).window with
    | none => exact ⟨rfl, rfl, rfl, rfl⟩
    | some w => 
      have := fallOwt_rt ((s.modEntry t TrackerEntry.freed).withdraw t) w
      exact ⟨this.2.1, this.2.2.2.1, this.2.2.2.2.1, this.2.2.2.2.2⟩
  refine ⟨by rw [hrt], ?_, ?_, by rw [hrt]; rfl, h2.1, h2.2.1, h2.2.2.1, h2.2.2.2⟩
  · intro x hx
    simp at hx; subst hx
    rw [hrt]; show ((modAt s.rt.entries x TrackerEntry.freed).get x).state = _
    rw [show (modAt s.rt.entries x TrackerEntry.freed).get x = _ from get_set _ _ _]; rfl
  · intro x hx
    simp at hx
    rw [hrt]; exact get_set_ne _ hx _

/-- One entry and then a run. -/
theorem FreedRun.cons {s u v : State} {t : Tag} {l : List Tag} (a : FreedRun s u [t]) (b : FreedRun u v l) (ht : t ∉ l) : FreedRun s v (t :: l) := by
  refine ⟨by rw [b.free, a.free]; simp, ?_, ?_, by rw [b.order, a.order]; rfl, b.ord.trans a.ord, b.firings.trans a.firings, b.faults.trans a.faults, b.overflow.trans a.overflow⟩
  · intro x hx
    rcases List.mem_cons.1 hx with rfl | hx
    · rw [b.same x ht]; exact a.freed x (by simp)
    · exact b.freed x hx
  · intro x hx
    rw [List.mem_cons, not_or] at hx
    rw [b.same x hx.2, a.same x (by simpa using hx.1)]

/-- No entry. -/
theorem FreedRun.nil (s : State) : FreedRun s s [] := ⟨by simp, by simp, fun _ _ => rfl, rfl, rfl, rfl, rfl, rfl⟩

/-- Tags erased from a list without duplicates. -/
theorem foldErase (W : List Tag) : ∀ l : List Tag, l.Nodup → W.foldl List.erase l = l.filter fun x => !W.contains x := by
  induction W with
  | nil => intro l _; simp
  | cons t W ih =>
    intro l hl
    rw [List.foldl_cons, ih _ (hl.erase t), hl.erase_eq_filter, List.filter_filter]
    congr 1
    funext x
    simp
    by_cases h1 : x = t <;> by_cases h2 : x ∈ W <;> simp [h1, h2]

/-- All tags of a list erased. -/
theorem foldErase_self : ∀ l : List Tag, l.foldl List.erase l = [] := by
  intro l
  have : ∀ (l m : List Tag), l.foldl List.erase (l ++ m) = m := by
    intro l
    induction l with
    | nil => intro m; rfl
    | cons t l ih => intro m; rw [List.foldl_cons, List.cons_append, List.erase_cons_head, ih]
  simpa using this l []

/-- With no entry held there is nothing to release. -/
theorem releaseUpTo_none (d : NodeId) (l : List Tag) : ∀ s : State, (∀ x ∈ l, (s.entry x).dest = d → (s.entry x).state ≠ .orderWait) →
    State.releaseUpTo d l s = s := by
  induction l with
  | nil => intro s _; rfl
  | cons t l ih =>
    intro s h
    unfold State.releaseUpTo
    split
    · rfl
    · rw [if_neg]
      · exact ih s (fun x hx => h x (by simp [hx]))
      · rintro ⟨a, b⟩; exact h t (by simp) a b

/-- Destinations that fail. -/
theorem foldFailed (ds : List NodeId) : ∀ s : State,
   let v := ds.foldl (fun s d => s.modSend d SendEntry.failed) s
   v.rt = s.rt ∧ (∀ d : Fin 32, (v.ord.send.get d).next = (s.ord.send.get d).next) ∧
   ∀ d : Fin 32, ((s.ord.send.get d).count = 0 ∧ (s.ord.send.get d).syncNeeded = true ∧ (s.ord.send.get d).stalled = false) ∨ d ∈ ds.map (·.toFin) →
     (v.ord.send.get d).count = 0 ∧ (v.ord.send.get d).syncNeeded = true ∧ (v.ord.send.get d).stalled = false := by
  induction ds with
  | nil => intro s; refine ⟨rfl, fun _ => rfl, ?_⟩; intro d h; simpa using h
  | cons d0 ds ih =>
    intro s
    dsimp only
    rw [List.foldl_cons]
    obtain ⟨a, b, c⟩ := ih (s.modSend d0 SendEntry.failed)
    have hs : (s.modSend d0 SendEntry.failed).ord.send = modAt s.ord.send d0.toFin SendEntry.failed := rfl
    have hself : (modAt s.ord.send d0.toFin SendEntry.failed).get d0.toFin = (s.ord.send.get d0.toFin).failed := get_set _ _ _
    have hne : ∀ d, d ≠ d0.toFin → (modAt s.ord.send d0.toFin SendEntry.failed).get d = s.ord.send.get d := fun d h => get_set_ne _ h _
    refine ⟨a, ?_, ?_⟩
    · intro d
      rw [b d, hs]
      by_cases hd : d = d0.toFin
      · subst hd; rw [hself]; rfl
      · rw [hne d hd]
    · intro d hd
      apply c d
      rw [hs]
      by_cases he : d = d0.toFin
      · subst he; left; rw [hself]; exact ⟨rfl, rfl, rfl⟩
      · rw [hne d he]
        rcases hd with hd | hd
        · exact .inl hd
        · rw [List.map_cons, List.mem_cons] at hd
          exact .inr (hd.resolve_left he)

/-- Responses that leave are reported. -/
theorem foldReport (l : List Response) : ∀ s : State, l.foldl (fun s r => s.reportLeft r.purpose) s =
   { s with left := s.left ++ (l.map (·.purpose)).filter (· ≠ .plain) } := by
  induction l with
  | nil => intro s; simp
  | cons a l ih =>
    intro s
    rw [List.foldl_cons, ih]
    unfold State.reportLeft
    cases hp : a.purpose <;> simp [hp]

/-- At rest a self-addressed request is not offered. -/
theorem rest_offer {s : State} (h : Rest s) {o : RequestOffer} (ho : s.port.offer = some o) :
    o.frame.dest ≠ s.en.ownId := by
  have := (settleStep_none.1 h.2.2.2.1).2.2
  unfold State.offerStep at this
  rw [ho] at this
  dsimp only at this
  split at this
  · cases this
  · split at this
    · cases this
    · assumption

/-- At rest what is offered waits for the arbiter. -/
theorem rest_waiting {s : State} (h : Rest s) : s.requestWaiting = s.port.offer := by
  unfold State.requestWaiting
  cases ho : s.port.offer with
  | none => rfl
  | some o => simp [Option.filter, rest_offer h ho]

/-- A request transmitted. -/
theorem transmitted_eq (v : State) (t : Tag) : v.transmitted t = { v with
    rt := { v.rt with
              entries := v.rt.entries.set t.val
                { v.rt.entries.get t with
                  state := .sent
                  responseTimer := .running (v.ag.params.responseTimeout.toNat * 16)
                  sentOnce := true } t.isLt
              counters := if (v.rt.entries.get t).sentOnce then { v.rt.counters with resends := bump v.rt.counters.resends }
                else { v.rt.counters with requestsSent := bump v.rt.counters.requestsSent } }
    port := { v.port with offer := none } } := by
  unfold State.transmitted State.entry State.modEntry State.modRt State.countRt State.modPort modAt State.responseTime
  cases (v.rt.entries.get t).sentOnce <;> rfl

end Sys2Proof.Machine
end

