-- ==== Sys2Proof/Laws/KeepsFlow.lean ====
section
/-! SUPPORT. What the operations of the tracker, the events block, the mover and the completions keep. -/

-- Proofs one after another: run side by side in one file, they wait for each other in too many threads.
set_option Elab.async false

namespace Sys2Proof.Machine.Keeps

variable {s t u : State}

/-! ### The tracker -/

theorem modEntry {x : Tag} {f : TrackerEntry → TrackerEntry} (h : Keeps s t) : Keeps s (t.modEntry x f) := h.modRt
theorem modSend {d : NodeId} {f : SendEntry → SendEntry} (h : Keeps s t) : Keeps s (t.modSend d f) := h.modOrd

theorem allocated {r : AllocRequest} {x : Tag} {l : List Tag} (h : Keeps s t) : Keeps s (t.allocated r x l) := by
  unfold State.allocated
  dsimp only
  split <;> split
  · exact h.modRt.modSend.riseOwt
  · exact h.modRt.riseOwt
  · exact h.modRt.modSend
  · exact h.modRt

theorem alloc {r : AllocRequest} {x : Tag} (e : t.alloc r = some (x, u)) (h : Keeps s t) : Keeps s u := by
  unfold State.alloc at e
  split at e
  · cases e
  · split at e
    · cases e
    · split at e
      · cases e
      · split at e
        · cases e
        · cases e; exact h.allocated

theorem transmitted {x : Tag} (h : Keeps s t) : Keeps s (t.transmitted x) := by
  unfold State.transmitted
  exact h.modEntry.countRt.modPort

theorem offerStep (e : t.offerStep = some u) (h : Keeps s t) : Keeps s u := by
  unfold State.offerStep at e
  split at e
  · split at e
    · cases e; exact h.modPort
    · split at e
      · cases e; exact h.modPort.countPort.transmitted
      · split at e
        · cases e; exact h.countDiscarded.transmitted
        · cases e
  · split at e
    · cases e; exact h.modPort
    · cases e

theorem refreshOffer {x : Tag} (h : Keeps s t) : Keeps s (t.refreshOffer x) := h.modPort

theorem withdraw {x : Tag} (h : Keeps s t) : Keeps s (t.withdraw x) := h.modPort

theorem freeEntry {x : Tag} (h : Keeps s t) : Keeps s (t.freeEntry x) := by
  unfold State.freeEntry
  dsimp only
  split
  · exact h.modEntry.withdraw.fallOwt.modRt
  · exact h.modEntry.withdraw.modRt

/-! ### Events -/

theorem modRing {c : EventCode} {f : RingRoute → RingRoute} (h : Keeps s t) : Keeps s (t.modRing c f) :=
  h.modEv (Nat.le_max_left _ _)

theorem recordEventTag {c : EventCode} {x : Tag} (h : Keeps s t) : Keeps s (t.recordEventTag c x) :=
  h.modRing.countEv

theorem ringFire {c : EventCode} (h : Keeps s t) : Keeps s (t.ringFire c) := by
  unfold State.ringFire
  dsimp only
  split
  · exact h.modRing.countEv
  · split
    · rename_i e; exact (h.alloc e).recordEventTag
    · exact h.modRing

theorem takeFiring {c : EventCode} (h : Keeps s t) : Keeps s (t.takeFiring c) := by
  unfold State.takeFiring
  split
  · exact h
  · exact h.modEv (Nat.le_max_left _ _)
  · exact h.modEv (Nat.le_max_left _ _)
  · exact h.ringFire

theorem takeFirings (h : Keeps s t) : Keeps s t.takeFirings :=
  h.setFirings.foldl (fun s _ => (refl s).takeFiring) _

theorem grantHeld {c : EventCode} (e : t.grantHeld c = some u) (h : Keeps s t) : Keeps s u := by
  unfold State.grantHeld at e
  split at e
  · rename_i a
    cases e
    exact ((h.alloc a).recordEventTag.modRing).modEv (Nat.le_max_left _ _)
  · cases e

theorem compareInput {i : Fin 4} (h : Keeps s t) : Keeps s (t.compareInput i) := by
  unfold State.compareInput
  dsimp only
  split
  · exact h
  · split
    · exact h.modEvSame.fire
    · exact h.modEvSame

theorem compareInputs (h : Keeps s t) : Keeps s t.compareInputs := h.foldl (fun s _ => (refl s).compareInput) _

theorem attnLevel {i : Fin 4} {b : Bool} (h : Keeps s t) : Keeps s (t.attnLevel i b) :=
  (h.modEvSame (f := fun e => { e with attnInput := putLevel e.attnInput i b })).compareInput

theorem takeEvent {f : Frame} {r : Ref} {n : BitVec 6} {k : BitVec 8} (h : Keeps s t) :
    Keeps s (t.takeEvent f r n k) := by
  unfold State.takeEvent
  dsimp only
  split
  · exact h.countEv
  · rename_i hr
    have hr : t.responseRoom = true := by simpa using hr
    split
    · refine ((h.modEv ?_).countEv).insertResponse hr
      simp
    · split
      · rename_i hl
        have hk : Keeps s (((t.modEv fun e => { e with inbox := e.inbox ++ [⟨f.source, n, k.toNat⟩] }).countEv
            fun k => { k with inboxNew := bump k.inboxNew }).insertResponse
            (plainResponse (Frame.answer f.source f.dest (.accept r)))) := by
          refine ((h.modEv ?_).countEv).insertResponse hr
          simp [inboxSize] at hl ⊢
          omega
        split
        · exact hk.fire
        · exact hk
      · exact h.countEv.insertResponse hr

/-! ### The mover -/

theorem modChan {c : ChannelId} {f : Channel → Channel} (h : Keeps s t) : Keeps s (t.modChan c f) := h.modBm
theorem modSlot {c : ChannelId} {i : Fin 8} {f : Slot → Slot} (h : Keeps s t) : Keeps s (t.modSlot c i f) :=
  h.modChan
theorem freeSlot {c : ChannelId} {i : Fin 8} (h : Keeps s t) : Keeps s (t.freeSlot c i) := h.modSlot

theorem startFrames {c : ChannelId} (h : Keeps s t) : Keeps s (t.startFrames c) := by
  unfold State.startFrames
  split
  · exact h.modBm
  · exact h

theorem releaseChannel {c : ChannelId} (h : Keeps s t) : Keeps s (t.releaseChannel c) := by
  refine h.foldl (fun s i => ?_) _
  dsimp only
  split
  · exact (refl s).freeSlot
  · exact refl s

theorem channelIdle {c : ChannelId} (h : Keeps s t) : Keeps s (t.channelIdle c) := h.modBm.fire

theorem stopChannel {c : ChannelId} (h : Keeps s t) : Keeps s (t.stopChannel c) := by
  unfold State.stopChannel
  dsimp only
  split
  · exact h.modChan.releaseChannel
  · exact h.modChan.releaseChannel.channelIdle

theorem haltChannel {c : ChannelId} {n : Nat} {d : Option Detail} (h : Keeps s t) :
    Keeps s (t.haltChannel c n d) := h.modChan.releaseChannel.modChan.recordFault.fire

theorem slotFreed {c : ChannelId} (h : Keeps s t) : Keeps s (t.slotFreed c) := by
  unfold State.slotFreed
  split
  · exact h.startFrames
  · split
    · exact h
    · exact h.channelIdle
  · exact h
  · exact h

theorem chainNext {c : ChannelId} (h : Keeps s t) : Keeps s (t.chainNext c) := by
  unfold State.chainNext
  dsimp only
  split
  · exact h.channelIdle
  · split
    · exact h.modChan.startFrames
    · exact h.haltChannel

theorem descriptorComplete {c : ChannelId} (h : Keeps s t) : Keeps s (t.descriptorComplete c) := by
  have h1 : Keeps s (if (t.descriptor (t.currentIndex c)).notify then t.fire (codeMoveDone c) else t) := by
    split
    · exact h.fire
    · exact h
  unfold State.descriptorComplete
  dsimp only
  split
  · exact h1.channelIdle
  · exact h1.chainNext
  · exact h1
  · exact h1

theorem frameDone {c : ChannelId} {i : Fin 8} (h : Keeps s t) : Keeps s (t.frameDone c i) := by
  unfold State.frameDone
  dsimp only
  split
  · exact h.freeSlot.countBm.slotFreed
  · split
    · exact h.freeSlot.countBm.modChan.descriptorComplete
    · exact h.freeSlot.countBm.modChan.slotFreed

theorem frameFailed {c : ChannelId} {i : Fin 8} {d : Detail} (h : Keeps s t) :
    Keeps s (t.frameFailed c i d) := by
  unfold State.frameFailed
  dsimp only
  split
  · exact h.freeSlot.haltChannel
  · exact h.freeSlot.slotFreed

theorem moverCompleted {c : ChannelId} {i : Fin 8} {k : ReqKind} {r : Result} {d : List Word} (h : Keeps s t) :
    Keeps s (t.moverCompleted c i k r d) := by
  unfold State.moverCompleted
  split
  · split
    · exact h.modSlot
    · exact h.frameDone
  · exact h.frameFailed

theorem pushRead {c : ChannelId} {i : Fin 8} {d : List Word} (h : Keeps s t) : Keeps s (t.pushRead c i d) := by
  unfold State.pushRead
  split
  · exact h.freeSlot.slotFreed
  · exact h.freeSlot.slotFreed
  · exact h.modSlot
  · exact h.modSlot

theorem moverBusDone {c : ChannelId} {i : Fin 8} {d : List Word} (h : Keeps s t) :
    Keeps s (t.moverBusDone c i d) := by
  unfold State.moverBusDone
  split
  · exact h.pushRead
  · exact h.frameDone
  · exact h
  · exact h

theorem moverBusFault {c : ChannelId} {i : Fin 8} (h : Keeps s t) : Keeps s (t.moverBusFault c i) := by
  unfold State.moverBusFault
  split
  · exact h.frameFailed
  · exact h.frameFailed
  · exact h
  · exact h

theorem moverGrant (e : t.moverGrant = some u) (h : Keeps s t) : Keeps s u := by
  unfold State.moverGrant at e
  split at e
  · cases e
  · split at e
    · cases e
    · rename_i a
      cases e
      exact (h.alloc a).modSlot.modBm.countBm

theorem moverAsks {n : Nat} (h : Keeps s t) : Keeps s (t.moverAsks n) := by
  induction n generalizing t with
  | zero => exact h
  | succ n ih =>
    unfold State.moverAsks
    split
    · rename_i e; exact ih (h.moverGrant e)
    · exact h

theorem moverAsksUnless {stood : Bool} (h : Keeps s t) : Keeps s (t.moverAsksUnless stood) := by
  unfold State.moverAsksUnless
  split
  · exact h
  · exact h.moverAsks

theorem startMove {c : ChannelId} {i : Fin 64} (h : Keeps s t) : Keeps s (t.startMove c i) :=
  h.modChan.startFrames.moverAsksUnless

theorem stopMove {c : ChannelId} (h : Keeps s t) : Keeps s (t.stopMove c) := by
  unfold State.stopMove
  split
  · exact h.stopChannel
  · exact h.modChan.channelIdle
  · exact h
  · exact h

theorem localHalt {c : ChannelId} (h : Keeps s t) : Keeps s (t.localHalt c) := by
  unfold State.localHalt
  dsimp only
  split
  · exact h.haltChannel
  · exact h

/-! ### Standing claims -/

theorem issueGrant (e : t.issueGrant = some u) (h : Keeps s t) : Keeps s u := by
  unfold State.issueGrant at e
  split at e
  · rename_i a; cases e; exact (h.alloc a).modAg
  · cases e

theorem claimGrant {c : Claimant} (e : t.claimGrant c = some u) (h : Keeps s t) : Keeps s u := by
  cases c with
  | issueSlot =>
    simp only [State.claimGrant] at e
    split at e
    · exact h.issueGrant e
    · cases e
  | router =>
    simp only [State.claimGrant] at e
    split at e
    · exact h.grantHeld e
    · cases e
  | mover => exact h.moverGrant e

theorem claimStep (e : t.claimStep = some u) (h : Keeps s t) : Keeps s u := by
  unfold State.claimStep at e
  obtain ⟨c, _, hc⟩ := List.exists_of_findSome?_eq_some e
  cases hg : t.claimGrant c with
  | none => simp [hg] at hc
  | some v => simp [hg] at hc; subst hc; exact (h.claimGrant hg).modRt

theorem claimSteps {n : Nat} (h : Keeps s t) : Keeps s (t.claimSteps n) := by
  induction n generalizing t with
  | zero => exact h
  | succ n ih =>
    unfold State.claimSteps
    split
    · rename_i e; exact ih (h.claimStep e)
    · exact h

theorem serveClaims (h : Keeps s t) : Keeps s t.serveClaims := h.claimSteps

/-! ### Completion -/

theorem eventCompleted {c : EventCode} {d : NodeId} {r : Result} (h : Keeps s t) :
    Keeps s (t.eventCompleted c d r) := by
  unfold State.eventCompleted
  dsimp only
  split
  · exact h.modRing
  · exact h.modRing.recordFault

theorem handOver {x : Tag} {r : Result} {d : List Word} (h : Keeps s t) : Keeps s (t.handOver x r d) := by
  unfold State.handOver
  dsimp only
  split
  · exact h
  · exact h
  · exact h.modLt
  · split
    · exact h.moverCompleted
    · exact h.moverCompleted.raiseAsk
  · exact h.eventCompleted.raiseAsk
  · exact h.modAg.fire

theorem askAgain {o : Originator} (h : Keeps s t) : Keeps s (t.askAgain o) := by
  unfold State.askAgain
  split
  · split
    · rename_i c _
      cases e : t.grantHeld c with
      | none => exact h
      | some v => exact h.grantHeld e
    · exact h
  · exact h.moverAsks
  all_goals exact h

theorem takeAsks (h : Keeps s t) : Keeps s t.takeAsks := h.setAsks.foldl (fun s _ => (refl s).askAgain) _

theorem completeEntry {r : Result} {d : List Word} {x : Tag} (h : Keeps s t) : Keeps s (t.completeEntry r d x) :=
  h.handOver.freeEntry

theorem settleStalled {d : NodeId} (h : Keeps s t) : Keeps s (t.settleStalled d) := h.modSend

theorem releaseUpTo {d : NodeId} {l : List Tag} (h : Keeps s t) : Keeps s (State.releaseUpTo d l t) := by
  induction l generalizing t with
  | nil => exact h
  | cons x l ih =>
    unfold State.releaseUpTo
    split
    · exact h
    · split
      · exact ih h.modEntry
      · exact ih h

theorem releaseOrderWait {d : NodeId} (h : Keeps s t) : Keeps s (t.releaseOrderWait d) := h.releaseUpTo

theorem acceptOldest {d : NodeId} {n : Nat} (h : Keeps s t) : Keeps s (t.acceptOldest d n) :=
  (h.foldl (fun s _ => (refl s).completeEntry) _).modSend

theorem cumulativeAccept {x : Tag} (h : Keeps s t) : Keeps s (t.cumulativeAccept x) :=
  h.acceptOldest.settleStalled.releaseOrderWait

theorem refusePosted {x : Tag} {c : FinalCode} (h : Keeps s t) : Keeps s (t.refusePosted x c) :=
  h.acceptOldest.completeEntry.recordFault.modSend.settleStalled.releaseOrderWait

theorem failRun {d : NodeId} {r : Result} (h : Keeps s t) : Keeps s (t.failRun d r) :=
  (h.foldl (fun s _ => (refl s).completeEntry) _).recordFaults.modSend.releaseOrderWait

theorem failEntry {x : Tag} {r : Result} (h : Keeps s t) : Keeps s (t.failEntry x r) := by
  unfold State.failEntry
  split
  · exact h.failRun
  · exact h.completeEntry

theorem returnRun {d : NodeId} (h : Keeps s t) : Keeps s (t.returnRun d) :=
  h.foldl (fun s _ => (refl s).modEntry) _

theorem unsyncedGoBack {d : NodeId} (h : Keeps s t) : Keeps s (t.unsyncedGoBack d) := by
  unfold State.unsyncedGoBack
  split
  · exact h.modEntry.returnRun.refreshOffer
  · exact h

theorem goBack {d : NodeId} {e : Seq} (h : Keeps s t) : Keeps s (t.goBack d e) := by
  unfold State.goBack
  dsimp only
  split
  · exact h.returnRun
  · split
    · exact h.acceptOldest.settleStalled.releaseOrderWait.returnRun
    · exact h.unsyncedGoBack

theorem toBackoff {x : Tag} (h : Keeps s t) : Keeps s (t.toBackoff x) := by
  unfold State.toBackoff
  dsimp only
  split
  · exact h.modEntry.modSend
  · exact h.modEntry

theorem responseExpired {x : Tag} (h : Keeps s t) : Keeps s (t.responseExpired x) := by
  unfold State.responseExpired
  dsimp only
  split
  · exact h.countRt.toBackoff
  · exact h.countRt.failEntry

theorem retryBusy {x : Tag} (h : Keeps s t) : Keeps s (t.retryBusy x) := by
  unfold State.retryBusy
  split
  · split
    · exact h.toBackoff
    · exact h.modEntry
  · exact h.countRt.failEntry

theorem refused {x : Tag} {w : RefuseFields} (h : Keeps s t) : Keeps s (t.refused x w) := by
  unfold State.refused
  dsimp only
  split
  · exact h.retryBusy
  · split
    · split
      · exact h.unsyncedGoBack
      · exact h.goBack
    · split
      · split
        · exact h.refusePosted
        · exact h.completeEntry
      · exact h

theorem answered {x : Tag} {f : Frame} (h : Keeps s t) : Keeps s (t.answered x f) := by
  unfold State.answered
  split
  · split
    · exact h.cumulativeAccept
    · exact h.completeEntry
  · exact h.refused
  · exact h.completeEntry

theorem takeResponse {r : Ref} {f : Frame} (h : Keeps s t) : Keeps s (t.takeResponse r f) := by
  unfold State.takeResponse
  split
  · exact h.answered
  · exact h.countRt

theorem takeReturned {k : ReqKind} {r : Ref} {d : NodeId} (h : Keeps s t) : Keeps s (t.takeReturned k r d) := by
  unfold State.takeReturned
  split
  · exact h.countRt.failEntry
  · exact h.countRt

theorem abort {r : Result} (h : Keeps s t) : Keeps s (t.abort r) := by
  unfold State.abort
  exact ((h.foldl (fun s _ => (refl s).completeEntry) _).recordFaults.foldl (fun s _ => (refl s).modSend) _).modPort

theorem renumberAbort (h : Keeps s t) : Keeps s t.renumberAbort := h.abort.modOrd

end Sys2Proof.Machine.Keeps
end

