-- ==== Sys2Proof/Laws/KeepsBlocks.lean ====
section
/-! SUPPORT. What the operations of enumeration, the inbound side, the local target, the resets and the end of an
event keep. -/

-- Proofs one after another: run side by side in one file, they wait for each other in too many threads.
set_option Elab.async false

namespace Sys2Proof.Machine

/-! ### Ids -/

theorem isNode_iff_ids {id : NodeId} : isNode id = true ↔ id ≠ noNode ∧ id ≠ allNodes := by simp [isNode]

theorem IdSet.lowestFree_isNode {set : IdSet} {id : NodeId} (h : IdSet.lowestFree set = some id) :
    isNode id = true := by
  unfold IdSet.lowestFree at h
  obtain ⟨n, hn, rfl⟩ := Option.map_eq_some_iff.1 h
  have h1 := List.mem_of_find?_eq_some hn
  have h2 := List.find?_some hn
  simp at h1 h2
  obtain ⟨h2, _⟩ := h2
  rw [isNode_iff_ids]
  constructor <;> intro e
  · have := congrArg BitVec.toNat e; simp at this; omega
  · have := congrArg BitVec.toNat e; simp at this; omega

theorem IdsLegal.setId {e : Enumeration} {id : NodeId} {r : Role} (h : IdsLegal e)
    (hr : id = noNode ↔ r = .unnumbered) (ha : id ≠ allNodes) : IdsLegal { e with ownId := id, role := r } :=
  ⟨hr, ha, h.2.2.1, h.2.2.2⟩

/-- A manager's run may be in any state. -/
theorem IdsLegal.asManager {e e' : Enumeration} (h : IdsLegal e) (hm : e.manager = true) (ho : e'.ownId = e.ownId)
    (hr : e'.role = e.role) (hi : e'.idMode = e.idMode) (hs : e'.strappedId = e.strappedId)
    (hm' : e'.manager = e.manager) : IdsLegal e' := by
  refine ⟨by rw [ho, hr]; exact h.1, by rw [ho]; exact h.2.1, by rw [hi, hs]; exact h.2.2.1, fun x => ?_⟩
  rw [hm', hm] at x; cases x

theorem IdsLegal.manager_of_pass {e : Enumeration} {p : Pass} (h : IdsLegal e) (hp : e.state.pass = some p) :
    e.manager = true := by
  cases hm : e.manager with
  | true => rfl
  | false => rw [(h.2.2.2 hm).1] at hp; cases hp

theorem IdsLegal.manager_of_pending {e : Enumeration} {k : Bool} (h : IdsLegal e) (hp : e.runPending = some k) :
    e.manager = true := by
  cases hm : e.manager with
  | true => rfl
  | false => rw [(h.2.2.2 hm).2] at hp; cases hp

/-- Enumeration after a RING reset is legal. -/
theorem IdsLegal.ringReset {e : Enumeration} {up : Bool} (h : IdsLegal e) : IdsLegal (e.ringReset up) := by
  obtain ⟨h1, h2, h3, h4⟩ := h
  have key : (e.freshNode.ownId = noNode ↔ e.freshNode.role = .unnumbered) ∧ e.freshNode.ownId ≠ allNodes := by
    cases hi : e.idMode
    · simp [Enumeration.freshNode, hi]
    · have := isNode_iff_ids.1 (h3 hi)
      exact ⟨by simp [Enumeration.freshNode, hi]; exact this.1, by simp [Enumeration.freshNode, hi]; exact this.2⟩
  cases hm : e.manager
  · simp only [Enumeration.ringReset, hm]
    exact ⟨key.1, key.2, h3, fun _ => h4 hm⟩
  · simp only [Enumeration.ringReset, hm]
    exact ⟨key.1, key.2, h3, fun x => by simp [Enumeration.runFields, Enumeration.startSet, Enumeration.freshNode, hm] at x⟩

theorem Enumeration.ringReset_straps {e : Enumeration} {up : Bool} : (e.ringReset up).straps = e.straps := by
  unfold Enumeration.ringReset
  dsimp only
  split <;> rfl

namespace Keeps

variable {s t u : State}

/-! ### Enumeration -/

theorem setId {id : NodeId} {r : Role} (hr : IdsLegal t.en → (id = noNode ↔ r = .unnumbered))
    (ha : IdsLegal t.en → id ≠ allNodes) (h : Keeps s t) : Keeps s (t.setId id r) :=
  h.modEn fun i => i.setId (hr i) (ha i)

theorem unsetId (h : Keeps s t) : Keeps s (t.setId noNode .unnumbered) :=
  h.setId (fun _ => ⟨fun _ => rfl, fun _ => rfl⟩) (fun _ => by decide)

theorem dropAssigned (h : Keeps s t) : Keeps s t.dropAssigned := by
  unfold State.dropAssigned
  split
  · exact h.unsetId
  · exact h

theorem dropIds (h : Keeps s t) : Keeps s t.dropIds := h.renumberAbort.dropAssigned

theorem beginPass {p : Pass} (hm : t.en.manager = true) (h : Keeps s t) : Keeps s (t.beginPass p) := by
  unfold State.beginPass
  exact (h.modEn fun i => i.asManager hm rfl rfl rfl rfl rfl).presentControl

theorem startRun {k : Bool} (hm : t.en.manager = true) (h : Keeps s t) : Keeps s (t.startRun k) := by
  have k0 : Keeps t ((t.modEn fun e => { e with runPending := none, runKeep := k, attempt := 1 }).countEn
      fun c => { c with runsStarted := bump c.runsStarted }) :=
    ((refl t).modEn fun i => i.asManager hm rfl rfl rfl rfl rfl).countEn
  unfold State.startRun
  dsimp only
  split
  · have k2 := k0.modEn (f := Enumeration.startSet) id
    exact h.trans (k2.beginPass (k2.manager.trans hm))
  · have k2 := k0.dropIds.modEn (f := Enumeration.startSet) id
    exact h.trans (k2.beginPass (k2.manager.trans hm))

theorem startIfSettled (h : Keeps s t) : Keeps s t.startIfSettled := by
  unfold State.startIfSettled
  split
  · split
    · rename_i hc; exact h.startRun hc.1
    · exact h
  · exact h

theorem trigger {k : Bool} (h : Keeps s t) : Keeps s (t.trigger k) := by
  unfold State.trigger
  split
  · rename_i hm
    exact (h.modEn fun i => i.asManager hm rfl rfl rfl rfl rfl).startIfSettled
  · exact h

theorem runEnded (hm : t.en.manager = true) (h : Keeps s t) : Keeps s t.runEnded := by
  have k : Keeps t t.takeFirings.serveClaims := (refl t).takeFirings.serveClaims
  unfold State.runEnded
  split
  · exact (h.trans k).startRun (k.manager.trans hm)
  · exact h

theorem takeRunSet {e : EnumFields} (h : Keeps s t) : Keeps s (t.takeRunSet e) := h.modEn id

theorem managerTakesId (h : Keeps s t) : Keeps s t.managerTakesId := by
  unfold State.managerTakesId
  split
  · split
    · rename_i id hid
      have hn := isNode_iff_ids.1 (IdSet.lowestFree_isNode hid)
      refine (h.setId (fun _ => ⟨fun x => absurd x hn.1, fun x => ?_⟩) fun _ => hn.2).modEn fun i => i
      cases x
    · exact h.recordFault
  · exact h

theorem censusReturned {e : EnumFields} (hm : t.en.manager = true) (h : Keeps s t) :
    Keeps s (t.censusReturned e) := by
  have k : Keeps t (if e.duplicate then (t.takeRunSet e).recordFault (bareRecord .duplicateId)
      else t.takeRunSet e).managerTakesId := by
    split
    · exact (refl t).takeRunSet.recordFault.managerTakesId
    · exact (refl t).takeRunSet.managerTakesId
  exact (h.trans k).beginPass (k.manager.trans hm)

theorem assignReturned {e : EnumFields} (hm : t.en.manager = true) (h : Keeps s t) :
    Keeps s (t.assignReturned e) := by
  have k : Keeps t (if e.overflow then (t.takeRunSet e).recordFault (bareRecord .enumOverflow)
      else t.takeRunSet e) := by
    split
    · exact (refl t).takeRunSet.recordFault
    · exact (refl t).takeRunSet
  exact (h.trans k).beginPass (k.manager.trans hm)

theorem publishReturned (hm : t.en.manager = true) (h : Keeps s t) : Keeps s t.publishReturned := by
  have k : Keeps t ((t.modEn fun e =>
      { e with
        passTimer := .stopped
        census := e.runSet
        censusCount := e.runCount
        role := if e.role = .provisional then .numbered else e.role
        state := .done }).fire codeEnumDone) := by
    refine ((refl t).modEn fun i => ?_).fire
    refine ⟨?_, i.2.1, i.2.2.1, fun x => by simp [hm] at x⟩
    have := i.1
    cases hr : t.en.role <;> simp [hr] at this ⊢ <;> exact this
  exact (h.trans k).runEnded (k.manager.trans hm)

theorem takeBack {e : EnumFields} (hm : t.en.manager = true) (h : Keeps s t) : Keeps s (t.takeBack e) := by
  unfold State.takeBack
  split
  · split
    · split
      · exact h.censusReturned hm
      · exact h.assignReturned hm
      · exact h.publishReturned hm
    · exact h
  · exact h

theorem foreignEnum {n : NodeId} (h : Keeps s t) : Keeps s (t.foreignEnum n) := h.countEn.recordFault

theorem passExpired {p : Pass} (hm : t.en.manager = true) (h : Keeps s t) : Keeps s (t.passExpired p) := by
  unfold State.passExpired
  dsimp only
  split
  · exact ((h.modEn id).modEn id).countEn.presentControl
  · have k : Keeps t ((((t.modEn fun e => { e with passTimer := .stopped }).modEn fun e =>
        { e with state := .failed }).recordFault (bareRecord .enumFailed)).fire codeEnumFailed) := by
      refine Keeps.fire (Keeps.recordFault (Keeps.modEn (fun i => ?_) (fun _ => rfl) ((refl t).modEn fun i => ?_)))
      · exact i.asManager hm rfl rfl rfl rfl rfl
      · exact i
    exact (h.trans k).runEnded (k.manager.trans hm)

theorem takeStrapped (h : Keeps s t) : Keeps s t.takeStrapped := by
  unfold State.takeStrapped
  split
  · rename_i hc
    exact h.setId
      (fun i => ⟨fun x => absurd x (isNode_iff_ids.1 (i.2.2.1 hc.1)).1, fun x => by cases x⟩)
      fun i => (isNode_iff_ids.1 (i.2.2.1 hc.1)).2
  · exact h

theorem giveUpId {k : Bool} (h : Keeps s t) : Keeps s (t.giveUpId k) := by
  unfold State.giveUpId
  dsimp only
  split
  · exact h.unsetId.recordFault.renumberAbort.modEn id
  · exact h.unsetId.recordFault.modEn id

theorem censusPass {e : EnumFields} (h : Keeps s t) : Keeps s (t.censusPass e).1 := by
  have k : ∀ v : State, Keeps s v →
      Keeps s (if v.en.ownId = noNode then (v, e) else if IdSet.has e.taken v.en.ownId then
        (v.giveUpId e.keep, { e with duplicate := true }) else (v, e.add v.en.ownId)).1 := by
    intro v hv
    split
    · exact hv
    · split
      · exact hv.giveUpId
      · exact hv
  unfold State.censusPass
  dsimp only
  apply k
  split
  · exact h.takeStrapped
  · exact h.dropIds.takeStrapped

theorem assignPass {e : EnumFields} (h : Keeps s t) : Keeps s (t.assignPass e).1 := by
  unfold State.assignPass
  split
  · split <;> exact h
  · split
    · split
      · rename_i id hid
        have hn := isNode_iff_ids.1 (IdSet.lowestFree_isNode hid)
        exact h.setId (fun _ => ⟨fun x => absurd x hn.1, fun x => by cases x⟩) fun _ => hn.2
      · exact h
    · rename_i hi
      split
      · exact h
      · exact h.setId
          (fun i => ⟨fun x => absurd x (isNode_iff_ids.1 (i.2.2.1 hi)).1, fun x => by cases x⟩)
          fun i => (isNode_iff_ids.1 (i.2.2.1 hi)).2

theorem publishPass {e : EnumFields} (h : Keeps s t) : Keeps s (t.publishPass e).1 := by
  have k := h.modEn (f := fun en => { en with census := e.taken, censusCount := e.count }) id
  unfold State.publishPass
  dsimp only
  split
  · rename_i hr
    split
    · refine (k.setId (fun i => ⟨fun x => ?_, fun x => by cases x⟩) fun i => i.2.1).fire
      have := i.1.1 x
      simp [hr] at this
    · exact k.unsetId
  · exact k
  · exact k

theorem processEnum {e : EnumFields} (h : Keeps s t) : Keeps s (t.processEnum e).1 := by
  unfold State.processEnum
  split
  · exact h.censusPass
  · split
    · exact h.assignPass
    · exact h.publishPass

theorem enumLinkUp (h : Keeps s t) : Keeps s t.enumLinkUp := by
  unfold State.enumLinkUp
  split
  · exact (h.modEn id).trigger
  · exact h

theorem withdrawEnum (h : Keeps s t) : Keeps s t.withdrawEnum := by
  unfold State.withdrawEnum
  split
  · split
    · exact h
    · exact h.modPort.countDiscarded
  · exact h

theorem enumLinkDown (h : Keeps s t) : Keeps s t.enumLinkDown := by
  unfold State.enumLinkDown
  split
  · rename_i hm
    refine Keeps.withdrawEnum (h.modEn (fun i => ?_) fun e => ?_)
    · refine i.asManager hm ?_ ?_ ?_ ?_ ?_ <;> (dsimp only; split <;> rfl)
    · dsimp only; split <;> rfl
  · exact h

theorem setOutstanding (h : Keeps s t) : Keeps s t.setOutstanding :=
  h.modEn fun i => ⟨i.1, i.2.1, i.2.2.1, fun _ => ⟨rfl, rfl⟩⟩

theorem presentReset (h : Keeps s t) : Keeps s t.presentReset := h.presentControl

theorem pageResetRequest (h : Keeps s t) : Keeps s t.pageResetRequest := by
  unfold State.pageResetRequest
  split
  · exact h.countEn
  · split
    · exact h
    · split
      · exact h.countEn
      · exact h.setOutstanding.presentReset

end Keeps

end Sys2Proof.Machine
end

