-- ==== Sys2Proof/Laws/KeepsCommands.lean ====
section
/-! SUPPORT. What the operations of the inbound side, the local target, the resets, the end of an event, the agent, the
page and the port keep. -/

-- Proofs one after another: run side by side in one file, they wait for each other in too many threads.
set_option Elab.async false

namespace Sys2Proof.Machine.Keeps

variable {s t u : State}

/-! ### Admission and the receive sequence check -/

theorem overrun (h : Keeps s t) : Keeps s t.overrun := h.countInb

theorem placeRefusal {f : Frame} {r : Ref} {c : BitVec 4} (hr : t.responseRoom = true) (h : Keeps s t) :
    Keeps s (t.placeRefusal f r c) := h.insertResponse hr

theorem admitEntry {k : InboundKind} {f : Frame} {r : Ref} {p : Span} {w : Fin 16} (hr : t.responseRoom = true)
    (hq : t.inb.queue.length < inboundQueueSize) (h : Keeps s t) : Keeps s (t.admitEntry k f r p w) := by
  have h1 : Keeps s (t.modInb fun i => { i with queue := i.queue ++ [t.inboundEntry k f r p w] }) := by
    refine h.modInb ?_
    simp [inboundQueueSize] at hq ⊢
    omega
  unfold State.admitEntry
  dsimp only
  split
  · exact h1.riseIwt.countInb.insertResponse hr
  · exact h1.riseIwt.countInb

theorem admission {k : InboundKind} {f : Frame} {r : Ref} {p : Span} (h : Keeps s t) :
    Keeps s (t.admission k f r p).1 := by
  unfold State.admission
  split
  · exact h.overrun
  · rename_i hr
    have hr : t.responseRoom = true := by simpa using hr
    split
    · exact h.countInb.placeRefusal hr
    · exact h.countInb.placeRefusal hr
    · split
      · rename_i hq
        exact h.admitEntry hr hq
      · exact h.countInb.placeRefusal hr

theorem modRecv {n : NodeId} {f : RecvEntry → RecvEntry} (h : Keeps s t) : Keeps s (t.modRecv n f) := h.modOrd

theorem takenInOrder {n : NodeId} {q : Seq} {a : Admission} (h : Keeps s t) : Keeps s (t.takenInOrder n q a) := by
  cases a
  · exact h.modRecv
  · exact h.modRecv
  · exact h
  · exact h

theorem takenSync {n : NodeId} {r : Ref} {q : Seq} {a : Admission} (h : Keeps s t) :
    Keeps s (t.takenSync n r q a) := by
  cases a <;> dsimp only [State.takenSync]
  · exact h.modRecv.countOrd
  · exact h.modRecv.countOrd
  · exact h
  · exact h

theorem seqAnswer {f : Frame} {b : Body} {g : OrderingCounters → OrderingCounters} (h : Keeps s t) :
    Keeps s (t.seqAnswer f b g) := by
  unfold State.seqAnswer
  split
  · rename_i e; exact (h.placeResponse e).countOrd
  · exact h.overrun

theorem takePosted {f : Frame} {r : Ref} {p : Span} {q : Seq} {b : Bool} (h : Keeps s t) :
    Keeps s (t.takePosted f r p q b) := by
  unfold State.takePosted
  dsimp only
  split
  · exact h.seqAnswer
  · exact h.seqAnswer
  · exact h.admission.takenInOrder
  · exact h.admission.takenSync

/-! ### The local master -/

theorem takeBus (h : Keeps s t) : Keeps s t.takeBus := by
  unfold State.takeBus
  split
  · exact h.modInbSame
  · exact h

theorem answerOrHold {a : Option Frame} (h : Keeps s t) : Keeps s (t.answerOrHold a) := by
  unfold State.answerOrHold
  split
  · exact h
  · split
    · rename_i e; exact h.placeResponse e
    · exact h.modInbSame

theorem leaveQueue {e : InboundEntry} (h : Keeps s t) : Keeps s (t.leaveQueue e) := by
  refine (h.modInb ?_).fallIwt
  simp

theorem dropTransaction (h : Keeps s t) : Keeps s t.dropTransaction := h.modInbSame

theorem inboundDone {w : List Word} (h : Keeps s t) : Keeps s (t.inboundDone w) := by
  unfold State.inboundDone
  split
  · exact h
  · exact h.leaveQueue.answerOrHold

theorem recordDiscarded {e : InboundEntry} {d : Option Detail} (h : Keeps s t) :
    Keeps s (t.recordDiscarded e d) := by
  unfold State.recordDiscarded
  split
  · exact h.recordFault
  · exact h

theorem inboundFault (h : Keeps s t) : Keeps s t.inboundFault := by
  unfold State.inboundFault
  split
  · exact h
  · exact h.leaveQueue.recordDiscarded.answerOrHold

theorem transactionDone {x : Transaction} {d : Table Word 16} (h : Keeps s t) :
    Keeps s (t.transactionDone x d) := by
  unfold State.transactionDone
  dsimp only
  split
  · exact h.dropTransaction.inboundDone
  · exact h.dropTransaction.moverBusDone.moverAsksUnless

theorem transactionFault {x : Transaction} (h : Keeps s t) : Keeps s (t.transactionFault x) := by
  unfold State.transactionFault
  split
  · exact h.countInb.dropTransaction.inboundFault
  · exact h.countInb.dropTransaction.moverBusFault.moverAsksUnless

theorem attemptRetried {x : Transaction} (h : Keeps s t) : Keeps s (t.attemptRetried x) := by
  unfold State.attemptRetried
  split
  · exact h.modInbSame
  · exact h.transactionFault

theorem reattempt {x : Transaction} (h : Keeps s t) : Keeps s (t.reattempt x) := by
  unfold State.reattempt
  exact h.modInbSame

theorem answerOrOverrun {a : Option Frame} (h : Keeps s t) : Keeps s (t.answerOrOverrun a) := by
  unfold State.answerOrOverrun
  split
  · exact h
  · split
    · rename_i e; exact h.placeResponse e
    · exact h.overrun

theorem endEntry {e : InboundEntry} (h : Keeps s t) : Keeps s (t.endEntry e) :=
  h.answerOrOverrun.recordDiscarded.leaveQueue

theorem withdrawTransaction (h : Keeps s t) : Keeps s t.withdrawTransaction := by
  unfold State.withdrawTransaction
  dsimp only
  split
  · exact h
  · split
    · split
      · exact h.countInb.dropTransaction.endEntry
      · exact h.countInb.dropTransaction
    · exact h.countInb.dropTransaction.moverBusFault

theorem inboundLocalReset (h : Keeps s t) : Keeps s t.inboundLocalReset :=
  h.withdrawTransaction.foldl (fun s _ => (refl s).endEntry) _

theorem inboundDiscard (h : Keeps s t) : Keeps s t.inboundDiscard := by
  unfold State.inboundDiscard
  exact (h.modInb (Nat.zero_le _)).recordFaults

/-! ### The local target -/

theorem terminate {x : Termination} (h : Keeps s t) : Keeps s (t.terminate x) := h.modLt
theorem localFault {c : LocalCause} {w : Word} (h : Keeps s t) : Keeps s (t.localFault c w) :=
  h.countLt.modLt.terminate

theorem postedPath {w : Fin 16} {a : Access} (h : Keeps s t) : Keeps s (t.postedPath w a) := by
  unfold State.postedPath
  split
  · rename_i e; exact (h.alloc e).terminate
  · exact h.countLt.terminate

theorem modDelayed {i : Fin 4} {f : DelayedSlot → DelayedSlot} (h : Keeps s t) : Keeps s (t.modDelayed i f) :=
  h.modLt

theorem collect {i : Fin 4} {w : Word} (h : Keeps s t) : Keeps s (t.collect i w) := by
  unfold State.collect
  dsimp only
  split
  · exact h.modDelayed.terminate
  · exact h.modDelayed.localFault

theorem delayedNew {w : Fin 16} {d : Direction} {a : Access} (h : Keeps s t) : Keeps s (t.delayedNew w d a) := by
  unfold State.delayedNew
  split
  · exact h.terminate
  · split
    · exact h.terminate
    · rename_i e; exact (h.alloc e).modDelayed.terminate

theorem delayedPath {w : Fin 16} {d : Direction} {a : Access} (h : Keeps s t) : Keeps s (t.delayedPath w d a) := by
  unfold State.delayedPath
  split
  · split
    · exact h.collect
    · exact h.terminate
  · exact h.delayedNew

theorem hitPath {w : Fin 16} {d : Direction} {a : Access} (h : Keeps s t) : Keeps s (t.hitPath w d a) := by
  unfold State.hitPath
  dsimp only
  split
  · exact h.hitOwt.postedPath
  · exact h.hitOwt.delayedPath

theorem outbound {d : Direction} {a : Access} (h : Keeps s t) : Keeps s (t.outbound d a) := by
  unfold State.outbound
  split
  · split
    · exact h.localFault
    · exact h.localFault
    · exact h.localFault
    · exact h.hitPath
  · exact h.countLt.localFault

theorem discardExpired {i : Fin 4} (h : Keeps s t) : Keeps s (t.discardExpired i) := h.modDelayed.countLt

theorem issueTaken (h : Keeps s t) : Keeps s t.issueTaken := by
  unfold State.issueTaken
  dsimp only
  have h1 := h.modAg (f := fun a => { a with issue := t.lt.copyRequest })
  cases e : (t.modAg fun a => { a with issue := t.lt.copyRequest }).issueGrant with
  | none => exact h1
  | some v => exact h1.issueGrant e

theorem issueTrigger (h : Keeps s t) : Keeps s t.issueTrigger := by
  unfold State.issueTrigger
  split
  · exact h.countAg
  · exact h.countAg
  · split
    · exact h.issueTaken
    · exact h.countAg
  · split
    · exact h.issueTaken
    · exact h.countAg

/-! ### Resets -/

theorem performNodeReset (h : Keeps s t) : Keeps s t.performNodeReset := by
  have h1 := h.inboundDiscard.modRt (f := Tracker.freeAll)
  have h2 := (h1.modPort (f := fun p => { p with offer := none })).modWt (f := WindowTables.drainAll)
    (fun w => w.drainAll)
  have h3 := (((h2.modOrd (f := SequenceTables.reset')).modLt (f := LocalTarget.nodeReset)).modRun
    (f := Agent.nodeReset) (fun _ => ⟨rfl, rfl⟩) fun _ => ⟨fun x => (by cases x), fun x => (by cases x)⟩).modBm
    (f := Mover.nodeReset)
  exact ((h3.modEvSame (f := Events.clearRing)).setAsks.takeFirings.fire (c := codeNodeResetDone)).takeFirings

theorem performRingReset (h : Keeps s t) : Keeps s t.performRingReset := by
  have h1 := ((h.recordFault (r := bareRecord .ringReset)).modRun (f := Agent.ringReset)
    (fun _ => ⟨rfl, rfl⟩) fun _ => ⟨fun x => (by cases x), fun x => (by cases x)⟩).inboundDiscard
  have h2 := ((h1.modRt (f := Tracker.freeAll)).modWt (f := fun _ => WindowTables.reset)
    (fun _ => WindowsSound.reset)).modOrd (f := SequenceTables.reset')
  have h3 := ((h2.modLt (f := LocalTarget.ringReset)).modBm (f := Mover.ringReset)).modEv (f := Events.ringReset)
    (Nat.zero_le _)
  have h4 := (h3.countDiscarded (n := t.port.waiting)).modPort' (f := RingPort.ringReset)
    (fun _ _ _ _ => ⟨Nat.zero_le _, Nat.zero_le _, Nat.zero_le _, Nat.zero_le _⟩)
  have h5 := h4.modEn (f := (·.ringReset (t.port.link == .up))) IdsLegal.ringReset
    (fun _ => Enumeration.ringReset_straps)
  unfold State.performRingReset State.blocksRingReset
  exact Keeps.compareInputs
    ⟨h5.bounded, h5.windows, h5.ids, h5.agent, h5.queue, h5.straps, h5.serial, h5.pin⟩

theorem moverLocalReset (h : Keeps s t) : Keeps s t.moverLocalReset := h.localHalt.localHalt

theorem performLocalReset (h : Keeps s t) : Keeps s t.performLocalReset :=
  (((h.moverLocalReset.inboundLocalReset.modRt (f := Tracker.abandonLocal)).modLt (f := LocalTarget.localReset)).modAg
    (f := fun a => { a with issue := IssueSlot.reset })).modEv (f := Events.localReset) (Nat.zero_le _)

/-! ### The end of an event -/

theorem presentOutstanding (h : Keeps s t) : Keeps s t.presentOutstanding := by
  unfold State.presentOutstanding
  split
  · exact h.modEn id
  · exact h.presentReset

theorem leftReport {p : Purpose} (h : Keeps s t) : Keeps s (t.leftReport p) := by
  cases p <;> dsimp only [State.leftReport]
  · exact h
  · split
    · exact h.performNodeReset
    · exact h
  · split
    · exact h.presentOutstanding
    · exact h

theorem drainLeft (h : Keeps s t) : Keeps s t.drainLeft := h.setLeft.foldl (fun s _ => (refl s).leftReport) _

theorem popResponse (h : Keeps s t) : Keeps s t.popResponse := by
  refine h.modPort' fun a b c d => ⟨a, ?_, c, d⟩
  simp; omega

theorem loopResponse {r : Response} (h : Keeps s t) : Keeps s (t.loopResponse r) := by
  unfold State.loopResponse
  split
  · exact h.popResponse.countPort.takeResponse.performNodeReset
  · exact h.popResponse.modPort.countPort.reportLeft

theorem waiterStep (e : t.waiterStep = some u) (h : Keeps s t) : Keeps s u := by
  unfold State.waiterStep at e
  split at e
  · rename_i hr
    have held : ∀ a : HeldResponse, Keeps s (t.placeHeldResponse a) := fun a =>
      (h.modInbSame (f := fun i => { i with held := none })).insertResponse hr
    split at e
    · cases e
    · cases e; exact held _
    · cases e; exact h.agentPlace
    · split at e
      · cases e; exact h.agentPlace
      · cases e; exact held _
  · cases e

theorem loopStep (e : t.loopStep = some u) (h : Keeps s t) : Keeps s u := by
  unfold State.loopStep at e
  split at e
  · split at e
    · cases e; exact h.loopResponse
    · cases e
  · cases e

theorem responseStep (e : t.responseStep = some u) (h : Keeps s t) : Keeps s u := by
  unfold State.responseStep at e
  obtain ⟨v, hv, rfl⟩ := Option.map_eq_some_iff.1 e
  refine Keeps.drainLeft ?_
  cases h1 : t.loopStep with
  | some a => simp [h1] at hv; subst hv; exact h.loopStep h1
  | none => simp [h1] at hv; exact h.waiterStep hv

theorem responseSteps {n : Nat} (h : Keeps s t) : Keeps s (t.responseSteps n) := by
  induction n generalizing t with
  | zero => exact h
  | succ n ih =>
    unfold State.responseSteps
    split
    · rename_i e; exact ih (h.responseStep e)
    · exact h

theorem settleStep (e : t.settleStep = some u) (h : Keeps s t) : Keeps s u := by
  unfold State.settleStep at e
  obtain ⟨v, hv, rfl⟩ := Option.map_eq_some_iff.1 e
  refine Keeps.drainLeft ?_
  cases h1 : t.loopStep with
  | some a => simp [h1] at hv; subst hv; exact h.loopStep h1
  | none =>
    cases h2 : t.waiterStep with
    | some a => simp [h1, h2] at hv; subst hv; exact h.waiterStep h2
    | none => simp [h1, h2] at hv; exact h.offerStep hv

theorem settleSteps {n : Nat} (h : Keeps s t) : Keeps s (t.settleSteps n) := by
  induction n generalizing t with
  | zero => exact h
  | succ n ih =>
    unfold State.settleSteps
    split
    · rename_i e; exact ih (h.settleStep e)
    · exact h

theorem settle (h : Keeps s t) : Keeps s t.settle := h.settleSteps

theorem endOfEvent (h : Keeps s t) : Keeps s t.endOfEvent := 
  h.drainLeft.responseSteps.takeAsks.takeFirings.serveClaims.settle.takeBus

/-! ### The agent -/

theorem agentBusy {r : MgmtRequest} (h : Keeps s t) : Keeps s (t.agentBusy r) := by
  unfold State.agentBusy
  split
  · rename_i e; exact (h.placeResponse e).countAg
  · exact h.countAg

theorem answerFor {c : BitVec 8} {q : MgmtRequest} {r : MgmtResult} {d : List Word} {p : Purpose} (h : Keeps s t) :
    Keeps s (t.answerFor c q r d p) := by
  unfold State.answerFor
  dsimp only
  split
  · exact (h.modAg (f := Agent.restartLease)).agentPlace
  · exact h.agentPlace

theorem answerOk {c : BitVec 8} {q : MgmtRequest} {d : List Word} (h : Keeps s t) : Keeps s (t.answerOk c q d) :=
  h.answerFor
theorem answerFail {c : BitVec 8} {q : MgmtRequest} {r : MgmtResult} (h : Keeps s t) :
    Keeps s (t.answerFail c q r) := h.answerFor
theorem answerNotOwner {c : BitVec 8} {q : MgmtRequest} (h : Keeps s t) : Keeps s (t.answerNotOwner c q) :=
  h.answerFor

theorem command {f : CommandForm} {q : MgmtRequest} {run : State → State}
    (hr : ∀ v : State, v.ag.state = .idle → Keeps v (run v))
    (h : Keeps s t) : Keeps s (t.command f q run) := by
  unfold State.command
  split
  · exact h.agentBusy
  · rename_i hi
    split
    · exact h.countAg.answerFail
    · split
      · exact h.countAg.answerNotOwner
      · split
        · exact h.countAg.answerFail
        · exact (h.countAg (f := fun c => { c with mgmtTaken := bump c.mgmtTaken })).trans
            (hr _ (by simpa using hi))

theorem answerTested {c : BitVec 8} {q : MgmtRequest} {o : Except MgmtResult State}
    (ho : ∀ v, o = .ok v → Keeps t v) (h : Keeps s t) : Keeps s (t.answerTested c q o) := by
  unfold State.answerTested
  split
  · exact (h.trans (ho _ rfl)).answerOk
  · exact h.answerFail

theorem identify {q : MgmtRequest} (v : State) : Keeps v (v.identify q) := (refl v).answerOk

theorem claim {q : MgmtRequest} (v : State) : Keeps v (v.claim q) := by
  unfold State.claim
  split
  · exact (refl v).answerNotOwner
  · split
    · exact (refl v).answerFail
    · split
      · exact (refl v).answerFail
      · exact ((refl v).modAg).answerOk

theorem release {q : MgmtRequest} (v : State) : Keeps v (v.release q) := by
  unfold State.release
  exact ((refl v).modAg).answerOk

theorem renew {q : MgmtRequest} (v : State) : Keeps v (v.renew q) := ((refl v).modAg).answerOk

theorem setOwt {i : Fin 16} {e : OwtEntry} (ha : e.state = .active) {v : State} (hv : t.setOwt i e = .ok v) :
    Keeps t v := by
  unfold State.setOwt at hv
  split at hv
  · cases hv
  · split at hv
    · cases hv
    · rename_i h1 h2
      cases hv
      exact (refl t).modWt fun w => w.setOwt ha (by simpa using h1) (by simpa using h2)

theorem setIwt {i : Fin 16} {e : IwtEntry} (ha : e.state = .active) {v : State} (hv : t.setIwt i e = .ok v) :
    Keeps t v := by
  unfold State.setIwt at hv
  split at hv
  · cases hv
  · split at hv
    · cases hv
    · rename_i h1 h2
      cases hv
      exact (refl t).modWt fun w => w.setIwt ha (by simpa using h1) (by simpa using h2)

theorem setWindow {q : MgmtRequest} (v : State) : Keeps v (v.setWindow q) := by
  refine (refl v).answerTested fun w hw => ?_
  unfold State.setWindowTo at hw
  split at hw
  · cases hw
  · split at hw
    · cases hw
    · split at hw
      · exact setOwt rfl hw
      · exact setIwt rfl hw

theorem retireEntry {w : WindowTable} {i : Fin 16} {q : MgmtRequest} (hi : t.ag.state = .idle)
    (h : Keeps s t) : Keeps s (t.retireEntry w i q) := by
  unfold State.retireEntry
  split
  · exact h.answerFail
  · exact h.answerOk
  · dsimp only
    split
    · exact (h.modWt fun x => x.retire w i).answerOk
    · refine (h.modWt fun x => x.retire w i).modRun (fun _ => ⟨rfl, rfl⟩) fun a => ?_
      have hi' : (t.modWt fun x => x.retire w i).ag.state = .idle := hi
      refine ⟨fun x => ?_, fun x => ?_⟩
      · have := a.1 x
        rw [hi'] at this; cases this
      · have := a.2 x
        rw [hi'] at this; cases this

theorem retireWindow {q : MgmtRequest} (v : State) (hi : v.ag.state = .idle) : Keeps v (v.retireWindow q) := by
  unfold State.retireWindow
  split
  · exact (refl v).answerFail
  · exact (refl v).retireEntry hi

theorem readWindow {q : MgmtRequest} (v : State) : Keeps v (v.readWindow q) := by
  unfold State.readWindow
  split
  · exact (refl v).answerFail
  · exact (refl v).answerOk

theorem addPending_inbox {e : Events} {c : EventCode} : (e.addPending c).inbox = e.inbox := rfl
theorem dropPending_inbox {e : Events} {c : EventCode} : (e.dropPending c).inbox = e.inbox := rfl

theorem setRoute_inbox {e : Events} {c : EventCode} {r : RouteEntry} : (e.setRoute c r).inbox = e.inbox := by
  unfold Events.setRoute
  dsimp only
  split <;> split <;> (try split) <;> rfl

theorem setRoute {q : MgmtRequest} (v : State) : Keeps v (v.setRoute q) := by
  refine (refl v).answerTested fun w hw => ?_
  unfold State.setRouteTo at hw
  split at hw
  · cases hw
  · dsimp only at hw
    split at hw
    · cases hw
    · cases hw
      exact (refl v).modEvSame fun e => setRoute_inbox

theorem readRoute {q : MgmtRequest} (v : State) : Keeps v (v.readRoute q) := by
  unfold State.readRoute
  split
  · exact (refl v).answerFail
  · exact (refl v).answerOk

theorem setDescriptor {q : MgmtRequest} (v : State) : Keeps v (v.setDescriptor q) := by
  refine (refl v).answerTested fun w hw => ?_
  unfold State.setDescriptorTo at hw
  split at hw
  · cases hw
  · split at hw
    · cases hw
    · split at hw
      · cases hw; exact (refl v).modBm
      · split at hw
        · cases hw
        · split at hw
          · cases hw; exact (refl v).modBm
          · cases hw

theorem readDescriptor {q : MgmtRequest} (v : State) : Keeps v (v.readDescriptor q) := by
  unfold State.readDescriptor
  split
  · exact (refl v).answerFail
  · exact (refl v).answerOk

theorem startMoveCommand {q : MgmtRequest} (v : State) : Keeps v (v.startMoveCommand q) := by
  refine (refl v).answerTested fun w hw => ?_
  unfold State.startMoveTo at hw
  split at hw
  · split at hw
    · cases hw
    · split at hw
      · cases hw; exact (refl v).startMove
      · cases hw
  · cases hw

theorem stopMoveCommand {q : MgmtRequest} (v : State) : Keeps v (v.stopMoveCommand q) := by
  unfold State.stopMoveCommand
  split
  · exact (refl v).answerFail
  · exact (refl v).stopMove.answerOk

theorem readChannel {q : MgmtRequest} (v : State) : Keeps v (v.readChannel q) := by
  unfold State.readChannel
  split
  · exact (refl v).answerFail
  · exact (refl v).answerOk

theorem setParameters {q : MgmtRequest} (v : State) : Keeps v (v.setParameters q) := by
  unfold State.setParameters
  split
  · exact ((refl v).modAg).answerOk
  · exact (refl v).answerFail

theorem readParameters {q : MgmtRequest} (v : State) : Keeps v (v.readParameters q) := (refl v).answerOk

theorem readCounters {q : MgmtRequest} (v : State) : Keeps v (v.readCounters q) := by
  unfold State.readCounters
  split
  · exact (refl v).answerFail
  · exact (refl v).answerOk

theorem clearGroup {n : Nat} (e : t.clearGroup n = some u) (h : Keeps s t) : Keeps s u := by
  unfold State.clearGroup at e
  split at e <;> cases e
  · exact h.countPort
  · exact h.countEn
  · exact h.countRt
  · exact h.countOrd
  · exact h.countLt
  · exact h.countInb
  · exact h.countAg.modAg' (fun b _ => ⟨b, Nat.zero_le _⟩) fun a => a
  · exact h.countBm
  · exact h.countEv

theorem clearCounters {q : MgmtRequest} (v : State) : Keeps v (v.clearCounters q) := by
  unfold State.clearCounters
  split
  · exact (refl v).answerFail
  · rename_i e; exact ((refl v).clearGroup e).answerOk

theorem readFaults {q : MgmtRequest} (v : State) : Keeps v (v.readFaults q) := by
  unfold State.readFaults
  refine Keeps.answerOk ((refl v).modAg' (fun b c => ⟨?_, c⟩) fun a => a)
  simp; omega

/-- The agent places a reply after an update of its own that its soundness need not survive. -/
theorem agentPlaceAfter {f : Agent → Agent} {r : Frame} {p : Purpose}
    (hf : ∀ a, (f a).faults = a.faults ∧ (f a).overflow = a.overflow) (h : Keeps s t) :
    Keeps s ((t.modAg f).agentPlace r p) := by
  have sound : ∀ a : Agent, AgentSound
      { a with heldReply := none, state := if a.resetPending then .executing else .idle } :=
    fun a => ⟨fun x => if_pos x, fun x => (by cases x)⟩
  unfold State.agentPlace State.placeResponse
  by_cases hr : t.responseRoom = true
  · have e : (t.modAg f).insertResponse ⟨r, p⟩ = (t.insertResponse ⟨r, p⟩).modAg f := by
      unfold State.insertResponse
      by_cases hc : t.port.link = .up ∨ r.dest = t.en.ownId
      · exact (if_pos hc).trans (by rw [if_pos hc]; rfl)
      · exact (if_neg hc).trans (by rw [if_neg hc]; cases p <;> rfl)
    have hr' : (t.modAg f).responseRoom = true := hr
    simp only [hr', if_true, e]
    exact (h.insertResponse hr).modRun (f := fun a => { f a with
      heldReply := none, state := if (f a).resetPending then .executing else .idle })
      (fun a => hf a) fun _ => sound _
  · have hr' : ¬ (t.modAg f).responseRoom = true := hr
    simp only [if_neg hr']
    exact h.modRun (f := fun a => { f a with heldReply := some ⟨r, p, t.now⟩, state := .executing })
      (fun a => hf a) fun _ => ⟨fun _ => rfl, fun _ => rfl⟩

theorem nodeResetCommand {q : MgmtRequest} (v : State) : Keeps v (v.nodeResetCommand q) := by
  unfold State.nodeResetCommand State.answerFor
  dsimp only
  split
  · exact agentPlaceAfter (t := v) (f := fun a => ({ a with resetPending := true } : Agent).restartLease)
      (fun _ => ⟨rfl, rfl⟩) (refl v)
  · exact agentPlaceAfter (t := v) (f := fun a => { a with resetPending := true }) (fun _ => ⟨rfl, rfl⟩) (refl v)

theorem renumber {q : MgmtRequest} (v : State) : Keeps v (v.renumber q) := by
  unfold State.renumber
  split
  · exact (refl v).answerFail
  · exact (refl v).trigger.answerOk

theorem ringResetCommand {q : MgmtRequest} (v : State) : Keeps v (v.ringResetCommand q) := by
  unfold State.ringResetCommand
  split
  · exact (refl v).answerOk
  · exact (refl v).setOutstanding.answerFor

theorem unknownCommand {c : BitVec 8} {q : MgmtRequest} (h : Keeps s t) : Keeps s (t.unknownCommand c q) := by
  unfold State.unknownCommand
  split
  · exact h.agentBusy
  · exact h.countAg.answerFail

theorem stopRunning {c : ChannelId} (h : Keeps s t) : Keeps s (t.stopRunning c) := by
  unfold State.stopRunning
  split
  · exact h.stopChannel
  · exact h

theorem leaseExpired (h : Keeps s t) : Keeps s t.leaseExpired := by
  have h1 := ((h.modAg (f := fun a => { a with lockOwner := noNode, leaseTimer := .stopped })).recordFault
    (r := { kind := .leaseLost, node := some t.ag.lockOwner })).fire (c := codeLeaseLost)
  unfold State.leaseExpired
  dsimp only
  split
  · exact (h1.modWt fun w => w.retireAll).stopRunning.stopRunning
  · exact h1

theorem takeMgmt {c : BitVec 8} {q : MgmtRequest} (h : Keeps s t) : Keeps s (t.takeMgmt c q) := by
  unfold State.takeMgmt
  split
  · exact h.command fun v _ => identify v
  · exact h.command fun v _ => claim v
  · exact h.command fun v _ => release v
  · exact h.command fun v _ => renew v
  · exact h.command fun v _ => setWindow v
  · exact h.command retireWindow
  · exact h.command fun v _ => readWindow v
  · exact h.command fun v _ => setRoute v
  · exact h.command fun v _ => readRoute v
  · exact h.command fun v _ => setDescriptor v
  · exact h.command fun v _ => readDescriptor v
  · exact h.command fun v _ => startMoveCommand v
  · exact h.command fun v _ => stopMoveCommand v
  · exact h.command fun v _ => readChannel v
  · exact h.command fun v _ => setParameters v
  · exact h.command fun v _ => readParameters v
  · exact h.command fun v _ => readCounters v
  · exact h.command fun v _ => clearCounters v
  · exact h.command fun v _ => readFaults v
  · exact h.command fun v _ => nodeResetCommand v
  · exact h.command fun v _ => renumber v
  · exact h.command fun v _ => ringResetCommand v
  · exact h.unknownCommand

/-! ### The page -/

theorem readInbox (h : Keeps s t) : Keeps s t.readInbox.1 := by
  unfold State.readInbox
  split
  · exact h
  · rename_i e
    refine h.modEv (f := fun v => { v with inbox := _ }) ?_
    simp [e]

theorem readFaultHead (h : Keeps s t) : Keeps s t.readFaultHead.1 := by
  unfold State.readFaultHead
  split
  · dsimp only; exact h.modLt
  · rename_i r rest e
    dsimp only
    refine Keeps.modLt (h.modAg' (f := fun a => { a with faults := rest }) (fun b c => ⟨?_, c⟩) fun a => a)
    simp [e] at b
    dsimp only; omega

theorem pageReadWord {n : Nat} (h : Keeps s t) : Keeps s (t.pageReadWord n).1 := by
  unfold State.pageReadWord
  split
  · exact h.readInbox
  · split
    · exact h.readFaultHead
    · exact h

theorem pageWriteWord {n : Nat} {w : Word} (h : Keeps s t) : Keeps s (t.pageWriteWord n w) := by
  unfold State.pageWriteWord
  split
  · exact h.modEvSame
  · exact h.modLt
  · exact h.modLt
  · exact h.issueTrigger
  · split
    · exact h.pageResetRequest
    · exact h
  · split
    · exact h.modLt
    · exact h

theorem pageReadSteps {a : Access} {l : List Nat} {ws : List Word} (h : Keeps s t) :
    Keeps s (l.foldl (pageReadStep a) (t, ws)).1 := by
  induction l generalizing t ws with
  | nil => exact h
  | cons i l ih =>
    rw [List.foldl_cons]
    unfold pageReadStep
    split
    · exact ih h
    · exact ih h.pageReadWord

theorem pageRead {a : Access} (h : Keeps s t) : Keeps s (t.pageRead a) := by
  unfold State.pageRead
  split
  · exact h.terminate
  · exact h.pageReadSteps.terminate

theorem pageWriteStep {a : Access} {i : Nat} (h : Keeps s t) : Keeps s (pageWriteStep a t i) := by
  unfold Machine.pageWriteStep
  split
  · exact h.pageWriteWord
  · exact h

theorem pageWrite {a : Access} (h : Keeps s t) : Keeps s (t.pageWrite a) := by
  unfold State.pageWrite
  split
  · exact h.terminate
  · exact (h.foldl (fun s _ => (refl s).pageWriteStep) _).terminate

/-! ### The port -/

theorem lockAcquired (h : Keeps s t) : Keeps s t.lockAcquired := by
  unfold State.lockAcquired
  split
  · exact h.modPort
  · exact h
  · exact h.modPort

theorem lockLost (h : Keeps s t) : Keeps s t.lockLost := by
  unfold State.lockLost
  split
  · exact h
  · exact h.modPort
  · exact h.modPort

theorem enterUp (h : Keeps s t) : Keeps s t.enterUp := by
  unfold State.enterUp
  exact h.modPort.fire.enumLinkUp

theorem emptyQueues (h : Keeps s t) : Keeps s t.emptyQueues := by
  have h1 := (h.modPort' (f := fun p => { p with forwardQ := [], responseQ := [] })
    (fun _ _ c d => ⟨Nat.zero_le _, Nat.zero_le _, c, d⟩)).countDiscarded
    (n := t.port.forwardQ.length + t.port.responseQ.length)
  exact h1.foldl (fun s _ => (refl s).reportLeft) _

theorem leaveUp (h : Keeps s t) : Keeps s t.leaveUp := by
  have h1 := ((h.modPort (f := fun p => { p with link := .down, lockLossTimer := .stopped })).fire
    (c := codeLinkDown)).recordFault (r := bareRecord .linkDown)
  unfold State.leaveUp
  dsimp only
  split
  · exact h1.emptyQueues.abort.enumLinkDown.performRingReset
  · split
    · exact h1.emptyQueues.abort.enumLinkDown
    · exact h1.takeFirings.emptyQueues.abort.enumLinkDown

theorem malformed {n : NodeId} (h : Keeps s t) : Keeps s (t.malformed n) := h.countPort.recordFault

theorem forward {f : Frame} (h : Keeps s t) : Keeps s (t.forward f) := by
  unfold State.forward
  split
  · exact h.countPort
  · split
    · rename_i hl
      refine h.modPort' fun _ b c d => ⟨?_, b, c, d⟩
      simp [forwardQueueSize] at hl ⊢
      omega
    · exact h.countPort

theorem takeEnum {f : Frame} {e : EnumFields} (h : Keeps s t) : Keeps s (t.takeEnum f e) := by
  unfold State.takeEnum
  split
  · rename_i hm
    split
    · exact h.takeBack hm
    · exact h.foreignEnum
  · exact h.processEnum.forward

theorem offerReset {f : Frame} (h : Keeps s t) : Keeps s (t.offerReset f) := by
  unfold State.offerReset
  dsimp only
  split
  · exact h.countDiscarded.modPort
  · exact h.modPort

theorem takeRingReset {f : Frame} {w : Word} (h : Keeps s t) : Keeps s (t.takeRingReset f w) := by
  unfold State.takeRingReset
  split
  · exact h.performRingReset
  · split
    · exact h.countPort.performRingReset
    · exact h.offerReset

theorem returned {f : Frame} (h : Keeps s t) : Keeps s (t.returned f) := by
  unfold State.returned
  dsimp only
  split
  · exact h.countPort.takeReturned
  · exact h.countPort

theorem consume {f : Frame} (h : Keeps s t) : Keeps s (t.consume f) := by
  unfold State.consume
  split
  · exact h.admission
  · exact h.admission
  · exact h.takePosted
  · exact h.takeEvent
  · exact h.takeMgmt
  · exact h.takeResponse
  · exact h.takeResponse
  · exact h.takeResponse
  · exact h.takeResponse
  · exact h
  · exact h

theorem route {f : Frame} (h : Keeps s t) : Keeps s (t.route f) := by
  unfold State.route
  split
  · exact h.returned
  · split
    · exact h.consume
    · exact h.forward

theorem classify {f : Frame} (h : Keeps s t) : Keeps s (t.classify f) := by
  unfold State.classify
  split
  · exact h.malformed
  · split
    · exact h.takeEnum
    · exact h.takeRingReset
    · exact h.route

theorem classifyWords {w : List Word} (h : Keeps s t) : Keeps s (t.classifyWords w) := by
  unfold State.classifyWords
  split
  · exact h.classify
  · exact h.malformed

theorem arrive {w : List Word} {r : Reception} (h : Keeps s t) : Keeps s (t.arrive w r) := by
  cases r <;> dsimp only [State.arrive, State.receive]
  · split
    · exact h.countPort.classifyWords
    · exact h.countPort
  · exact h.countPort
  · exact h

theorem loopIn {f : Frame} (h : Keeps s t) : Keeps s (t.loopIn f) := by
  unfold State.loopIn
  exact h.modPort.classify

theorem transmit {f : Frame} (h : Keeps s t) : Keeps s (t.transmit f) := by
  unfold State.transmit
  exact h.modPort.countPort

theorem controlSent {f : Frame} (h : Keeps s t) : Keeps s (t.controlSent f) := by
  unfold State.controlSent
  split
  · exact h.modEn fun i => i
  · exact h.modEn fun i => i
  · exact h

theorem sendControl {c : ControlOffer} (h : Keeps s t) : Keeps s (t.sendControl c) := by
  have h1 := h.modPort (f := fun p => { p with control := none })
  unfold State.sendControl
  dsimp only
  split
  · exact h1.transmit.controlSent
  · exact h1.transmit.countPort.performRingReset

theorem sendForward {f : Frame} {n : Nat} (hn : n ≤ 4) (h : Keeps s t) : Keeps s (t.sendForward f n) := by
  unfold State.sendForward
  refine Keeps.countPort (Keeps.transmit (h.modPort' fun a b _ d => ⟨?_, b, hn, d⟩))
  simp; omega

theorem sendResponse {r : Response} {n : Nat} (hn : n ≤ 8) (h : Keeps s t) : Keeps s (t.sendResponse r n) := by
  unfold State.sendResponse
  exact (h.popResponse.modPort' fun a b c _ => ⟨a, b, c, hn⟩).transmit.reportLeft

theorem sendRequest {x : RequestOffer} (h : Keeps s t) : Keeps s (t.sendRequest x) := by
  unfold State.sendRequest
  exact (h.modPort' fun a b c _ => ⟨a, b, c, Nat.zero_le _⟩).transmit.transmitted

theorem sendLocal (h : Keeps s t) : Keeps s t.sendLocal := by
  unfold State.sendLocal
  split
  · exact h.sendResponse (Nat.zero_le _)
  · split
    · exact h.sendResponse (by omega)
    · exact h.sendRequest
  · exact h.sendRequest
  · exact h

theorem clearForwardRun (h : Keeps s t) : Keeps s t.clearForwardRun :=
  h.modPort' fun a b _ d => ⟨a, b, Nat.zero_le _, d⟩

theorem sendQueued (h : Keeps s t) : Keeps s t.sendQueued := by
  unfold State.sendQueued
  split
  · exact h.clearForwardRun.sendLocal
  · split
    · exact h.sendForward (Nat.zero_le _)
    · split
      · exact h.sendForward (by omega)
      · split
        · exact h.sendForward (Nat.le_refl _)
        · exact h.clearForwardRun.sendLocal

theorem arbitrate (h : Keeps s t) : Keeps s t.arbitrate := by
  unfold State.arbitrate
  split
  · exact h.sendControl
  · exact h.sendQueued

/-! ### The timers -/

theorem settleExpired (h : Keeps s t) : Keeps s t.settleExpired := by
  unfold State.settleExpired
  exact (h.modEn fun i => i).startIfSettled

theorem passTimerExpired (h : Keeps s t) : Keeps s t.passTimerExpired := by
  unfold State.passTimerExpired
  split
  · rename_i hm _; exact h.passExpired hm
  · exact h.modEn fun i => i

end Sys2Proof.Machine.Keeps
end

