-- ==== Sys2Proof/Laws/Lanes.lean ====
section
/-! SUPPORT. Byte lanes: the lanes of a word made of lanes, and a word as its lanes (R56, R177). -/

-- Proofs one after another: run side by side in one file, they wait for each other in too many threads.
set_option Elab.async false

namespace Sys2Proof.Machine

theorem lane_getElem (w : Word) (k i : Nat) (h : i < 8) : (lane w k)[i] = w.getLsbD (8 * k + i) := by
  simp [lane]

/-- Lane k of a word that is given by its lanes. -/
theorem lane_ofLanes (b0 b1 b2 b3 : BitVec 8) :
    lane (ofLanes b0 b1 b2 b3) 0 = b0 ∧ lane (ofLanes b0 b1 b2 b3) 1 = b1 ∧
      lane (ofLanes b0 b1 b2 b3) 2 = b2 ∧ lane (ofLanes b0 b1 b2 b3) 3 = b3 := by
  unfold ofLanes
  refine ⟨?_, ?_, ?_, ?_⟩ <;>
    (apply BitVec.eq_of_getElem_eq
     intro i hi
     rw [lane_getElem]
     simp only [BitVec.getLsbD_append]
     rcases (by omega : i = 0 ∨ i = 1 ∨ i = 2 ∨ i = 3 ∨ i = 4 ∨ i = 5 ∨ i = 6 ∨ i = 7) with
       h | h | h | h | h | h | h | h <;> subst h <;> simp)

/-- A word is the word of its lanes. -/
theorem ofLanes_lane (w : Word) : ofLanes (lane w 0) (lane w 1) (lane w 2) (lane w 3) = w := by
  have h (i k j : Nat) (hi : i < 8) (hj : j = 8 * k + i) : (lane w k).getLsbD i = w.getLsbD j := by
    subst hj; unfold lane; simp [hi]
  apply BitVec.eq_of_getLsbD_eq
  intro i hi
  unfold ofLanes
  simp only [BitVec.getLsbD_append]
  by_cases h0 : i < 8
  · simp only [h0, if_pos]; exact h i 0 i h0 (by omega)
  by_cases h1 : i - 8 < 8
  · simp only [h0, h1, if_pos]; exact h (i - 8) 1 i h1 (by omega)
  by_cases h2 : i - 8 - 8 < 8
  · simp only [h0, h1, h2, if_pos]
    exact h (i - 8 - 8) 2 i h2 (by omega)
  · simp only [h0, h1, h2]
    exact h (i - 8 - 8 - 8) 3 i (by omega) (by omega)

end Sys2Proof.Machine
end

