-- ==== Sys2Proof/Laws/Layouts.lean ====
section
/-! SUPPORT. The words in which the part shows its state, spelled from bit 31 down (R179, R180). -/

set_option linter.unusedSimpArgs false

namespace Sys2Proof.Machine

/-! ### Fields as numbers -/

/-- A field as a number. -/
theorem fieldAt_toNat (low : Nat) {w : Nat} (v : BitVec w) (h : low + w ≤ 32) :
    (fieldAt low v).toNat = v.toNat <<< low := by
  unfold fieldAt
  have hv := v.isLt
  have : v.toNat < 2 ^ 32 := Nat.lt_of_lt_of_le hv (Nat.pow_le_pow_right (by decide) (by omega))
  rw [BitVec.toNat_shiftLeft, BitVec.toNat_setWidth, Nat.mod_eq_of_lt this, Nat.mod_eq_of_lt]
  rw [Nat.shiftLeft_eq]
  calc v.toNat * 2 ^ low < 2 ^ w * 2 ^ low := Nat.mul_lt_mul_of_pos_right hv (Nat.two_pow_pos low)
    _ = 2 ^ (low + w) := by rw [Nat.add_comm, Nat.pow_add]
    _ ≤ 2 ^ 32 := Nat.pow_le_pow_right (by decide) h

theorem lor_left_comm (a b c : Nat) : a ||| (b ||| c) = b ||| (a ||| c) := by
  rw [← Nat.lor_assoc, Nat.lor_comm a b, Nat.lor_assoc]

theorem zero_toNat (w : Nat) : (0 : BitVec w).toNat = 0 := by simp

theorem one_toNat : (1 : BitVec 2).toNat = 1 := rfl

/-- A bit as a number. -/
theorem bitAt_toNat (low : Nat) (b : Bool) (h : low + 1 ≤ 32) :
    (bitAt low b).toNat = (BitVec.ofBool b).toNat <<< low := fieldAt_toNat low (bit b) h

/-! ### Fault records -/

theorem FaultRecord.word1_eq (r : FaultRecord) : r.word1 =
    r.kind.code ++ BitVec.ofBool r.node.isSome ++ BitVec.ofBool r.tag.isSome ++ BitVec.ofBool r.index.isSome ++
      BitVec.ofBool r.address.isSome ++ BitVec.ofBool r.detail.isSome ++ r.node.getD 0 ++
      BitVec.ofNat 5 (r.tag.getD 0).val ++ r.index.getD 0 ++ 0#7 := by
  have ht : (BitVec.ofFin (w := 5) (r.tag.getD 0)) = BitVec.ofNat 5 (r.tag.getD 0).val := by
    apply BitVec.eq_of_toNat_eq; simp
  unfold FaultRecord.word1 FaultRecord.presence bit
  rw [ht]
  apply BitVec.eq_of_toNat_eq
  simp (disch := decide) only [BitVec.toNat_or, fieldAt_toNat, bitAt_toNat]
  repeat rw [BitVec.toNat_append]
  simp only [Nat.shiftLeft_or_distrib, ← Nat.shiftLeft_add, Nat.reduceAdd, BitVec.toNat_zero, zero_toNat, one_toNat, Nat.zero_shiftLeft,
    Nat.shiftLeft_zero, Nat.or_zero, Nat.zero_or, BitVec.toNat_ofNat, Nat.reduceMod, Nat.reducePow]
  simp only [Nat.lor_assoc, Nat.lor_comm, lor_left_comm]

theorem FaultRecord.word3_eq (r : FaultRecord) : r.word3 =
    (r.address.getD 0).extractLsb' 32 8 ++ 0#16 ++ detailCode r.detail := by
  unfold FaultRecord.word3
  apply BitVec.eq_of_toNat_eq
  simp (disch := decide) only [BitVec.toNat_or, fieldAt_toNat, bitAt_toNat]
  repeat rw [BitVec.toNat_append]
  simp only [Nat.shiftLeft_or_distrib, ← Nat.shiftLeft_add, Nat.reduceAdd, BitVec.toNat_zero, zero_toNat, one_toNat, Nat.zero_shiftLeft,
    Nat.shiftLeft_zero, Nat.or_zero, Nat.zero_or, BitVec.toNat_ofNat, Nat.reduceMod, Nat.reducePow]

theorem State.faultHeadWord_eq (s : State) (r : FaultRecord) : s.faultHeadWord r =
    r.kind.code ++ BitVec.ofBool r.node.isSome ++ BitVec.ofBool r.tag.isSome ++ BitVec.ofBool r.index.isSome ++
      BitVec.ofBool r.address.isSome ++ BitVec.ofBool r.detail.isSome ++ 0#2 ++ BitVec.ofNat 5 s.ag.faults.length ++
      0#8 ++ BitVec.ofNat 8 s.ag.overflow := by
  unfold State.faultHeadWord State.overflowField FaultRecord.presence bit
  apply BitVec.eq_of_toNat_eq
  simp (disch := decide) only [BitVec.toNat_or, fieldAt_toNat, bitAt_toNat]
  repeat rw [BitVec.toNat_append]
  simp only [Nat.shiftLeft_or_distrib, ← Nat.shiftLeft_add, Nat.reduceAdd, BitVec.toNat_zero, zero_toNat, one_toNat, Nat.zero_shiftLeft,
    Nat.shiftLeft_zero, Nat.or_zero, Nat.zero_or, BitVec.toNat_ofNat, Nat.reduceMod, Nat.reducePow]
  simp only [Nat.lor_assoc, Nat.lor_comm, lor_left_comm]

/-! ### Status, the inbox and the issue slot -/

theorem State.statusWord_eq (s : State) : s.statusWord =
    0#11 ++ s.en.censusCount ++ 0#5 ++ s.port.link.code ++ BitVec.ofBool s.en.manager ++
      BitVec.ofBool (s.en.idMode == .strapped) ++ s.en.role.code ++ s.en.ownId := by
  unfold State.statusWord
  apply BitVec.eq_of_toNat_eq
  simp (disch := decide) only [BitVec.toNat_or, fieldAt_toNat, bitAt_toNat]
  repeat rw [BitVec.toNat_append]
  simp only [Nat.shiftLeft_or_distrib, ← Nat.shiftLeft_add, Nat.reduceAdd, BitVec.toNat_zero, zero_toNat, one_toNat, Nat.zero_shiftLeft,
    Nat.shiftLeft_zero, Nat.or_zero, Nat.zero_or, BitVec.toNat_ofNat, Nat.reduceMod, Nat.reducePow]
  simp only [Nat.lor_assoc, Nat.lor_comm, lor_left_comm]

/-- The status word of IDENTIFY, with the lock owner. -/
theorem State.statusOwner_eq (s : State) : s.statusWord ||| fieldAt 24 s.ag.lockOwner =
    0#3 ++ s.ag.lockOwner ++ 0#3 ++ s.en.censusCount ++ 0#5 ++ s.port.link.code ++ BitVec.ofBool s.en.manager ++
      BitVec.ofBool (s.en.idMode == .strapped) ++ s.en.role.code ++ s.en.ownId := by
  unfold State.statusWord
  apply BitVec.eq_of_toNat_eq
  simp (disch := decide) only [BitVec.toNat_or, fieldAt_toNat, bitAt_toNat]
  repeat rw [BitVec.toNat_append]
  simp only [Nat.shiftLeft_or_distrib, ← Nat.shiftLeft_add, Nat.reduceAdd, BitVec.toNat_zero, zero_toNat, one_toNat, Nat.zero_shiftLeft,
    Nat.shiftLeft_zero, Nat.or_zero, Nat.zero_or, BitVec.toNat_ofNat, Nat.reduceMod, Nat.reducePow]
  simp only [Nat.lor_assoc, Nat.lor_comm, lor_left_comm]

theorem InboxRecord.word_eq (r : InboxRecord) :
    r.word = 0#11 ++ r.source ++ 0#2 ++ r.number ++ BitVec.ofNat 8 r.count := by
  unfold InboxRecord.word
  apply BitVec.eq_of_toNat_eq
  simp (disch := decide) only [BitVec.toNat_or, fieldAt_toNat, bitAt_toNat]
  repeat rw [BitVec.toNat_append]
  simp only [Nat.shiftLeft_or_distrib, ← Nat.shiftLeft_add, Nat.reduceAdd, BitVec.toNat_zero, zero_toNat, one_toNat, Nat.zero_shiftLeft,
    Nat.shiftLeft_zero, Nat.or_zero, Nat.zero_or, BitVec.toNat_ofNat, Nat.reduceMod, Nat.reducePow]


theorem IssueSlot.stateWord_eq (i : IssueSlot) : i.stateWord =
    0#16 ++ (match i.result with
      | some r => r.code
      | none => 0#8) ++ 0#6 ++ i.state.code := by
  unfold IssueSlot.stateWord
  cases i.result
  all_goals
    dsimp only
    apply BitVec.eq_of_toNat_eq
    simp (disch := decide) only [BitVec.toNat_or, fieldAt_toNat, bitAt_toNat]
    repeat rw [BitVec.toNat_append]
    simp only [Nat.shiftLeft_or_distrib, ← Nat.shiftLeft_add, Nat.reduceAdd, BitVec.toNat_zero, zero_toNat, one_toNat, Nat.zero_shiftLeft,
      Nat.shiftLeft_zero, Nat.or_zero, Nat.zero_or, BitVec.toNat_ofNat, Nat.reduceMod, Nat.reducePow]
    try simp only [Nat.lor_assoc, Nat.lor_comm, lor_left_comm]

/-! ### Windows -/

/-- W1 with the state, outbound. -/
theorem windowWord1_outbound (i : Fin 16) (st : WindowState) :
    windowWord1 .outbound i st = 0#14 ++ st.code ++ 0#11 ++ BitVec.ofNat 5 i.val := by
  unfold windowWord1 WindowTable.code
  apply BitVec.eq_of_toNat_eq
  simp (disch := decide) only [BitVec.toNat_or, fieldAt_toNat, bitAt_toNat]
  repeat rw [BitVec.toNat_append]
  simp only [Nat.shiftLeft_or_distrib, ← Nat.shiftLeft_add, Nat.reduceAdd, BitVec.toNat_zero, zero_toNat, one_toNat, Nat.zero_shiftLeft,
    Nat.shiftLeft_zero, Nat.or_zero, Nat.zero_or, BitVec.toNat_ofNat, Nat.reduceMod, Nat.reducePow]

/-- W1 with the state, inbound. -/
theorem windowWord1_inbound (i : Fin 16) (st : WindowState) :
    windowWord1 .inbound i st = 0#14 ++ st.code ++ 0#6 ++ 1#2 ++ 0#3 ++ BitVec.ofNat 5 i.val := by
  unfold windowWord1 WindowTable.code
  apply BitVec.eq_of_toNat_eq
  simp (disch := decide) only [BitVec.toNat_or, fieldAt_toNat, bitAt_toNat]
  repeat rw [BitVec.toNat_append]
  simp only [Nat.shiftLeft_or_distrib, ← Nat.shiftLeft_add, Nat.reduceAdd, BitVec.toNat_zero, zero_toNat, one_toNat, Nat.zero_shiftLeft,
    Nat.shiftLeft_zero, Nat.or_zero, Nat.zero_or, BitVec.toNat_ofNat, Nat.reduceMod, Nat.reducePow]


theorem OwtEntry.words_eq (e : OwtEntry) (i : Fin 16) : e.words i =
    [0#14 ++ e.state.code ++ 0#11 ++ BitVec.ofNat 5 i.val, e.localBase,
      0#3 ++ e.dest ++ 0#3 ++ BitVec.ofNat 5 e.sizeExp ++ 0#8 ++ e.ringBase.extractLsb' 32 8,
      e.ringBase.extractLsb' 0 32,
      0#23 ++ BitVec.ofBool (!e.posted) ++ 0#2 ++ BitVec.ofBool e.writeAllowed ++ BitVec.ofBool e.readAllowed ++ 0#2 ++
        laneOrderCode e.laneOrder,
      0, BitVec.ofNat 32 e.inFlight, e.hits] := by
  have w3 : fieldAt 24 e.dest ||| fieldAt 16 (BitVec.ofNat 5 e.sizeExp) ||| fieldAt 0 (e.ringBase.extractLsb' 32 8) =
      0#3 ++ e.dest ++ 0#3 ++ BitVec.ofNat 5 e.sizeExp ++ 0#8 ++ e.ringBase.extractLsb' 32 8 := by
    apply BitVec.eq_of_toNat_eq
    simp (disch := decide) only [BitVec.toNat_or, fieldAt_toNat, bitAt_toNat]
    repeat rw [BitVec.toNat_append]
    simp only [Nat.shiftLeft_or_distrib, ← Nat.shiftLeft_add, Nat.reduceAdd, BitVec.toNat_zero, zero_toNat, one_toNat, Nat.zero_shiftLeft,
      Nat.shiftLeft_zero, Nat.or_zero, Nat.zero_or, BitVec.toNat_ofNat, Nat.reduceMod, Nat.reducePow]

  have w5 : fieldAt 0 (laneOrderCode e.laneOrder) ||| bitAt 4 e.readAllowed ||| bitAt 5 e.writeAllowed |||
      bitAt 8 (!e.posted) =
      0#23 ++ BitVec.ofBool (!e.posted) ++ 0#2 ++ BitVec.ofBool e.writeAllowed ++ BitVec.ofBool e.readAllowed ++ 0#2 ++
        laneOrderCode e.laneOrder := by
    apply BitVec.eq_of_toNat_eq
    simp (disch := decide) only [BitVec.toNat_or, fieldAt_toNat, bitAt_toNat]
    repeat rw [BitVec.toNat_append]
    simp only [Nat.shiftLeft_or_distrib, ← Nat.shiftLeft_add, Nat.reduceAdd, BitVec.toNat_zero, zero_toNat, one_toNat, Nat.zero_shiftLeft,
      Nat.shiftLeft_zero, Nat.or_zero, Nat.zero_or, BitVec.toNat_ofNat, Nat.reduceMod, Nat.reducePow]
    simp only [Nat.lor_assoc, Nat.lor_comm, lor_left_comm]
  unfold OwtEntry.words
  rw [windowWord1_outbound, w3, w5]

theorem IwtEntry.words_eq (e : IwtEntry) (i : Fin 16) : e.words i =
    [0#14 ++ e.state.code ++ 0#6 ++ 1#2 ++ 0#3 ++ BitVec.ofNat 5 i.val, e.localBase,
      0#11 ++ BitVec.ofNat 5 e.sizeExp ++ 0#8 ++ e.ringBase.extractLsb' 32 8, e.ringBase.extractLsb' 0 32,
      0#25 ++ BitVec.ofBool e.postedAllowed ++ BitVec.ofBool e.writeAllowed ++ BitVec.ofBool e.readAllowed ++ 0#2 ++
        laneOrderCode e.laneOrder,
      e.sources, BitVec.ofNat 32 e.inFlight, e.hits] := by
  have w3 : fieldAt 16 (BitVec.ofNat 5 e.sizeExp) ||| fieldAt 0 (e.ringBase.extractLsb' 32 8) =
      0#11 ++ BitVec.ofNat 5 e.sizeExp ++ 0#8 ++ e.ringBase.extractLsb' 32 8 := by
    apply BitVec.eq_of_toNat_eq
    simp (disch := decide) only [BitVec.toNat_or, fieldAt_toNat, bitAt_toNat]
    repeat rw [BitVec.toNat_append]
    simp only [Nat.shiftLeft_or_distrib, ← Nat.shiftLeft_add, Nat.reduceAdd, BitVec.toNat_zero, zero_toNat, one_toNat, Nat.zero_shiftLeft,
      Nat.shiftLeft_zero, Nat.or_zero, Nat.zero_or, BitVec.toNat_ofNat, Nat.reduceMod, Nat.reducePow]

  have w5 : fieldAt 0 (laneOrderCode e.laneOrder) ||| bitAt 4 e.readAllowed ||| bitAt 5 e.writeAllowed |||
      bitAt 6 e.postedAllowed =
      0#25 ++ BitVec.ofBool e.postedAllowed ++ BitVec.ofBool e.writeAllowed ++ BitVec.ofBool e.readAllowed ++ 0#2 ++
        laneOrderCode e.laneOrder := by
    apply BitVec.eq_of_toNat_eq
    simp (disch := decide) only [BitVec.toNat_or, fieldAt_toNat, bitAt_toNat]
    repeat rw [BitVec.toNat_append]
    simp only [Nat.shiftLeft_or_distrib, ← Nat.shiftLeft_add, Nat.reduceAdd, BitVec.toNat_zero, zero_toNat, one_toNat, Nat.zero_shiftLeft,
      Nat.shiftLeft_zero, Nat.or_zero, Nat.zero_or, BitVec.toNat_ofNat, Nat.reduceMod, Nat.reducePow]
    simp only [Nat.lor_assoc, Nat.lor_comm, lor_left_comm]
  unfold IwtEntry.words
  rw [windowWord1_inbound, w3, w5]

/-! ### Routes, descriptors, channels -/

theorem RouteEntry.word_eq (r : RouteEntry) : r.word =
    0#11 ++ r.dest ++ 0#2 ++ r.number ++ 0#5 ++ BitVec.ofBool r.level ++ routeCode r.route := by
  unfold RouteEntry.word
  apply BitVec.eq_of_toNat_eq
  simp (disch := decide) only [BitVec.toNat_or, fieldAt_toNat, bitAt_toNat]
  repeat rw [BitVec.toNat_append]
  simp only [Nat.shiftLeft_or_distrib, ← Nat.shiftLeft_add, Nat.reduceAdd, BitVec.toNat_zero, zero_toNat, one_toNat, Nat.zero_shiftLeft,
    Nat.shiftLeft_zero, Nat.or_zero, Nat.zero_or, BitVec.toNat_ofNat, Nat.reduceMod, Nat.reducePow]
  simp only [Nat.lor_assoc, Nat.lor_comm, lor_left_comm]

theorem descriptorField_eq (i : Option (Fin 64)) : descriptorField i = (match i with
    | some n => BitVec.ofNat 7 n.val
    | none => 127#7) := by cases i <;> rfl

theorem Descriptor.words_eq (d : Descriptor) (i : Fin 64) : d.words i =
    [0#23 ++ BitVec.ofBool d.loaded ++ 0#1 ++ BitVec.ofNat 7 i.val,
      0#3 ++ d.node ++ 0#2 ++ laneOrderCode d.laneOrder ++ BitVec.ofBool d.notify ++ BitVec.ofBool d.localFixed ++
        BitVec.ofBool d.remoteFixed ++ BitVec.ofBool d.pull ++ 0#8 ++ d.remote.extractLsb' 32 8,
      d.remote.extractLsb' 0 32, d.localAddr,
      0#3 ++ BitVec.ofNat 5 d.frameSize ++ 0#3 ++ BitVec.ofNat 21 d.length, 0#25 ++ descriptorField d.next] := by
  have d1 : fieldAt 0 (BitVec.ofNat 7 i.val) ||| bitAt 8 d.loaded =
      0#23 ++ BitVec.ofBool d.loaded ++ 0#1 ++ BitVec.ofNat 7 i.val := by
    apply BitVec.eq_of_toNat_eq
    simp (disch := decide) only [BitVec.toNat_or, fieldAt_toNat, bitAt_toNat]
    repeat rw [BitVec.toNat_append]
    simp only [Nat.shiftLeft_or_distrib, ← Nat.shiftLeft_add, Nat.reduceAdd, BitVec.toNat_zero, zero_toNat, one_toNat, Nat.zero_shiftLeft,
      Nat.shiftLeft_zero, Nat.or_zero, Nat.zero_or, BitVec.toNat_ofNat, Nat.reduceMod, Nat.reducePow]
    simp only [Nat.lor_assoc, Nat.lor_comm, lor_left_comm]
  have d2 : fieldAt 0 (d.remote.extractLsb' 32 8) ||| bitAt 16 d.pull ||| bitAt 17 d.remoteFixed |||
      bitAt 18 d.localFixed ||| bitAt 19 d.notify ||| fieldAt 20 (laneOrderCode d.laneOrder) ||| fieldAt 24 d.node =
      0#3 ++ d.node ++ 0#2 ++ laneOrderCode d.laneOrder ++ BitVec.ofBool d.notify ++ BitVec.ofBool d.localFixed ++
        BitVec.ofBool d.remoteFixed ++ BitVec.ofBool d.pull ++ 0#8 ++ d.remote.extractLsb' 32 8 := by
    apply BitVec.eq_of_toNat_eq
    simp (disch := decide) only [BitVec.toNat_or, fieldAt_toNat, bitAt_toNat]
    repeat rw [BitVec.toNat_append]
    simp only [Nat.shiftLeft_or_distrib, ← Nat.shiftLeft_add, Nat.reduceAdd, BitVec.toNat_zero, zero_toNat, one_toNat, Nat.zero_shiftLeft,
      Nat.shiftLeft_zero, Nat.or_zero, Nat.zero_or, BitVec.toNat_ofNat, Nat.reduceMod, Nat.reducePow]
    simp only [Nat.lor_assoc, Nat.lor_comm, lor_left_comm]
  have d5 : fieldAt 0 (BitVec.ofNat 21 d.length) ||| fieldAt 24 (BitVec.ofNat 5 d.frameSize) =
      0#3 ++ BitVec.ofNat 5 d.frameSize ++ 0#3 ++ BitVec.ofNat 21 d.length := by
    apply BitVec.eq_of_toNat_eq
    simp (disch := decide) only [BitVec.toNat_or, fieldAt_toNat, bitAt_toNat]
    repeat rw [BitVec.toNat_append]
    simp only [Nat.shiftLeft_or_distrib, ← Nat.shiftLeft_add, Nat.reduceAdd, BitVec.toNat_zero, zero_toNat, one_toNat, Nat.zero_shiftLeft,
      Nat.shiftLeft_zero, Nat.or_zero, Nat.zero_or, BitVec.toNat_ofNat, Nat.reduceMod, Nat.reducePow]
    simp only [Nat.lor_assoc, Nat.lor_comm, lor_left_comm]
  have d6 : fieldAt 0 (descriptorField d.next) = 0#25 ++ descriptorField d.next := by
    apply BitVec.eq_of_toNat_eq
    simp (disch := decide) only [BitVec.toNat_or, fieldAt_toNat, bitAt_toNat]
    repeat rw [BitVec.toNat_append]
    simp only [Nat.shiftLeft_or_distrib, ← Nat.shiftLeft_add, Nat.reduceAdd, BitVec.toNat_zero, zero_toNat, one_toNat, Nat.zero_shiftLeft,
      Nat.shiftLeft_zero, Nat.or_zero, Nat.zero_or, BitVec.toNat_ofNat, Nat.reduceMod, Nat.reducePow]

  unfold Descriptor.words
  rw [d1, d2, d5, d6]

/-- Word 8 of READ_CHANNEL. -/
theorem Channel.slotsWord_eq (ch : Channel) :
    let slot (i : Fin 8) : BitVec 3 := BitVec.ofBool (ch.slots.get i).detached ++ (ch.slots.get i).state.code
    ch.slotsWord = 0#8 ++ slot 7 ++ slot 6 ++ slot 5 ++ slot 4 ++ slot 3 ++ slot 2 ++ slot 1 ++ slot 0 := by
  intro slot
  have hl : List.finRange 8 = [0, 1, 2, 3, 4, 5, 6, 7] := by decide
  unfold Channel.slotsWord
  rw [hl]
  simp only [List.foldl_cons, List.foldl_nil]
  change (0 : Word) ||| fieldAt 0 (slot 0) ||| fieldAt 3 (slot 1) ||| fieldAt 6 (slot 2) ||| fieldAt 9 (slot 3) |||
    fieldAt 12 (slot 4) ||| fieldAt 15 (slot 5) ||| fieldAt 18 (slot 6) ||| fieldAt 21 (slot 7) = _
  clear_value slot
  apply BitVec.eq_of_toNat_eq
  simp (disch := decide) only [BitVec.toNat_or, fieldAt_toNat, bitAt_toNat]
  repeat rw [BitVec.toNat_append]
  simp only [Nat.shiftLeft_or_distrib, ← Nat.shiftLeft_add, Nat.reduceAdd, BitVec.toNat_zero, zero_toNat, one_toNat, Nat.zero_shiftLeft,
    Nat.shiftLeft_zero, Nat.or_zero, Nat.zero_or, BitVec.toNat_ofNat, Nat.reduceMod, Nat.reducePow]
  simp only [Nat.lor_assoc, Nat.lor_comm, lor_left_comm]

/-- Word 9 of READ_CHANNEL. -/
theorem HaltRecord.word_eq (h : HaltRecord) : h.word =
    0#15 ++ BitVec.ofBool h.result.isSome ++ detailCode h.result ++ 0#1 ++ BitVec.ofNat 7 h.index.val := by
  unfold HaltRecord.word
  apply BitVec.eq_of_toNat_eq
  simp (disch := decide) only [BitVec.toNat_or, fieldAt_toNat, bitAt_toNat]
  repeat rw [BitVec.toNat_append]
  simp only [Nat.shiftLeft_or_distrib, ← Nat.shiftLeft_add, Nat.reduceAdd, BitVec.toNat_zero, zero_toNat, one_toNat, Nat.zero_shiftLeft,
    Nat.shiftLeft_zero, Nat.or_zero, Nat.zero_or, BitVec.toNat_ofNat, Nat.reduceMod, Nat.reducePow]
  simp only [Nat.lor_assoc, Nat.lor_comm, lor_left_comm]

/-- Words 1 and 4 of READ_CHANNEL. -/
theorem Channel.words_eq (ch : Channel) : ch.words =
    [0#15 ++ BitVec.ofBool ch.halt.isSome ++ 0#1 ++ descriptorField ch.current ++ 0#6 ++ ch.state.code,
      BitVec.ofNat 32 ch.remaining, BitVec.ofNat 32 ch.nextOffset, 0#24 ++ ch.remote.extractLsb' 32 8,
      ch.remote.extractLsb' 0 32, ch.localAddr, BitVec.ofNat 32 ch.completed, ch.slotsWord,
      match ch.halt with
        | some h => h.word
        | none => 0,
      match ch.halt with
        | some h => BitVec.ofNat 32 h.offset
        | none => 0] := by
  have c1 : fieldAt 0 ch.state.code ||| fieldAt 8 (descriptorField ch.current) ||| bitAt 16 ch.halt.isSome =
      0#15 ++ BitVec.ofBool ch.halt.isSome ++ 0#1 ++ descriptorField ch.current ++ 0#6 ++ ch.state.code := by
    apply BitVec.eq_of_toNat_eq
    simp (disch := decide) only [BitVec.toNat_or, fieldAt_toNat, bitAt_toNat]
    repeat rw [BitVec.toNat_append]
    simp only [Nat.shiftLeft_or_distrib, ← Nat.shiftLeft_add, Nat.reduceAdd, BitVec.toNat_zero, zero_toNat, one_toNat, Nat.zero_shiftLeft,
      Nat.shiftLeft_zero, Nat.or_zero, Nat.zero_or, BitVec.toNat_ofNat, Nat.reduceMod, Nat.reducePow]
    simp only [Nat.lor_assoc, Nat.lor_comm, lor_left_comm]
  have c4 : fieldAt 0 (ch.remote.extractLsb' 32 8) = 0#24 ++ ch.remote.extractLsb' 32 8 := by
    apply BitVec.eq_of_toNat_eq
    simp (disch := decide) only [BitVec.toNat_or, fieldAt_toNat, bitAt_toNat]
    repeat rw [BitVec.toNat_append]
    simp only [Nat.shiftLeft_or_distrib, ← Nat.shiftLeft_add, Nat.reduceAdd, BitVec.toNat_zero, zero_toNat, one_toNat, Nat.zero_shiftLeft,
      Nat.shiftLeft_zero, Nat.or_zero, Nat.zero_or, BitVec.toNat_ofNat, Nat.reduceMod, Nat.reducePow]

  unfold Channel.words
  (rw [c1, c4]) <;> (cases ch.halt <;> rfl)

end Sys2Proof.Machine
end

