-- ==== Sys2Proof/Laws/Runs.lean ====
section
/-! SUPPORT. What the operations on a destination's unaccepted posted writes make of the tracker's entries (R95 to
R103). -/

namespace Sys2Proof.Machine

/-- Each entry of a run that ends is FREE, its other fields kept. -/
theorem foldComplete_exact (r : Result) (W : List Tag) : ∀ s : State, W.Nodup → ∀ x ∈ W,
    (W.foldl (State.completeEntry r []) s).rt.entries.get x = (s.rt.entries.get x).freed := by
  have one : ∀ (s : State) (t : Tag), (s.completeEntry r [] t).rt.entries.get t = (s.rt.entries.get t).freed := by
    intro s t
    have ho : HandOver s (s.handOver t r []) := (HandOver.refl s).handOver
    have key : ∀ s : State, (s.freeEntry t).rt.entries.get t = (s.rt.entries.get t).freed := by
      intro s
      unfold State.freeEntry
      dsimp only
      cases (s.entry t).window with
      | none => exact get_set _ _ _
      | some w =>
        dsimp only [State.modRt]
        rw [(fallOwt_rt _ w).1]; exact get_set _ _ _
    have := key (s.handOver t r [])
    rw [ho.rt] at this
    exact this
  induction W with
  | nil => intro s _ x hx; cases hx
  | cons t l ih =>
    intro s hn x hx
    rw [List.foldl_cons]
    rw [List.nodup_cons] at hn
    by_cases hl : x ∈ l
    · rw [ih _ hn.2 x hl, (completeEntry_freed s r t).same x (by simp; rintro rfl; exact hn.1 hl)]
    · have : x = t := by simpa [hl] using hx
      subst this
      rw [(foldAbort' r l _).same x hl, one]

/-- Every entry rewritten by its tag. -/
def State.mapEntries (s : State) (f : Tag → TrackerEntry → TrackerEntry) : State :=
  { s with rt := { s.rt with entries := Vector.ofFn fun x => f x (s.rt.entries.get x) } }

/-- An entry after all have been rewritten. -/
theorem mapEntries_get (s : State) (f : Tag → TrackerEntry → TrackerEntry) (x : Tag) :
    (s.mapEntries f).rt.entries.get x = f x (s.rt.entries.get x) := get_ofFn _ _

/-- Rewriting every entry as it was changes nothing. -/
theorem mapEntries_id {s : State} {f : Tag → TrackerEntry → TrackerEntry}
    (h : ∀ x, f x (s.rt.entries.get x) = s.rt.entries.get x) :
    s.mapEntries f = s := by
  unfold State.mapEntries
  have : (Vector.ofFn fun x => f x (s.rt.entries.get x)) = s.rt.entries := table_ext fun x => (get_ofFn _ x).trans (h x)
  rw [this]

/-- Two ways to write every entry that agree. -/
theorem mapEntries_congr {s : State} {f g : Tag → TrackerEntry → TrackerEntry}
    (h : ∀ x, f x (s.rt.entries.get x) = g x (s.rt.entries.get x)) :
    s.mapEntries f = s.mapEntries g := by
  unfold State.mapEntries
  have : (Vector.ofFn fun x => f x (s.rt.entries.get x)) = Vector.ofFn fun x => g x (s.rt.entries.get x) :=
    table_ext fun x => by rw [get_ofFn, get_ofFn, h x]
  rw [this]

/-- Every entry rewritten twice. -/
theorem mapEntries_twice (s : State) (f g : Tag → TrackerEntry → TrackerEntry) :
    (s.mapEntries f).mapEntries g = s.mapEntries fun x e => g x (f x e) := by
  unfold State.mapEntries
  simp only [get_ofFn]

/-- One entry rewritten. -/
theorem modEntry_map (s : State) (t : Tag) (g : TrackerEntry → TrackerEntry) :
    s.modEntry t g = s.mapEntries fun x e => if x = t then g e else e := by
  unfold State.mapEntries State.modEntry State.modRt
  dsimp only
  have : modAt s.rt.entries t g = Vector.ofFn fun x =>
      if x = t then g (s.rt.entries.get x) else s.rt.entries.get x := by
    apply table_ext
    intro x
    rw [get_ofFn]
    by_cases hx : x = t
    · subst hx; rw [if_pos rfl]; exact get_set _ _ _
    · rw [if_neg hx]; exact get_set_ne _ hx _
  rw [this]

/-- The entries of a list changed one after another. -/
theorem modEntries_fold {g : TrackerEntry → TrackerEntry} (hg : ∀ e, g (g e) = g e) (l : List Tag) : ∀ s : State,
    l.foldl (fun s t => s.modEntry t g) s = s.mapEntries fun x e => if x ∈ l then g e else e := by
  induction l with
  | nil => intro s; exact (mapEntries_id (by simp)).symm
  | cons t l ih =>
    intro s
    rw [List.foldl_cons, ih, modEntry_map, mapEntries_twice]
    apply mapEntries_congr
    intro x
    by_cases hx : x = t
    · subst hx; by_cases hl : x ∈ l <;> simp [hl, hg]
    · simp [hx]

/-- The release of ORDER_WAIT entries (R98): those before the first posted write to the destination. -/
theorem releaseUpTo_eq (d : NodeId) (l : List Tag) : ∀ s : State, State.releaseUpTo d l s =
    s.mapEntries fun x e =>
      if x ∈ l.takeWhile (fun y => !s.isPostedTo d y) ∧ e.dest = d ∧ e.state = .orderWait then e.toReady
      else e := by
  induction l with
  | nil => intro s; exact (mapEntries_id (by simp)).symm
  | cons t l ih =>
    intro s
    unfold State.releaseUpTo
    by_cases hp : s.isPostedTo d t = true
    · rw [if_pos hp]
      exact (mapEntries_id (by simp [hp])).symm
    · rw [if_neg hp]
      have hp' : (!s.isPostedTo d t) = true := by simpa using hp
      rw [List.takeWhile_cons, if_pos hp']
      by_cases hd : (s.entry t).dest = d ∧ (s.entry t).state = .orderWait
      · rw [if_pos hd, ih]
        have hpo : ∀ y, (s.modEntry t TrackerEntry.toReady).isPostedTo d y = s.isPostedTo d y := by
          intro y
          unfold State.isPostedTo State.entry
          rw [modEntry_map, mapEntries_get]
          split <;> rfl
        simp only [hpo]
        rw [modEntry_map, mapEntries_twice]
        apply mapEntries_congr
        intro x
        by_cases hx : x = t
        · subst hx
          have hd' : (s.rt.entries.get x).dest = d ∧ (s.rt.entries.get x).state = .orderWait := hd
          rw [if_pos rfl, if_neg (by rintro ⟨_, _, h⟩; cases h)]
          exact (if_pos ⟨by simp, hd'⟩).symm
        · rw [if_neg hx]; simp [hx]
      · rw [if_neg hd, ih]
        apply mapEntries_congr
        intro x
        by_cases hx : x = t
        · subst hx
          rw [if_neg (fun h => hd h.2), if_neg (fun h => hd h.2)]
        · simp [hx]

/-- A posted write to a destination. -/
theorem isPostedTo_iff {s : State} {d : NodeId} {x : Tag} :
    s.isPostedTo d x = true ↔ ((s.rt.entries.get x).kind = .postedWrite ∧ (s.rt.entries.get x).dest = d) := by
  unfold State.isPostedTo State.entry
  simp

/-- Going back twice is going back once. -/
theorem goBack_idem (e : TrackerEntry) : e.goBack.goBack = e.goBack := by
  unfold TrackerEntry.goBack
  by_cases h : e.state = .sent ∨ e.state = .backoff
  · rw [if_pos h, if_neg]; simp [TrackerEntry.toReady]
  · rw [if_neg h, if_neg h]

/-- The unaccepted writes that were under way are READY again (R101). -/
theorem returnRun_map (s : State) (d : NodeId) :
    s.returnRun d = s.mapEntries fun x e => if x ∈ s.postedRun d then e.goBack else e :=
  modEntries_fold goBack_idem _ s

/-- A run of posted writes is the same after an update of an entry that keeps its kind and its destination. -/
theorem postedRun_modEntry {s : State} {t : Tag} {f : TrackerEntry → TrackerEntry}
    (hf : ∀ e, (f e).kind = e.kind ∧ (f e).dest = e.dest) (d : NodeId) :
    (s.modEntry t f).postedRun d = s.postedRun d := by
  have h : (s.modEntry t f).isPostedTo d = s.isPostedTo d := by
    funext y
    unfold State.isPostedTo State.entry
    rw [modEntry_map, mapEntries_get]
    split
    · rw [(hf _).1, (hf _).2]
    · rfl
  unfold State.postedRun
  rw [h]
  rfl

/-- Go-back for UNSYNCED marks the oldest unaccepted write, in its entry and in its presented frame (R102). -/
theorem unsyncedGoBack_map (s : State) (d : NodeId) :
    let v := s.mapEntries fun x e =>
      if x ∈ s.postedRun d then
        ({ e with sync := if (s.postedRun d).head? = some x then true else e.sync } : TrackerEntry).goBack else e
    s.unsyncedGoBack d = v.modPort fun p => { p with
      offer := p.offer.map fun o =>
        if (s.postedRun d).head? = some o.tag then ⟨o.tag, v.requestFrame o.tag⟩ else o } := by
  intro v
  unfold State.unsyncedGoBack State.oldestPosted
  cases hq : (s.postedRun d).head? with
  | none =>
    have hv : v = s := mapEntries_id fun x => by simp [List.head?_eq_none_iff.1 hq]
    rw [hv]
    simp [State.modPort]
  | some t =>
    have hv : (s.modEntry t fun e => { e with sync := true }).returnRun d = v := by
      rw [returnRun_map, postedRun_modEntry (f := fun e => { e with sync := true }) (fun _ => ⟨rfl, rfl⟩),
        modEntry_map, mapEntries_twice]
      apply mapEntries_congr
      intro x
      have hm : t ∈ s.postedRun d := List.mem_of_head? hq
      by_cases hx : x = t
      · subst hx; simp [hm, hq]
      · have : some t ≠ some x := by simpa using fun e => hx e.symm
        rw [if_neg hx, hq, if_neg this]
    dsimp only
    rw [hv]
    unfold State.refreshOffer
    congr 1
    funext p
    cases p.offer with
    | none => rfl
    | some o =>
      by_cases ho : o.tag = t
      · subst ho; simp
      · simp [ho, Ne.symm ho]

/-- The ORDER_WAIT entries that no earlier posted write holds are READY (R98). -/
theorem releaseOrderWait_map (s : State) (d : NodeId) : s.releaseOrderWait d = s.mapEntries fun x e =>
    if x ∈ s.rt.allocOrder.takeWhile (fun y => !s.isPostedTo d y) ∧ e.dest = d ∧ e.state = .orderWait then e.toReady
    else e :=
  releaseUpTo_eq d _ s

end Sys2Proof.Machine
end

