-- ==== Sys2Proof/Laws/Settling.lean ====
section
/-! SUPPORT. The end of an event one move at a time: each thing that happens at once is followed by all that follows it
(R29, R30, R31, R78, R79; log 5). -/

namespace Sys2Proof.Machine

/-! ### More steps than are needed change nothing -/

theorem settleSteps_enough {n m : Nat} {s : State} (h : settleCost s ≤ n) (k : settleCost s ≤ m) :
    s.settleSteps n = s.settleSteps m := by
  have stop : ∀ (n : Nat) {s : State}, s.settleStep = none → s.settleSteps n = s := by
    intro n s hs
    cases n with
    | zero => rfl
    | succ n => unfold State.settleSteps; rw [hs]
  induction n generalizing s m with
  | zero =>
    have hs : s.settleStep = none := by
      cases e : s.settleStep with
      | none => rfl
      | some u => have := settleStep_cost e; omega
    rw [stop _ hs, stop _ hs]
  | succ n ih =>
    cases e : s.settleStep with
    | none => rw [stop _ e, stop _ e]
    | some u =>
      have hc := settleStep_cost e
      cases m with
      | zero => omega
      | succ m =>
        unfold State.settleSteps
        rw [e]
        exact ih (by omega) (by omega)

theorem responseSteps_enough {n m : Nat} {s : State} (h : settleCost s ≤ n) (k : settleCost s ≤ m) :
    s.responseSteps n = s.responseSteps m := by
  induction n generalizing s m with
  | zero =>
    have hs : s.responseStep = none := by
      cases e : s.responseStep with
      | none => rfl
      | some u => have := responseStep_cost e; omega
    rw [responseSteps_eq hs, responseSteps_eq hs]
  | succ n ih =>
    cases e : s.responseStep with
    | none => rw [responseSteps_eq e, responseSteps_eq e]
    | some u =>
      have hc := responseStep_cost e
      cases m with
      | zero => omega
      | succ m =>
        unfold State.responseSteps
        rw [e]
        exact ih (by omega) (by omega)

/-! ### One move -/

/-- Settling goes on from what its first step leaves. -/
theorem settle_step {s u : State} (h : s.settleStep = some u) : s.settle = u.settle := by
  have hc := settleStep_cost h
  have hb := settleCost_le s
  have e : s.settle = s.settleSteps (s.settleBound + 1) := settleSteps_enough hb (by omega)
  rw [e]
  unfold State.settleSteps
  rw [h]
  exact settleSteps_enough (by omega) (settleCost_le u)

/-- The reports that wait are taken first. -/
theorem endOfEvent_drainLeft (s : State) : s.endOfEvent = s.drainLeft.endOfEvent := by
  unfold State.endOfEvent State.settleResponses
  rw [drainLeft_eq (drainLeft_left s)]

/-- The end of an event goes on from what the first move of the responses leaves. -/
theorem endOfEvent_step {s u : State} (hl : s.left = []) (h : s.responseStep = some u) :
    s.endOfEvent = u.endOfEvent := by
  have hu : u.left = [] := by obtain ⟨v, rfl, _⟩ := responseStep_some h; exact drainLeft_left v
  have hc := responseStep_cost h
  have hb := settleCost_le s
  have e : s.settleResponses = u.settleResponses := by
    unfold State.settleResponses
    rw [drainLeft_eq hl, drainLeft_eq hu]
    rw [responseSteps_enough (m := s.settleBound + 1) hb (by omega)]
    unfold State.responseSteps
    rw [h]
    exact responseSteps_enough (by omega) (settleCost_le u)
  unfold State.endOfEvent
  rw [e]

/-- What the responses do at once, in the end of an event and in settling alike. -/
theorem response_move {s v : State} (hl : s.left = []) (h : s.loopStep.or s.waiterStep = some v) :
    s.endOfEvent = v.drainLeft.endOfEvent ∧ s.settle = v.drainLeft.settle := by
  have h1 : s.responseStep = some v.drainLeft := by unfold State.responseStep; rw [h]; rfl
  have h2 : s.settleStep = some v.drainLeft := by unfold State.settleStep; rw [h]; rfl
  exact ⟨endOfEvent_step hl h1, settle_step h2⟩

/-- With no response that can move, settling is the offer's. -/
theorem offer_move {s v : State} (h1 : s.loopStep = none) (h2 : s.waiterStep = none) (h : s.offerStep = some v) :
    s.settle = v.drainLeft.settle := by
  apply settle_step
  unfold State.settleStep
  rw [h1, h2, h]
  rfl

/-! ### When a response can move -/

/-- No response is looped when none at the head is for this node. -/
theorem loopStep_none {s : State} : s.loopStep = none ↔ ∀ r l, s.port.responseQ = r :: l → r.frame.dest ≠ s.en.ownId := by
  unfold State.loopStep
  cases h : s.port.responseQ with
  | nil => simp
  | cons r l => simp

/-- Nobody takes a place when there is none, or nobody waits. -/
theorem waiterStep_none {s : State} :
    s.waiterStep = none ↔ 8 ≤ s.port.responseQ.length ∨ s.inb.held = none ∧ s.ag.heldReply = none := by
  unfold State.waiterStep State.responseRoom responseQueueSize
  by_cases hr : s.port.responseQ.length < 8
  · have : ¬ 8 ≤ s.port.responseQ.length := by omega
    cases s.inb.held <;> cases s.ag.heldReply <;> simp [hr, this]
  · have : 8 ≤ s.port.responseQ.length := by omega
    simp [hr, this]

/-! ### What the moves leave -/

/-- A placer that waited alone for its report is told at once. -/
theorem reportLeft_drained {s : State} (hl : s.left = []) (p : Purpose) : (s.reportLeft p).drainLeft = s.leftReport p := by
  cases s
  cases hl
  cases p <;> rfl

/-- A head for this node is what the responses move first (R29). -/
theorem loopStep_head {s : State} {r : Response} {l : List Response} (hq : s.port.responseQ = r :: l)
    (hd : r.frame.dest = s.en.ownId) : s.loopStep = some (s.loopResponse r) := by
  unfold State.loopStep
  rw [hq]
  exact if_pos hd

/-- A looped reply of a NODE_RESET that comes first reaches the tracker, and the reset follows (R125, R152). -/
theorem loopResponse_drained_some {s : State} (hl : s.left = []) {r : Response} {ref : Ref}
    (e : s.replyBeforeReset r = some ref) :
    (s.loopResponse r).drainLeft = s.popResponse.countLooped.resetAfterReply ref r.frame := by
  unfold State.loopResponse
  rw [e]
  refine drainLeft_eq ?_
  unfold State.resetAfterReply
  rw [performNodeReset_left, (takeResponse_reply_queue _ (replyBeforeReset_some e).2.1).2]
  exact hl

/-- Any other looped response waits on the loop path, its placer told at once (R29, R30). -/
theorem loopResponse_drained_none {s : State} (hl : s.left = []) {r : Response} (e : s.replyBeforeReset r = none) :
    (s.loopResponse r).drainLeft = State.leftReport
      ((s.popResponse.modPort fun p => { p with loopQ := p.loopQ ++ [r.frame] }).countLooped) r.purpose := by
  unfold State.loopResponse
  rw [e]
  exact reportLeft_drained (by exact hl) r.purpose

/-- A placement, its placer told at once. -/
theorem insertResponse_drained {s : State} (hl : s.left = []) (f : Frame) (p : Purpose) :
    (s.insertResponse ⟨f, p⟩).drainLeft = s.placed f p := by
  unfold State.insertResponse State.placed
  split
  · exact drainLeft_eq hl
  · exact reportLeft_drained (s := s.countDiscarded 1) hl p

/-- The held reply, placed in a queue with room, its placer told at once (R138). -/
theorem placeHeldReply_drained {s : State} (hl : s.left = []) (hr : s.port.responseQ.length < 8) (p : HeldReply) :
    (s.placeHeldReply p).drainLeft = State.placed
      { s with ag := { s.ag with
        heldReply := none, state := if s.ag.resetPending = true then .executing else .idle } } p.frame p.purpose := by
  refine Eq.trans ?_ (insertResponse_drained (by exact hl) p.frame p.purpose)
  congr 1
  unfold State.placeHeldReply State.agentPlace State.placeResponse State.responseRoom responseQueueSize
  rw [if_pos (by simpa using hr)]
  unfold State.insertResponse
  dsimp only [State.modPort, State.modAg]
  split
  · rfl
  · cases p.purpose <;> rfl

/-- A response that nobody waits for, placed in a queue with room. -/
theorem insertResponse_plain (s : State) (f : Frame) : s.insertResponse ⟨f, .plain⟩ = s.placed f .plain := by
  unfold State.insertResponse State.placed
  split <;> rfl

/-- The operation that a mover channel presents to the local master (R161, R162, R163). -/
theorem claimantOp_channel {s : State} {c : ChannelId} {i : Fin 8}
    (hi : ((s.chan c).slots.get i).wantsBus = true)
    (h : ∀ j, ((s.chan c).slots.get j).wantsBus = true →
      ((s.chan c).slots.get i).entered < ((s.chan c).slots.get j).entered ∨
        (((s.chan c).slots.get i).entered = ((s.chan c).slots.get j).entered ∧ i ≤ j)) :
    s.claimantOp (.channel c) = some (s.moverTransaction c i) := by
  show ((s.chan c).oldest Slot.wantsBus).map _ = _
  rw [oldest_eq hi h]
  rfl

/-! ### The issue slot and the NODE reset (R125) -/

/-- The reply that matches the issue slot's entry completes the slot with OK and the reply's words (R84, R151). -/
theorem takeResponse_issue {s : State} {ref : Ref} {f : Frame} (hb : f.body = .mgmtReply ref)
    (hm : s.responseMatches ref f = true) (ho : (s.entry ref.tag).originator = .issueSlot) :
    (s.takeResponse ref f).ag.issue =
      { s.ag.issue with state := .replied, result := some .ok, reply := f.payload } := by
  rw [takeResponse_reply s hb, if_pos hm]
  unfold State.completeEntry
  have hh : s.handOver ref.tag .ok f.payload = s.issueCompleted .ok f.payload := by
    unfold State.handOver
    dsimp only
    rw [ho]
  rw [hh, (freeEntry_drained _ _).issue]
  rfl

/-- A NODE reset empties an issue slot that waits for its tag or its reply, and keeps it otherwise (R125). -/
theorem performNodeReset_issue (s : State) : s.performNodeReset.ag.issue = s.ag.issue.nodeReset := by
  unfold State.performNodeReset
  dsimp only
  rw [(takeFirings_same _).issue, State.fire_ag, (takeFirings_same _).issue]
  exact congrArg IssueSlot.nodeReset (recordFaults_keep (fun s => s.ag.issue) (fun s r => by
    unfold State.recordFault
    dsimp only [State.modAg, State.fire]
    split <;> rfl) _ _)

/-- An allocation without a window leaves the agent as it is. -/
theorem alloc_ag {s u : State} {r : AllocRequest} {x : Tag} (h : s.alloc r = some (x, u)) : u.ag = s.ag := by
  obtain ⟨_, _, _, l, _, rfl⟩ := alloc_some h
  unfold State.allocated
  dsimp only
  split <;> split <;> rfl

theorem grantHeld_ag {s u : State} {c : EventCode} (h : s.grantHeld c = some u) : u.ag = s.ag := by
  unfold State.grantHeld at h
  split at h
  · rename_i e; cases h; exact (alloc_ag e :)
  · cases h

theorem moverGrant_ag {s u : State} (h : s.moverGrant = some u) : u.ag = s.ag := by
  unfold State.moverGrant at h
  split at h
  · cases h
  · split at h
    · cases h
    · rename_i e; cases h; exact (alloc_ag e :)

theorem takeAsks_ag (s : State) : s.takeAsks.ag = s.ag := by
  have mover : ∀ (n : Nat) (v : State), (v.moverAsks n).ag = v.ag := by
    intro n
    induction n with
    | zero => intro v; rfl
    | succ n ih =>
      intro v
      unfold State.moverAsks
      split
      · rename_i u hu; exact (ih u).trans (moverGrant_ag hu)
      · rfl
  have key : ∀ (l : List Originator) (v : State), (l.foldl State.askAgain v).ag = v.ag := by
    intro l
    induction l with
    | nil => intro v; rfl
    | cons o l ih =>
      intro v
      refine (ih _).trans ?_
      unfold State.askAgain
      split
      · split
        · rename_i c _
          cases e : v.grantHeld c with
          | none => rfl
          | some w => exact grantHeld_ag e
        · rfl
      · exact mover _ v
      all_goals rfl
  exact key s.asks { s with asks := [] }

/-- The standing claims leave the agent as it is, unless its issue slot stands (R77, R150). -/
theorem serveClaims_ag {s : State} (h : s.ag.issue.state ≠ .waitingTag) : s.serveClaims.ag = s.ag := by
  have key : ∀ (n : Nat) (v : State), v.ag = s.ag → (v.claimSteps n).ag = s.ag := by
    intro n
    induction n with
    | zero => intro v hv; exact hv
    | succ n ih =>
      intro v hv
      unfold State.claimSteps
      split
      · rename_i u hu
        refine ih u ?_
        unfold State.claimStep at hu
        obtain ⟨c, _, hc⟩ := List.exists_of_findSome?_eq_some hu
        cases hg : v.claimGrant c with
        | none => simp [hg] at hc
        | some w =>
          simp [hg] at hc
          subst hc
          refine Eq.trans (show _ = w.ag from rfl) (Eq.trans ?_ hv)
          cases c with
          | issueSlot =>
            simp only [State.claimGrant] at hg
            rw [if_neg (by rw [hv]; exact h)] at hg
            cases hg
          | router =>
            simp only [State.claimGrant] at hg
            split at hg
            · exact grantHeld_ag hg
            · cases hg
          | mover => exact moverGrant_ag hg
      · exact hv
  exact key _ s rfl

/-- The end of an event leaves an issue slot that does not wait for its tag as it is, with no NODE reset pending. -/
theorem endOfEvent_issue {s : State} (hp : s.ag.resetPending = false) (hw : s.ag.issue.state ≠ .waitingTag) :
    s.endOfEvent.ag.issue = s.ag.issue := by
  have same : ∀ {u v : State} {ys : List Part}, Changes ys u v → Part.issue ∉ ys → Part.issueState ∉ ys →
      v.ag.issue = u.ag.issue := by
    intro u v ys c h1 h2
    obtain ⟨a, b, d, e, f⟩ := c .issue h1
    have g : v.ag.issue.state = u.ag.issue.state := c .issueState h2
    cases hv : v.ag.issue
    cases hu : u.ag.issue
    simp_all
  obtain ⟨c1, h1⟩ := settleResponses_flow hp
  let a := s.settleResponses.takeAsks.takeFirings
  have e1 : s.settleResponses.ag.issue = s.ag.issue := same c1 (by decide) (by decide)
  have e2 : a.ag = s.settleResponses.ag := (takeFirings_same _).issue.trans (takeAsks_ag _)
  have e3 : a.serveClaims.ag = a.ag := serveClaims_ag (by rw [e2, e1]; exact hw)
  have e4 : a.serveClaims.settle.ag.issue = a.serveClaims.ag.issue :=
    same (settleSteps_flow _ (by rw [e3, e2]; exact h1)) (by decide) (by decide)
  have e5 : a.serveClaims.settle.takeBus.ag.issue = a.serveClaims.settle.ag.issue :=
    same (takeBus_changes _) (by decide) (by decide)
  exact e5.trans (e4.trans (by rw [e3, e2, e1]))

end Sys2Proof.Machine
end

