-- ==== Sys2Proof/Tests/Slice0.lean ====
section
/-! SUPPORT. Tests on small states: each check of WellFormed refuses an ill-formed command, each command does on one
state what its rule says, and states that meet the hypotheses of each statement, clause by clause (the `witness_`
theorems, named after the statements). -/

-- Proofs one after another: run side by side in one file, they wait for each other in too many threads.
set_option Elab.async false

set_option maxRecDepth 100000

namespace Sys2Proof.Tests

open Sys2Proof.Machine

/-! ### States and frames -/

/-- The state after a command. -/
def after (s : State) (i : Instr) : State :=
  match exec i s with
  | .next t => t
  | _ => s

/-- Node 5, NUMBERED, with its link UP; node 3 holds the management lock. -/
def node5 : State :=
  { State.reset with
    port := { RingPort.reset with link := .up }
    en := { Enumeration.reset with ownId := 5, role := .numbered }
    ag := { Agent.reset with lockOwner := 3, leaseTimer := .running 10000 } }

/-- Node 5 as the manager. -/
def manager5 : State := { node5 with en := { node5.en with manager := true, state := .done } }

/-- An outbound window of 4 KiB to node 9. -/
def window (base : Word) (posted : Bool) : OwtEntry :=
  { OwtEntry.reset with
    state := .active, localBase := base, dest := 9, ringBase := 0x5000, posted := posted, readAllowed := true
    writeAllowed := posted }

/-- An inbound window of 4 KiB for nodes 3 and 5, in SWAP_WORD order; no WRITE is allowed. -/
def inWindow : IwtEntry :=
  { IwtEntry.reset with
    state := .active, ringBase := 0x2000, localBase := 0x30000000, laneOrder := .swapWord, readAllowed := true
    postedAllowed := true, sources := 0x28 }

/-- Node 5 with two outbound windows, of which the second allows no write, and an inbound one. -/
def windows5 : State :=
  { node5 with wt :=
    { owt := (WindowTables.reset.owt.set 0 (window 0x10000000 true)).set 1 (window 0x10001000 false)
      iwt := WindowTables.reset.iwt.set 0 inWindow } }

/-- A frame from RING IN with its check word. -/
def bring (f : Frame) : Instr := .rxFrame f.onRing .whole

/-- The state in which a frame from RING IN is classified. -/
def received (s : State) : State :=
  { s with
    now := s.now + 1
    port := { s.port with counters := { s.port.counters with rxFrames := bump s.port.counters.rxFrames } } }

/-- A frame brought from RING IN arrives. -/
theorem brings (f : Frame) (s : State)
    (h : s.port.link = .up ∧ checkPasses f.onRing = true ∧ frameOfWords f.onRing.dropLast = some f) :
    Arrival (bring f) f s (received s) := .inl ⟨_, rfl, h.1, h.2.1, h.2.2, rfl⟩

/-- A frame from node 3 to node 5. -/
def toMe (body : Body) (length : BitVec 5) (payload : List Word) : Frame := ⟨5, 3, 2, length, body, payload⟩

/-- A READ of one word in the inbound window. -/
def readIn : Frame := toMe (.read ⟨7, 1⟩ ⟨0x2010, 0xF, 0x7⟩) 1 []

/-- A POSTED_WRITE of one word with its sequence and sync flag. -/
def postedIn (q : Seq) (sync : Bool) : Frame :=
  toMe (.postedWrite ⟨7, 1⟩ ⟨0x2010, 0xF, 0xF⟩ q sync) 1 [0x11223344]

/-- A tracker entry with tag 0, sent once to node 9 and not answered. -/
def request (kind : ReqKind) (origin : Originator) : TrackerEntry :=
  { TrackerEntry.reset with
    state := .sent, originator := origin, kind := kind, dest := 9, length := 2, gen := 1
    responseTimer := .running 16384, sentOnce := true }

/-- Node 5 with one tracker entry, of tag 0. -/
def tracking (e : TrackerEntry) : State :=
  { windows5 with
    rt := { Tracker.reset with
      entries := Tracker.reset.entries.set 0 e
      freeList := allTags.tail
      allocOrder := [0] } }

/-- An entry that waits to be sent for the first time, and what the tracker presents of it. -/
def fresh : TrackerEntry :=
  { request .read .localPosted with state := .ready, sentOnce := false, responseTimer := .stopped }

def presented : RequestOffer := ⟨0, ⟨9, 5, 0, 2, .read ⟨0, 1⟩ ⟨0, 0, 0⟩, []⟩⟩

/-- An answer of node 9 to tag 0. -/
def answer9 (body : Body) (length : BitVec 5) (payload : List Word) : Frame := ⟨5, 9, 2, length, body, payload⟩

/-- A request of node 3 for the agent. -/
def ask (operands : List Word) : MgmtRequest := ⟨3, 5, 1, 0, operands⟩

/-- Eight responses for other nodes: a full response insertion queue. -/
def eight : List Response := List.replicate 8 ⟨Frame.answer 9 5 (.accept ⟨0, 0⟩), .plain⟩

/-- The same state with a full response insertion queue. -/
def full (s : State) : State := { s with port := { s.port with responseQ := eight } }

/-- An entry of the inbound queue, from node 3 through inbound window 0. -/
def queued (kind : InboundKind) : InboundEntry :=
  { kind := kind, source := 3, answering := 5, tag := 7, gen := 1, address := 0x30000010, length := 1, first := 0xF
    last := 0xF, data := if kind = .read then [] else [0x11223344], window := 0 }

/-- A transaction in its first attempt. -/
def transaction (owner : TransactionOwner) (dir : Direction) : Transaction :=
  { owner := owner, dir := dir, address := 0x30000010, count := 1, first := 0xF, last := 0xF
    data := if dir = .read then [] else [0x44332211], reattempts := 0, cycleTimer := .running 256
    delayTimer := .stopped }

/-- Node 5 performing the head of its inbound queue. -/
def performing (kind : InboundKind) : State :=
  { windows5 with
    wt := { windows5.wt with iwt := windows5.wt.iwt.set 0 { inWindow with inFlight := 1 } }
    inb := { Inbound.reset with
      queue := [queued kind]
      current := some (transaction .inbound (if kind = .read then .read else .write))
      lastServed := .inbound } }

/-- A loaded descriptor of 10 words: PUSH to node 9, or PULL from it, with frames of 4 words. -/
def descriptor (pull : Bool) : Descriptor :=
  { Descriptor.reset with
    loaded := true, pull := pull, node := 9, remote := 0x7000, localAddr := 0x40000000, length := 10, frameSize := 4 }

/-- A buffer slot of the first four words. -/
def slot (state : BufferState) : Slot :=
  { Slot.reset with state := state, count := 4, remote := 0x7000, localAddr := 0x40000000, node := 9 }

/-- A channel on descriptor 2 with slot 0 busy and no word left to cut. -/
def channel (state : ChannelState) (sl : Slot) (completed : Nat) : Channel :=
  { Channel.reset with
    state := state, current := some 2, nextOffset := 10, completed := completed
    slots := Channel.reset.slots.set 0 sl }

/-- Node 5 with a channel A and descriptor 2. -/
def moving (ch : Channel) (d : Descriptor) : State :=
  { node5 with bm := { Mover.reset with chA := ch, descriptors := Mover.reset.descriptors.set 2 d } }

/-- The same state while the local master performs the transaction of channel A's slot 0. -/
def carrying (s : State) (dir : Direction) : State :=
  { s with inb := { s.inb with current := some (transaction (.mover .a 0) dir), lastServed := .channel .a } }

/-- A local access of `count` words with whole masks. -/
def access (address : Word) (count : Nat) (data : Word) : Access :=
  ⟨address, count, 0xF, 0xF, (Vector.replicate 16 0).set 0 data⟩

/-! ### The checks of WellFormed -/

theorem test_access_count : (Instr.outboundAccess .read (access 0 0 0)).wellFormed = false ∧
    (Instr.outboundAccess .read (access 0 17 0)).wellFormed = false ∧
    (Instr.outboundAccess .read (access 0 16 0)).wellFormed = true := by decide

theorem test_page_rows_touch_their_item :
    (Instr.eventInboxHeadRead (access 0x1C 1 0)).wellFormed = false ∧
    (Instr.faultHeadRead (access 0x1C 1 0)).wellFormed = false ∧
    (Instr.pendingEventClear (access 0x10 1 0)).wellFormed = false ∧
    (Instr.lastLocalFaultClear (access 0x2C 1 0)).wellFormed = false ∧
    (Instr.issueTrigger (access 0x7C 1 0)).wellFormed = false ∧
    (Instr.ringResetRequest (access 0xC4 1 0)).wellFormed = false ∧
    (Instr.pageWrite (access 0x14 1 0)).wellFormed = false := by decide

theorem test_page_rows_well_formed :
    (Instr.eventInboxHeadRead (access 0x18 1 0)).wellFormed = true ∧
    (Instr.faultHeadRead (access 0x20 4 0)).wellFormed = true ∧
    (Instr.pendingEventClear (access 0x14 1 0)).wellFormed = true ∧
    (Instr.lastLocalFaultClear (access 0x34 1 0)).wellFormed = true ∧
    (Instr.issueTrigger (access 0x78 3 0)).wellFormed = true ∧
    (Instr.ringResetRequest (access 0xC8 1 0)).wellFormed = true ∧
    (Instr.pageWrite (access 0x40 16 0)).wellFormed = true := by decide

theorem test_request_nodes : (Instr.identify ⟨0, 5, 1, 0, []⟩).wellFormed = false ∧
    (Instr.identify ⟨31, 5, 1, 0, []⟩).wellFormed = false ∧ (Instr.identify ⟨3, 0, 1, 0, []⟩).wellFormed = false ∧
    (Instr.identify ⟨3, 31, 1, 0, []⟩).wellFormed = false ∧
    (Instr.identify ⟨3, 5, 1, 0, List.replicate 16 0⟩).wellFormed = false ∧
    (Instr.identify ⟨30, 1, 1, 0, List.replicate 15 0⟩).wellFormed = true := by decide

theorem test_unknown_codes : (Instr.unknownCommand 1 (ask [])).wellFormed = false ∧
    (Instr.unknownCommand 22 (ask [])).wellFormed = false ∧ (Instr.unknownCommand 0 (ask [])).wellFormed = true ∧
    (Instr.unknownCommand 23 (ask [])).wellFormed = true := by decide

/-! ### The check word (R16): the common check value of the CRC-32 of the bytes 31H to 39H needs nine bytes; eight are
two words (log 30) -/

theorem test_check_word : checkWord [0x34333231, 0x38373635] = 0x9AE0DAAF := by decide

theorem test_check_word_detects : checkPasses [0x34333231, 0x38373635, 0x9AE0DAAF] = true ∧
    checkPasses [0x34333231, 0x38373634, 0x9AE0DAAF] = false ∧ checkPasses [] = false := by decide

/-! ### The commands, one small step each -/

theorem test_power_on_reset_strapped_manager :
    let t := after State.reset (.powerOnReset ⟨true, 7, false⟩)
    t.en.ownId = 7 ∧ t.en.role = .provisional ∧ t.en.idMode = .strapped ∧ t.en.state = .settling ∧
      t.ag.faults = [] := by decide

theorem test_power_on_reset_strap_fault :
    let t := after node5 (.powerOnReset ⟨false, 7, true⟩)
    t.en.ownId = 0 ∧ t.en.idMode = .assigned ∧ t.ag.faults = [{ kind := .strapFault }] ∧ t.ev.pendingSet = 0x20 ∧
      t.port.link = .down := by decide

theorem test_local_reset :
    let t := after (performing .read) .localReset
    t.localResetIn = true ∧ t.inb.queue = [] ∧ t.inb.current = none ∧ (t.wt.iwt.get 0).inFlight = 0 ∧
      t.inb.counters.localMasterFaults = 1 ∧
      t.port.responseQ = [⟨⟨3, 5, 0, 1, .refuse ⟨7, 1⟩ ⟨5, false, false, 0⟩, []⟩, .plain⟩] := by decide

theorem test_local_reset_release :
    let s : State := { windows5 with localResetIn := true, inb := { Inbound.reset with queue := [queued .postedWrite] } }
    let t := after s .localResetRelease
    t.localResetIn = false ∧ t.inb.current = some { transaction .inbound .write with data := [0x44332211] } := by decide

theorem test_lock_acquired :
    (after State.reset .lockAcquired).port.link = .locking ∧
      (after State.reset .lockAcquired).port.lockHoldTimer = .running 100 := by decide

theorem test_lock_lost :
    (after node5 .lockLost).port.link = .up ∧ (after node5 .lockLost).port.lockLossTimer = .running 1000 := by decide

theorem test_lock_hold_timer_expiry :
    let t := after (after State.reset .lockAcquired) .lockHoldTimerExpiry
    t.port.link = .up ∧ t.port.lockHoldTimer = .stopped ∧ t.ev.pendingSet = 1 := by decide

theorem test_lock_loss_timer_expiry :
    let s := tracking (request .read (.delayed 1))
    let t := after { s with port := { s.port with lockLossTimer := .running 1000, responseQ := eight } } .lockLossTimerExpiry
    t.port.link = .down ∧ t.port.responseQ = [] ∧ t.port.counters.txDiscarded = 8 ∧ t.rt.allocOrder = [] ∧
      (t.lt.slots.get 1).state = .ready ∧ (t.lt.slots.get 1).result = .linkDown ∧ t.ev.pendingSet = 0x22 := by decide

theorem test_rx_frame_admits :
    let t := after windows5 (bring readIn)
    t.port.counters.rxFrames = 1 ∧ t.inb.counters.inboundAdmitted = 1 ∧ (t.wt.iwt.get 0).hits = 1 ∧
      t.inb.current.map (·.address) = some 0x30000010 ∧ t.inb.current.map (·.last) = some 0xE := by decide

theorem test_rx_frame_posted_in_order :
    let t := after windows5 (bring (postedIn 63 true))
    t.port.responseQ = [⟨⟨3, 5, 0, 1, .accept ⟨7, 1⟩, []⟩, .plain⟩] ∧
      t.ord.recv.get 3 = ⟨true, 0, some ⟨7, 1, 63⟩⟩ ∧ t.ord.counters.syncAccepted = 1 ∧
      t.inb.current.map (·.data) = some [0x44332211] := by decide

theorem test_loop_arrival :
    let t := after { node5 with port := { node5.port with loopQ := [⟨5, 5, 0, 1, .event ⟨2, 1⟩ 7 3, []⟩] } } .loopArrival
    t.ev.inbox = [⟨5, 7, 3⟩] ∧ t.ev.pendingSet = 0x1000 ∧ t.port.counters.rxFrames = 0 ∧
      t.port.loopQ = [⟨5, 5, 0, 1, .accept ⟨2, 1⟩, []⟩] ∧ t.port.counters.looped = 1 := by decide

/-- Choice 6 of the example of section 2.5.1: the run count is 4 and the queue holds 3, so the response goes. -/
theorem test_arbiter_choice_response :
    let s := tracking fresh
    let t := after { s with port := { s.port with
      offer := some presented, forwardQ := List.replicate 3 readIn, responseQ := eight.take 1, forwardRun := 4 } } .arbiterChoice
    t.port.forwardRun = 0 ∧ t.port.responseRun = 1 ∧ t.port.responseQ = [] ∧ t.port.forwardQ.length = 3 ∧
      t.port.offer = some presented := by decide

/-- Choice 10 of that example: the request goes, and its response timer starts at RESPONSE_TIMEOUT × 16 µs. -/
theorem test_arbiter_choice_request :
    let s := tracking fresh
    let t := after { s with port := { s.port with offer := some presented, forwardRun := 3, responseRun := 1 } } .arbiterChoice
    t.port.forwardRun = 0 ∧ t.port.responseRun = 0 ∧ t.port.offer = none ∧ (t.rt.entries.get 0).state = .sent ∧
      (t.rt.entries.get 0).responseTimer = .running 16384 ∧ t.rt.counters.requestsSent = 1 := by decide

theorem test_response_timer_expiry :
    let t := after (tracking (request .read (.delayed 1))) (.responseTimerExpiry 0)
    (t.rt.entries.get 0).state = .backoff ∧ (t.rt.entries.get 0).retry = 1 ∧
      (t.rt.entries.get 0).backoffTimer = .running 8 ∧ t.rt.counters.timeouts = 1 := by decide

theorem test_backoff_timer_expiry :
    let e := { request .read (.delayed 1) with state := .backoff, responseTimer := .stopped, backoffTimer := .running 8 }
    let t := after (tracking e) (.backoffTimerExpiry 0)
    (t.rt.entries.get 0).state = .ready ∧ t.port.offer = some presented := by decide

theorem test_settle_timer_expiry :
    let s : State := { manager5 with en := { manager5.en with
      state := .settling, runPending := some true, settle := .running 20000 } }
    let t := after s .settleTimerExpiry
    t.en.state = .passCensus ∧ t.en.runPending = none ∧ t.en.counters.runsStarted = 1 ∧ t.en.runSet = 0x20 ∧
      t.port.control = some (.own ⟨31, 5, 0, 1, .enumPass ⟨1, true, 1, false, false, 1, 0, 0x20⟩, []⟩) := by decide

theorem test_pass_timer_expiry :
    let s : State := { manager5 with en := { manager5.en with
      state := .passAssign, attempt := 2, passTimer := .running 10000 } }
    let t := after s .passTimerExpiry
    t.en.attempt = 3 ∧ t.en.counters.passResends = 1 ∧ t.en.state = .passAssign ∧ t.en.passTimer = .stopped := by decide

theorem test_return_timer_expiry :
    let t := after { manager5 with en := { manager5.en with resetOutstanding := true, returnTimer := .running 10000 } }
      .returnTimerExpiry
    t.en.ownId = 0 ∧ t.en.role = .unnumbered ∧ t.en.state = .settling ∧ t.en.runPending = some false ∧
      t.ag.faults.map (·.kind) = [.ringReset] ∧ t.ev.pendingSet = 0x20 := by decide

theorem test_discard_timer_expiry :
    let sl := { DelayedSlot.reset with state := .ready, discardTimer := .running 2048 }
    let s : State := { node5 with lt := { node5.lt with slots := node5.lt.slots.set 3 sl } }
    let t := after s (.discardTimerExpiry 3)
    (t.lt.slots.get 3).state = .free ∧ t.lt.counters.discarded = 1 := by decide

theorem test_lease_timer_expiry :
    let s : State := { windows5 with ag := { windows5.ag with leaseAction := .retireAll } }
    let t := after s .leaseTimerExpiry
    t.ag.lockOwner = 0 ∧ t.ag.leaseTimer = .stopped ∧ (t.wt.owt.get 0).state = .empty ∧
      t.ag.faults.map (fun r => (r.kind, r.node)) = [(.leaseLost, some 3)] ∧ t.ev.pendingSet = 0x30 := by decide +kernel

theorem test_hold_timer_expiry :
    let s : State := { node5 with ag := { node5.ag with
      state := .deferred, leaseTimer := .held 700, holdTimer := .running 10000 } }
    (after s .holdTimerExpiry).ag.leaseTimer = .running 700 ∧ (after s .holdTimerExpiry).ag.holdTimer = .stopped := by
  decide

theorem test_termination_done :
    let t := after (performing .read) (.terminationDone ((Vector.replicate 16 0).set 0 0x11223344))
    t.inb.queue = [] ∧ t.inb.current = none ∧ (t.wt.iwt.get 0).inFlight = 0 ∧
      t.port.responseQ = [⟨⟨3, 5, 0, 1, .readData ⟨7, 1⟩, [0x44332211]⟩, .plain⟩] := by decide

theorem test_termination_done_holding :
    let t := after (full (performing .read)) (.terminationDone (Vector.replicate 16 0))
    t.inb.held.isSome = true ∧ t.inb.queue = [] ∧ t.port.responseQ.length = 8 := by decide

theorem test_termination_fault :
    let t := after (performing .postedWrite) .terminationFault
    t.inb.counters.localMasterFaults = 1 ∧ t.port.responseQ = [] ∧
      t.ag.faults = [⟨.postedDiscarded, some 3, some 7, some 0, some 0x30000010, some .localFault⟩] := by decide

theorem test_termination_retry :
    let t := after (performing .write) .terminationRetry
    t.inb.current.map (fun x => (x.cycleTimer, x.delayTimer, x.reattempts)) =
      some (.stopped, .running 1, 0) := by decide

theorem test_reattempt_delay_expiry :
    let t := after (after (performing .write) .terminationRetry) .reattemptDelayExpiry
    t.inb.current.map (fun x => (x.cycleTimer, x.delayTimer, x.reattempts)) =
      some (.running 256, .stopped, 1) := by decide

theorem test_cycle_timer_expiry :
    let t := after (performing .write) .cycleTimerExpiry
    t.inb.current = none ∧ t.inb.counters.localMasterFaults = 1 ∧
      t.port.responseQ = [⟨⟨3, 5, 0, 1, .refuse ⟨7, 1⟩ ⟨5, false, false, 0⟩, []⟩, .plain⟩] := by decide

theorem test_attn_change :
    let s : State := { node5 with ev := { node5.ev with routes := node5.ev.routes.set 16 ⟨.ring, 9, 7, false⟩ } }
    let t := after s (.attnChange 1 true)
    t.ev.attnRecorded = 2 ∧ t.ev.ring.get 16 = ⟨some 0, 0⟩ ∧ t.ev.counters.ringEvents = 1 ∧
      (t.rt.entries.get 0).kind = .event ∧ (t.rt.entries.get 0).number = 7 ∧
      t.port.offer = some ⟨0, ⟨9, 5, 0, 1, .event ⟨0, 1⟩ 7 1, []⟩⟩ := by decide

theorem test_outbound_access_posted :
    let t := after windows5 (.outboundAccess .write (access 0x10000020 1 0xAABBCCDD))
    t.lt.termination = some (.done []) ∧ (t.wt.owt.get 0).inFlight = 1 ∧ (t.wt.owt.get 0).hits = 1 ∧
      t.rt.allocOrder = [0] ∧ (t.rt.entries.get 0).addr = 0x5020 ∧ (t.rt.entries.get 0).sync = true ∧
      (t.ord.send.get 9).count = 1 ∧ t.port.offer.map (·.frame.payload) = some [0xAABBCCDD] := by decide

theorem test_outbound_access_past_end :
    let t := after windows5 (.outboundAccess .read (access 0x10000FFC 2 0))
    t.lt.termination = some .fault ∧ t.lt.lastFault = some (.pastEnd, 0x10000FFC) ∧
      t.lt.counters.localFaults = 1 := by decide

theorem test_event_inbox_head_read :
    let s : State := { node5 with ev := { node5.ev with inbox := [⟨4, 7, 3⟩] } }
    let t := after s (.eventInboxHeadRead (access 0x18 1 0))
    t.ev.inbox = [] ∧ t.lt.termination = some (.done [0x00040703]) ∧
      (after t (.eventInboxHeadRead (access 0x18 1 0))).lt.termination = some (.done [0x80000000]) := by decide

theorem test_fault_head_read :
    let s : State := { node5 with ag := { node5.ag with faults := [{ kind := .leaseLost, node := some 3 }], overflow := 2 } }
    let t := after s (.faultHeadRead (access 0x20 2 0))
    t.ag.faults = [] ∧ t.lt.latch = some { kind := .leaseLost, node := some 3 } := by decide

theorem test_pending_event_clear :
    let s : State := { node5 with ev := { node5.ev with pendingSet := 0x7 } }
    (after s (.pendingEventClear (access 0x14 1 0x5))).ev.pendingSet = 2 := by decide

theorem test_last_local_fault_clear :
    let s : State := { node5 with lt := { node5.lt with lastFault := some (.pastEnd, 4) } }
    (after s (.lastLocalFaultClear (access 0x30 1 0))).lt.lastFault = none := by decide

theorem test_issue_trigger :
    let s : State := { node5 with lt := { node5.lt with
      requestArea := (node5.lt.requestArea.set 0 0x0109).set 1 0x01 } }
    let t := after s (.issueTrigger (access 0x80 1 0))
    t.ag.issue.state = .issued ∧ t.ag.issue.words = [1] ∧ (t.rt.entries.get 0).kind = .mgmtRequest ∧
      (t.rt.entries.get 0).dest = 9 := by decide

theorem test_ring_reset_request :
    let t := after manager5 (.ringResetRequest (access 0xC8 1 1))
    t.en.resetOutstanding = true ∧ t.en.state = .idle ∧
      t.port.control = some (.own ⟨31, 5, 0, 1, .ringReset 0, []⟩) := by decide

theorem test_page_write :
    let t := after node5 (.pageWrite ⟨0x40, 2, 0xF, 0x7, (Vector.replicate 16 0).set 0 0x1234⟩)
    t.lt.requestArea.get 0 = 0x1234 ∧ t.lt.requestArea.get 1 = 0 ∧ t.lt.termination = some (.done []) := by decide

/-- The words of the reply in the response insertion queue. -/
def reply (t : State) : List (List Word) := t.port.responseQ.map fun r => r.frame.payload

theorem test_identify :
    reply (after node5 (.identify (ask []))) = [[0x1, 0x0D7A7316, 3, 0, 0x03000445, 0]] := by decide

theorem test_claim :
    let t := after { node5 with ag := { node5.ag with lockOwner := 0, leaseTimer := .stopped } } (.claim (ask [5, 1]))
    t.ag.lockOwner = 3 ∧ t.ag.leaseTime = 5 ∧ t.ag.leaseAction = .retireAll ∧ t.ag.leaseTimer = .running 50000 ∧
      reply t = [[2]] := by decide

theorem test_claim_not_owner :
    let t := after node5 (.claim ⟨4, 5, 1, 0, [5, 1]⟩)
    t.ag.lockOwner = 3 ∧ reply t = [[0x102, 3]] := by decide

theorem test_release :
    let t := after node5 (.release (ask []))
    t.ag.lockOwner = 0 ∧ t.ag.leaseTimer = .stopped ∧ reply t = [[3]] := by decide

theorem test_renew :
    (after { node5 with ag := { node5.ag with leaseTime := 9 } } (.renew (ask []))).ag.leaseTimer = .running 90000 := by
  decide

/-- The window words of an outbound window of 64 KiB at 20010000H to node 9, ring base 1230020000H. -/
def outboundWords : List Word := [0x00000002, 0x20010000, 0x09100012, 0x30020000, 0x00000031, 0]

theorem test_set_window :
    let t := after windows5 (.setWindow (ask outboundWords))
    t.wt.owt.get 2 = ⟨.active, 0x20010000, 16, 9, 0x1230020000, true, true, true, .swapWord, 0, 0⟩ ∧
      reply t = [[5]] := by decide

theorem test_set_window_in_use :
    reply (after windows5 (.setWindow (ask (0x00000001 :: outboundWords.tail)))) = [[0x405]] := by decide

theorem test_retire_window :
    let t := after windows5 (.retireWindow (ask [0x100]))
    (t.wt.iwt.get 0).state = .empty ∧ reply t = [[6]] := by decide

theorem test_retire_window_deferred :
    let s : State := { windows5 with wt := { windows5.wt with
      owt := windows5.wt.owt.set 1 { window 0x10001000 false with inFlight := 2 } } }
    let t := after s (.retireWindow (ask [1]))
    (t.wt.owt.get 1).state = .retiring ∧ t.ag.state = .deferred ∧ reply t = [] ∧ t.ag.leaseTimer = .held 10000 ∧
      t.ag.holdTimer = .running 10000 := by decide

theorem test_read_window :
    reply (after (after windows5 (.setWindow (ask outboundWords))) (.readWindow (ask [2]))) =
      [[5], [7, 0x00010002, 0x20010000, 0x09100012, 0x30020000, 0x31, 0, 0, 0]] := by decide

theorem test_set_route :
    let t := after node5 (.setRoute (ask [15, 0x00090703]))
    t.ev.routes.get 15 = ⟨.ring, 9, 7, false⟩ ∧ reply t = [[8]] := by decide

theorem test_read_route :
    reply (after node5 (.readRoute (ask [14]))) = [[9, 1]] ∧ reply (after node5 (.readRoute (ask [19]))) = [[0x209]] := by
  decide

/-- The descriptor words of a PUSH of 10 words from 40000000H to node 9, frames of 4 words. -/
def pushWords : List Word := [0x00000102, 0x09080000, 0x00007000, 0x40000000, 0x0400000A, 127]

theorem test_set_descriptor :
    let t := after node5 (.setDescriptor (ask pushWords))
    t.bm.descriptors.get 2 = { descriptor false with notify := true } ∧ reply t = [[10]] := by decide

theorem test_read_descriptor :
    reply (after (after node5 (.setDescriptor (ask pushWords))) (.readDescriptor (ask [2]))) =
      [[10], 11 :: pushWords] := by decide

theorem test_start_move :
    let t := after (moving Channel.reset (descriptor false)) (.startMove (ask [0, 2]))
    t.bm.chA.state = .running ∧ t.bm.chA.remaining = 0 ∧ t.bm.chA.nextOffset = 10 ∧
      (t.bm.chA.slots.get 2).count = 2 ∧ t.inb.current.map (·.owner) = some (.mover .a 0) ∧ reply t = [[12]] := by
  decide +kernel

theorem test_stop_move :
    let t := after (moving (channel .running (slot .localPending) 0) (descriptor false)) (.stopMove (ask [0]))
    t.bm.chA.state = .idle ∧ (t.bm.chA.slots.get 0).state = .free ∧ t.ev.pendingSet.getLsbD 10 = true ∧
      reply t = [[13]] := by decide

theorem test_read_channel :
    reply (after (moving (channel .running (slot .landing) 4) (descriptor true)) (.readChannel (ask [0]))) =
      [[14, 0x201, 0, 10, 0, 0, 0, 4, 3, 0, 0]] := by decide

theorem test_set_parameters :
    let t := after node5 (.setParameters (ask [1, 15, 255, 255, 1023, 255]))
    t.ag.params = ⟨1, 15, 255, 255, 1023, 255⟩ ∧ reply t = [[15]] ∧
      reply (after node5 (.setParameters (ask [1, 16, 255, 255, 1023, 255]))) = [[0x30F]] := by decide

theorem test_read_parameters :
    reply (after node5 (.readParameters (ask []))) = [[16, 1024, 6, 8, 32, 256, 32]] := by decide

theorem test_read_counters :
    reply (after node5 (.readCounters (ask [6]))) = [[17, 1, 0, 0, 0, 0, 0]] ∧
      reply (after node5 (.readCounters (ask [9]))) = [[0x211]] := by decide

theorem test_clear_counters :
    let t := after (received node5) (.clearCounters (ask [0]))
    t.port.counters.rxFrames = 0 ∧ reply t = [[18]] := by decide

theorem test_read_faults :
    let s : State := { node5 with ag := { node5.ag with
      faults := List.replicate 5 { kind := .leaseLost, node := some 3 }, overflow := 2 } }
    let t := after s (.readFaults (ask []))
    t.ag.faults.length = 1 ∧ (reply t).map (·.take 3) = [[19, 0x04010002, 0xC80C0000]] := by decide

theorem test_node_reset :
    let t := after windows5 (.nodeReset (ask []))
    t.ag.resetPending = true ∧ t.ag.state = .executing ∧ t.port.responseQ.map (·.purpose) = [.nodeReset] := by decide

theorem test_renumber :
    let s : State := { manager5 with en := { manager5.en with settle := .expired } }
    let t := after s (.renumber (ask [1]))
    t.en.state = .passCensus ∧ t.en.runKeep = true ∧ reply t = [[21]] ∧
      reply (after node5 (.renumber (ask [1]))) = [[0x615]] := by decide

theorem test_ring_reset :
    let t := after manager5 (.ringReset (ask []))
    t.en.resetOutstanding = true ∧ t.port.control = none ∧ t.port.responseQ.map (·.purpose) = [.ringReset] := by decide

theorem test_unknown_command :
    reply (after node5 (.unknownCommand 23 (ask []))) = [[0x817]] := by decide

/-! ### Hypotheses met: the machine -/

/-- A state with commands waiting, and what its step answers. -/
def waiting : State := { windows5 with pending := [.lockLost, .lockAcquired] }

theorem witness_StepTakesFrontCommand : waiting.pending = [.lockLost, .lockAcquired] ∧ windows5.pending = [] := by decide

theorem witness_CommandsKeepQueueSerialAndStraps :
    exec .lockLost waiting = .next (after waiting .lockLost) ∧ (∀ st, Instr.lockLost ≠ .powerOnReset st) ∧
      Instr.lockLost ≠ .localReset ∧ Instr.lockLost ≠ .localResetRelease :=
  ⟨rfl, (fun _ h => by cases h), by decide, by decide⟩

theorem witness_StepKeepsRest : Rest waiting ∧ step waiting = .next (after { waiting with pending := [.lockAcquired] } .lockLost) :=
  ⟨by unfold Rest; decide, rfl⟩

theorem witness_StepKeepsBounds : Bounded (full windows5) ∧ Bounded waiting := by unfold Bounded; decide

theorem witness_StepKeepsWindowsSound : WindowsSound waiting.wt := by
  unfold WindowsSound OwtEntry.sound IwtEntry.sound OwtEntry.apart IwtEntry.apart; decide +kernel

theorem witness_StepKeepsIdsLegal : IdsLegal waiting.en ∧ IdsLegal manager5.en := by unfold IdsLegal; decide

theorem witness_StepKeepsAgentSound :
    AgentSound { node5.ag with state := .executing, resetPending := true } ∧ AgentSound node5.ag := by
  unfold AgentSound; decide

theorem witness_FrameWordsReadBack : readIn.body.wordAligned = true ∧
    (Body.read ⟨0, 0⟩ ⟨0xFFFFFFFFFC, 1, 8⟩).wordAligned = true ∧ (Body.ringReset 3).wordAligned = true := by decide

/-! ### Hypotheses met: pins and resets -/

theorem witness_LocalResetReleaseServesBus :
    let s : State := { windows5 with localResetIn := true }
    let risen : State := { s with ev := { s.ev with attnInput := 5, attnRecorded := 4 } }
    let queue : State := { windows5 with inb := { Inbound.reset with queue := [queued .read], lastServed := .inbound } }
    Rest s ∧ Rest risen ∧ Rest windows5 ∧ risen.localResetIn = true ∧
      (risen.ev.attnInput.getLsbD 0 = true ∧ risen.ev.attnRecorded.getLsbD 0 = false) ∧
      risen.ev.attnRecorded.getLsbD 2 = true ∧ s.ev.attnInput = 0 ∧
      s.localResetIn = true ∧ (performing .read).inb.current.isSome = true ∧
      (windows5.localResetIn = false ∧ windows5.inb.current = none ∧ windows5.inb.held = none ∧
        windows5.claimantOp .inbound = none ∧ windows5.claimantOp (.channel .a) = none ∧
        windows5.claimantOp (.channel .b) = none) ∧
      (queue.localResetIn = false ∧ queue.inb.current = none ∧ queue.inb.held = none ∧
        busRotation queue.inb.lastServed = [.channel .a, .channel .b] ++ .inbound :: [] ∧
        (∀ x ∈ [BusClaimant.channel .a, .channel .b], queue.claimantOp x = none) ∧
        (queue.claimantOp .inbound).isSome = true ∧ queue.inb.queue = [queued .read]) := by unfold Rest; decide

/-- A channel presents its oldest slot that wants the bus: a read for LOCAL_PENDING, a write for LANDING. -/
theorem test_channel_claimant :
    let op (b : BufferState) := (moving (channel .running { slot b with data := [1, 2, 3, 4] } 0) (descriptor true)).claimantOp
      (.channel .a)
    let seen (b : BufferState) := (op b).map fun t => (t.owner, t.dir)
    seen .landing = some (.mover .a 0, .write) ∧ seen .localPending = some (.mover .a 0, .read) ∧
      (op .landing).map (·.data) = some [1, 2, 3, 4] ∧ (op .localPending).map (·.data) = some [] ∧
      (op .landing).map (·.address) = some 0x40000000 ∧ (op .landing).map (·.count) = some 4 ∧ op .ringPending = none := by decide

/-- An input that has risen while the pin was asserted fires at the release; one that was recorded does not. -/
theorem test_release_compares_attention :
    let e : Events := { node5.ev with
      attnInput := 5, attnRecorded := 6, routes := Vector.replicate 19 { RouteEntry.reset 0 with route := .line0 } }
    let t := after { node5 with localResetIn := true, ev := e } .localResetRelease
    t.ev.attnRecorded = 5 ∧ t.ev.pendingSet = 0x8000 := by decide

theorem witness_AttnChange :
    let s (recorded : BitVec 4) : State := { node5 with ev := { node5.ev with attnRecorded := recorded } }
    Rest (s 0) ∧ Rest (s 8) ∧ Rest { s 0 with localResetIn := true } ∧
      (s 8).ev.attnRecorded.getLsbD 3 = true ∧ (s 8).localResetIn = false ∧ (s 0).ev.attnRecorded.getLsbD 3 = false := by
  unfold Rest; decide

/-- Node 5 with code 16 routed to the ring. -/
def routed (role : Role) (r : RingRoute) (free : List Tag) : State :=
  { node5 with
    en := { node5.en with role := role }
    rt := { node5.rt with freeList := free }
    ev := { node5.ev with routes := node5.ev.routes.set 16 ⟨.ring, 9, 7, false⟩, ring := node5.ev.ring.set 16 r } }

theorem witness_RingRouteFires :
    ((routed .numbered ⟨some 4, 255⟩ []).routeEntry 16).route = .ring ∧
      ((routed .numbered ⟨some 4, 255⟩ []).ev.ring.get 16).tag.isSome = true ∧
      0 < ((routed .numbered ⟨none, 1⟩ []).ev.ring.get 16).refire ∧
      (routed .provisional ⟨none, 0⟩ [1]).en.role ≠ .numbered ∧ (routed .numbered ⟨none, 0⟩ []).rt.freeList = [] ∧
      (routed .numbered ⟨none, 0⟩ [31]).rt.freeList = 31 :: [] ∧
      ((routed .numbered ⟨none, 0⟩ [31]).ev.ring.get 16) = ⟨none, 0⟩ ∧
      ({ node5 with firings := [1, 5] } : State).firings = 1 :: [5] ∧ node5.firings = [] ∧
      ((node5.ev.routes.get 1).route = .off ∨ (node5.ev.routes.get 1).route = .line0) ∧
      (node5.ev.routes.get 5).route = .line0 := by decide

/-! ### Hypotheses met: the link -/

/-- Node 5 with another link state and its timers. -/
def linked (link : Link) (loss hold : Timer) : State :=
  { node5 with port := { node5.port with link := link, lockLossTimer := loss, lockHoldTimer := hold } }

theorem witness_LinkComesUp :
    (linked .down .stopped .stopped).port.link = .down ∧ (linked .locking .stopped (.running 100)).port.link = .locking ∧
      (linked .up .stopped .stopped).port.lockLossTimer = .stopped ∧
      (linked .up (.running 1000) .stopped).port.lockLossTimer ≠ .stopped ∧
      Rest (linked .locking .stopped (.running 100)) := by unfold Rest; decide

theorem witness_LinkLeavesUp :
    let s := linked .up (.running 1000) .stopped
    let reset : ControlOffer := .forwarded ⟨31, 1, 4, 1, .ringReset 9, []⟩
    Rest s ∧ s.port.control = none ∧ Rest (linked .up .stopped .stopped) ∧
      Rest { s with port := { s.port with control := some reset } } ∧
      Rest { s with ag := { s.ag with state := .executing, resetPending := true } } ∧
      (tracking (request .postedWrite .localPosted)).rt.allocOrder = [0] := by unfold Rest; decide

/-! ### Hypotheses met: arrivals -/

theorem witness_FramesNotReceived : Rest node5 ∧ node5.port.link = .up ∧ node5.port.loopQ = [] ∧
    Rest (linked .locking .stopped (.running 100)) ∧ (linked .locking .stopped (.running 100)).port.link ≠ .up := by
  unfold Rest; decide

theorem witness_CheckWordStep : Rest node5 ∧ node5.port.link = .up ∧
    readIn.onRing.getLast? = some (checkWord readIn.onRing.dropLast) ∧
    readIn.words.getLast? ≠ some (checkWord readIn.words.dropLast) ∧ [].getLast? ≠ some (checkWord [].dropLast) ∧
    ({ node5 with port := { node5.port with loopQ := [readIn] } } : State).port.loopQ = readIn :: [] := by
  unfold Rest; decide

/-- Frames that meet each condition of R17, each at the edge of its range, and frames that meet none. -/
theorem witness_MalformedConditions :
    (toMe (.readData ⟨1, 1⟩) 0 []).malformed = true ∧ (toMe (.readData ⟨1, 1⟩) 17 (List.replicate 17 0)).malformed = true ∧
      (toMe (.readData ⟨1, 1⟩) 2 [0]).malformed = true ∧ (toMe (.accept ⟨1, 1⟩) 1 [0]).malformed = true ∧
      ({ readIn with dest := 0 } : Frame).malformed = true ∧ ({ readIn with dest := 31 } : Frame).malformed = true ∧
      (toMe (.ringReset 4) 1 []).malformed = true ∧ ({ readIn with source := 0 } : Frame).malformed = true ∧
      ({ readIn with source := 31 } : Frame).malformed = true ∧ ({ readIn with hop := 31 } : Frame).malformed = true ∧
      (toMe (.refuse ⟨1, 1⟩ ⟨6, false, false, 0⟩) 1 []).malformed = true ∧
      (toMe (.refuse ⟨1, 1⟩ ⟨2, false, false, 0⟩) 1 []).malformed = true ∧
      (toMe (.refuse ⟨1, 1⟩ ⟨5, true, false, 0⟩) 1 []).malformed = true ∧
      (toMe (.event ⟨1, 1⟩ 7 0) 1 []).malformed = true ∧
      (⟨31, 0, 0, 1, .enumPass ⟨1, true, 1, false, false, 2, 9, 2⟩, []⟩ : Frame).malformed = true ∧
      (toMe (.event ⟨1, 1⟩ 7 1) 2 []).malformed = true ∧
      (⟨31, 0, 0, 1, .enumPass ⟨3, true, 3, false, false, 1, 9, 0x40000000⟩, []⟩ : Frame).malformed = false ∧
      ({ readIn with hop := 30, length := 16 } : Frame).malformed = false ∧
      (toMe (.refuse ⟨1, 1⟩ ⟨2, true, true, 0⟩) 1 []).malformed = false := by decide

theorem witness_MalformedKinds : (0x0FFFFFFF : Word).extractLsb' 28 4 = 0 ∧
    11 < ((0xC0000000 : Word).extractLsb' 28 4).toNat := by decide

/-- Words of a kind that does not exist, with a good check word. -/
def noKind : List Word := [0xC00C0100, checkWord [0xC00C0100]]

theorem witness_MalformedFrame :
    Rest node5 ∧ Arrival (bring (toMe (.event ⟨1, 1⟩ 7 0) 1 [])) (toMe (.event ⟨1, 1⟩ 7 0) 1 []) node5 (received node5) ∧
      (toMe (.event ⟨1, 1⟩ 7 0) 1 []).malformed = true ∧ noKind.getLast? = some (checkWord noKind.dropLast) ∧
      frameOfWords noKind.dropLast = none :=
  ⟨by unfold Rest; decide, brings _ _ (by decide), by decide, by decide, by decide⟩

/-- A frame for another node, at a hop count. -/
def through (hop : BitVec 5) : Frame := { readIn with dest := 7, hop := hop }

theorem witness_ForwardedFrame :
    Rest node5 ∧ Arrival (bring (through 29)) (through 29) node5 (received node5) ∧
      Arrival (bring (through 30)) (through 30) node5 (received node5) ∧ (through 30).malformed = false ∧
      (through 30).body.isControl = false ∧ ¬ node5.cameBack (through 30) ∧ ¬ node5.forMe (through 30) :=
  ⟨by unfold Rest; decide, brings _ _ (by decide), brings _ _ (by decide), by decide, by decide,
    by unfold State.cameBack; decide, by unfold State.forMe; decide⟩

/-- A frame of this node that has come back. -/
def cameHome (body : Body) : Frame := ⟨9, 5, 30, 1, body, []⟩

theorem witness_ReturnedFrame :
    let e := tracking (request .event (.event 16))
    let w := tracking (request .postedWrite .localPosted)
    let event := cameHome (.event ⟨0, 1⟩ 7 1)
    let posted := cameHome (.postedWrite ⟨0, 1⟩ ⟨0x5000, 0xF, 0xF⟩ 0 true)
    Rest e ∧ Rest w ∧ Arrival (bring event) event e (received e) ∧
      Arrival (bring { posted with payload := [9] }) { posted with payload := [9] } w (received w) ∧
      e.cameBack event ∧ event.body.request = some (.event, ⟨0, 1⟩) ∧
      posted.body.request = some (.postedWrite, ⟨0, 1⟩) ∧
      ((e.rt.entries.get 0).state ≠ .free ∧ (e.rt.entries.get 0).gen = 1 ∧ (e.rt.entries.get 0).dest = event.dest ∧
        (e.rt.entries.get 0).kind = .event ∧ (e.rt.entries.get 0).sentOnce = true) ∧
      Rest node5 ∧ Arrival (bring (cameHome (.accept ⟨3, 1⟩))) (cameHome (.accept ⟨3, 1⟩)) node5 (received node5) ∧
      Arrival (bring (cameHome (.event ⟨3, 1⟩ 7 1))) (cameHome (.event ⟨3, 1⟩ 7 1)) node5 (received node5) ∧
      (cameHome (.accept ⟨3, 1⟩)).body.request = none ∧
      (cameHome (.event ⟨3, 1⟩ 7 1)).body.request = some (.event, ⟨3, 1⟩) ∧
      (cameHome (.event ⟨3, 1⟩ 7 1)).malformed = false ∧ node5.cameBack (cameHome (.accept ⟨3, 1⟩)) ∧
      (node5.rt.entries.get 3).state = .free :=
  ⟨by unfold Rest; decide, by unfold Rest; decide, brings _ _ (by decide), brings _ _ (by decide),
    by unfold State.cameBack; decide, by decide, by decide, by decide, by unfold Rest; decide, brings _ _ (by decide),
    brings _ _ (by decide), by decide, by decide, by decide, by unfold State.cameBack; decide, by decide⟩

/-- Each verdict of R58 at the edges of window 0's range. -/
theorem witness_OutboundMatchVerdict :
    windows5.outboundMatch .read 0x0FFFFFFC 1 = .noWindow ∧ windows5.outboundMatch .read 0x10000000 16 = .hit 0 ∧
      windows5.outboundMatch .write 0x10000FFC 1 = .hit 0 ∧ windows5.outboundMatch .read 0x10000FFC 2 = .pastEnd ∧
      windows5.outboundMatch .write 0x10001000 1 = .notAllowed ∧ windows5.outboundMatch .read 0x10001000 1 = .hit 1 ∧
      windows5.outboundMatch .read 0x10002000 1 = .noWindow := by decide

/-- Each verdict of R60 at the edges of window 0's range. -/
theorem witness_InboundMatchVerdict :
    windows5.inboundMatch .read 3 0x1FFC 2 = .noWindow ∧ windows5.inboundMatch .read 3 0x2000 16 = .admissible 0 ∧
      windows5.inboundMatch .postedWrite 5 0x2FFC 1 = .admissible 0 ∧
      windows5.inboundMatch .read 3 0x2FFC 2 = .noWindow ∧ windows5.inboundMatch .write 3 0x2000 1 = .denied ∧
      windows5.inboundMatch .read 4 0x2000 1 = .denied := by decide

theorem witness_ReadWriteAdmission :
    Rest windows5 ∧ Rest (full windows5) ∧ Arrival (bring readIn) readIn windows5 (received windows5) ∧
      readIn.malformed = false ∧ windows5.forMe readIn ∧ readIn.body = .read ⟨7, 1⟩ ⟨0x2010, 0xF, 0x7⟩ ∧
      Arrival (bring (toMe (.write ⟨7, 1⟩ ⟨0x2010, 0xF, 0xF⟩) 1 [9])) (toMe (.write ⟨7, 1⟩ ⟨0x2010, 0xF, 0xF⟩) 1 [9])
        windows5 (received windows5) :=
  ⟨by unfold Rest; decide, by unfold Rest; decide, brings _ _ (by decide), by decide, by unfold State.forMe; decide, rfl,
    brings _ _ (by decide)⟩

theorem witness_PostedWriteOrder :
    Rest windows5 ∧ Arrival (bring (postedIn 63 true)) (postedIn 63 true) windows5 (received windows5) ∧
      Arrival (bring (postedIn 0 false)) (postedIn 0 false) windows5 (received windows5) ∧
      (postedIn 63 true).malformed = false ∧ (postedIn 0 false).malformed = false ∧ windows5.forMe (postedIn 63 true) :=
  ⟨by unfold Rest; decide, brings _ _ (by decide), brings _ _ (by decide), by decide, by decide,
    by unfold State.forMe; decide⟩

/-- The six cases of R106, at the edges of "within the 16 before e". -/
theorem test_posted_write_cases :
    let s (r : RecvEntry) : State := { windows5 with ord := { windows5.ord with recv := windows5.ord.recv.set 3 r } }
    let t (r : RecvEntry) (q : Seq) (sync : Bool) := after (s r) (bring (postedIn q sync))
    (t ⟨true, 0, some ⟨7, 1, 48⟩⟩ 48 true).ord.counters.duplicate = 1 ∧
      (t ⟨true, 0, some ⟨7, 1, 47⟩⟩ 47 true).ord.counters.syncAccepted = 1 ∧
      (t ⟨false, 0, none⟩ 0 false).ord.counters.orderRefused = 1 ∧
      (t ⟨true, 63, none⟩ 63 false).ord.recv.get 3 = ⟨true, 0, none⟩ ∧
      (t ⟨true, 0, none⟩ 48 false).ord.counters.duplicate = 1 ∧
      (t ⟨true, 0, none⟩ 47 false).ord.counters.orderRefused = 1 := by decide

theorem witness_EventInbox :
    let s (n : Nat) : State := { node5 with ev := { node5.ev with
      inbox := (List.range n).map fun i => ⟨3, BitVec.ofNat 6 i, 255⟩ } }
    let f := toMe (.event ⟨1, 1⟩ 15 1) 1 []
    Rest (s 0) ∧ Rest (s 15) ∧ Rest (s 16) ∧ Rest (full node5) ∧ f.malformed = false ∧ (s 16).forMe f ∧
      Arrival (bring f) f (s 16) (received (s 16)) ∧ (s 16).ev.inbox.length = 16 ∧
      (∃ r ∈ (s 16).ev.inbox, r.source = f.source ∧ r.number = 15) ∧
      (∀ r ∈ (s 15).ev.inbox, ¬(r.source = f.source ∧ r.number = 15)) :=
  ⟨by unfold Rest; decide, by unfold Rest; decide, by unfold Rest; decide, by unfold Rest; decide, by decide,
    by unfold State.forMe; decide, brings _ _ (by decide), by decide, by decide, by decide⟩

/-! ### Hypotheses met: management -/

/-- The agent that waits for outbound window 1 to drain. -/
def deferring : State :=
  { windows5 with
    wt := { windows5.wt with owt := windows5.wt.owt.set 1 { window 0x10001000 false with state := .retiring, inFlight := 1 } }
    ag := { windows5.ag with
      state := .deferred, deferred := some ⟨.outbound, 1, 3, 4, 0, 5⟩, leaseTimer := .held 10000
      holdTimer := .running 10000 } }

theorem witness_BusyAgentRefusesRequests : Rest deferring ∧ deferring.ag.state ≠ .idle ∧ Rest (full deferring) ∧
    requestOf (.unknownCommand 0 (ask [])) = some (ask []) ∧ requestOf (.renew (ask [])) = some (ask []) := by
  unfold Rest; decide

theorem node5_ready : AgentReady node5 := by unfold AgentReady Rest; decide

theorem windows5_ready : AgentReady windows5 := by unfold AgentReady Rest; decide

/-- A MGMT_REQUEST frame with a command code in its first word. -/
def mgmtFrame (code : Word) (operands : List Word) : Frame :=
  toMe (.mgmtRequest ⟨1, 0⟩) (BitVec.ofNat 5 (operands.length + 1)) (code :: operands)

theorem witness_AgentTestsInOrder :
    AgentReady node5 ∧ mgmtForm (.renew (ask [1])) = some (⟨4, 0, true, false⟩, ask [1]) ∧
      mgmtForm (.ringReset ⟨4, 5, 1, 0, []⟩) = some (⟨22, 0, true, true⟩, ⟨4, 5, 1, 0, []⟩) ∧
      node5.ag.lockOwner = 3 ∧ node5.en.manager = false ∧
      Arrival (bring (mgmtFrame 22 [])) (mgmtFrame 22 []) node5 (received node5) ∧
      Arrival (bring (mgmtFrame 23 [])) (mgmtFrame 23 []) node5 (received node5) ∧
      (mgmtFrame 22 []).malformed = false ∧ node5.forMe (mgmtFrame 22 []) :=
  ⟨node5_ready, by decide, by decide, by decide, by decide, brings _ _ (by decide), brings _ _ (by decide), by decide,
    by unfold State.forMe; decide⟩

/-- Operand words at the edges of the indices that exist. -/
theorem witness_ReadCommandsReply :
    AgentReady node5 ∧ ((0x10F : Word).extractLsb' 0 5).toNat = 15 ∧ (0x10F : Word).extractLsb' 8 2 = 1 ∧
      16 ≤ ((16 : Word).extractLsb' 0 5).toNat ∧ 2 ≤ ((0x200 : Word).extractLsb' 8 2).toNat ∧
      ((18 : Word).extractLsb' 0 5).toNat = 18 ∧ 19 ≤ ((19 : Word).extractLsb' 0 5).toNat ∧
      ((63 : Word).extractLsb' 0 7).toNat = 63 ∧ 64 ≤ ((64 : Word).extractLsb' 0 7).toNat ∧
      (node5.tookRequest.groupWords ((8 : Word).extractLsb' 0 8).toNat).isSome = true ∧
      9 ≤ ((9 : Word).extractLsb' 0 8).toNat ∧ (ask [0x10F]).operands.length = 1 ∧ 2 ≤ (2 : Word).toNat :=
  ⟨node5_ready, by decide⟩

theorem witness_CounterGroups : (9 ≤ 9) ∧ (node5.groupWords 8).isSome = true ∧ (node5.groupWords 0).isSome = true := by
  decide

theorem witness_LockCommands : AgentReady node5 ∧ (ask [255, 1]).wellFormed = true ∧ (ask []).wellFormed = true ∧
    node5.ag.lockOwner = (ask []).source ∧ (ask [255, 1]).operands.length = 2 :=
  ⟨node5_ready, by decide⟩

theorem witness_SetWindow : AgentReady windows5 ∧ (ask outboundWords).operands.length = 6 ∧
    windows5.ag.lockOwner = (ask outboundWords).source ∧ 16 ≤ ((0x10 : Word).extractLsb' 0 5).toNat ∧
    ((0x0F : Word).extractLsb' 0 5).toNat = 15 ∧ (0x0F : Word).extractLsb' 8 2 = 0 ∧
    (0x10F : Word).extractLsb' 8 2 = 1 ∧ 2 ≤ ((0x20F : Word).extractLsb' 8 2).toNat :=
  ⟨windows5_ready, by decide⟩

/-- The edges of the tests of R63: size exponents 12 and 30 pass, 11 and 31 fail, and so do destinations 0 and 31, a base
that is not a multiple, and an overlap. -/
theorem test_set_window_bounds :
    let r (w2 w3 : Word) := reply (after windows5 (.setWindow (ask [2, w2, w3, 0, 0x30, 0])))
    r 0x20000000 0x010C0000 = [[5]] ∧ r 0x40000000 0x1E1E0000 = [[5]] ∧ r 0x20000000 0x010B0000 = [[0x305]] ∧
      r 0 0x011F0000 = [[0x305]] ∧ r 0x20000000 0x000C0000 = [[0x305]] ∧ r 0x20000000 0x1F0C0000 = [[0x305]] ∧
      r 0x20000800 0x010C0000 = [[0x305]] ∧ r 0x10001000 0x010C0000 = [[0x505]] := by decide

theorem witness_RetireWindow :
    AgentReady windows5 ∧ (ask [1]).operands.length = 1 ∧ windows5.ag.lockOwner = (ask [1]).source ∧
      16 ≤ ((0x10 : Word).extractLsb' 0 5).toNat ∧ ((0x0F : Word).extractLsb' 0 5).toNat = 15 :=
  ⟨windows5_ready, by decide⟩

theorem witness_SetRoute : AgentReady node5 ∧ (ask [18, 3]).operands.length = 2 ∧
    node5.ag.lockOwner = (ask [18, 3]).source ∧ ((18 : Word).extractLsb' 0 5).toNat = 18 ∧
    19 ≤ ((19 : Word).extractLsb' 0 5).toNat :=
  ⟨node5_ready, by decide⟩

theorem witness_SetDescriptor : AgentReady node5 ∧ (ask pushWords).operands.length = 6 ∧
    node5.ag.lockOwner = (ask pushWords).source ∧ ((0x13F : Word).extractLsb' 0 7).toNat = 63 ∧
    64 ≤ ((0x140 : Word).extractLsb' 0 7).toNat :=
  ⟨node5_ready, by decide⟩

theorem witness_SetParametersClearCountersReadFaults : AgentReady node5 ∧ node5.ag.lockOwner = (ask []).source ∧
    (node5.tookRequest.clearGroup 8).isSome = true ∧ 9 ≤ ((9 : Word).extractLsb' 0 8).toNat :=
  ⟨node5_ready, by decide⟩

/-! ### Hypotheses met: the end of an event, the arbiter, RING_RESET -/

theorem witness_EndOfEvent :
    let claiming : State := { windows5 with ag := { windows5.ag with
      issue := { IssueSlot.reset with state := .waitingTag, dest := 9, length := 1, words := [1] } } }
    let free (l : List Tag) : State := { claiming with rt := { claiming.rt with freeList := l } }
    let held := routed .numbered ⟨none, 3⟩ [31]
    Rest windows5 ∧ windows5.ag.resetPending = false ∧ windows5.left = [] ∧ windows5.loopStep = none ∧
      windows5.waiterStep = none ∧ (∀ x ∈ [Claimant.issueSlot, .router, .mover], windows5.claimGrant x = none) ∧
      (claiming.claimGrant .issueSlot).isSome = true ∧
      (claiming.rt.lastClaimant = .mover ∧ held.rt.lastClaimant = .mover ∧ held.claimGrant .issueSlot = none) ∧
      windows5.ag.issue.state ≠ .waitingTag ∧ claiming.ag.issue.state = .waitingTag ∧
      ((free []).alloc (free []).issueRequest).isNone = true ∧ (claiming.alloc claiming.issueRequest).isSome = true ∧
      ((held.ev.ring.get 16).tag = none ∧ 0 < (held.ev.ring.get 16).refire) ∧ (held.claimGrant .router).isSome = true := by
  unfold Rest; decide

/-- Node 5 with a response and a reply that wait for a place, the response the longer, behind a looped response. -/
def waiters : State :=
  { node5 with
    port := { node5.port with responseQ := [⟨Frame.answer 5 5 (.accept ⟨0, 0⟩), .plain⟩] }
    inb := { node5.inb with held := some ⟨Frame.answer 9 5 (.accept ⟨1, 0⟩), 1⟩ }
    ag := { node5.ag with state := .executing, heldReply := some ⟨Frame.answer 9 5 (.accept ⟨2, 0⟩), .plain, 2⟩ } }

theorem witness_EndOfEvent_moves :
    let next : State := { waiters with port := { waiters.port with responseQ := [] } }
    let last : State := { next with inb := Inbound.reset }
    waiters.left = [] ∧ waiters.port.responseQ.map (·.frame.dest) = [waiters.en.ownId] ∧
      (next.left = [] ∧ next.port.responseQ.length < 8 ∧ next.inb.held.map (·.since) = some 1 ∧
        next.ag.heldReply.map (·.since) = some 2) ∧
      (last.port.responseQ = [] ∧ last.inb.held = none ∧ last.ag.heldReply.isSome = true) := by decide

/-- Node 5 whose card has sent a NODE_RESET to its own node: the issue slot's entry awaits the reply, which stands at the
head of the queue. -/
def selfResetReply : Frame := replyFrame 5 5 1 2 20 .ok []

def selfReset : State :=
  { node5 with
    port := { node5.port with responseQ := [⟨selfResetReply, .nodeReset⟩] }
    rt := { node5.rt with
      entries := node5.rt.entries.set 1
        { TrackerEntry.reset with
          state := .sent, originator := .issueSlot, kind := .mgmtRequest, dest := 5, gen := 2, sentOnce := true
          responseTimer := .running 16384 }
      freeList := (List.finRange 32).filter (· ≠ 1)
      allocOrder := [1] }
    ag := { node5.ag with
      state := .executing
      resetPending := true
      issue := { IssueSlot.reset with state := .issued, dest := 5, length := 1, words := [20] } } }

/-- The queue's head off it, and counted in LOOPED. -/
def selfResetLooped : State :=
  { selfReset with port := { selfReset.port with
    responseQ := []
    counters := { selfReset.port.counters with looped := 1 } } }

theorem witness_EndOfEvent_reset :
    selfReset.left = [] ∧ selfReset.port.responseQ.map (·.purpose) = [.nodeReset] ∧
      selfResetReply.dest = selfReset.en.ownId ∧ selfReset.ag.resetPending = true ∧
      selfResetReply.malformed = false ∧ selfResetReply.body = .mgmtReply ⟨1, 2⟩ := by decide

theorem witness_ResetCommands_order :
    let e := selfReset.rt.entries.get 1
    selfReset.ag.issue.state = .issued ∧ e.originator = .issueSlot ∧ e.kind = .mgmtRequest ∧ e.state ≠ .free ∧
      e.gen = 2 ∧ e.dest = selfResetReply.source ∧ e.sentOnce = true := by decide

/-- R125, the reply first: the slot is REPLIED with the reply OK, the reset keeps it, and MGMT_REPLY_READY and
NODE_RESET_DONE are pending. -/
theorem test_reply_before_reset :
    let t := selfResetLooped.resetAfterReply ⟨1, 2⟩ selfResetReply
    t.ag.issue.state = .replied ∧ t.ag.issue.result = some .ok ∧ t.ag.issue.reply = [20] ∧ t.ag.resetPending = false ∧
      t.rt.allocOrder = [] ∧ t.ev.pendingSet = 0x6000 := by decide +kernel

/-- R125, the reset first: the slot is EMPTY, and the reply is stale when it is classified. -/
theorem test_reset_before_reply :
    let t := State.leftReport
      { selfResetLooped with port := { selfResetLooped.port with loopQ := [selfResetReply] } } .nodeReset
    t.ag.issue.state = .empty ∧ t.ev.pendingSet = 0x4000 ∧
      (after t .loopArrival).rt.counters.staleResponse = 1 ∧ (after t .loopArrival).ag.issue.state = .empty := by
  decide +kernel

/-- The head for this node is looped, then the response that has waited longer is placed, then the reply. -/
theorem test_response_moves :
    let t := waiters.endOfEvent
    t.port.loopQ = [Frame.answer 5 5 (.accept ⟨0, 0⟩)] ∧ t.port.counters.looped = 1 ∧
      t.port.responseQ.map (·.frame.body) = [.accept ⟨1, 0⟩, .accept ⟨2, 0⟩] ∧
      t.inb.held = none ∧ t.ag.heldReply = none ∧ t.ag.state = .idle := by decide

/-- A held code gets its entry with the refire count as the frame's count, and its count is 0 again. -/
theorem test_grant_held :
    let t := (routed .numbered ⟨none, 3⟩ [31]).endOfEvent
    t.ev.ring.get 16 = ⟨some 31, 0⟩ ∧ (t.rt.entries.get 31).count = 3 ∧ t.ev.lastGranted = 16 ∧
      t.rt.lastClaimant = .router := by decide

/-- A request that waits in the offer, and the four places that frames wait in. -/
def offering (control : Option ControlOffer) (forward response offer : Nat) (forwardRun responseRun : Nat) : State :=
  let s := tracking fresh
  { s with port := { s.port with
    control := control
    forwardQ := List.replicate forward readIn
    responseQ := eight.take response
    offer := if offer = 0 then none else some presented
    forwardRun := forwardRun
    responseRun := responseRun } }

theorem witness_ArbiterChoice :
    let enumFrame : Frame := ⟨31, 5, 0, 1, .enumPass ⟨1, true, 1, false, false, 1, 0, 0x20⟩, []⟩
    Rest node5 ∧ Rest (offering (some (.own enumFrame)) 4 8 1 4 8) ∧
      Rest (offering (some (.forwarded ⟨31, 1, 4, 1, .ringReset 9, []⟩)) 4 8 1 4 8) ∧
      Rest { node5 with port := { node5.port with forwardQ := [readIn], forwardRun := 4 } } ∧
      Rest (offering none 1 8 1 3 8) ∧ Rest (offering none 4 8 1 4 8) ∧ Rest (offering none 3 8 1 4 7) ∧
      Rest (offering none 3 8 1 4 8) ∧ Rest (offering none 0 0 1 0 0) ∧
      (offering none 3 8 1 4 8).port.forwardQ.length < 4 ∧ (offering none 3 8 1 4 8).port.offer = some presented := by
  unfold Rest; decide

theorem witness_RequestOffer :
    let s := offering none 0 0 1 0 0
    let down : State := { s with port := { s.port with link := .down } }
    let own : State := { s with port := { s.port with offer := some ⟨0, { presented.frame with dest := 5 }⟩ } }
    let gone : State := { s with rt := { s.rt with entries := s.rt.entries.set 0 (request .read .localPosted) } }
    (∀ x ∈ [s, down, own, gone], x.left = [] ∧ x.port.responseQ = [] ∧ x.inb.held = none ∧ x.ag.heldReply = none ∧
        x.en.role = .numbered ∧ (x.ord.send.get 9).stalled = false) ∧
      (s.rt.entries.get 0).state = .ready ∧ (gone.rt.entries.get 0).state ≠ .ready ∧ s.port.offer = some presented ∧
      presented.frame.dest ≠ s.en.ownId ∧ s.port.link = .up ∧ down.port.link ≠ .up ∧
      own.port.offer.map (·.frame.dest) = some own.en.ownId ∧ (tracking fresh).port.offer = none ∧
      (tracking fresh).rt.allocOrder = [] ++ 0 :: [] ∧ node5.rt.allocOrder = [] ∧ fresh.length < 32 := by decide

/-- A READY entry is presented; a presented frame is withdrawn, looped or discarded as it must, and settling leaves it as
it was built. -/
theorem test_request_offer :
    let s := offering none 0 0 1 0 0
    let with' (e : TrackerEntry) (link : Link) (own : NodeId) : State :=
      State.settle { s with
        port := { s.port with link := link, offer := some ⟨0, { presented.frame with dest := own }⟩ }
        rt := { s.rt with entries := s.rt.entries.set 0 e } }
    (tracking fresh).settle.port.offer = some presented ∧ (with' { fresh with sync := true } .up 9).port.offer = some presented ∧
      (with' (request .read .localPosted) .up 9).port.offer = none ∧
      ((with' fresh .down 9).port.counters.txDiscarded = 1 ∧ ((with' fresh .down 9).rt.entries.get 0).state = .sent) ∧
      ((with' fresh .down 5).port.loopQ.length = 1 ∧ (with' fresh .down 5).port.counters.looped = 1 ∧
        ((with' fresh .down 5).rt.entries.get 0).responseTimer = .running 16384) := by decide

theorem witness_RingResets :
    let f (serial : Word) (hop : BitVec 5) : Frame := ⟨31, 1, hop, 1, .ringReset serial, []⟩
    Rest node5 ∧ Arrival (bring (f 9 29)) (f 9 29) node5 (received node5) ∧
      Arrival (bring (f 9 30)) (f 9 30) node5 (received node5) ∧ Arrival (bring (f 0 30)) (f 0 30) node5 (received node5) ∧
      (f 9 30).malformed = false ∧ node5.en.returnTimer = .stopped ∧
      Rest { manager5 with en := { manager5.en with returnTimer := .running 10000 } } :=
  ⟨by unfold Rest; decide, brings _ _ (by decide), brings _ _ (by decide), brings _ _ (by decide), by decide, by decide,
    by unfold Rest; decide⟩

/-! ### Hypotheses met: the request tracker -/

/-- A tracker entry through outbound window 1. -/
def through1 (s : State) : State :=
  { s with rt := (tracking { request .read .localPosted with window := some 1 }).rt }

/-- A completed entry of the mover asks for the next, unless the mover stands as a claim already (R77, R163). -/
theorem test_mover_asks_unless_it_stands :
    let s (second : Slot) : State :=
      let v := tracking (request .postedWrite (.mover .a 0))
      let ch := channel .running { slot .ringPending with tag := some 0 } 0
      { v with bm := { Mover.reset with chA := { ch with slots := ch.slots.set 1 second } } }
    ((s Slot.reset).completeEntry .ok [] 0).asks = [.mover .a 0] ∧
      ((s (slot .ringPending)).completeEntry .ok [] 0).asks = [] ∧ (s Slot.reset).moverWaits = false ∧
      (s (slot .ringPending)).moverWaits = true := by decide

theorem witness_FreeingAnEntry :
    ((through1 deferring).rt.entries.get 0).window = some 1 ∧
      ((through1 deferring).wt.owt.get 1).state = .retiring ∧ ((through1 deferring).wt.owt.get 1).inFlight ≤ 1 ∧
      (through1 deferring).ag.state = .deferred ∧
      (through1 deferring).ag.deferred = some ⟨.outbound, 1, 3, 4, 0, 5⟩ ∧ deferring.port.responseQ.length < 8 ∧
      ¬ (full deferring).port.responseQ.length < 8 ∧ (through1 deferring).ag.lockOwner = 3 ∧
      ((tracking (request .read .localPosted)).rt.entries.get 0).window = none := by decide

/-- What the freeing makes of the deferred retire. -/
theorem test_freeing_answers_retire :
    let t := (through1 deferring).freeEntry 0
    (t.wt.owt.get 1).state = .empty ∧ t.ag.state = .idle ∧ t.ag.leaseTimer = .running 10000 ∧ reply t = [[6]] ∧
      t.rt.freeList = allTags.tail ++ [0] := by decide

theorem witness_CompletionHandsOver :
    (tracking (request .read (.delayed 1))).firings = [] ∧
      ((tracking (request .read (.delayed 1))).rt.entries.get 0).originator = .delayed 1 ∧
      ((tracking (request .event (.event 16))).rt.entries.get 0).originator = .event 16 ∧
      ((tracking (request .event (.event 16))).ev.ring.get 16).refire = 0 ∧
      ((tracking (request .read (.mover .a 0))).rt.entries.get 0).originator = .mover .a 0 ∧
      ({ node5 with asks := [.event 16, .mover .a 0] } : State).asks = .event 16 :: [.mover .a 0] ∧ node5.asks = [] ∧
      ((routed .numbered ⟨none, 3⟩ [31]).grantHeld 16).isSome = true ∧
      ((routed .numbered ⟨none, 3⟩ []).grantHeld 16).isNone = true ∧
      ((tracking (request .mgmtRequest .issueSlot)).rt.entries.get 0).originator = .issueSlot ∧
      ((tracking (request .postedWrite .localPosted)).rt.entries.get 0).originator = .localPosted := by decide

/-- The router asks again for a code whose entry has completed, in the same event. -/
theorem test_event_asks_again :
    let s := tracking (request .event (.event 16))
    let s : State := { s with ev := (routed .numbered ⟨some 0, 3⟩ []).ev }
    let t := after s (bring (answer9 (.accept ⟨0, 1⟩) 1 []))
    t.ev.ring.get 16 = ⟨some 1, 0⟩ ∧ (t.rt.entries.get 1).count = 3 ∧ t.rt.freeList.getLast? = some 0 := by decide

/-- Answers that match entry 0 of a kind, at the edge of the retry limit. -/
theorem witness_TrackerAnswers :
    let s (k : ReqKind) (retry : Nat) := tracking { request k (.delayed 1) with retry := retry }
    let data := answer9 (.readData ⟨0, 1⟩) 2 [1, 2]
    let why (code : BitVec 4) := answer9 (.refuse ⟨0, 1⟩ ⟨code, false, false, 0⟩) 1 []
    let ok := answer9 (.accept ⟨0, 1⟩) 1 []
    Rest (s .postedWrite 6) ∧ Arrival (bring (why 1)) (why 1) (s .postedWrite 6) (received (s .postedWrite 6)) ∧
      answers .postedWrite 2 (why 1) = true ∧
      Rest (s .read 5) ∧ Rest (s .read 6) ∧ Rest (s .write 0) ∧ Arrival (bring data) data (s .read 5) (received (s .read 5)) ∧
      Arrival (bring (why 1)) (why 1) (s .read 6) (received (s .read 6)) ∧
      Arrival (bring (why 5)) (why 5) (s .read 6) (received (s .read 6)) ∧
      Arrival (bring ok) ok (s .write 0) (received (s .write 0)) ∧ (s .read 5).forMe data ∧
      answers .read 2 data = true ∧ answers .read 2 (why 1) = true ∧ answers .read 2 (why 5) = true ∧
      answers .write 2 ok = true ∧ answers .read 2 ok = false ∧ answers .read 1 data = false ∧
      (s .read 5).ag.params.retryLimit.toNat = 6 ∧ ((s .read 5).rt.entries.get 0).state = .sent :=
  ⟨by unfold Rest; decide, brings _ _ (by decide), by decide, by unfold Rest; decide, by unfold Rest; decide,
    by unfold Rest; decide, brings _ _ (by decide), brings _ _ (by decide), brings _ _ (by decide),
    brings _ _ (by decide), by unfold State.forMe; decide, by decide⟩

theorem witness_RetryTimers :
    let e := request .read (.delayed 1)
    let b := { e with state := .backoff, responseTimer := .stopped, backoffTimer := .running 8 }
    Rest (tracking { e with retry := 5 }) ∧ Rest (tracking { e with retry := 6 }) ∧ Rest (tracking b) ∧
      Rest (tracking (request .postedWrite .localPosted)) ∧ Rest (tracking (request .write (.delayed 0))) ∧
      ((tracking b).rt.entries.get 0).responseTimer = .stopped ∧ ((tracking e).rt.entries.get 0).backoffTimer = .stopped := by
  unfold Rest; decide

/-- Node 5 with two unaccepted posted writes to node 9, of sequences 63 and 0, and a READ that waits behind them. -/
def posting : State :=
  let w (q : Seq) (state : EntryState) := { request .postedWrite .localPosted with state := state, seq := q }
  let r := { request .read (.delayed 1) with state := .orderWait, sentOnce := false, responseTimer := .stopped }
  { windows5 with
    rt := { Tracker.reset with
      entries := ((Tracker.reset.entries.set 0 (w 63 .sent)).set 1 (w 0 .sent)).set 2 r
      freeList := allTags.drop 3
      allocOrder := [0, 1, 2] }
    ord := { SequenceTables.reset with send := SequenceTables.reset.send.set 9 ⟨1, 63, 2, false, false⟩ } }

/-- Node 9 refuses tag 1 for a reason. -/
def refusal (code : BitVec 4) (unsynced : Bool) (q : Seq) : Frame :=
  answer9 (.refuse ⟨1, 1⟩ ⟨code, code == 2, unsynced, q⟩) 1 []

theorem witness_PostedRunEnds :
    let s := posting
    let ok := answer9 (.accept ⟨1, 1⟩) 1 []
    let k (q : Seq) := (q - (s.ord.send.get 9).oldest).toNat
    Rest s ∧ Arrival (bring ok) ok s (received s) ∧
      Arrival (bring (refusal 3 false 0)) (refusal 3 false 0) s (received s) ∧
      Arrival (bring (refusal 2 false 1)) (refusal 2 false 1) s (received s) ∧
      Arrival (bring (refusal 2 true 0)) (refusal 2 true 0) s (received s) ∧ s.forMe ok ∧ s.rt.allocOrder.Nodup ∧
      (ok.malformed = false ∧ (refusal 3 false 0).malformed = false ∧ (refusal 2 false 1).malformed = false ∧
        (refusal 2 true 0).malformed = false) ∧
      ((s.rt.entries.get 1).state ≠ .free ∧ (s.rt.entries.get 1).gen = 1 ∧ (s.rt.entries.get 1).dest = ok.source ∧
        (s.rt.entries.get 1).sentOnce = true ∧ (s.rt.entries.get 1).kind = .postedWrite) ∧
      (k 63 = 0 ∧ k 0 = 1 ∧ k 1 = 2 ∧ k 2 = 3 ∧ (s.ord.send.get 9).count = 2) ∧ s.postedRun 9 = [0, 1] ∧
      [0].Sublist (s.postedRun 9) ∧
      (2 ∈ s.rt.allocOrder ∧ 2 ∉ s.postedRun 9 ∧ (s.rt.entries.get 2).dest = 9 ∧
        (s.rt.entries.get 2).state = .orderWait) :=
  ⟨by unfold Rest; decide, brings _ _ (by decide), brings _ _ (by decide), brings _ _ (by decide),
    brings _ _ (by decide), by unfold State.forMe; decide, by decide⟩

/-- Answers to the second write: accepted with the first, the READ goes; refused for order at the first, the second or
past both, or UNSYNCED; refused for its window. -/
theorem test_posted_write_answers :
    let states (f : Frame) := let t := after posting (bring f)
      ([0, 1, 2].map fun x => (t.rt.entries.get x).state, (t.ord.send.get 9).count)
    states (answer9 (.accept ⟨1, 1⟩) 1 []) = ([.free, .free, .ready], 0) ∧
      states (refusal 2 false 63) = ([.ready, .ready, .orderWait], 2) ∧
      states (refusal 2 false 0) = ([.free, .ready, .orderWait], 1) ∧
      states (refusal 2 false 1) = ([.free, .free, .ready], 0) ∧
      states (refusal 2 true 0) = ([.ready, .ready, .orderWait], 2) ∧
      states (refusal 4 false 0) = ([.free, .free, .ready], 0) ∧
      ((after posting (bring (refusal 2 true 0))).rt.entries.get 0).sync = true ∧
      (after posting (bring (refusal 4 false 0))).ag.faults =
        [⟨.postedLost, some 9, some 1, none, some 0, some (.result (.refused .denied))⟩] := by decide +kernel

/-- The oldest write stands in the offer when the later one is refused UNSYNCED: its frame stays there, and now carries
the sync flag. -/
theorem test_presented_write_takes_sync :
    let s : State :=
      { posting with rt := { posting.rt with entries := modAt posting.rt.entries 0 TrackerEntry.toReady } }
    let s : State := { s with port := { s.port with offer := some ⟨0, s.requestFrame 0⟩ } }
    let bodyOf (v : State) := v.port.offer.map (·.frame.body)
    [s, after s (bring (refusal 2 false 63)), after s (bring (refusal 2 true 0))].map bodyOf =
      [false, false, true].map fun sync => some (.postedWrite ⟨0, 1⟩ ⟨0, 0, 0⟩ 63 sync) := by decide +kernel

/-- What failing that run leaves: the write is lost, and its destination is sync-needed. -/
theorem test_fail_run :
    let t := (tracking (request .postedWrite .localPosted)).failRun 9 .timeout
    t.ag.faults = [⟨.postedLost, some 9, some 0, none, some 0, some (.result .timeout)⟩] ∧
      (t.ord.send.get 9).syncNeeded = true ∧ t.rt.allocOrder = [] := by decide

/-! ### Hypotheses met: enumeration -/

/-- The manager in a state of enumeration. -/
def managing (state : EnumState) (attempt : BitVec 2) (run : Option Bool) : State :=
  { manager5 with en := { manager5.en with
    state := state, attempt := attempt, runPending := run, passTimer := .running 10000 } }

theorem witness_ManagerTimers :
    let s (run : Option Bool) (t : SettleTimer) : State := { managing .settling 1 run with
      en := { (managing .settling 1 run).en with settle := t } }
    Rest (s none .stopped) ∧ Rest (s none (.running 20000)) ∧ Rest (s (some true) (.running 20000)) ∧
      (s (some true) .stopped).en.state = .settling ∧ Rest (managing .passPublish 2 none) ∧
      Rest (managing .passPublish 3 none) ∧ Rest (managing .passPublish 3 (some false)) ∧
      (managing .passPublish 3 none).en.attempt.toNat = 3 ∧ Rest (managing .done 3 none) := by unfold Rest; decide

/-- An ENUM of a serial, a pass and a taken set. -/
def enum (serial : Word) (pass : BitVec 2) (keep : Bool) (taken : IdSet) : Frame :=
  ⟨31, 1, 4, 1, .enumPass ⟨pass, keep, 1, false, false, BitVec.ofNat 5 (idCount taken), serial, taken⟩, []⟩

theorem witness_EnumReturns :
    let s := managing .passCensus 1 none
    let s0 : State := { s with en := { s.en with ownId := 0, role := .unnumbered } }
    Rest s ∧ Rest s0 ∧ Rest (managing .passPublish 1 (some true)) ∧
      Arrival (bring (enum 7 1 true 2)) (enum 7 1 true 2) s (received s) ∧
      Arrival (bring (enum 0 1 true 0x7FFFFFFE)) (enum 0 1 true 0x7FFFFFFE) s0 (received s0) ∧
      Arrival (bring (enum 0 1 true 2)) (enum 0 1 true 2) s0 (received s0) ∧ (enum 0 1 true 2).malformed = false ∧
      (enum 0 1 true 0x7FFFFFFE).malformed = false ∧ (∀ k : NodeId, k ≠ 0 → k.toNat < 2 → (2 : IdSet).getLsbD k.toNat = true) :=
  ⟨by unfold Rest; decide, by unfold Rest; decide, by unfold Rest; decide, brings _ _ (by decide),
    brings _ _ (by decide), brings _ _ (by decide), by decide, by decide, by decide⟩

/-- The lowest free id of a full set but for id 30, and of a full one. -/
theorem test_lowest_free_id : IdSet.lowestFree 0x3FFFFFFE = some 30 ∧ IdSet.lowestFree 0x7FFFFFFE = none ∧
    IdSet.lowestFree 0 = some 1 := by decide

/-- Node 5, without the manager flag, in an id mode and a role. -/
def plain (mode : IdMode) (role : Role) (id : NodeId) : State :=
  { node5 with en := { node5.en with idMode := mode, role := role, ownId := id, strappedId := if mode = .strapped then 5 else 0 } }

theorem witness_EnumPasses :
    let f (pass : BitVec 2) := enum 7 pass false 0x20
    Rest (plain .assigned .numbered 5) ∧ Rest (plain .strapped .unnumbered 0) ∧ Rest (plain .assigned .unnumbered 0) ∧
      Rest (plain .assigned .provisional 5) ∧
      Arrival (bring (f 1)) (f 1) (plain .assigned .numbered 5) (received (plain .assigned .numbered 5)) ∧
      Arrival (bring (f 2)) (f 2) (plain .assigned .unnumbered 0) (received (plain .assigned .unnumbered 0)) ∧
      Arrival (bring (f 3)) (f 3) (plain .assigned .provisional 5) (received (plain .assigned .provisional 5)) ∧
      (f 1).malformed = false ∧ (f 2).malformed = false ∧ (f 3).malformed = false ∧
      (plain .assigned .numbered 5).en.manager = false :=
  ⟨by unfold Rest; decide, by unfold Rest; decide, by unfold Rest; decide, by unfold Rest; decide,
    brings _ _ (by decide), brings _ _ (by decide), brings _ _ (by decide), by decide, by decide, by decide, by decide⟩

/-- CENSUS without keep drops an ASSIGNED id; a strapped one that is taken already is withdrawn. -/
theorem test_census :
    let t := after (plain .assigned .numbered 5) (bring (enum 7 1 false 0x20))
    let u := after (plain .strapped .numbered 5) (bring (enum 7 1 true 0x20))
    t.en.ownId = 0 ∧ t.en.role = .unnumbered ∧ t.port.forwardQ.map (·.hop) = [5] ∧
      u.en.holdWithdrawn = true ∧ u.en.ownId = 0 ∧ u.ag.faults = [{ kind := .duplicateId, node := some 5 }] := by
  decide +kernel

/-! ### Hypotheses met: the local reset, the timers, the local master -/

theorem witness_LocalReset :
    let m := carrying (moving (channel .running (slot .landing) 0) (descriptor true)) .write
    Rest windows5 ∧ Rest { windows5 with localResetIn := true } ∧ Rest (performing .postedWrite) ∧ Rest m ∧
      (performing .read).inb.current = some (transaction .inbound .read) ∧
      (performing .read).inb.queue = queued .read :: [] ∧ (m.slot .a 0).state = .landing ∧
      ¬ (full (performing .read)).port.responseQ.length < 8 := by unfold Rest; decide

theorem witness_AgentAndSlotTimers :
    let sl := { DelayedSlot.reset with state := .ready, discardTimer := .running 2048 }
    Rest { node5 with lt := { node5.lt with slots := node5.lt.slots.set 3 sl } } ∧ Rest deferring ∧
      deferring.ag.holdTimer = .running 10000 ∧ deferring.ag.leaseTimer = .held 10000 ∧
      node5.ag.leaseTimer = .running 10000 ∧ State.reset.ag.leaseTimer = .stopped ∧ Rest State.reset ∧
      Rest { windows5 with ag := { windows5.ag with leaseAction := .retireAll } } := by unfold Rest; decide

theorem witness_BusTerminations :
    let waits (n : Nat) : Transaction :=
      { transaction .inbound .write with cycleTimer := .stopped, delayTimer := .running 1, reattempts := n }
    let s (k : InboundKind) (n : Nat) : State := { performing k with inb := { (performing k).inb with
      current := some { transaction .inbound .write with reattempts := n } } }
    Rest windows5 ∧ Rest (performing .read) ∧ Rest (performing .write) ∧ Rest (performing .postedWrite) ∧
      Rest { performing .write with inb := { (performing .write).inb with current := some (waits 0) } } ∧
      Rest (s .write 31) ∧ Rest (s .write 32) ∧ (s .write 31).ag.params.localRetryLimit.toNat = 32 ∧
      (performing .read).inb.queue = queued .read :: [] ∧ (queued .read).window = 0 := by unfold Rest; decide

/-- A window drained by the last inbound request answers the RETIRE_WINDOW that waits for it. -/
theorem test_inbound_drain_answers_retire :
    let p := performing .write
    let s : State := { p with
      wt := { p.wt with iwt := p.wt.iwt.set 0 { inWindow with state := .retiring, inFlight := 1 } }
      ag := { deferring.ag with deferred := some ⟨.inbound, 0, 3, 4, 0, 5⟩ } }
    let t := after s (.terminationDone (Vector.replicate 16 0))
    (t.wt.iwt.get 0).state = .empty ∧ t.ag.state = .idle ∧
      t.port.responseQ.map (·.frame.body) = [.mgmtReply ⟨4, 0⟩, .accept ⟨7, 1⟩] := by decide

theorem witness_MoverFrames :
    let s (c : ChannelState) (b : BufferState) (completed : Nat) (next : Option (Fin 64)) :=
      moving (channel c (slot b) completed) { descriptor true with notify := true, next := next }
    let t := tracking (request .read (.mover .a 0))
    let x := carrying (s .running .landing 6 none) .write
    x.inb.current = some (transaction (.mover .a 0) .write) ∧ ((x.chan .a).slots.get 0).state = .landing ∧
      ((s .stopping .localPending 5 none).chan .a).state = .stopping ∧
      (t.rt.entries.get 0).originator = .mover .a 0 ∧
      (x.chan .a).completed + ((x.chan .a).slots.get 0).count = (x.bm.descriptors.get 2).length ∧
      ((x.chan .a).slots.get 0).detached = false ∧ ((s .running .landing 6 (some 2)).bm.descriptors.get 2).loaded = true ∧
      ((s .running .landing 6 (some 3)).bm.descriptors.get 3).loaded = false := by decide

/-- The last frame of a descriptor ends the move; a chained one starts again; an EMPTY next descriptor halts it. -/
theorem test_descriptor_ends :
    let s (next : Option (Fin 64)) := after
      (carrying (moving (channel .running (slot .landing) 6) { descriptor true with notify := true, next := next }) .write)
      (.terminationDone (Vector.replicate 16 0))
    (s none).bm.chA.state = .idle ∧ (s none).ev.pendingSet = 0x440 ∧ (s none).bm.counters.wordsMovedA = 4 ∧
      (s (some 2)).bm.chA.state = .running ∧ (s (some 2)).bm.chA.completed = 0 ∧
      (s (some 2)).rt.allocOrder.length = 3 ∧ (s (some 3)).bm.chA.state = .halted ∧
      (s (some 3)).bm.chA.halt = some ⟨2, 10, none⟩ := by decide +kernel

/-! ### Hypotheses met: the local bus, the page -/

theorem witness_OutboundAccess :
    let key (dir : Direction) : DelayedKey := delayedKey dir (access 0x10001000 1 7)
    let s (st : SlotState) (n : Nat) : State := { windows5 with lt := { windows5.lt with
      slots := Vector.ofFn fun i => if i.val < n then { DelayedSlot.reset with state := st, key := key .read } else
        DelayedSlot.reset } }
    let r : AllocRequest := { originator := .localPosted, kind := .postedWrite, dest := 9, length := 1 }
    let m : AllocRequest := { originator := .mover .a 0, kind := .read, dest := 9, length := 1 }
    let few : State := { windows5 with rt := { windows5.rt with freeList := allTags.take 4 } }
    Rest windows5 ∧ Rest { windows5 with localResetIn := true } ∧
      Rest { windows5 with en := { windows5.en with role := .provisional } } ∧ Rest (s .pending 4) ∧ Rest (s .ready 1) ∧
      windows5.outboundMatch .write 0x10000000 16 = .hit 0 ∧ (windows5.wt.owt.get 0).posted = true ∧
      windows5.outboundMatch .read 0x10001000 1 = .hit 1 ∧ ((s .pending 4).lt.slots.get 0).key = key .read ∧
      (∀ j, ((s .ready 4).lt.slots.get j).state ≠ .free) ∧ (windows5.alloc r).isSome = true ∧ few.alloc m = none ∧
      few.rt.freeList.length < 5 ∧ windows5.rt.freeList = 0 :: allTags.tail ∧ windows5.rt.allocOrder = [] ∧
      (windows5.alloc m).isSome = true ∧ 5 ≤ windows5.rt.freeList.length := by
  unfold Rest; decide

/-- A delayed read: pending, ready, and with every slot taken. -/
theorem test_outbound_access_delayed :
    let a := access 0x10001010 2 0
    let s1 := after windows5 (.outboundAccess .read a)
    let sl := s1.lt.slots.get 0
    let s2 : State := { s1 with lt := { s1.lt with
      slots := s1.lt.slots.set 0 { sl with state := .ready, data := [1, 2], discardTimer := .running 2048 } } }
    let s3 := after s2 (.outboundAccess .read a)
    s1.lt.termination = some .retry ∧ sl.state = .pending ∧ (s1.rt.entries.get 0).addr = 0x5010 ∧
      (after s1 (.outboundAccess .read a)).lt.termination = some .retry ∧ s3.lt.termination = some (.done [1, 2]) ∧
      (s3.lt.slots.get 0).state = .free ∧ (s3.wt.owt.get 1).hits = 2 := by decide

theorem witness_PageAccesses :
    let record : FaultRecord := ⟨.postedLost, some 9, some 31, none, some 0x1234567890, some (.result .timeout)⟩
    let s : State := { node5 with
      ev := { node5.ev with inbox := [⟨4, 7, 255⟩] }
      ag := { node5.ag with faults := [record], overflow := 255 }
      lt := { node5.lt with latch := some record, lastFault := some (.pastEnd, 4) } }
    s.ev.inbox = ⟨4, 7, 255⟩ :: [] ∧ s.ag.faults = record :: [] ∧ s.lt.latch = some record ∧
      s.lt.lastFault = some (.pastEnd, 4) ∧ node5.lt.latch = none ∧ node5.lt.lastFault = none ∧
    Rest node5 ∧ (node5.ev.inbox = []) ∧ (node5.ag.faults = []) ∧ Rest { node5 with localResetIn := true } ∧
      node5.ag.issue.state = .empty ∧ (node5.lt.requestArea.get 0).extractLsb' 0 5 = 0 ∧
      ((0x0F1E : Word).extractLsb' 0 5 = 30 ∧ ((0x0F1E : Word).extractLsb' 8 5).toNat = 15) ∧
      ((0x101F : Word).extractLsb' 0 5 = 31 ∧ 16 ≤ ((0x101F : Word).extractLsb' 8 5).toNat) ∧
      node5.en.manager = false ∧ manager5.en.manager = true ∧ manager5.en.resetOutstanding = false ∧
      manager5.en.ownId ≠ 0 := by unfold Rest; decide

/-- The EMPTY indications of the two heads, the identity, the ring status, and the overflow that stays. -/
theorem test_page_words :
    (node5.pageReadWord 0).2 = 0x0D7A7316 ∧ (node5.pageReadWord 1).2 = 3 ∧ (node5.pageReadWord 4).2 = 0x00000445 ∧
      (node5.pageReadWord 6).2 = 0x80000000 ∧ (node5.pageReadWord 8).2 = 0 ∧ (node5.pageReadWord 63).2 = 0 ∧
      (node5.pageReadWord 33).2 = 0 ∧ (node5.pageReadWord 50).2 = 0 := by decide

/-! ### Hypotheses met: the mover and the resets -/

theorem witness_StartStopMove :
    let s := moving Channel.reset (descriptor false)
    let run := moving (channel .running (slot .ringPending) 0) (descriptor false)
    let halted := moving (channel .halted { slot .ringPending with tag := some 5 } 0) (descriptor false)
    AgentReady s ∧ AgentReady halted ∧ AgentReady { run with rt := { run.rt with freeList := [] } } ∧
      s.ag.lockOwner = (ask [0, 2]).source ∧ (ask [0, 2]).operands.length = 2 ∧ (ask [1]).operands.length = 1 ∧
      (s.chan .a).state = .idle ∧ (s.bm.descriptors.get 2).loaded = true ∧ (s.bm.descriptors.get 63).loaded = false ∧
      ((63 : Word).extractLsb' 0 7).toNat = 63 ∧ 64 ≤ ((64 : Word).extractLsb' 0 7).toNat ∧ 2 ≤ (2 : Word).toNat ∧
      (run.chan .a).state = .running ∧ (halted.chan .a).state = .halted := by unfold AgentReady Rest; decide

/-- Both channels have a slot that asks, or neither has; the mover's grant goes to the one not served last. -/
theorem witness_StartStopMove_asks :
    let both (turn : ChannelId) : State := { node5 with bm := { Mover.reset with
      chA := channel .running (slot .ringPending) 0, chB := channel .running (slot .ringPending) 0, turn := turn } }
    ((both .a).chan .b).oldest Slot.wantsTag = some 0 ∧ ((both .a).chan .a).oldest Slot.wantsTag = some 0 ∧
      (node5.chan .a).oldest Slot.wantsTag = none ∧ (node5.chan .b).oldest Slot.wantsTag = none ∧
      ((both .b).alloc ((both .b).moverRequest .a 0)).isSome = true ∧ node5.moverGrant = none ∧
      ((both .a).moverGrant.map fun u => (u.bm.turn, u.bm.counters.framesSentB, (u.slot .b 0).tag)) =
        some (.b, 1, some 0) := by decide

/-- The last write of a PUSH whose descriptor is followed by a PULL of eight frames: the entry that has ended no longer
counts when the mover asks (R163), so all eight get theirs. -/
theorem test_mover_asks_when_freed :
    let s := moving (channel .running { slot .ringPending with tag := some 0 } 6) { descriptor false with next := some 3 }
    let s : State := { s with
      rt := (tracking (request .postedWrite (.mover .a 0))).rt
      ord := { SequenceTables.reset with send := SequenceTables.reset.send.set 9 ⟨1, 0, 1, false, false⟩ }
      bm := { s.bm with descriptors := s.bm.descriptors.set 3 { descriptor true with length := 32 } } }
    let t := after s (bring (answer9 (.accept ⟨0, 1⟩) 1 []))
    t.bm.counters.framesSentA = 8 ∧ t.rt.allocOrder.length = 8 ∧ t.rt.lastClaimant = s.rt.lastClaimant := by
  decide +kernel

/-- Frames end at a 4 KiB boundary of an incrementing side; the last takes what remains. -/
theorem test_slicing :
    let d := { descriptor true with remote := 0x6FF8 }
    let ch := Channel.startFrames
      { Channel.reset with state := .running, current := some 2, remaining := 10, remote := 0x6FF8, localAddr := 0x40000000 } d 4
    ((List.finRange 8).map fun i => (ch.slots.get i).count) = [2, 4, 4, 0, 0, 0, 0, 0] ∧ ch.remaining = 0 ∧
      ch.remote = 0x7020 ∧ (ch.slots.get 1).offset = 2 ∧ (ch.slots.get 1).remote = 0x7000 := by decide +kernel

theorem witness_ResetCommands :
    let settled : State := { manager5 with en := { manager5.en with settle := .expired } }
    let out : State := { manager5 with en := { manager5.en with resetOutstanding := true } }
    let noId : State := { manager5 with en := { manager5.en with ownId := 0, role := .unnumbered } }
    AgentReady node5 ∧ AgentReady manager5 ∧ AgentReady settled ∧ AgentReady out ∧ AgentReady noId ∧
      noId.en.ownId = 0 ∧ noId.en.manager = true ∧ noId.ag.lockOwner = (ask []).source ∧ manager5.en.ownId ≠ 0 ∧
      manager5.en.manager = true ∧ manager5.ag.lockOwner = (ask [1]).source ∧ (ask [1]).operands.length = 1 ∧
      settled.en.settle = .expired ∧ settled.en.state = .done ∧ manager5.en.settle ≠ .expired := by
  unfold AgentReady Rest; decide

/-- An outstanding RING_RESET lapses where its sender has lost its id. -/
theorem test_ring_reset_lapses :
    let s : State := { manager5 with en := { manager5.en with ownId := 0, role := .unnumbered, resetOutstanding := true } }
    let t := s.leftReport .ringReset
    t.en.resetOutstanding = false ∧ t.port.control = none := by decide

/-- A NODE reset whose reply leaves with the queues comes before the firings of LINK_DOWN and its record (R170). -/
theorem test_link_loss_takes_node_reset_first :
    let s := linked .up (.running 1000) .stopped
    let s : State := { s with
      port := { s.port with responseQ := [⟨Frame.answer 3 5 (.mgmtReply ⟨1, 0⟩), .nodeReset⟩] }
      ag := { s.ag with state := .executing, resetPending := true }
      ev := { s.ev with routes := s.ev.routes.set 1 ⟨.ring, 9, 7, false⟩ } }
    let t := after s .lockLossTimerExpiry
    t.ag.resetPending = false ∧ (t.ev.ring.get 1).tag.isSome = true ∧ t.rt.allocOrder.length = 1 := by decide +kernel

/-- The NODE reset: posted writes in the inbound queue are recorded, and NODE_RESET_DONE fires. -/
theorem test_perform_node_reset :
    let s : State := { performing .postedWrite with ag := { node5.ag with resetPending := true, state := .executing } }
    let t := s.leftReport .nodeReset
    t.inb.queue = [] ∧ t.inb.current = none ∧ t.ag.state = .idle ∧ t.ag.resetPending = false ∧
      t.ag.faults.map (·.kind) = [.postedDiscarded] ∧ t.ev.pendingSet = 0x4020 ∧ t.ag.lockOwner = 3 := by decide +kernel

end Sys2Proof.Tests
end

section
/-! SUPPORT. What a whole command and a step keep; from it, that the ids stay legal at every step (O7). -/

namespace Sys2Proof.Machine

variable {s t : State}

/-! ### What an answer keeps -/

/-- Whatever state the answer goes on with, it keeps what `s` has. -/
def AnswerKeeps (s : State) (a : Answer) : Prop := ∀ t, a = .next t → Keeps s t

namespace AnswerKeeps

variable {f : State → State}

theorem next (h : Keeps s t) : AnswerKeeps s (.next t) := by
  rintro _ ⟨⟩
  exact h

/-- A command without an effect keeps everything. -/
theorem idle : AnswerKeeps s (.next s) := next (Keeps.refl s)

/-- An event keeps what its effect keeps: beginning and ending it keep the rest. -/
theorem event (hf : ∀ {v}, Keeps s v → Keeps s (f v)) : AnswerKeeps s (s.event f) :=
  next (hf (Keeps.refl s).begin).endOfEvent

/-- An expiry is the event, or nothing when the timer is stopped. -/
theorem expiry {x : Timer} (hf : ∀ {v}, Keeps s v → Keeps s (f v)) : AnswerKeeps s (s.expiry x f) := by
  cases x with
  | stopped => exact idle
  | running n => exact event hf

end AnswerKeeps

/-! ### Commands other than the pin's and the power's -/

/-- Each known management command is taken as a request frame with its command code is (R137, R179). -/
theorem exec_eq_takeMgmt {i : Instr} {form : CommandForm} {q : MgmtRequest} (hm : mgmtForm i = some (form, q))
    (s : State) : exec i s = s.event fun v => v.takeMgmt form.code q := by
  cases i <;> simp only [mgmtForm, reduceCtorEq, Option.some.injEq, Prod.mk.injEq] at hm
  all_goals (obtain ⟨rfl, rfl⟩ := hm; rfl)

/-- A known management command keeps what the agent's taking of a request keeps. -/
theorem exec_mgmt_keeps {i : Instr} {p : CommandForm × MgmtRequest} (hm : mgmtForm i = some p) (s : State) :
    AnswerKeeps s (exec i s) := by
  rw [exec_eq_takeMgmt hm s]
  exact .event Keeps.takeMgmt

theorem execRxFrame_keeps (ws : List Word) (how : Reception) (s : State) : AnswerKeeps s (execRxFrame ws how s) := by
  unfold execRxFrame
  split
  · exact .event Keeps.arrive
  · exact .idle

theorem execLoopArrival_keeps (s : State) : AnswerKeeps s (execLoopArrival s) := by
  unfold execLoopArrival
  split
  · exact .idle
  · exact .event Keeps.loopIn

theorem execArbiterChoice_keeps (s : State) : AnswerKeeps s (execArbiterChoice s) := by
  unfold execArbiterChoice
  split
  · exact .event Keeps.arbitrate
  · exact .idle

theorem execSettleTimerExpiry_keeps (s : State) : AnswerKeeps s (execSettleTimerExpiry s) := by
  unfold execSettleTimerExpiry
  split
  · exact .idle
  · exact .idle
  · exact .event Keeps.settleExpired

theorem execDiscardTimerExpiry_keeps (x : Fin 4) (s : State) : AnswerKeeps s (execDiscardTimerExpiry x s) := by
  unfold execDiscardTimerExpiry
  split
  · exact .idle
  · exact .next (Keeps.refl s).discardExpired

theorem execLeaseTimerExpiry_keeps (s : State) : AnswerKeeps s (execLeaseTimerExpiry s) := by
  unfold execLeaseTimerExpiry
  split
  · exact .idle
  · exact .idle
  · exact .event Keeps.leaseExpired

theorem execHoldTimerExpiry_keeps (s : State) : AnswerKeeps s (execHoldTimerExpiry s) := by
  unfold execHoldTimerExpiry
  split
  · exact .idle
  · exact .next (Keeps.refl s).modAg

theorem execTerminationDone_keeps (data : Table Word 16) (s : State) :
    AnswerKeeps s (execTerminationDone data s) := by
  unfold execTerminationDone
  split
  · exact .event Keeps.transactionDone
  · exact .idle

theorem execTerminationFault_keeps (s : State) : AnswerKeeps s (execTerminationFault s) := by
  unfold execTerminationFault
  split
  · exact .event Keeps.transactionFault
  · exact .idle

theorem execTerminationRetry_keeps (s : State) : AnswerKeeps s (execTerminationRetry s) := by
  unfold execTerminationRetry
  split
  · exact .event Keeps.attemptRetried
  · exact .idle

theorem execReattemptDelayExpiry_keeps (s : State) : AnswerKeeps s (execReattemptDelayExpiry s) := by
  unfold execReattemptDelayExpiry
  split
  · exact .next (Keeps.refl s).reattempt
  · exact .idle

theorem execOutboundAccess_keeps (d : Direction) (a : Access) (s : State) :
    AnswerKeeps s (execOutboundAccess d a s) := by
  unfold execOutboundAccess
  split
  · exact .next (Keeps.refl s).terminate
  · exact .event Keeps.outbound

theorem execPageWrite_keeps (a : Access) (s : State) : AnswerKeeps s (execPageWrite a s) := .event Keeps.pageWrite

theorem execAttnChange_keeps (x : Fin 4) (level : Bool) (s : State) : AnswerKeeps s (execAttnChange x level s) :=
  .event Keeps.attnLevel

theorem execUnknownCommand_keeps (code : BitVec 8) (q : MgmtRequest) (s : State) :
    AnswerKeeps s (execUnknownCommand code q s) := .event Keeps.unknownCommand

/-- Every command but a POWER-ON reset and the two of the reset pin keeps the invariants, the queue, the serial, the
straps and the pin. -/
theorem exec_keeps {i : Instr} (hp : ∀ st, i ≠ .powerOnReset st) (hl : i ≠ .localReset)
    (hr : i ≠ .localResetRelease) (s : State) : AnswerKeeps s (exec i s) := by
  cases i with
  | powerOnReset st => exact absurd rfl (hp st)
  | localReset => exact absurd rfl hl
  | localResetRelease => exact absurd rfl hr
  | lockAcquired => exact .next (Keeps.refl s).lockAcquired
  | lockLost => exact .next (Keeps.refl s).lockLost
  | lockHoldTimerExpiry => exact .expiry Keeps.enterUp
  | lockLossTimerExpiry => exact .expiry Keeps.leaveUp
  | rxFrame ws how => exact execRxFrame_keeps ws how s
  | loopArrival => exact execLoopArrival_keeps s
  | arbiterChoice => exact execArbiterChoice_keeps s
  | responseTimerExpiry x => exact .expiry Keeps.responseExpired
  | backoffTimerExpiry x => exact .expiry Keeps.modEntry
  | settleTimerExpiry => exact execSettleTimerExpiry_keeps s
  | passTimerExpiry => exact .expiry Keeps.passTimerExpired
  | returnTimerExpiry => exact .expiry Keeps.performRingReset
  | discardTimerExpiry x => exact execDiscardTimerExpiry_keeps x s
  | leaseTimerExpiry => exact execLeaseTimerExpiry_keeps s
  | holdTimerExpiry => exact execHoldTimerExpiry_keeps s
  | terminationDone data => exact execTerminationDone_keeps data s
  | terminationFault => exact execTerminationFault_keeps s
  | terminationRetry => exact execTerminationRetry_keeps s
  | reattemptDelayExpiry => exact execReattemptDelayExpiry_keeps s
  | cycleTimerExpiry => exact execTerminationFault_keeps s
  | attnChange x level => exact execAttnChange_keeps x level s
  | outboundAccess d a => exact execOutboundAccess_keeps d a s
  | eventInboxHeadRead a | faultHeadRead a => exact .next (Keeps.refl s).pageRead
  | pendingEventClear a | lastLocalFaultClear a | issueTrigger a | ringResetRequest a | pageWrite a =>
    exact execPageWrite_keeps a s
  | identify q | claim q | release q | renew q | setWindow q | retireWindow q | readWindow q | setRoute q
  | readRoute q | setDescriptor q | readDescriptor q | startMove q | stopMove q | readChannel q | setParameters q
  | readParameters q | readCounters q | clearCounters q | readFaults q | nodeReset q | renumber q | ringReset q =>
    exact exec_mgmt_keeps rfl s
  | unknownCommand code q => exact execUnknownCommand_keeps code q s

/-! ### The reset pin and the power -/

/-- A LOCAL reset keeps what the state with the pin asserted has. -/
theorem execLocalReset_keeps (s : State) : AnswerKeeps { s with localResetIn := true } (execLocalReset s) := by
  unfold execLocalReset
  split
  · rename_i hpin
    rw [← hpin]
    exact .idle
  · exact .next (Keeps.refl _).begin.performLocalReset.endOfEvent

/-- The release of the reset pin keeps what the state with the pin released has. -/
theorem execLocalResetRelease_keeps (s : State) :
    AnswerKeeps { s with localResetIn := false } (execLocalResetRelease s) := by
  unfold execLocalResetRelease
  split
  · exact .next (Keeps.refl _).begin.compareInputs.endOfEvent
  · rename_i hpin
    rw [← Bool.eq_false_of_not_eq_true hpin]
    exact .idle

/-- The state that a POWER-ON reset makes, before it records a strap fault and compares the attention inputs (R36). -/
def State.poweredOn (s : State) (st : Straps) : State :=
  { State.reset with
    serial := s.serial
    localResetIn := s.localResetIn
    en := Enumeration.powerOn st
    ev := { Events.reset with attnInput := s.ev.attnInput }
    now := s.now
    pending := s.pending }

theorem performPowerOn_eq (s : State) (st : Straps) :
    s.performPowerOn st =
      (if st.fault then (s.poweredOn st).recordFault (bareRecord .strapFault) else s.poweredOn st).compareInputs := rfl

/-- A POWER-ON reset keeps what the state that it makes has. -/
theorem execPowerOnReset_keeps (st : Straps) (s : State) :
    AnswerKeeps (s.poweredOn st) (execPowerOnReset st s) := by
  have made : Keeps (s.poweredOn st) (s.begin.poweredOn st) := (Keeps.refl (s.poweredOn st)).begin
  refine .next (Keeps.endOfEvent ?_)
  change Keeps _ (s.begin.performPowerOn st)
  rw [performPowerOn_eq]
  split
  · exact made.recordFault.compareInputs
  · exact made.compareInputs

/-- Enumeration after a POWER-ON reset is legal: a STRAPPED node takes its strapped id, which is 1 to 30, and any other
is UNNUMBERED with own id 0; only the manager is SETTLING with a run pending (R36). -/
theorem IdsLegal.powerOn (st : Straps) : IdsLegal (Enumeration.powerOn st) := by
  have manager : st.mgr = false →
      (Enumeration.powerOn st).state = .idle ∧ (Enumeration.powerOn st).runPending = none := by
    intro hm
    simp [Enumeration.powerOn, Enumeration.startSet, hm]
  unfold IdsLegal
  cases hs : st.strapped with
  | true =>
    have hnode : isNode st.id = true := by
      simp only [Straps.strapped, Bool.and_eq_true] at hs
      exact hs.2
    have hid := isNode_iff_ids.1 hnode
    simp only [Enumeration.powerOn, Enumeration.startSet, hs, if_true] at manager ⊢
    exact ⟨⟨fun h => absurd h hid.1, fun h => by cases h⟩, hid.2, fun _ => hnode, manager⟩
  | false =>
    simp only [Enumeration.powerOn, Enumeration.startSet, hs, Bool.false_eq_true, if_false] at manager ⊢
    exact ⟨trivial, by decide, (fun h => by cases h), manager⟩

/-! ### A step -/

/-- What a step's next state keeps: it is the state itself, or one in which the command has first moved the reset pin or
made the part new at a POWER-ON reset. -/
theorem step_keeps (h : step s = .next t) :
    t = s ∨ ∃ c rest, s.pending = c :: rest ∧
      ((∃ st, c = .powerOnReset st ∧ Keeps ({ s with pending := rest }.poweredOn st) t) ∨
        ∃ pin, Keeps { s with pending := rest, localResetIn := pin } t) := by
  unfold step at h
  split at h
  · cases h
    exact .inl rfl
  · rename_i c rest hq
    refine .inr ⟨c, rest, hq, ?_⟩
    by_cases hp : ∃ st, c = .powerOnReset st
    · obtain ⟨st, rfl⟩ := hp
      exact .inl ⟨st, rfl, execPowerOnReset_keeps st _ t h⟩
    · refine .inr ?_
      by_cases hl : c = .localReset
      · subst hl
        exact ⟨true, execLocalReset_keeps _ t h⟩
      · by_cases hr : c = .localResetRelease
        · subst hr
          exact ⟨false, execLocalResetRelease_keeps _ t h⟩
        · exact ⟨s.localResetIn, exec_keeps (fun st e => hp ⟨st, e⟩) hl hr _ t h⟩

/-- Settles O7: no operation breaks the legality of the ids (`Keeps.ids`), and a POWER-ON reset makes legal ones. -/
theorem stepKeepsIdsLegal : Obligations.StepKeepsIdsLegal := by
  intro s t hs h
  obtain rfl | ⟨c, rest, -, ⟨st, -, k⟩ | ⟨pin, k⟩⟩ := step_keeps h
  · exact hs
  · exact k.ids (IdsLegal.powerOn st)
  · exact k.ids hs

end Sys2Proof.Machine
end

section
/-! SUPPORT. Which frames are malformed (R17): the test of the model as the thirteen conditions (O21). -/

namespace Sys2Proof.Machine

theorem Body.isControl_iff (b : Body) :
    b.isControl = true ↔ (∃ e, b = .enumPass e) ∨ ∃ serial, b = .ringReset serial := by
  cases b <;> simp [Body.isControl]

theorem Body.isEnum_iff (b : Body) : b.isEnum = true ↔ ∃ e, b = .enumPass e := by
  cases b <;> simp [Body.isEnum]

/-- The model counts the ids of a set as R177 numbers them. -/
theorem IdSet.size_eq_idCount (set : IdSet) : IdSet.size set = idCount set := by
  unfold IdSet.size idCount
  rw [← List.map_coe_finRange_eq_range, List.countP_map, List.countP_eq_length_filter]
  rfl

/-- Two tests differ when one of them holds alone. -/
theorem beq_ne_iff {α : Type} [DecidableEq α] {a b : α} {q : Bool} :
    (a == b) ≠ q ↔ (a = b ∧ q = false) ∨ (q = true ∧ a ≠ b) := by
  cases q <;> simp

/-- Condition 10 of R17: the code is not 1 to 5, or the expected field is there without RETRY_ORDER or missing
with it. -/
theorem Body.malformed_refuse (ref : Ref) (why : RefuseFields) :
    (Body.refuse ref why).malformed = true ↔
      ¬(1 ≤ why.code.toNat ∧ why.code.toNat ≤ 5) ∨ (why.code = 2 ∧ why.present = false) ∨
        (why.code ≠ 2 ∧ why.present = true) := by
  have hcode : why.code = 0 ∨ 5 < why.code.toNat ↔ ¬(1 ≤ why.code.toNat ∧ why.code.toNat ≤ 5) := by bv_omega
  simp only [Body.malformed, Bool.or_eq_true, beq_iff_eq, decide_eq_true_eq, bne_iff_ne, beq_ne_iff, hcode, and_comm]

/-- Condition 12 of R17, with the count as R177 numbers the ids of the set. -/
theorem Body.malformed_enumPass (e : EnumFields) :
    (Body.enumPass e).malformed = true ↔
      e.pass = 0 ∨ e.attempt = 0 ∨ e.taken.getLsbD 0 = true ∨ e.taken.getLsbD 31 = true ∨
        e.count.toNat ≠ idCount e.taken := by
  simp [Body.malformed, IdSet.valid, IdSet.size_eq_idCount, or_assoc]

/-- Conditions 10, 11 and 12 of R17: each is about one kind. -/
theorem Body.malformed_iff (b : Body) :
    b.malformed = true ↔
      (∃ ref why, b = .refuse ref why ∧
        (¬(1 ≤ why.code.toNat ∧ why.code.toNat ≤ 5) ∨ (why.code = 2 ∧ why.present = false) ∨
          (why.code ≠ 2 ∧ why.present = true))) ∨
      (∃ ref n, b = .event ref n 0) ∨
      ∃ e, b = .enumPass e ∧
        (e.pass = 0 ∨ e.attempt = 0 ∨ e.taken.getLsbD 0 = true ∨ e.taken.getLsbD 31 = true ∨
          e.count.toNat ≠ idCount e.taken) := by
  cases b with
  | refuse ref why => rw [Body.malformed_refuse]; simp
  | event ref n count => simp [Body.malformed]
  | enumPass e => rw [Body.malformed_enumPass]; simp
  | _ => simp [Body.malformed]

/-- The malformed test, condition by condition (R17), in the model's own terms. -/
theorem Frame.malformed_iff (f : Frame) :
    f.malformed = true ↔
      (f.length.toNat = 0 ∨ 16 < f.length.toNat) ∨
      f.payload.length ≠ f.body.payloadCount f.length.toNat ∨
      f.dest = noNode ∨
      (f.dest = allNodes ∧ f.body.isControl = false) ∨
      (f.body.isControl = true ∧ f.dest ≠ allNodes) ∨
      (f.source = noNode ∧ f.body.isEnum = false) ∨
      f.source = allNodes ∨
      30 < f.hop.toNat ∨
      f.body.malformed = true ∨
      (f.body.lengthIsOne = true ∧ f.length.toNat ≠ 1) := by
  have hone : (f.length != 1) = true ↔ f.length.toNat ≠ 1 := by
    rw [bne_iff_ne, ne_eq, ← BitVec.toNat_inj]; rfl
  simp only [Frame.malformed, Bool.or_eq_true, Bool.and_eq_true, beq_ne_iff, hone, beq_iff_eq, bne_iff_ne,
    Bool.not_eq_true', decide_eq_true_eq, or_assoc]

/-- Condition 1 of R17: a kind code that is not 1 to 11 names no kind. -/
theorem bodyOfWords_noKind {w : Word} (hw : w.extractLsb' 28 4 = 0 ∨ 11 < (w.extractLsb' 28 4).toNat)
    (ws : List Word) : bodyOfWords w ws = none := by
  have hcode : (w.extractLsb' 28 4).toNat = 0 ∨ 11 < (w.extractLsb' 28 4).toNat := hw.imp_left (congrArg BitVec.toNat)
  unfold bodyOfWords
  split
  case h_12 => rfl
  all_goals omega

theorem frameOfWords_noKind {w : Word} (hw : w.extractLsb' 28 4 = 0 ∨ 11 < (w.extractLsb' 28 4).toNat)
    (ws : List Word) : frameOfWords (w :: ws) = none := by
  simp [frameOfWords, bodyOfWords_noKind hw]

/-- Settles O21: the model's test is the disjunction of the conditions, with its tables of kinds written out. -/
theorem malformedConditions : Obligations.MalformedConditions := by
  refine ⟨fun b => ⟨b.isControl_iff, b.isEnum_iff⟩, fun f => ?_, fun w ws hw => frameOfWords_noKind hw ws⟩
  simp only [f.malformed_iff, f.body.malformed_iff, or_assoc]
  congr!
  · cases f.body <;> rfl
  · cases f.body <;> simp [Body.lengthIsOne]

end Sys2Proof.Machine
end

section
/-! SUPPORT. Every step leaves the part at rest and its queues within bounds (O4, O5), and the state after reset does
(O9, O10). -/

namespace Sys2Proof.Machine

variable {s : State}

/-! ### Answers at rest -/

/-- Whatever state the answer goes on with is at rest. -/
def AnswerRests (a : Answer) : Prop := ∀ t, a = .next t → Rest t

namespace AnswerRests

theorem next {t : State} (h : Rest t) : AnswerRests (.next t) := by
  rintro _ ⟨⟩
  exact h

/-- Every event ends at rest. -/
theorem event (s : State) (f : State → State) : AnswerRests (s.event f) := next (endOfEvent_rest _)

theorem expiry (h : Rest s) (x : Timer) (f : State → State) : AnswerRests (s.expiry x f) := by
  cases x with
  | stopped => exact next h
  | running n => exact event s f

/-- An answer that depends on a test rests when it does in either case. -/
theorem ite {p : Prop} [Decidable p] {a b : Answer} (ha : AnswerRests a) (hb : AnswerRests b) :
    AnswerRests (if p then a else b) := by
  split
  · exact ha
  · exact hb

end AnswerRests

/-! ### Commands that answer their next state directly -/

theorem Rest.lockAcquired (h : Rest s) : Rest s.lockAcquired := by
  unfold State.lockAcquired
  split
  · rename_i hl
    exact h.linkUp (.inl (by rw [hl]; decide))
  · exact h
  · exact h.of_same {}

theorem Rest.lockLost (h : Rest s) : Rest s.lockLost := by
  unfold State.lockLost
  split
  · exact h
  · rename_i hl
    exact h.linkUp (.inl (by rw [hl]; decide))
  · exact h.of_same {}

theorem Rest.terminate (h : Rest s) (x : Termination) : Rest (s.terminate x) := h.of_same {}

theorem Rest.readInbox (h : Rest s) : Rest s.readInbox.1 := by
  unfold State.readInbox
  split
  · exact h
  · exact h.of_same {}

theorem Rest.readFaultHead (h : Rest s) : Rest s.readFaultHead.1 := by
  unfold State.readFaultHead
  split
  · exact h.of_same {}
  · exact h.of_same {}

theorem Rest.pageReadWord (h : Rest s) (n : Nat) : Rest (s.pageReadWord n).1 := by
  unfold State.pageReadWord
  split
  · exact h.readInbox
  · split
    · exact h.readFaultHead
    · exact h

theorem Rest.pageReadSteps (a : Access) (l : List Nat) (ws : List Word) (h : Rest s) :
    Rest (l.foldl (pageReadStep a) (s, ws)).1 := by
  induction l generalizing s ws with
  | nil => exact h
  | cons i l ih =>
    rw [List.foldl_cons]
    unfold pageReadStep
    split
    · exact ih _ h
    · exact ih _ (h.pageReadWord _)

theorem Rest.pageRead (h : Rest s) (a : Access) : Rest (s.pageRead a) := by
  unfold State.pageRead
  split
  · exact h.terminate _
  · exact (h.pageReadSteps a _ []).terminate _

theorem Rest.discardExpired (h : Rest s) (i : Fin 4) : Rest (s.discardExpired i) := h.of_same {}

theorem Rest.holdExpired (h : Rest s) : Rest (s.modAg Agent.holdExpired) := h.of_same {}

/-- A local master with a transaction takes no claimant (R130). -/
theorem busChoice_current {tx : Transaction} (h : s.inb.current = some tx) : s.busChoice = none := by
  unfold State.busChoice Inbound.idle
  simp [h]

/-- The master still has its transaction when its next attempt begins. -/
theorem Rest.reattempt (h : Rest s) (tx : Transaction) : Rest (s.reattempt tx) := by
  obtain ⟨hf, hl, hc, hs, ha⟩ := h.ready.of_same (u := s.reattempt tx) {}
  exact ⟨hf, hl, hc, hs, busChoice_current rfl, ha⟩

/-! ### Every command -/

theorem execLoopArrival_rests (h : Rest s) : AnswerRests (execLoopArrival s) := by
  unfold execLoopArrival
  split
  · exact .next h
  · exact .event _ _

theorem execSettleTimerExpiry_rests (h : Rest s) : AnswerRests (execSettleTimerExpiry s) := by
  unfold execSettleTimerExpiry
  split
  · exact .next h
  · exact .next h
  · exact .event _ _

theorem execDiscardTimerExpiry_rests (x : Fin 4) (h : Rest s) : AnswerRests (execDiscardTimerExpiry x s) := by
  unfold execDiscardTimerExpiry
  split
  · exact .next h
  · exact .next (h.discardExpired x)

theorem execLeaseTimerExpiry_rests (h : Rest s) : AnswerRests (execLeaseTimerExpiry s) := by
  unfold execLeaseTimerExpiry
  split
  · exact .next h
  · exact .next h
  · exact .event _ _

theorem execHoldTimerExpiry_rests (h : Rest s) : AnswerRests (execHoldTimerExpiry s) := by
  unfold execHoldTimerExpiry
  split
  · exact .next h
  · exact .next h.holdExpired

theorem execTerminationDone_rests (data : Table Word 16) (h : Rest s) : AnswerRests (execTerminationDone data s) := by
  unfold execTerminationDone
  split
  · exact .event _ _
  · exact .next h

theorem execTerminationFault_rests (h : Rest s) : AnswerRests (execTerminationFault s) := by
  unfold execTerminationFault
  split
  · exact .event _ _
  · exact .next h

theorem execTerminationRetry_rests (h : Rest s) : AnswerRests (execTerminationRetry s) := by
  unfold execTerminationRetry
  split
  · exact .event _ _
  · exact .next h

theorem execReattemptDelayExpiry_rests (h : Rest s) : AnswerRests (execReattemptDelayExpiry s) := by
  unfold execReattemptDelayExpiry
  split
  · exact .next (h.reattempt _)
  · exact .next h

theorem exec_mgmt_rests {i : Instr} {p : CommandForm × MgmtRequest} (hm : mgmtForm i = some p) (s : State) :
    AnswerRests (exec i s) := by
  rw [exec_eq_takeMgmt hm s]
  exact .event _ _

/-- A command taken at rest leaves the part at rest: an event settles, and a command that answers directly changes
nothing that rest reads. -/
theorem exec_rests (i : Instr) (h : Rest s) : AnswerRests (exec i s) := by
  cases i with
  | powerOnReset st => exact .event s fun v => v.performPowerOn st
  | localReset =>
    exact .ite (.next h) (.event s fun v => State.performLocalReset { v with localResetIn := true })
  | localResetRelease =>
    exact .ite (.event s fun v => State.compareInputs { v with localResetIn := false }) (.next h)
  | lockAcquired => exact .next h.lockAcquired
  | lockLost => exact .next h.lockLost
  | lockHoldTimerExpiry => exact .expiry h _ State.enterUp
  | lockLossTimerExpiry => exact .expiry h _ State.leaveUp
  | responseTimerExpiry x => exact .expiry h _ fun v => v.responseExpired x
  | backoffTimerExpiry x => exact .expiry h _ fun v => v.modEntry x TrackerEntry.toReady
  | passTimerExpiry => exact .expiry h _ State.passTimerExpired
  | returnTimerExpiry => exact .expiry h _ State.performRingReset
  | rxFrame ws how => exact .ite (.event s fun v => v.arrive ws how) (.next h)
  | loopArrival => exact execLoopArrival_rests h
  | arbiterChoice => exact .ite (.event s State.arbitrate) (.next h)
  | settleTimerExpiry => exact execSettleTimerExpiry_rests h
  | discardTimerExpiry x => exact execDiscardTimerExpiry_rests x h
  | leaseTimerExpiry => exact execLeaseTimerExpiry_rests h
  | holdTimerExpiry => exact execHoldTimerExpiry_rests h
  | terminationDone data => exact execTerminationDone_rests data h
  | terminationFault | cycleTimerExpiry => exact execTerminationFault_rests h
  | terminationRetry => exact execTerminationRetry_rests h
  | reattemptDelayExpiry => exact execReattemptDelayExpiry_rests h
  | attnChange x level => exact .event s fun v => v.attnLevel x level
  | outboundAccess d a => exact .ite (.next (h.terminate _)) (.event s fun v => v.outbound d a)
  | eventInboxHeadRead a | faultHeadRead a => exact .next (h.pageRead a)
  | pendingEventClear a | lastLocalFaultClear a | issueTrigger a | ringResetRequest a | pageWrite a =>
    exact .event s fun v => v.pageWrite a
  | identify q | claim q | release q | renew q | setWindow q | retireWindow q | readWindow q | setRoute q
  | readRoute q | setDescriptor q | readDescriptor q | startMove q | stopMove q | readChannel q | setParameters q
  | readParameters q | readCounters q | clearCounters q | readFaults q | nodeReset q | renumber q | ringReset q =>
    exact exec_mgmt_rests rfl s
  | unknownCommand code q => exact .event s fun v => v.unknownCommand code q

/-- Settles O4: the front command is taken from a state that differs from the one at rest in its queue alone. -/
theorem stepKeepsRest : Obligations.StepKeepsRest := by
  intro s t hs h
  unfold step at h
  split at h
  · cases h
    exact hs
  · exact exec_rests _ (hs.of_same {}) t h

/-! ### Bounds -/

/-- After a POWER-ON reset the queues are empty and the run counts 0. -/
theorem Bounded.reset : Bounded State.reset := by
  simp [Bounded, State.reset, RingPort.reset, Inbound.reset, Agent.reset, Events.reset]

/-- The straps change nothing that is bounded. -/
theorem Bounded.poweredOn (s : State) (st : Straps) : Bounded (s.poweredOn st) := Bounded.reset

/-- Settles O5: no operation exceeds the bounds (`Keeps.bounded`), and a POWER-ON reset empties the queues. -/
theorem stepKeepsBounds : Obligations.StepKeepsBounds := by
  intro s t hs h
  obtain rfl | ⟨c, rest, -, ⟨st, -, k⟩ | ⟨pin, k⟩⟩ := step_keeps h
  · exact hs
  · exact k.bounded (Bounded.poweredOn _ st)
  · exact k.bounded hs

/-! ### After reset (R35, R51, R70, R93, R111, R125, R136, R154, R169, R176) -/

/-- The route of each code after a POWER-ON reset (R171). -/
theorem reset_route (c : EventCode) : State.reset.ev.routes.get c = RouteEntry.reset c := by
  show (Vector.ofFn RouteEntry.reset).get c = _
  simp [Vector.get_eq_getElem]

/-- Every channel is reset alike (R157, R169). -/
theorem reset_chan (c : ChannelId) : State.reset.chan c = Channel.reset := by
  cases c <;> rfl

theorem reset_entry (t : Tag) : State.reset.rt.entries.get t = TrackerEntry.reset := get_replicate _ t

theorem reset_recv (d : Fin 32) : State.reset.ord.recv.get d = RecvEntry.reset := get_replicate _ d

/-- Settles O10: each table holds its reset entry throughout, and every other field is as its block's reset has it. -/
theorem resetStateValues : Obligations.ResetStateValues := by
  have entry : ∀ t, (State.reset.rt.entries.get t).state = .free ∧ (State.reset.rt.entries.get t).gen = 0 ∧
      (State.reset.rt.entries.get t).responseTimer = .stopped ∧
      (State.reset.rt.entries.get t).backoffTimer = .stopped ∧ (State.reset.rt.entries.get t).window = none ∧
      (State.reset.rt.entries.get t).retry = 0 ∧ (State.reset.rt.entries.get t).sentOnce = false := by
    intro t
    rw [reset_entry]
    exact ⟨rfl, rfl, rfl, rfl, rfl, rfl, rfl⟩
  have recv : ∀ d, (State.reset.ord.recv.get d).synced = false ∧ (State.reset.ord.recv.get d).expected = 0 ∧
      (State.reset.ord.recv.get d).mark = none := by
    intro d
    rw [reset_recv]
    exact ⟨rfl, rfl, rfl⟩
  have chan : ∀ c, (State.reset.chan c).state = .idle ∧ (State.reset.chan c).current = none ∧
      (State.reset.chan c).remaining = 0 ∧ (State.reset.chan c).nextOffset = 0 ∧ (State.reset.chan c).remote = 0 ∧
      (State.reset.chan c).localAddr = 0 ∧ (State.reset.chan c).completed = 0 ∧ (State.reset.chan c).halt = none ∧
      ∀ i, (State.reset.chan c).slots.get i = Slot.reset := by
    intro c
    rw [reset_chan]
    exact ⟨rfl, rfl, rfl, rfl, rfl, rfl, rfl, rfl, get_replicate _⟩
  exact ⟨rfl, rfl, rfl, rfl, rfl, rfl, rfl, rfl, rfl, rfl,
    rfl, rfl, rfl, rfl, rfl, rfl, rfl, rfl,
    get_replicate _, get_replicate _,
    entry, rfl, rfl, rfl, rfl,
    get_replicate _, recv, rfl,
    get_replicate _, rfl, rfl, get_replicate _, rfl,
    rfl, rfl, rfl, rfl, rfl,
    rfl, rfl, rfl, rfl, rfl, rfl, rfl, rfl, rfl, rfl, rfl, rfl, rfl, rfl,
    get_replicate _, chan, rfl, rfl,
    reset_route, rfl, rfl, get_replicate _, rfl, rfl, rfl, rfl⟩

/-- At rest after a POWER-ON reset: no queue, entry, claim or slot holds anything to do. -/
theorem Rest.reset : Rest State.reset := ⟨rfl, rfl, rfl, rfl, rfl, rfl⟩

theorem IdsLegal.reset : IdsLegal State.reset.en := by
  unfold IdsLegal
  decide

theorem AgentSound.reset : AgentSound State.reset.ag := by
  unfold AgentSound
  decide

/-- Settles O9: each invariant by its own lemma. -/
theorem resetMeetsInvariants : Obligations.ResetMeetsInvariants :=
  ⟨Rest.reset, Bounded.reset, WindowsSound.reset, IdsLegal.reset, AgentSound.reset⟩

end Sys2Proof.Machine
end

section
/-! SUPPORT. The link on its way up, and what a frame that arrives does when it is not for this node (O18 to O20, O22
to O24). -/

namespace Sys2Proof.Machine

variable {s : State}

/-- Effects that leave the same state end in the same answer. -/
theorem next_congr {u v : State} (h : u = v) : (Host.Outcome.next u.endOfEvent : Answer) = .next v.endOfEvent := by
  rw [h]

/-! ### The link (R18, R20, R38) -/

theorem lockAcquired_down (h : s.port.link = .down) : s.lockAcquired =
    { s with port := { s.port with link := .locking, lockHoldTimer := .running 100 } } := by
  unfold State.lockAcquired
  rw [h]
  rfl

theorem lockAcquired_locking (h : s.port.link = .locking) : s.lockAcquired = s := by
  unfold State.lockAcquired
  rw [h]

theorem lockAcquired_up (h : s.port.link = .up) :
    s.lockAcquired = { s with port := { s.port with lockLossTimer := .stopped } } := by
  unfold State.lockAcquired
  rw [h]
  rfl

theorem lockLost_down (h : s.port.link = .down) : s.lockLost = s := by
  unfold State.lockLost
  rw [h]

theorem lockLost_locking (h : s.port.link = .locking) :
    s.lockLost = { s with port := { s.port with link := .down, lockHoldTimer := .stopped } } := by
  unfold State.lockLost
  rw [h]
  rfl

theorem lockLost_up (h : s.port.link = .up) : s.lockLost =
    { s with port := { s.port with
      lockLossTimer := if s.port.lockLossTimer = .stopped then .running 1000 else s.port.lockLossTimer } } := by
  unfold State.lockLost
  rw [h]
  rfl

/-- A loss of lock while the lock-loss timer runs changes nothing (R18). -/
theorem lockLost_running (h : s.port.link = .up) (ht : s.port.lockLossTimer ≠ .stopped) : s.lockLost = s := by
  rw [lockLost_up h, if_neg ht]

theorem expiry_stopped {x : Timer} (h : x = .stopped) (s : State) (f : State → State) : s.expiry x f = .next s := by
  rw [h]
  rfl

theorem expiry_running {x : Timer} {us : Nat} (h : x = .running us) (s : State) (f : State → State) :
    s.expiry x f = s.event f := by
  rw [h]
  rfl

theorem EnumState.triggered_eq (x : EnumState) :
    x.triggered = if x = .idle ∨ x = .done ∨ x = .failed then .settling else x := by
  cases x <;> rfl

theorem mergeKeep_true (pending : Option Bool) : mergeKeep pending true = pending.getD true := by
  cases pending with
  | none => rfl
  | some k => exact Bool.and_true k

/-- A run waits for the settle timer while that has not expired (R38). -/
theorem startIfSettled_waits (h : s.en.settle ≠ .expired) : s.startIfSettled = s := by
  unfold State.startIfSettled
  split
  · exact if_neg fun c => h c.2.2
  · rfl

/-- Enumeration as the link enters UP (R38): the manager settles and takes a keep trigger. -/
def Enumeration.linkUp (e : Enumeration) : Enumeration :=
  if e.manager then
    { e with
      settle := .running 20000
      runPending := some (e.runPending.getD true)
      state := if e.state = .idle ∨ e.state = .done ∨ e.state = .failed then .settling else e.state }
  else e

/-- A manager that has not settled takes a trigger and waits (R38). -/
theorem trigger_waits (hm : s.en.manager = true) (hs : s.en.settle ≠ .expired) (keep : Bool) :
    s.trigger keep = s.modEn fun e =>
      { e with runPending := some (mergeKeep e.runPending keep), state := e.state.triggered } :=
  (if_pos hm).trans (startIfSettled_waits hs)

theorem enumLinkUp_eq (s : State) : s.enumLinkUp = { s with en := s.en.linkUp } := by
  unfold State.enumLinkUp Enumeration.linkUp
  split
  · rename_i hm
    refine (trigger_waits (by exact hm) (fun c => SettleTimer.noConfusion c) true).trans ?_
    simp only [State.modEn, mergeKeep_true, EnumState.triggered_eq]
    rfl
  · rfl

/-- The link entering UP changes neither the id nor the role. -/
theorem Enumeration.linkUp_ids (e : Enumeration) : e.linkUp.ownId = e.ownId ∧ e.linkUp.role = e.role := by
  unfold Enumeration.linkUp
  split <;> exact ⟨rfl, rfl⟩

/-- The state in which LINK_UP fires. -/
def State.linkedUp (s : State) : State :=
  { s with
    now := s.now + 1
    port := { s.port with link := .up, lockHoldTimer := .stopped }
    en := s.en.linkUp }

theorem enterUp_begin (h : s.firings = []) : s.begin.enterUp = { s.linkedUp with firings := [0] } := by
  unfold State.enterUp
  rw [enumLinkUp_eq]
  simp [State.begin, State.linkedUp, State.modPort, State.fire, h, codeLinkUp]

/-- The link may enter UP at rest: nothing waits that only the link held back. -/
theorem Rest.linkedUp (h : Rest s) : Rest s.linkedUp := by
  obtain ⟨hid, hrole⟩ := s.en.linkUp_ids
  by_cases hl : s.port.link = .up
  · exact h.linkUp (.inr hl.symm) hid hrole
  · exact h.linkUp (.inl hl) hid hrole

/-- Settles O18, by the link's state; on entering UP only LINK_UP is left to be taken. -/
theorem linkComesUp : Obligations.LinkComesUp := by
  intro s
  refine ⟨fun h => ⟨congrArg _ (lockAcquired_down h), congrArg _ (lockLost_down h)⟩,
    fun h => ⟨congrArg _ (lockAcquired_locking h), congrArg _ (lockLost_locking h)⟩,
    fun h => ⟨congrArg _ (lockAcquired_up h), fun ht => ?_, fun ht => congrArg _ (lockLost_running h ht)⟩,
    fun h => expiry_stopped h s _, fun us hs ht => ?_⟩
  · refine congrArg _ ((lockLost_up h).trans ?_)
    rw [if_pos ht]
  · obtain ⟨he, hsettled⟩ := event_settled (enterUp_begin hs.firings) hs.linkedUp
    exact ⟨(expiry_running ht s State.enterUp).trans he, hsettled⟩

/-! ### A frame from RING IN (R19, R22) -/

theorem exec_rxFrame_down (ws : List Word) (how : Reception) (h : s.port.link ≠ .up) :
    exec (.rxFrame ws how) s = .next s := if_neg h

theorem exec_rxFrame_up (ws : List Word) (how : Reception) (h : s.port.link = .up) :
    exec (.rxFrame ws how) s = s.event fun v => v.arrive ws how := if_pos h

theorem exec_loopArrival_empty (h : s.port.loopQ = []) : exec .loopArrival s = .next s := by
  show execLoopArrival s = _
  unfold execLoopArrival
  rw [h]

/-- The check passes when the last word is the check word of the others (R16, R22). -/
theorem checkPasses_iff {ws : List Word} : checkPasses ws = true ↔ ws.getLast? = some (checkWord ws.dropLast) := by
  unfold checkPasses
  cases ws.getLast? with
  | none => simp
  | some c => exact beq_iff_eq.trans ⟨fun e => congrArg some e.symm, fun e => (Option.some.inj e).symm⟩

theorem receive_wrong {ws : List Word} (h : ws.getLast? ≠ some (checkWord ws.dropLast)) (s : State) :
    s.receive ws = s.checkError := if_neg fun c => h (checkPasses_iff.1 c)

theorem receive_right {ws : List Word} (h : ws.getLast? = some (checkWord ws.dropLast)) (s : State) :
    s.receive ws = (s.countPort fun c => { c with rxFrames := bump c.rxFrames }).classifyWords ws.dropLast :=
  if_pos (checkPasses_iff.2 h)

/-- A frame whose check passes is counted and goes on to step 2 (R22). -/
theorem exec_rxFrame_right {ws : List Word} (hl : s.port.link = .up)
    (hc : ws.getLast? = some (checkWord ws.dropLast)) : exec (.rxFrame ws .whole) s = .next
      ((s.begin.countPort fun c => { c with rxFrames := bump c.rxFrames }).classifyWords ws.dropLast).endOfEvent :=
  (exec_rxFrame_up ws .whole hl).trans (next_congr (receive_right hc s.begin))

theorem Rest.checkError (h : Rest s) : Rest s.checkError := h.of_same {}

/-- A frame whose check fails only counts (R19, R22). -/
theorem event_checkError (h : Rest s) {f : State → State} (hf : f s.begin = s.begin.checkError) :
    s.event f = .next s.begin.checkError := event_rest hf h.begin.checkError

/-- Settles O19, by the link's state and by how the frame was received. -/
theorem framesNotReceived : Obligations.FramesNotReceived := by
  intro s ws hs
  refine ⟨exec_loopArrival_empty, fun how h => exec_rxFrame_down ws how h, fun h => ?_, fun h => ?_⟩
  · exact (exec_rxFrame_up ws _ h).trans (event_rest rfl hs.begin)
  · exact (exec_rxFrame_up ws _ h).trans (event_checkError hs rfl)

/-- Settles O20, by the last word; a frame on the loop path enters at step 2. -/
theorem checkWordStep : Obligations.CheckWordStep := by
  intro s ws hs
  refine ⟨fun hl hc => ?_, fun hl hc => ?_, fun f l hq => ?_⟩
  · exact (exec_rxFrame_up ws _ hl).trans (event_checkError hs (receive_wrong hc s.begin))
  · exact exec_rxFrame_right hl hc
  · exact arrival_exec (.inr ⟨l, rfl, hq, rfl⟩)

/-! ### Malformed frames (R17, R23) -/

theorem classify_malformed {f : Frame} (h : f.malformed = true) (s : State) :
    s.classify f = s.malformed f.source := by
  unfold State.classify
  exact if_pos h

theorem classifyWords_none {ws : List Word} (h : frameOfWords ws = none) (s : State) :
    s.classifyWords ws = s.malformed ((ws.headD 0).extractLsb' 18 5) := by
  unfold State.classifyWords
  rw [h]
  rfl

/-- The state in which a malformed frame has been counted and recorded (R23). -/
def State.withMalformed (s : State) (source : NodeId) : State :=
  { s with
    port := { s.port with counters := { s.port.counters with malformed := bump s.port.counters.malformed } }
    ag := s.ag.withRecord
      { kind := .malformedFrame, node := if source ≠ 0 ∧ source ≠ 31 then some source else none } }

theorem malformed_eq (h : s.firings = []) (source : NodeId) :
    s.malformed source = { s.withMalformed source with firings := [5] } := by
  unfold State.malformed
  rw [recordFault_eq, sourceRecord_eq]
  simp [State.withMalformed, State.countPort, State.modPort, h, codeFaultRecorded]

theorem Rest.withMalformed (h : Rest s) (source : NodeId) : Rest (s.withMalformed source) := h.of_same {}

/-- Settles O22: what is malformed leaves its count, its record, and the record's code to be taken. -/
theorem malformedFrame : Obligations.MalformedFrame := by
  refine ⟨fun i f s u hs ha hm => ?_, fun ws s hs hl hc hn => ?_⟩
  · have hu := arrival_rest ha hs
    refine ⟨?_, (hu.withMalformed f.source).settled [5]⟩
    rw [arrival_exec ha, classify_malformed hm, malformed_eq hu.firings]
    rfl
  · have hu : Rest (s.begin.countPort fun c => { c with rxFrames := bump c.rxFrames }) := hs.of_same {}
    refine ⟨?_, (hu.withMalformed _).settled [5]⟩
    rw [exec_rxFrame_right hl hc, classifyWords_none hn, malformed_eq hu.firings]
    rfl

/-! ### Frames for another node, and frames that come back (R26, R28) -/

theorem route_forward {f : Frame} (hb : ¬s.cameBack f) (hm : ¬s.forMe f) : s.route f = s.forward f :=
  (if_neg hb).trans (if_neg hm)

theorem route_returned {f : Frame} (hb : s.cameBack f) : s.route f = s.returned f := if_pos hb

theorem Rest.withForward (h : Rest s) (f : Frame) : Rest (s.withForward f) := by
  unfold State.withForward
  split
  · exact h.of_same {}
  · split
    · exact h.of_same {}
    · exact h.of_same {}

/-- Settles O23: step 5 and step 6 pass the frame by, and step 7 forwards it. -/
theorem forwardedFrame : Obligations.ForwardedFrame := by
  intro i f s u hs ha hm hc hb hn
  have hu := arrival_rest ha hs
  obtain ⟨p, rfl, -⟩ := arrival_same ha
  rw [arrival_exec ha, classify_route hm hc]
  exact congrArg _ (rest_eq (hu.withForward f) (Eq.trans (route_forward hb hn) (forward_eq _ f)))

/-- The state in which a returned frame has been counted (R26). -/
def State.countReturned (s : State) : State := s.countPort fun c => { c with returned := bump c.returned }

theorem Rest.countReturned (h : Rest s) : Rest s.countReturned := h.of_same {}

theorem returned_response {f : Frame} (h : f.body.request = none) (s : State) : s.returned f = s.countReturned := by
  unfold State.returned
  rw [h]
  rfl

theorem returned_request {f : Frame} {kind : ReqKind} {ref : Ref} (h : f.body.request = some (kind, ref))
    (s : State) : s.returned f = s.countReturned.takeReturned kind ref f.dest := by
  unfold State.returned
  rw [h]
  rfl

theorem Rest.stale (h : Rest s) : Rest s.stale := h.of_same {}

theorem returnMatches_iff {kind : ReqKind} {ref : Ref} {dest : NodeId} :
    s.returnMatches kind ref dest = true ↔
      (s.entry ref.tag).state ≠ .free ∧ (s.entry ref.tag).gen = ref.gen ∧ (s.entry ref.tag).dest = dest ∧
        (s.entry ref.tag).kind = kind ∧ (s.entry ref.tag).sentOnce = true := by
  simp [State.returnMatches, and_assoc]

theorem takeReturned_stale {kind : ReqKind} {ref : Ref} {dest : NodeId}
    (h : ¬s.returnMatches kind ref dest = true) : s.takeReturned kind ref dest = s.stale := if_neg h

theorem takeReturned_matched {kind : ReqKind} {ref : Ref} {dest : NodeId}
    (h : s.returnMatches kind ref dest = true) : s.takeReturned kind ref dest =
      (s.countRt fun c => { c with noTarget := bump c.noTarget }).failEntry ref.tag .noTarget := if_pos h

theorem failEntry_posted {t : Tag} (r : Result) (h : (s.entry t).kind = .postedWrite) :
    s.failEntry t r = s.failRun (s.entry t).dest r := if_pos h

theorem failEntry_other {t : Tag} (r : Result) (h : (s.entry t).kind ≠ .postedWrite) :
    s.failEntry t r = s.completeEntry r [] t := if_neg h

/-- The requests among the bodies of frames (R3 to R7). -/
theorem Body.request_eq (b : Body) : b.request = match b with
    | .read ref _ => some (.read, ref)
    | .write ref _ => some (.write, ref)
    | .postedWrite ref _ _ _ => some (.postedWrite, ref)
    | .event ref _ _ => some (.event, ref)
    | .mgmtRequest ref => some (.mgmtRequest, ref)
    | .readData _ | .accept _ | .refuse _ _ | .mgmtReply _ | .enumPass _ | .ringReset _ => none := by
  cases b <;> rfl

/-- Settles O24: a returned response counts, and a request besides fails the entry it matches, or is stale. -/
theorem returnedFrame : Obligations.ReturnedFrame := by
  refine ⟨Body.request_eq, fun i f s u hs ha hm hc hb => ?_⟩
  have hu := (arrival_rest ha hs).countReturned
  obtain ⟨p, rfl, -⟩ := arrival_same ha
  have run := (arrival_exec ha).trans (next_congr ((classify_route hm hc).trans (route_returned hb)))
  refine ⟨fun hr => ?_, fun kind ref hr => ?_⟩
  · rw [run, returned_response hr, endOfEvent_eq hu]
    rfl
  · rw [run, returned_request hr]
    have hmatch := returnMatches_iff (s := State.countReturned { s with now := s.now + 1, port := p })
      (kind := kind) (ref := ref) (dest := f.dest)
    refine ⟨fun h => ?_, fun h hk => ?_, fun h hk => ?_⟩
    · rw [takeReturned_stale (mt hmatch.1 h), endOfEvent_eq hu.stale]
      rfl
    · obtain ⟨-, -, -, kindEq, -⟩ := hmatch.1 (hmatch.2 h)
      rw [takeReturned_matched (hmatch.2 h), failEntry_other _ (by exact kindEq ▸ hk)]
      rfl
    · obtain ⟨-, -, destEq, kindEq, -⟩ := hmatch.1 (hmatch.2 h)
      rw [takeReturned_matched (hmatch.2 h), failEntry_posted _ (by exact kindEq.trans hk)]
      exact next_congr (congrArg (fun d => State.failRun _ d .noTarget) destEq)
end Sys2Proof.Machine
end

section
/-! SUPPORT. What the arbiter hands to RING OUT (O41), and what a RING_RESET brings (O43). -/

namespace Sys2Proof.Machine

variable {s : State}

/-! ### Frames handed to RING OUT (R16, R32, R34) -/

/-- A frame has gone out on the ring with its check word. -/
def State.sentOut (s : State) (f : Frame) : State :=
  { s with port := { s.port with
    ringOut := some (f.words ++ [checkWord f.words])
    counters := { s.port.counters with txFrames := bump s.port.counters.txFrames } } }

/-- The state after a frame that enumeration presented has gone out: the timer of its kind runs (R39, R49). -/
theorem controlSent_eq (s : State) (f : Frame) : s.controlSent f = match f.body with
    | .enumPass _ => { s with en := { s.en with passTimer := .running 10000 } }
    | .ringReset _ => { s with en := { s.en with returnTimer := .running 10000 } }
    | _ => s := by
  unfold State.controlSent
  cases f.body <;> rfl

theorem Rest.controlSent (h : Rest s) (f : Frame) : Rest (s.controlSent f) := by
  unfold State.controlSent
  split
  · exact h.of_same {}
  · exact h.of_same {}
  · exact h

/-! ### What waits, and the choice (R32, R33) -/

/-- At rest a local frame waits when a response or a request is presented. -/
theorem Rest.localWaits (h : Rest s) : s.localWaits = true ↔ s.port.responseQ ≠ [] ∨ s.port.offer ≠ none := by
  unfold State.localWaits
  rw [rest_waiting h]
  cases s.port.responseQ <;> cases s.port.offer <;> simp

theorem Rest.frameWaits (h : Rest s) : s.frameWaits = true ↔
    s.port.control ≠ none ∨ s.port.forwardQ ≠ [] ∨ s.port.responseQ ≠ [] ∨ s.port.offer ≠ none := by
  unfold State.frameWaits
  rw [Bool.or_assoc, Bool.or_eq_true, Bool.or_eq_true, h.localWaits]
  cases s.port.control <;> cases s.port.forwardQ <;> simp

theorem exec_arbiterChoice_idle (h : ¬(s.port.link = .up ∧ s.frameWaits = true)) :
    exec .arbiterChoice s = .next s := if_neg h

theorem exec_arbiterChoice (hl : s.port.link = .up) (hw : s.frameWaits = true) :
    exec .arbiterChoice s = .next s.begin.arbitrate.endOfEvent := if_pos ⟨hl, hw⟩

theorem arbitrate_control {c : ControlOffer} (h : s.port.control = some c) : s.arbitrate = s.sendControl c := by
  unfold State.arbitrate
  rw [h]

theorem arbitrate_queued (h : s.port.control = none) : s.arbitrate = s.sendQueued := by
  unfold State.arbitrate
  rw [h]

/-- The head of the forward queue alone waits: no run is counted (R32). -/
theorem sendQueued_alone {f : Frame} {l : List Frame} (hq : s.port.forwardQ = f :: l) (hw : s.localWaits = false) :
    s.sendQueued = s.sendForward f 0 := by
  unfold State.sendQueued
  rw [hq, hw]
  rfl

/-- The head of the forward queue goes before local frames while the run is shorter than 4 (R32). -/
theorem sendQueued_run {f : Frame} {l : List Frame} (hq : s.port.forwardQ = f :: l) (hw : s.localWaits = true)
    (hr : s.port.forwardRun < 4) : s.sendQueued = s.sendForward f (s.port.forwardRun + 1) := by
  unfold State.sendQueued
  rw [hq, hw]
  exact if_pos hr

/-- After a run of 4 it does so only from a full queue (R32). -/
theorem sendQueued_after4 {f : Frame} {l : List Frame} (hq : s.port.forwardQ = f :: l) (hw : s.localWaits = true)
    (hr : s.port.forwardRun = 4) : s.sendQueued =
      if (f :: l).length = 4 then s.sendForward f 4 else s.clearForwardRun.sendLocal := by
  unfold State.sendQueued
  rw [hq, hw, hr]
  rfl

/-- A local frame goes out when no frame is to be forwarded, or after a run of 4 if the queue is not full (R32). -/
theorem sendQueued_local (h : s.port.forwardQ = [] ∨
      (s.localWaits = true ∧ s.port.forwardRun = 4 ∧ s.port.forwardQ.length < 4)) :
    s.sendQueued = s.clearForwardRun.sendLocal := by
  cases hq : s.port.forwardQ with
  | nil =>
    unfold State.sendQueued
    rw [hq]
  | cons f l =>
    obtain ⟨hw, hr, hn⟩ := h.resolve_left (by rw [hq]; exact List.cons_ne_nil f l)
    rw [sendQueued_after4 hq hw hr, if_neg (by rw [← hq]; omega)]

/-- With a response and no request presented, the response run is over (R33). -/
theorem sendLocal_response {r : Response} {l : List Response} (hq : s.port.responseQ = r :: l)
    (ho : s.requestWaiting = none ∨ s.port.responseRun < 8) : s.sendLocal =
      s.sendResponse r (if s.requestWaiting = none then 0 else s.port.responseRun + 1) := by
  unfold State.sendLocal
  rw [hq]
  cases hw : s.requestWaiting with
  | none => rfl
  | some o => exact if_pos (ho.resolve_left (by rw [hw]; exact Option.some_ne_none o))

theorem sendLocal_request {o : RequestOffer} (ho : s.requestWaiting = some o)
    (hq : s.port.responseQ = [] ∨ s.port.responseRun = 8) : s.sendLocal = s.sendRequest o := by
  unfold State.sendLocal
  rw [ho]
  cases hr : s.port.responseQ with
  | nil => rfl
  | cons r l => exact if_neg (by rw [hq.resolve_left (by rw [hr]; exact List.cons_ne_nil r l)]; exact Nat.lt_irrefl 8)

/-- The state after the head of the forward queue has gone out, with `run` forwarded frames in a row (R32). -/
theorem Rest.sendForward (h : Rest s) (f : Frame) (run : Nat) : Rest (s.sendForward f run) := h.of_same {}

theorem sendForward_eq {f : Frame} {l : List Frame} (hq : s.port.forwardQ = f :: l) (run : Nat) :
    s.sendForward f run =
      (State.sentOut { s with port := { s.port with forwardQ := l, forwardRun := run } } f).countForwarded := by
  obtain rfl : s.port.forwardQ.tail = l := by rw [hq]; rfl
  rfl

theorem sendResponse_eq {r : Response} {l : List Response} (hq : s.port.responseQ = r :: l) (run : Nat) :
    s.sendResponse r run = State.reportLeft
      (State.sentOut { s with port := { s.port with responseQ := l, responseRun := run } } r.frame) r.purpose := by
  obtain rfl : s.port.responseQ.tail = l := by rw [hq]; rfl
  rfl

/-- The placer's report, if it waits for one, is all that a transmitted response leaves to be taken (R30). -/
theorem reportLeft_first (h : s.left = []) (p : Purpose) :
    s.reportLeft p = { s with left := if p = .plain then [] else [p] } := by
  unfold State.reportLeft
  cases s
  cases h
  cases p <;> rfl

/-- Settles O41, in the order of the arbiter's choices: what it sends is settled already, but for a request's
transmission, a response's report, and the RING reset after a forwarded RING_RESET. -/
theorem arbiterChoice : Obligations.ArbiterChoice := by
  intro s hs b out forwarded waits
  have hb := hs.begin
  refine ⟨fun h => ?_, fun hl => ⟨fun f hc => ?_, fun f hc => ?_, fun hc f l hq => ?_, fun hc hq => ?_⟩⟩
  · refine exec_arbiterChoice_idle ?_
    rw [hs.frameWaits]
    tauto
  · rw [exec_arbiterChoice hl (hs.frameWaits.2 (.inl (by simp [hc]))), arbitrate_control (s := s.begin) hc]
    refine congrArg _ ((endOfEvent_eq (Rest.controlSent ?_ f)).trans (controlSent_eq _ f))
    exact hb.of_same {}
  · rw [exec_arbiterChoice hl (hs.frameWaits.2 (.inl (by simp [hc]))), arbitrate_control (s := s.begin) hc]
    exact congrArg _ (performRingReset_endOfEvent _ hs.firings hs.left hs.asks)
  · have run := exec_arbiterChoice hl (hs.frameWaits.2 (.inr (.inl (by simp [hq]))))
    rw [arbitrate_queued (s := s.begin) hc] at run
    have sent (n : Nat) : (s.begin.sendForward f n).endOfEvent =
        forwarded (out { b with port := { b.port with forwardQ := l, forwardRun := n } } f) := by
      rw [endOfEvent_eq (hb.sendForward f n)]
      exact sendForward_eq (s := s.begin) hq n
    refine ⟨fun hw => ?_, fun hw hr => ?_, fun hw hr hn => ?_⟩
    · rw [run, sendQueued_alone (s := s.begin) hq (Bool.eq_false_iff.2 (mt hb.localWaits.1 hw)), sent]
    · rw [run, sendQueued_run (s := s.begin) hq (hb.localWaits.2 hw) hr, sent]
      rfl
    · rw [run, sendQueued_after4 (s := s.begin) hq (hb.localWaits.2 hw) hr, if_pos hn, sent]
  · have run (hw : waits) : exec .arbiterChoice s = .next s.begin.clearForwardRun.sendLocal.endOfEvent := by
      rw [exec_arbiterChoice hl (hs.frameWaits.2 (.inr (.inr hw))), arbitrate_queued (s := s.begin) hc,
        sendQueued_local]
      exact hq.imp_right fun h => ⟨hb.localWaits.2 hw, h⟩
    have waiting : s.begin.clearForwardRun.requestWaiting = s.port.offer := rest_waiting (hb.of_same {})
    refine ⟨fun t f ho hr => ?_, fun r l hr ho => ?_⟩
    · rw [run (.inr (by simp [ho])), sendLocal_request (waiting.trans ho) hr]
      unfold State.sendRequest
      rw [transmitted_eq]
      rfl
    · rw [run (.inl (by simp [hr])),
        sendLocal_response (s := s.begin.clearForwardRun) hr (by rw [waiting]; exact ho), waiting]
      rw [sendResponse_eq (s := s.begin.clearForwardRun) hr, reportLeft_first]
      · rfl
      · exact hs.left

/-! ### RING_RESET (R25, R49) -/

theorem classify_ringReset {f : Frame} {serial : Word} (hm : f.malformed = false) (hb : f.body = .ringReset serial)
    (s : State) : s.classify f = s.takeRingReset f serial := by
  unfold State.classify
  rw [hm, hb]
  rfl

theorem hop_at_limit (f : Frame) : f.hop.toNat = 30 ↔ f.hop = 30 := by
  constructor
  · exact fun h => BitVec.eq_of_toNat_eq h
  · exact fun h => by rw [h]; rfl

theorem offerReset_eq (s : State) (f : Frame) : s.offerReset f =
    { s with port := { s.port with
      control := some (.forwarded { f with hop := f.hop + 1 })
      counters := { s.port.counters with
        txDiscarded := if s.port.control.isSome then bump s.port.counters.txDiscarded
          else s.port.counters.txDiscarded } } } := by
  unfold State.offerReset
  cases s.port.control <;> rfl

theorem Rest.offerReset (h : Rest s) (f : Frame) : Rest (s.offerReset f) := by
  rw [offerReset_eq]
  exact h.of_same {}

/-- Settles O43: each way that a RING_RESET can go, and the return timer. -/
theorem ringResets : Obligations.RingResets := by
  refine ⟨fun i f s u serial hs ha hm hb => ?_, fun s hs => ⟨fun ht => expiry_stopped ht s _, fun us ht => ?_⟩⟩
  · have hu := arrival_rest ha hs
    obtain ⟨p, rfl, -⟩ := arrival_same ha
    rw [arrival_exec ha, classify_ringReset hm hb]
    unfold State.takeRingReset
    refine congrArg _ ?_
    by_cases hser : serial = s.serial
    · rw [if_pos hser, if_pos hser]
      exact performRingReset_endOfEvent _ hu.firings hu.left hu.asks
    · rw [if_neg hser, if_neg hser]
      by_cases hop : f.hop = 30
      · rw [if_pos ((hop_at_limit f).2 hop), if_pos hop]
        exact performRingReset_endOfEvent _ hu.firings hu.left hu.asks
      · rw [if_neg (mt (hop_at_limit f).1 hop), if_neg hop, endOfEvent_eq (hu.offerReset f), offerReset_eq]
  · refine (expiry_running ht s State.performRingReset).trans (congrArg Host.Outcome.next ?_)
    exact performRingReset_endOfEvent s.begin hs.firings hs.left hs.asks

end Sys2Proof.Machine
end

section
/-! SUPPORT. The request offer, one move at a time (O42). -/

namespace Sys2Proof.Machine

variable {s : State}

/-! ### Which entry may be offered (R78) -/

theorem offerable_iff {t : Tag} : (s.numbered && s.eligible t) = true ↔
    s.en.role = .numbered ∧ (s.entry t).state = .ready ∧
      ((s.ord.send.get (s.entry t).dest.toFin).stalled = false ∨ (s.postedRun (s.entry t).dest).head? = some t) := by
  simp [State.numbered, State.eligible, State.sendOf, State.oldestPosted]

/-- The entry of lowest allocation rank that may be offered is the one presented (R78). -/
theorem nextOffer_first {pre post : List Tag} {t : Tag} (h : s.rt.allocOrder = pre ++ t :: post)
    (hpre : ∀ x ∈ pre, ¬(s.numbered && s.eligible x) = true) (ht : (s.numbered && s.eligible t) = true) :
    s.nextOffer = some t := by
  obtain ⟨hn, he⟩ := Bool.and_eq_true_iff.1 ht
  unfold State.nextOffer
  rw [if_pos hn, h, List.find?_append, List.find?_cons_of_pos he]
  have none : pre.find? s.eligible = none :=
    List.find?_eq_none.2 fun x hx e => hpre x hx (Bool.and_eq_true_iff.2 ⟨hn, e⟩)
  rw [none]
  rfl

theorem nextOffer_none (h : ∀ t ∈ s.rt.allocOrder, ¬(s.numbered && s.eligible t) = true) : s.nextOffer = none := by
  unfold State.nextOffer
  split
  · rename_i hn
    exact List.find?_eq_none.2 fun x hx e => h x hx (Bool.and_eq_true_iff.2 ⟨hn, e⟩)
  · rfl

/-! ### The moves of the offer (R29, R31, R78, R79) -/

/-- A presented frame whose entry may no longer be offered is withdrawn (R79). -/
theorem offerStep_withdraw {t : Tag} {f : Frame} (ho : s.port.offer = some ⟨t, f⟩)
    (h : ¬(s.numbered && s.eligible t) = true) :
    s.offerStep = some { s with port := { s.port with offer := none } } := by
  unfold State.offerStep
  rw [ho]
  exact if_pos (by rw [Bool.eq_false_iff.2 h]; rfl)

/-- A presented frame for this node is looped (R29, R80). -/
theorem offerStep_loop {t : Tag} {f : Frame} (ho : s.port.offer = some ⟨t, f⟩)
    (h : (s.numbered && s.eligible t) = true) (hd : f.dest = s.en.ownId) :
    s.offerStep = some (s.loopOffer ⟨t, f⟩) := by
  unfold State.offerStep
  rw [ho]
  exact (if_neg (by simpa using h)).trans (if_pos hd)

/-- A presented frame for another node is discarded while the link is not UP (R31, R80). -/
theorem offerStep_discard {t : Tag} {f : Frame} (ho : s.port.offer = some ⟨t, f⟩)
    (h : (s.numbered && s.eligible t) = true) (hd : f.dest ≠ s.en.ownId) (hl : s.port.link ≠ .up) :
    s.offerStep = some ((s.countDiscarded 1).transmitted t) := by
  unfold State.offerStep
  rw [ho]
  exact (if_neg (by simpa using h)).trans ((if_neg hd).trans (if_pos hl))

/-- Otherwise a presented frame waits for the arbiter (R31, R33). -/
theorem offerStep_waits {t : Tag} {f : Frame} (ho : s.port.offer = some ⟨t, f⟩)
    (h : (s.numbered && s.eligible t) = true) (hd : f.dest ≠ s.en.ownId) (hl : s.port.link = .up) :
    s.offerStep = none := by
  unfold State.offerStep
  rw [ho]
  exact (if_neg (by simpa using h)).trans ((if_neg hd).trans (if_neg (not_not_intro hl)))

theorem offerStep_present {t : Tag} (ho : s.port.offer = none) (h : s.nextOffer = some t) :
    s.offerStep = some { s with port := { s.port with offer := some ⟨t, s.requestFrame t⟩ } } := by
  unfold State.offerStep
  rw [ho, h]
  rfl

theorem offerStep_idle (ho : s.port.offer = none) (h : s.nextOffer = none) : s.offerStep = none := by
  unfold State.offerStep
  rw [ho, h]

/-! ### The frame built (R3 to R7, R78) -/

theorem TrackerEntry.body_eq (e : TrackerEntry) (t : Tag) : e.body t = match e.kind with
    | .read => .read ⟨t, e.gen⟩ ⟨e.addr, e.first, e.last⟩
    | .write => .write ⟨t, e.gen⟩ ⟨e.addr, e.first, e.last⟩
    | .postedWrite => .postedWrite ⟨t, e.gen⟩ ⟨e.addr, e.first, e.last⟩ e.seq e.sync
    | .event => .event ⟨t, e.gen⟩ e.number e.count
    | .mgmtRequest => .mgmtRequest ⟨t, e.gen⟩ := by
  unfold TrackerEntry.body
  cases e.kind <;> rfl

/-- Settles O42: with the responses still, settling is the offer's next move and what follows it. -/
theorem requestOffer : Obligations.RequestOffer := by
  refine ⟨fun s hl hq hw => ?_, fun s t => ⟨rfl, rfl, rfl, fun h => ?_, rfl, ?_⟩⟩
  · intro entry eligible sent
    have loop : s.loopStep = none := loopStep_none.2 hq
    have waiter : s.waiterStep = none := waiterStep_none.2 hw
    have move {v : State} (h : s.offerStep = some v) (hv : v.left = s.left) : s.settle = v.settle := by
      rw [offer_move loop waiter h, drainLeft_eq (hv.trans hl)]
    have rest (h : s.offerStep = none) : s.settle = s := settle_eq (settleStep_none.2 ⟨loop, waiter, h⟩)
    have offerable (t : Tag) : (s.numbered && s.eligible t) = true ↔ eligible t := offerable_iff
    refine ⟨fun t f ho => ⟨fun h => ?_, fun h hd => ?_, fun h hd hlink => ?_, fun h hd hlink => ?_⟩,
      fun ho => ⟨fun h => ?_, fun pre t post ha hpre h => ?_⟩⟩
    · exact move (offerStep_withdraw ho (mt (offerable t).1 h)) rfl
    · rw [move (offerStep_loop ho ((offerable t).2 h) hd) rfl]
      unfold State.loopOffer
      rw [transmitted_eq]
      rfl
    · rw [move (offerStep_discard ho ((offerable t).2 h) hd hlink) rfl, transmitted_eq]
      rfl
    · exact rest (offerStep_waits ho ((offerable t).2 h) hd hlink)
    · exact rest (offerStep_idle ho (nextOffer_none fun t ht => mt (offerable t).1 (h t ht)))
    · exact move (offerStep_present ho
        (nextOffer_first ha (fun x hx => mt (offerable x).1 (hpre x hx)) ((offerable t).2 h))) rfl
  · exact (BitVec.toNat_ofNat _ _).trans (Nat.mod_eq_of_lt h)
  · exact TrackerEntry.body_eq _ t

end Sys2Proof.Machine
end

section
/-! SUPPORT. What ends every request, and the link leaving UP (O52). -/

namespace Sys2Proof.Machine

variable {s : State}

/-! ### Every request ends (R88, R90, R103) -/

/-- The posted writes among the tracker's entries, in allocation order. -/
def State.postedTags (s : State) : List Tag :=
  s.rt.allocOrder.filter fun x => (s.rt.entries.get x).kind = .postedWrite

/-- A table of Send Sequence entries after the failure of a destination's posted writes (R103). -/
def failSend (q : Table SendEntry 32) (d : NodeId) : Table SendEntry 32 := modAt q d.toFin SendEntry.failed

theorem modSend_failed_foldl (ds : List NodeId) (s : State) :
    ds.foldl (fun s d => s.modSend d SendEntry.failed) s =
      { s with ord := { s.ord with send := ds.foldl failSend s.ord.send } } := by
  induction ds generalizing s with
  | nil => rfl
  | cons d ds ih => exact ih (s.modSend d SendEntry.failed)

/-- What ends every request: every entry completes, the losses are recorded, their destinations fail, and nothing is
presented. -/
theorem abort_eq (s : State) (r : Result) :
    let c := s.rt.allocOrder.foldl (State.completeEntry r []) s
    let lost := s.postedTags.map (s.postedLost r)
    s.abort r =
      { c with
        ag := lost.foldl Agent.withRecord c.ag
        firings := c.firings ++ lost.map fun _ => codeFaultRecorded
        port := { c.port with offer := none }
        ord := { c.ord with send := s.postedTags.foldl (fun q x => failSend q (s.entry x).dest) c.ord.send } } := by
  intro c lost
  have tags : (s.rt.allocOrder.filter fun t => (s.entry t).kind == .postedWrite) = s.postedTags := rfl
  unfold State.abort
  dsimp only
  rw [tags, modSend_failed_foldl, recordFaults_eq, List.foldl_map (f := fun t => (s.entry t).dest)]
  rfl

theorem abort_rt (s : State) (r : Result) :
    (s.abort r).rt = (s.rt.allocOrder.foldl (State.completeEntry r []) s).rt := by
  rw [abort_eq]

/-- A destination among those that fail has nothing outstanding afterwards, and keeps its next sequence (R103). -/
theorem foldl_failSend (ds : List NodeId) (q : Table SendEntry 32) :
    (∀ d, ((ds.foldl failSend q).get d).next = (q.get d).next) ∧
      ∀ d, d ∈ ds → ((ds.foldl failSend q).get d.toFin).count = 0 ∧
        ((ds.foldl failSend q).get d.toFin).syncNeeded = true ∧ ((ds.foldl failSend q).get d.toFin).stalled = false := by
  have e := modSend_failed_foldl ds { State.reset with ord := { SequenceTables.reset with send := q } }
  obtain ⟨-, next, failed⟩ := foldFailed ds { State.reset with ord := { SequenceTables.reset with send := q } }
  rw [e] at next failed
  exact ⟨next, fun d hd => failed d.toFin (.inr (List.mem_map.2 ⟨d, hd, rfl⟩))⟩

/-- Every entry that was not FREE has been freed, with its generation kept. -/
theorem abort_frees (s : State) (r : Result) :
    Freed s (s.rt.allocOrder.foldl (State.completeEntry r []) s) s.rt.allocOrder :=
  foldAbort' r s.rt.allocOrder s

theorem abort_allocOrder (s : State) (r : Result) : (s.abort r).rt.allocOrder = [] := by
  rw [abort_rt, (abort_frees s r).order, foldErase_self]

theorem abort_send (s : State) (r : Result) :
    (s.abort r).ord.send = (s.postedTags.map fun x => (s.entry x).dest).foldl failSend s.ord.send := by
  rw [abort_eq, ← (abort_frees s r).ord, List.foldl_map (f := fun x => (s.entry x).dest)]

/-! ### The queues emptied (R20, R30) -/

/-- The queues are empty, their frames counted, and the placers' reports wait. -/
def State.withoutQueues (s : State) : State :=
  { s with
    port := { s.port with
      forwardQ := []
      responseQ := []
      counters := { s.port.counters with
        txDiscarded := bumpBy (s.port.forwardQ.length + s.port.responseQ.length) s.port.counters.txDiscarded } }
    left := (s.port.responseQ.map (·.purpose)).filter (· ≠ .plain) }

theorem emptyQueues_eq (h : s.left = []) : s.emptyQueues = s.withoutQueues := by
  have reports : s.left ++ s.withoutQueues.left = s.withoutQueues.left := by rw [h, List.nil_append]
  unfold State.emptyQueues
  rw [foldReport]
  exact congrArg (fun l => ({ s.withoutQueues with left := l } : State)) reports

/-! ### Enumeration as the link leaves UP (R38, R47) -/

/-- An ENUM of this node waits in the control offer. -/
def RingPort.enumWaits (p : RingPort) : Bool := p.control.any fun c => !c.isReset

theorem withdrawEnum_none (h : s.port.enumWaits = false) : s.withdrawEnum = s := by
  unfold State.withdrawEnum
  unfold RingPort.enumWaits at h
  split
  · rename_i c hc
    rw [hc] at h
    exact if_pos (by simpa using h)
  · rfl

theorem withdrawEnum_some (h : s.port.enumWaits = true) :
    s.withdrawEnum = (s.modPort fun p => { p with control := none }).countDiscarded 1 := by
  unfold State.withdrawEnum
  unfold RingPort.enumWaits at h
  split
  · rename_i c hc
    rw [hc] at h
    exact if_neg (by simpa using h)
  · rename_i hc
    rw [hc] at h
    cases h

theorem withdrawEnum_eq (s : State) : s.withdrawEnum =
    { s with port := { s.port with
      control := if s.port.enumWaits then none else s.port.control
      counters := { s.port.counters with
        txDiscarded := if s.port.enumWaits then bump s.port.counters.txDiscarded
          else s.port.counters.txDiscarded } } } := by
  cases h : s.port.enumWaits with
  | false => exact withdrawEnum_none h
  | true => exact withdrawEnum_some h

theorem EnumState.pass_isSome (x : EnumState) :
    x.pass.isSome = true ↔ x = .passCensus ∨ x = .passAssign ∨ x = .passPublish := by
  cases x <;> simp [EnumState.pass]

/-- Enumeration as the link leaves UP: the settle timer stops, and a run in a PASS state ends (R38, R47). -/
def Enumeration.linkDown (e : Enumeration) : Enumeration :=
  let run := e.state = .passCensus ∨ e.state = .passAssign ∨ e.state = .passPublish
  { e with
    settle := .stopped
    passTimer := if run then .stopped else e.passTimer
    runPending := if run then none else e.runPending
    state := if run then .idle else e.state }

theorem enumLinkDown_other (h : ¬s.en.manager = true) : s.enumLinkDown = s := if_neg h

theorem enumLinkDown_manager (h : s.en.manager = true) :
    s.enumLinkDown = State.withdrawEnum { s with en := s.en.linkDown } := by
  refine (if_pos h).trans (congrArg (fun e => State.withdrawEnum { s with en := e }) ?_)
  unfold Enumeration.linkDown
  dsimp only
  by_cases run : s.en.state = .passCensus ∨ s.en.state = .passAssign ∨ s.en.state = .passPublish
  · rw [if_pos (s.en.state.pass_isSome.2 run)]
    simp only [run, if_true]
  · rw [if_neg (mt s.en.state.pass_isSome.1 run)]
    simp only [run, if_false]

/-! ### The RING reset within an event (R50, R173) -/

/-- The codes of the attention inputs that are asserted, unless LOCAL_RESET_IN holds them off (R173). -/
def State.assertedCodes (s : State) : List EventCode :=
  [(15, 0), (16, 1), (17, 2), (18, 3)].filterMap fun (c, i) =>
    if s.localResetIn = false ∧ s.ev.attnInput.getLsbD i = true then some c else none

theorem assertedCodes_eq (s : State) : s.assertedCodes =
    if s.localResetIn then [] else ({ s.ev with attnRecorded := 0 } : Events).risen := by
  have levels : ∀ v : BitVec 4, ([(15, 0), (16, 1), (17, 2), (18, 3)] : List (EventCode × Nat)).filterMap
        (fun (c, i) => if v.getLsbD i = true then some c else none) =
      ((List.finRange 4).filter fun i => v.getLsbD i.val && !(0 : BitVec 4).getLsbD i.val).map codeAttn := by
    decide
  unfold State.assertedCodes
  cases s.localResetIn with
  | true => rfl
  | false =>
    simp only [true_and]
    exact levels s.ev.attnInput

/-- What a RING reset leaves in the middle of an event. -/
theorem performRingReset_left (s : State) : s.performRingReset =
    { s.afterRingReset with
      ev := { s.afterRingReset.ev with pendingSet := 0 }
      firings := s.firings ++ (5 :: s.discardRecords.map fun _ => 5) ++ s.assertedCodes
      left := []
      asks := [] } := by
  rw [performRingReset_eq, assertedCodes_eq, List.map_const', List.append_assoc]
  rfl

/-! ### The link leaves UP (R18, R20, R25) -/

/-- The part as the link has left UP, with its two codes to be taken. -/
def State.leftUp (s : State) : State :=
  { s with
    now := s.now + 1
    port := { s.port with link := .down, lockLossTimer := .stopped }
    ag := s.ag.withRecord { kind := .linkDown }
    firings := [1, 5] }

theorem leaveUp_begin (h : s.firings = []) : s.begin.leaveUp =
    if s.port.forwardingReset then (s.leftUp.emptyQueues.abort .linkDown).enumLinkDown.performRingReset
    else ((if s.ag.resetPending then s.leftUp else s.leftUp.takeFirings).emptyQueues.abort .linkDown).enumLinkDown := by
  have left : ((s.begin.modPort fun p => { p with link := .down, lockLossTimer := .stopped }).fire
      codeLinkDown).recordFault (bareRecord .linkDown) = s.leftUp := by
    rw [recordFault_eq]
    simp [State.begin, State.modPort, State.fire, State.leftUp, h, codeLinkDown, codeFaultRecorded, bareRecord]
  unfold State.leaveUp
  rw [left]
  rfl

theorem forwardingReset_iff (p : RingPort) : p.forwardingReset = true ↔ ∃ g, p.control = some (.forwarded g) := by
  unfold RingPort.forwardingReset
  split
  · simp [*]
  · simp_all

/-- An ENUM waits when this node presents a frame that is no RING_RESET. -/
theorem RingPort.enumWaits_eq (p : RingPort) : p.enumWaits = match p.control with
    | some (.own g) => match g.body with
      | .ringReset _ => false
      | _ => true
    | _ => false := by
  unfold RingPort.enumWaits ControlOffer.isReset
  cases p.control with
  | none => rfl
  | some c =>
    cases c with
    | forwarded g => rfl
    | own g =>
      obtain ⟨_, _, _, _, body, _⟩ := g
      cases body <;> rfl

/-- Settles O52: the link leaves UP by one of two orders, the RING reset is said whole, and what ends every request frees
each entry and fails each destination that a posted write was for. -/
theorem linkLeavesUp : Obligations.LinkLeavesUp := by
  refine ⟨fun s hs => ⟨fun ht => expiry_stopped ht s _, fun us ht => ?_⟩, performRingReset_left, fun s r => ?_⟩
  · intro b emptied ended
    have run := (expiry_running ht s State.leaveUp).trans (next_congr (leaveUp_begin hs.firings))
    have down (v : State) : v.enumLinkDown = ended v := by
      by_cases hm : v.en.manager = true
      · rw [enumLinkDown_manager hm, withdrawEnum_eq, RingPort.enumWaits_eq]
        exact (if_pos hm).symm
      · exact (enumLinkDown_other hm).trans (if_neg hm).symm
    refine ⟨fun hc => ?_, fun hc => ?_⟩
    · refine run.trans ?_
      rw [if_neg (mt (forwardingReset_iff _).1 (not_exists.2 hc)), down, emptyQueues_eq]
      · rfl
      · split
        · exact hs.left
        · exact (takeFirings_same _).left.trans hs.left
    · refine run.trans ?_
      rw [if_pos ((forwardingReset_iff _).2 hc), down, emptyQueues_eq (s := s.leftUp) hs.left]
      rfl
  · have freed := abort_frees s r
    have rt := abort_rt s r
    refine ⟨abort_eq s r, abort_allocOrder s r, ?_, ?_, fun x hx => ?_, fun x hx => ?_, fun x hx hk => ?_⟩
    · rw [rt]
      exact freed.free
    · rw [abort_eq]
    · obtain ⟨free, response, backoff⟩ := freed.freed x hx
      rw [rt]
      exact ⟨free, response, backoff, freed.gen x⟩
    · rw [rt]
      exact freed.same x hx
    · have member : (s.entry x).dest ∈ s.postedTags.map fun x => (s.entry x).dest :=
        List.mem_map_of_mem (List.mem_filter.2 ⟨hx, decide_eq_true hk⟩)
      obtain ⟨next, failed⟩ := foldl_failSend (s.postedTags.map fun x => (s.entry x).dest) s.ord.send
      obtain ⟨count, sync, stalled⟩ := failed _ member
      rw [abort_send]
      exact ⟨count, sync, stalled, next _⟩

end Sys2Proof.Machine
end

section
/-! SUPPORT. What no command changes (O3). -/

namespace Sys2Proof.Machine

variable {s t : State}

/-- What the straps gave is the same, value by value (R36). -/
theorem Keeps.strapValues (h : Keeps s t) :
    t.en.manager = s.en.manager ∧ t.en.idMode = s.en.idMode ∧ t.en.strappedId = s.en.strappedId := by
  simpa [Enumeration.straps] using h.straps

/-- Settles O3, by the three commands that move something first: a POWER-ON reset the straps, the reset pin's two the
pin. What follows, and every other command whole, keeps all of it. -/
theorem commandsKeepQueueSerialAndStraps : Obligations.CommandsKeepQueueSerialAndStraps := by
  intro i s t h
  by_cases hp : ∃ st, i = .powerOnReset st
  · obtain ⟨st, rfl⟩ := hp
    have k : Keeps (s.poweredOn st) t := execPowerOnReset_keeps st s t h
    exact ⟨k.queue, k.serial, fun other => absurd rfl (other st), fun _ _ => k.pin⟩
  · by_cases hl : i = .localReset
    · subst hl
      have k : Keeps { s with localResetIn := true } t := execLocalReset_keeps s t h
      exact ⟨k.queue, k.serial, fun _ => k.strapValues, fun other => absurd rfl other⟩
    · by_cases hr : i = .localResetRelease
      · subst hr
        have k : Keeps { s with localResetIn := false } t := execLocalResetRelease_keeps s t h
        exact ⟨k.queue, k.serial, fun _ => k.strapValues, fun _ other => absurd rfl other⟩
      · have k : Keeps s t := exec_keeps (fun st e => hp ⟨st, e⟩) hl hr s t h
        exact ⟨k.queue, k.serial, fun _ => k.strapValues, fun _ _ => k.pin⟩

end Sys2Proof.Machine
end

section
/-! SUPPORT. The manager's run: its two timers (O49), and an ENUM that arrives at the manager (O50). -/

namespace Sys2Proof.Machine

variable {s u : State}

/-! ### The pass under way (R38, R39) -/

/-- A pass is under way, by the enumeration state and the pass code (R178). -/
theorem EnumState.pass_eq_some {x : EnumState} {code : BitVec 2}
    (h : (x = .passCensus ∧ code = 1) ∨ (x = .passAssign ∧ code = 2) ∨ (x = .passPublish ∧ code = 3)) :
    ∃ p, x.pass = some p ∧ p.code = code := by
  rcases h with ⟨rfl, rfl⟩ | ⟨rfl, rfl⟩ | ⟨rfl, rfl⟩
  · exact ⟨.census, rfl, rfl⟩
  · exact ⟨.assign, rfl, rfl⟩
  · exact ⟨.publish, rfl, rfl⟩

theorem EnumState.pass_eq_none {x : EnumState} (h : x ≠ .passCensus ∧ x ≠ .passAssign ∧ x ≠ .passPublish) :
    x.pass = none := by
  cases x <;> simp_all [EnumState.pass]

/-- A run started with keep leaves the part at rest: no request ends, and the CENSUS frame waits for the arbiter. -/
theorem Rest.withRun (h : Rest s) : Rest (s.withRun true) := h.of_same {}

/-! ### The settle timer (R38) -/

theorem exec_settleTimerExpiry_idle (h : s.en.settle = .stopped ∨ s.en.settle = .expired) :
    exec .settleTimerExpiry s = .next s := by
  show execSettleTimerExpiry s = _
  unfold execSettleTimerExpiry
  rcases h with h | h <;> rw [h]

theorem exec_settleTimerExpiry {us : Nat} (h : s.en.settle = .running us) :
    exec .settleTimerExpiry s = s.event State.settleExpired := by
  show execSettleTimerExpiry s = _
  unfold execSettleTimerExpiry
  rw [h]

/-- Only a manager that is SETTLING has a run to start (R38). -/
theorem startIfSettled_stays (h : ¬(s.en.manager = true ∧ s.en.state = .settling ∧ s.en.runPending.isSome = true)) :
    s.startIfSettled = s := by
  unfold State.startIfSettled
  split
  · rename_i keep hk
    exact if_neg fun c => h ⟨c.1, c.2.1, by rw [hk]; rfl⟩
  · rfl

/-- A settled manager starts the run that waits (R38). -/
theorem startIfSettled_starts {keep : Bool} (hm : s.en.manager = true) (hst : s.en.state = .settling)
    (hs : s.en.settle = .expired) (hk : s.en.runPending = some keep) : s.startIfSettled = s.withRun keep := by
  unfold State.startIfSettled
  rw [hk]
  exact (if_pos ⟨hm, hst, hs⟩).trans (startRun_eq s keep)

/-- The part with the settle timer expired (R38). -/
def State.withSettled (s : State) : State := { s with en := { s.en with settle := .expired } }

theorem settleExpired_eq (s : State) : s.settleExpired = s.withSettled.startIfSettled := rfl

theorem Rest.withSettled (h : Rest s) : Rest s.withSettled := h.of_same {}

/-! ### The pass timer (R46) -/

/-- The part with the pass timer stopped. -/
def State.withoutPassTimer (s : State) : State := { s with en := { s.en with passTimer := .stopped } }

theorem Rest.withoutPassTimer (h : Rest s) : Rest s.withoutPassTimer := h.of_same {}

/-- Outside a PASS state the expiry only stops the timer (log 27). -/
theorem passTimerExpired_outside (h : s.en.manager = false ∨ s.en.state.pass = none) :
    s.passTimerExpired = s.withoutPassTimer := by
  unfold State.passTimerExpired
  split
  · rename_i hm hp
    rw [hm, hp] at h
    rcases h with h | h <;> cases h
  · rfl

theorem passTimerExpired_inPass {p : Pass} (hm : s.en.manager = true) (hp : s.en.state.pass = some p) :
    s.passTimerExpired = s.passExpired p := by
  unfold State.passTimerExpired
  rw [hm, hp]

/-- The pass is sent again as a further attempt, counted in PASS_RESENDS (R46). -/
def State.nextAttempt (s : State) : State :=
  { s with en := { s.en with
    attempt := s.en.attempt + 1
    counters := { s.en.counters with passResends := bump s.en.counters.passResends } } }

theorem passExpired_again (p : Pass) (h : s.en.attempt.toNat < 3) : s.passExpired p =
    s.withoutPassTimer.nextAttempt.withControl (s.withoutPassTimer.nextAttempt.enumFrame p.code) := by
  unfold State.passExpired
  exact (if_pos h).trans (presentControl_eq _ _)

theorem Rest.nextAttempt (h : Rest s) : Rest s.nextAttempt := h.of_same {}

/-- A record that arrives when nothing has fired yet in the event leaves its code alone to be taken (R147). -/
theorem recordFault_first (h : s.firings = []) (r : FaultRecord) :
    s.recordFault r = { s with ag := s.ag.withRecord r, firings := [5] } := by
  rw [recordFault_eq, h]
  rfl

/-- The run has failed: it is recorded, and FAULT_RECORDED and ENUM_FAILED fire (R46). -/
def State.withFailedRun (s : State) : State :=
  { s with
    en := { s.en with state := .failed }
    ag := s.ag.withRecord { kind := .enumFailed }
    firings := [5, 3] }

/-- After the third attempt the run fails (R46). -/
theorem passExpired_fails (p : Pass) (h : 3 ≤ s.en.attempt.toNat) (hf : s.firings = []) :
    s.passExpired p = s.withoutPassTimer.withFailedRun.runEnded := by
  have failed : ((s.withoutPassTimer.modEn fun e => { e with state := .failed }).recordFault
      (bareRecord .enumFailed)).fire codeEnumFailed = s.withoutPassTimer.withFailedRun := by
    rw [recordFault_first (by exact hf)]
    rfl
  rw [← failed]
  exact if_neg (Nat.not_lt.2 h)

/-- Settles O49: each timer by whether it runs, the settle timer by whether a run waits for it, and the pass timer by
the pass under way and its attempt. -/
theorem managerTimers : Obligations.ManagerTimers := by
  intro s hs b settled
  have hb : Rest b := hs.begin
  refine ⟨exec_settleTimerExpiry_idle, fun us ht => ⟨fun hn => ?_, fun keep hm hst hk => ⟨?_, ?_⟩⟩,
    fun ht => expiry_stopped ht s _, fun us ht => ?_⟩
  · have stays : b.settleExpired = b.withSettled :=
      (settleExpired_eq b).trans (startIfSettled_stays (by exact hn))
    exact (exec_settleTimerExpiry ht).trans (event_rest stays hb.withSettled)
  · have starts : b.settleExpired = b.withSettled.withRun keep :=
      (settleExpired_eq b).trans (startIfSettled_starts hm hst rfl hk)
    exact (exec_settleTimerExpiry ht).trans (next_congr starts)
  · rintro rfl
    exact endOfEvent_eq hb.withSettled.withRun
  · intro v
    have run : exec .passTimerExpiry s = .next b.passTimerExpired.endOfEvent := expiry_running ht s _
    refine ⟨fun hn => ?_, fun pass hm hp => ?_⟩
    · rw [run, passTimerExpired_outside (s := b) (hn.imp_right EnumState.pass_eq_none)]
      exact congrArg _ (endOfEvent_eq hb.withoutPassTimer)
    · obtain ⟨p, hpass, rfl⟩ := EnumState.pass_eq_some hp
      rw [run, passTimerExpired_inPass (s := b) hm hpass]
      refine ⟨fun hlt => ?_, fun hge => ⟨fun hk => ?_, fun keep hk => ?_⟩⟩
      · rw [passExpired_again (s := b) p hlt]
        exact congrArg _ (endOfEvent_eq (withControl_rest hb.withoutPassTimer.nextAttempt _))
      · rw [passExpired_fails (s := b) p hge hb.firings]
        exact next_congr (runEnded_none hk)
      · rw [passExpired_fails (s := b) p hge hb.firings]
        exact next_congr (runEnded_some hk)

/-! ### An ENUM at a manager (R24, R46, R48) -/

theorem classify_enum {f : Frame} {e : EnumFields} (hm : f.malformed = false) (hb : f.body = .enumPass e)
    (s : State) : s.classify f = s.takeEnum f e := by
  unfold State.classify
  rw [hm, hb]
  rfl

/-- An arrival changes neither enumeration nor the serial. -/
theorem arrival_en {i : Instr} {f : Frame} (h : Arrival i f s u) : u.en = s.en ∧ u.serial = s.serial := by
  obtain ⟨p, rfl, -⟩ := arrival_same h
  exact ⟨rfl, rfl⟩

theorem takeEnum_foreign {e : EnumFields} (hm : s.en.manager = true) (hs : e.serial ≠ s.serial) (f : Frame) :
    s.takeEnum f e = s.foreignEnum f.source := (if_pos hm).trans (if_neg hs)

theorem takeEnum_own {e : EnumFields} (hm : s.en.manager = true) (hs : e.serial = s.serial) (f : Frame) :
    s.takeEnum f e = s.takeBack e := (if_pos hm).trans (if_pos hs)

/-- Another manager's ENUM has been counted and recorded (R48). -/
def State.withForeignEnum (s : State) (source : NodeId) : State :=
  { s with
    en := { s.en with counters := { s.en.counters with foreignEnum := bump s.en.counters.foreignEnum } }
    ag := s.ag.withRecord
      { kind := .managerConflict, node := if source ≠ 0 ∧ source ≠ 31 then some source else none } }

theorem Rest.withForeignEnum (h : Rest s) (source : NodeId) : Rest (s.withForeignEnum source) := h.of_same {}

theorem foreignEnum_eq (h : s.firings = []) (source : NodeId) :
    s.foreignEnum source = { s.withForeignEnum source with firings := [5] } := by
  unfold State.foreignEnum
  rw [sourceRecord_eq]
  exact recordFault_first (s := s.countEn fun c => { c with foreignEnum := bump c.foreignEnum }) h _

/-- A frame that is not that of the pass under way changes nothing (R46). -/
theorem takeBack_stale {e : EnumFields}
    (h : ¬(e.attempt = s.en.attempt ∧ ((s.en.state = .passCensus ∧ e.pass = 1) ∨
      (s.en.state = .passAssign ∧ e.pass = 2) ∨ (s.en.state = .passPublish ∧ e.pass = 3)))) : s.takeBack e = s := by
  unfold State.takeBack
  cases hst : s.en.state with
  | idle | settling | done | failed => rfl
  | passCensus => exact if_neg fun c => h ⟨c.2, .inl ⟨hst, c.1⟩⟩
  | passAssign => exact if_neg fun c => h ⟨c.2, .inr (.inl ⟨hst, c.1⟩)⟩
  | passPublish => exact if_neg fun c => h ⟨c.2, .inr (.inr ⟨hst, c.1⟩)⟩

theorem takeBack_census {e : EnumFields} (hst : s.en.state = .passCensus) (hp : e.pass = 1)
    (ha : e.attempt = s.en.attempt) : s.takeBack e = s.censusReturned e := by
  unfold State.takeBack
  rw [hst]
  exact if_pos ⟨hp, ha⟩

theorem takeBack_assign {e : EnumFields} (hst : s.en.state = .passAssign) (hp : e.pass = 2)
    (ha : e.attempt = s.en.attempt) : s.takeBack e = s.assignReturned e := by
  unfold State.takeBack
  rw [hst]
  exact if_pos ⟨hp, ha⟩

theorem takeBack_publish {e : EnumFields} (hst : s.en.state = .passPublish) (hp : e.pass = 3)
    (ha : e.attempt = s.en.attempt) : s.takeBack e = s.publishReturned := by
  unfold State.takeBack
  rw [hst]
  exact if_pos ⟨hp, ha⟩

/-! ### The CENSUS and ASSIGN frames come back (R41, R43) -/

/-- A record that a flag of the returned frame brings, if it is set, as the first of its event (R41, R43). -/
def State.flagged (s : State) (flag : Bool) (kind : FaultKind) : State :=
  if flag = true then { s with ag := s.ag.withRecord { kind := kind }, firings := [5] } else s

@[simp] theorem flagged_en (s : State) (flag : Bool) (kind : FaultKind) : (s.flagged flag kind).en = s.en := by
  cases flag <;> rfl

theorem flagged_eq (h : s.firings = []) (flag : Bool) (kind : FaultKind) :
    (if flag then s.recordFault (bareRecord kind) else s) = s.flagged flag kind := by
  rw [recordFault_first h]
  rfl

theorem censusReturned_eq (h : s.firings = []) (e : EnumFields) : s.censusReturned e =
    ((s.takeRunSet e).flagged e.duplicate .duplicateId).managerTakesId.withPass .passAssign 2 := by
  unfold State.censusReturned
  dsimp only
  rw [flagged_eq (by exact h), beginPass_eq]
  rfl

theorem assignReturned_eq (h : s.firings = []) (e : EnumFields) : s.assignReturned e =
    ((s.takeRunSet e).flagged e.overflow .enumOverflow).withPass .passPublish 3 := by
  unfold State.assignReturned
  dsimp only
  rw [flagged_eq (by exact h), beginPass_eq]
  rfl

/-- A STRAPPED manager, or one that has an id, takes none (R41). -/
theorem managerTakesId_has (h : s.en.idMode = .strapped ∨ s.en.ownId ≠ 0) : s.managerTakesId = s := by
  refine if_neg fun ⟨mode, own⟩ => ?_
  rcases h with h | h
  · rw [h] at mode
    cases mode
  · exact h own

/-- An ASSIGNED manager without an id takes the lowest free one into the run set (R41). -/
theorem managerTakesId_takes {set : IdSet} {count : BitVec 5} {id : NodeId} (hm : s.en.idMode = .assigned)
    (ho : s.en.ownId = 0) (hset : s.en.runSet = set) (hcount : s.en.runCount = count)
    (hl : IdSet.lowestFree set = some id) : s.managerTakesId =
      { s with en := { s.en with
        ownId := id
        role := .provisional
        runSet := set ||| BitVec.twoPow 32 id.toNat
        runCount := count + 1 } } := by
  subst hset hcount
  unfold State.managerTakesId
  rw [if_pos ⟨hm, ho⟩, hl]
  rfl

/-- With no id free the overflow is recorded (R41). -/
theorem managerTakesId_overflow (hm : s.en.idMode = .assigned) (ho : s.en.ownId = 0)
    (hl : IdSet.lowestFree s.en.runSet = none) : s.managerTakesId =
      { s with ag := s.ag.withRecord { kind := .enumOverflow }, firings := s.firings ++ [5] } := by
  unfold State.managerTakesId
  rw [if_pos ⟨hm, ho⟩, hl]
  exact recordFault_eq s _

/-! ### The PUBLISH frame comes back (R45) -/

/-- The run is done: its set is published here too, and ENUM_DONE fires (R45). -/
def State.withDoneRun (s : State) : State :=
  { s with
    en := { s.en with
      passTimer := .stopped
      census := s.en.runSet
      censusCount := s.en.runCount
      role := if s.en.role = .provisional then .numbered else s.en.role
      state := .done }
    firings := [2] }

theorem publishReturned_eq (h : s.firings = []) : s.publishReturned = s.withDoneRun.runEnded := by
  unfold State.publishReturned State.fire
  rw [State.modEn_firings, h]
  rfl

/-- Settles O50, by the frame's serial, by whether it is that of the pass under way, and by that pass. -/
theorem enumReturns : Obligations.EnumReturns := by
  intro i f s u e hs ha hm hb hmgr
  have hu := arrival_rest ha hs
  have run := (arrival_exec ha).trans (next_congr (classify_enum hm hb u))
  obtain ⟨hen, hserial⟩ := arrival_en ha
  rw [← hen] at hmgr
  rw [← hen, ← hserial]
  refine ⟨fun hser => ⟨run.trans (next_congr ?_), (hu.withForeignEnum f.source).settled [5]⟩, fun hser => ?_⟩
  · exact (takeEnum_foreign hmgr hser f).trans (foreignEnum_eq hu.firings f.source)
  · rw [takeEnum_own hmgr hser] at run
    refine ⟨fun hstale => ?_, fun hatt => ?_⟩
    · rw [run, takeBack_stale hstale, endOfEvent_eq hu]
    · intro v
      refine ⟨fun hst hpass => ?_, fun hst hpass => ?_, fun hst hpass => ?_⟩
      · rw [takeBack_census hst hpass hatt, censusReturned_eq hu.firings] at run
        intro w
        have wen : w.en = v.en := flagged_en v e.duplicate .duplicateId
        have next {x : State} (h : w.managerTakesId = x) :
            exec i s = .next (x.withPass .passAssign 2).endOfEvent := by
          rw [← h]
          exact run
        refine ⟨fun hid => ?_, fun hmode hown => ⟨fun id h0 h31 hfree hlow => ?_, fun hfull => ?_⟩⟩
        · exact next (managerTakesId_has (by rw [wen]; exact hid))
        · exact next (managerTakesId_takes (by rw [wen]; exact hmode) (by rw [wen]; exact hown)
            (congrArg Enumeration.runSet wen) (congrArg Enumeration.runCount wen) (lowest_some h0 h31 hfree hlow))
        · exact next (managerTakesId_overflow (by rw [wen]; exact hmode) (by rw [wen]; exact hown)
            (by rw [wen]; exact lowest_none hfull))
      · rw [run, takeBack_assign hst hpass hatt, assignReturned_eq hu.firings]
        rfl
      · rw [run, takeBack_publish hst hpass hatt, publishReturned_eq hu.firings]
        exact ⟨fun hk => next_congr (runEnded_none hk), fun keep hk => next_congr (runEnded_some hk)⟩

end Sys2Proof.Machine
end

section
/-! SUPPORT. An ENUM at a node that is no manager: what each pass does to the node and to the frame (O51). -/

namespace Sys2Proof.Machine

variable {s u : State}

/-! ### The frame goes on (R24, R28) -/

theorem takeEnum_node {e : EnumFields} (h : s.en.manager = false) (f : Frame) : s.takeEnum f e =
    (s.processEnum e).1.forward { f with body := .enumPass (s.processEnum e).2 } :=
  if_neg (by rw [h]; exact Bool.false_ne_true)

/-- A node that is no manager forwards the frame with the fields that its pass has left in it (R24). -/
theorem exec_enum_node {i : Instr} {f : Frame} {e e' : EnumFields} {v : State} (ha : Arrival i f s u)
    (hm : f.malformed = false) (hb : f.body = .enumPass e) (hmgr : u.en.manager = false)
    (h : u.processEnum e = (v, e')) :
    exec i s = .next (v.withForward { f with body := .enumPass e' }).endOfEvent := by
  rw [arrival_exec ha, classify_enum hm hb, takeEnum_node hmgr, h, forward_eq]

theorem processEnum_census {e : EnumFields} (h : e.pass = 1) (s : State) : s.processEnum e = s.censusPass e :=
  if_pos h

theorem processEnum_assign {e : EnumFields} (h : e.pass = 2) (s : State) : s.processEnum e = s.assignPass e :=
  (if_neg (by rw [h]; decide)).trans (if_pos h)

theorem processEnum_publish {e : EnumFields} (h : e.pass = 3) (s : State) : s.processEnum e = s.publishPass e :=
  (if_neg (by rw [h]; decide)).trans (if_neg (by rw [h]; decide))

/-! ### CENSUS (R40) -/

/-- The node as it looks for its id in a CENSUS frame: without keep its requests and an ASSIGNED id are gone, and a
STRAPPED node without an id has taken its strapped id, unless that is withdrawn (R40, steps 1 and 2). -/
def State.countedNode (s : State) (keep : Bool) : State := (if keep then s else s.withoutIds).takeStrapped

theorem censusPass_eq (s : State) (e : EnumFields) : s.censusPass e =
    if (s.countedNode e.keep).en.ownId = noNode then (s.countedNode e.keep, e)
    else if IdSet.has e.taken (s.countedNode e.keep).en.ownId then
      ((s.countedNode e.keep).giveUpId e.keep, { e with duplicate := true })
    else (s.countedNode e.keep, e.add (s.countedNode e.keep).en.ownId) := by
  unfold State.censusPass State.countedNode
  rw [withoutIds_eq]

/-- A node without an id lets the frame pass (R40). -/
theorem censusPass_noId {e : EnumFields} (h : (s.countedNode e.keep).en.ownId = 0) :
    s.censusPass e = (s.countedNode e.keep, e) := by
  rw [censusPass_eq]
  exact if_pos h

/-- A node whose id is not in the set adds it (R40). -/
theorem censusPass_adds {e : EnumFields} (h : (s.countedNode e.keep).en.ownId ≠ 0)
    (ht : e.taken.getLsbD (s.countedNode e.keep).en.ownId.toNat = false) :
    s.censusPass e = (s.countedNode e.keep, e.add (s.countedNode e.keep).en.ownId) := by
  rw [censusPass_eq]
  exact (if_neg h).trans (if_neg (Bool.eq_false_iff.1 ht))

/-- A node whose id is in the set already gives it up (R40). -/
theorem censusPass_givesUp {e : EnumFields} (h : (s.countedNode e.keep).en.ownId ≠ 0)
    (ht : e.taken.getLsbD (s.countedNode e.keep).en.ownId.toNat = true) :
    s.censusPass e = ((s.countedNode e.keep).giveUpId e.keep, { e with duplicate := true }) := by
  rw [censusPass_eq]
  exact (if_neg h).trans (if_pos ht)

/-- The node without its id, which the DUPLICATE_ID record names (R40, step 3). -/
def State.withoutDuplicate (s : State) : State :=
  { s with
    en := { s.en with ownId := 0, role := .unnumbered }
    ag := s.ag.withRecord { kind := .duplicateId, node := some s.en.ownId }
    firings := s.firings ++ [5] }

/-- A STRAPPED node that gives up its id withdraws it (R37, R40). -/
def State.withHold (s : State) : State :=
  { s with en := { s.en with holdWithdrawn := s.en.holdWithdrawn || s.en.idMode == .strapped } }

/-- Under keep the requests end RENUMBERED with the id; without it they have ended already (R40, step 3). -/
theorem giveUpId_eq (s : State) (keep : Bool) : s.giveUpId keep =
    (if keep then s.withoutDuplicate.renumberAbort else s.withoutDuplicate).withHold := by
  unfold State.giveUpId
  dsimp only
  rw [recordFault_eq]
  rfl

/-! ### ASSIGN (R42) -/

/-- A node with an id is in the set, or adds itself (R42). -/
theorem assignPass_numbered (h : s.en.role ≠ .unnumbered) (e : EnumFields) :
    s.assignPass e = (s, if e.taken.getLsbD s.en.ownId.toNat = true then e else e.add s.en.ownId) := by
  refine (if_pos h).trans ?_
  unfold IdSet.has
  split <;> rfl

/-- An ASSIGNED node without an id takes the lowest free one (R42). -/
theorem assignPass_takes {e : EnumFields} {id : NodeId} (hr : s.en.role = .unnumbered) (hm : s.en.idMode = .assigned)
    (hl : IdSet.lowestFree e.taken = some id) : s.assignPass e = (s.setId id .provisional, e.add id) := by
  refine (if_neg (not_not_intro hr)).trans ?_
  rw [hm, hl]

/-- With no id free it sets the overflow flag (R42). -/
theorem assignPass_overflow {e : EnumFields} (hr : s.en.role = .unnumbered) (hm : s.en.idMode = .assigned)
    (hl : IdSet.lowestFree e.taken = none) : s.assignPass e = (s, { e with overflow := true }) := by
  refine (if_neg (not_not_intro hr)).trans ?_
  rw [hm, hl]

/-- A STRAPPED node without an id takes its strapped one, unless that is withdrawn or taken (R42). -/
theorem assignPass_strapped (hr : s.en.role = .unnumbered) (hm : s.en.idMode = .strapped) (e : EnumFields) :
    s.assignPass e =
      if s.en.holdWithdrawn = true ∨ e.taken.getLsbD s.en.strappedId.toNat = true then (s, e)
      else (s.setId s.en.strappedId .provisional, e.add s.en.strappedId) := by
  refine (if_neg (not_not_intro hr)).trans ?_
  rw [hm]
  simp only [IdSet.has, Bool.or_eq_true]

/-! ### PUBLISH (R44) -/

/-- The node with the census that the frame publishes (R44). -/
def State.withCensus (s : State) (e : EnumFields) : State :=
  { s with en := { s.en with census := e.taken, censusCount := e.count } }

/-- A node that is not PROVISIONAL takes the census alone (R44). -/
theorem publishPass_other (h : s.en.role ≠ .provisional) (e : EnumFields) :
    s.publishPass e = (s.withCensus e, e) := by
  unfold State.publishPass
  cases hr : s.en.role with
  | provisional => exact absurd hr h
  | numbered | unnumbered => rfl

/-- A PROVISIONAL node looks for its id in the set that the frame publishes (R44). -/
theorem publishPass_provisional (h : s.en.role = .provisional) (e : EnumFields) :
    s.publishPass e = if IdSet.has e.taken s.en.ownId then
      (((s.withCensus e).setId s.en.ownId .numbered).fire codeEnumDone, e)
      else ((s.withCensus e).setId 0 .unnumbered, e) := by
  unfold State.publishPass
  rw [h]
  rfl

/-- Its id is there: the node is NUMBERED, and ENUM_DONE fires (R44). -/
theorem publishPass_found {e : EnumFields} (h : s.en.role = .provisional) (hf : s.firings = [])
    (ht : e.taken.getLsbD s.en.ownId.toNat = true) :
    s.publishPass e = ({ (s.withCensus e).setId s.en.ownId .numbered with firings := [2] }, e) := by
  have fired : ((s.withCensus e).setId s.en.ownId .numbered).fire codeEnumDone =
      { (s.withCensus e).setId s.en.ownId .numbered with firings := s.firings ++ [2] } := rfl
  rw [publishPass_provisional h, fired, hf]
  exact if_pos ht

/-- Its id is not there: the node has lost it (R44). -/
theorem publishPass_lost {e : EnumFields} (h : s.en.role = .provisional)
    (ht : ¬e.taken.getLsbD s.en.ownId.toNat = true) :
    s.publishPass e = ((s.withCensus e).setId 0 .unnumbered, e) :=
  (publishPass_provisional h e).trans (if_neg ht)

/-- Settles O51, by the pass, and in each pass by what the node holds and what the frame's set holds. -/
theorem enumPasses : Obligations.EnumPasses := by
  intro i f s u e hs ha hm hb hmgr frame added withId
  have hu := arrival_rest ha hs
  obtain ⟨hen, -⟩ := arrival_en ha
  rw [← hen] at hmgr
  rw [← hen]
  have run {v : State} {e' : EnumFields} (h : u.processEnum e = (v, e')) :
      exec i s = .next (v.withForward (frame e')).endOfEvent := exec_enum_node ha hm hb hmgr h
  refine ⟨fun hp => ?_, fun hp => ?_, fun hp => ?_⟩
  · intro a b
    rw [processEnum_census hp] at run
    refine ⟨fun hid => run (censusPass_noId hid), fun hid ht => run (censusPass_adds hid ht), fun hid ht => ?_⟩
    refine (run (censusPass_givesUp hid ht)).trans ?_
    rw [giveUpId_eq]
    rfl
  · rw [processEnum_assign hp] at run
    refine ⟨fun hr => run (assignPass_numbered hr e), fun hr hmode => ⟨fun id h0 h31 hfree hlow => ?_, fun hfull => ?_⟩,
      fun hr hmode => ?_⟩
    · exact run (assignPass_takes hr hmode (lowest_some h0 h31 hfree hlow))
    · exact run (assignPass_overflow hr hmode (lowest_none hfull))
    · have pass := assignPass_strapped hr hmode e
      split
      · rename_i hno
        exact run (pass.trans (if_pos hno))
      · rename_i hyes
        exact run (pass.trans (if_neg hyes))
  · intro v
    rw [processEnum_publish hp] at run
    refine ⟨fun hr => run (publishPass_other hr e), fun hr => ?_⟩
    split
    · rename_i ht
      exact run (publishPass_found hr hu.firings ht)
    · rename_i ht
      exact run (publishPass_lost hr ht)

end Sys2Proof.Machine
end

section
/-! SUPPORT. The window tables stay sound at every step (O6). -/

namespace Sys2Proof.Machine

/-- Settles O6: SET_WINDOW fills an EMPTY entry only with one that its tests pass, and every other operation leaves the
ranges and sound states (`Keeps.windows`); a POWER-ON reset makes every entry EMPTY. -/
theorem stepKeepsWindowsSound : Obligations.StepKeepsWindowsSound := by
  intro s t hs h
  obtain rfl | ⟨c, rest, -, ⟨st, -, k⟩ | ⟨pin, k⟩⟩ := step_keeps h
  · exact hs
  · exact k.windows WindowsSound.reset
  · exact k.windows hs

end Sys2Proof.Machine
end

section
/-! SUPPORT. The lane orders as permutations of lanes: what each makes of a word and of a mask, and what two in sequence
make of them (R56; O13). -/

namespace Sys2Proof.Machine

/-! ### One order -/

theorem laneWord_ofLanes (b0 b1 b2 b3 : BitVec 8) :
    laneWord .asIs (ofLanes b0 b1 b2 b3) = ofLanes b0 b1 b2 b3 ∧
      laneWord .swapWord (ofLanes b0 b1 b2 b3) = ofLanes b3 b2 b1 b0 ∧
      laneWord .swapHalves (ofLanes b0 b1 b2 b3) = ofLanes b2 b3 b0 b1 ∧
      laneWord .swapPairs (ofLanes b0 b1 b2 b3) = ofLanes b1 b0 b3 b2 := by
  simp [laneWord, lane_ofLanes]

/-- The bits of a mask that is given by its bits. -/
theorem maskBit_append : ∀ m0 m1 m2 m3 : BitVec 1,
    maskBit (m3 ++ m2 ++ m1 ++ m0) 0 = m0 ∧ maskBit (m3 ++ m2 ++ m1 ++ m0) 1 = m1 ∧
      maskBit (m3 ++ m2 ++ m1 ++ m0) 2 = m2 ∧ maskBit (m3 ++ m2 ++ m1 ++ m0) 3 = m3 := by
  decide

/-- A mask is the mask of its bits. -/
theorem append_maskBit : ∀ m : Mask, maskBit m 3 ++ maskBit m 2 ++ maskBit m 1 ++ maskBit m 0 = m := by
  decide

theorem laneMask_append (m0 m1 m2 m3 : BitVec 1) :
    laneMask .asIs (m3 ++ m2 ++ m1 ++ m0) = m3 ++ m2 ++ m1 ++ m0 ∧
      laneMask .swapWord (m3 ++ m2 ++ m1 ++ m0) = m0 ++ m1 ++ m2 ++ m3 ∧
      laneMask .swapHalves (m3 ++ m2 ++ m1 ++ m0) = m1 ++ m0 ++ m3 ++ m2 ∧
      laneMask .swapPairs (m3 ++ m2 ++ m1 ++ m0) = m2 ++ m3 ++ m0 ++ m1 := by
  simp [laneMask, maskBit_append]

/-! ### Two orders -/

theorem laneCompose_comm (o p : LaneOrder) : laneCompose o p = laneCompose p o := by
  cases o <;> cases p <;> rfl

theorem laneCompose_self (o : LaneOrder) : laneCompose o o = .asIs := by
  cases o <;> rfl

theorem laneCompose_asIs (o : LaneOrder) : laneCompose o .asIs = o := rfl

/-- Two orders in sequence are their composite: each permutes the lanes. -/
theorem laneWord_laneWord (o p : LaneOrder) (w : Word) : laneWord p (laneWord o w) = laneWord (laneCompose o p) w := by
  rw [← ofLanes_lane w]
  cases o <;> cases p <;> simp only [laneCompose, laneWord_ofLanes]

theorem laneMask_laneMask (o p : LaneOrder) (m : Mask) : laneMask p (laneMask o m) = laneMask (laneCompose o p) m := by
  rw [← append_maskBit m]
  cases o <;> cases p <;> simp only [laneCompose, laneMask_append]

/-- Settles O13: an order moves the lanes that `laneWord_ofLanes` and `laneMask_append` name, and the rest follows from
the table of composites, which is symmetric with AS_IS on its diagonal. -/
theorem laneOrders : Obligations.LaneOrders := by
  refine ⟨laneWord_ofLanes, laneMask_append, fun o w m => ⟨?_, ?_⟩, fun o p w m => ?_, rfl, rfl, rfl,
    laneCompose_asIs, laneCompose_self⟩
  · rw [laneWord_laneWord, laneCompose_self]
    rfl
  · rw [laneMask_laneMask, laneCompose_self]
    rfl
  · refine ⟨laneWord_laneWord o p w, laneMask_laneMask o p m, ?_, ?_⟩
    · rw [laneWord_laneWord, laneWord_laneWord, laneCompose_comm]
    · rw [laneMask_laneMask, laneMask_laneMask, laneCompose_comm]

end Sys2Proof.Machine
end

section
/-! SUPPORT. The matches on sound tables: at most one ACTIVE entry of a table holds an address, so that the entry found
is the one that the rules speak of (R55, R58, R60; O25, O26). -/

namespace Sys2Proof.Machine

variable {s : State} {w : WindowTables} {i j : Fin 16}

/-! ### Ranges -/

/-- Two ranges overlap when each begins before the other's end (R55). -/
theorem rangesOverlap_iff (base k base' k' : Nat) :
    rangesOverlap base k base' k' = true ↔ base < base' + 2 ^ k' ∧ base' < base + 2 ^ k := by
  simp [rangesOverlap]

/-- An address is in the range of `2 ^ k` bytes at `base`. -/
def InRange (base k a : Nat) : Prop := base ≤ a ∧ a ≤ base + 2 ^ k - 1

theorem inRange_iff {base k a : Nat} : InRange base k a ↔ base ≤ a ∧ a < base + 2 ^ k := by
  have := Nat.two_pow_pos k
  unfold InRange
  omega

/-- Ranges with a common address overlap. -/
theorem rangesOverlap_of_common {base k base' k' a : Nat} (h : InRange base k a) (h' : InRange base' k' a) :
    rangesOverlap base k base' k' = true := by
  obtain ⟨lo, hi⟩ := inRange_iff.1 h
  obtain ⟨lo', hi'⟩ := inRange_iff.1 h'
  exact (rangesOverlap_iff ..).2 ⟨lo.trans_lt hi', lo'.trans_lt hi⟩

/-- A range holds the words at an address when it holds their first and their last byte. -/
theorem holdsRange_iff {base k addr n : Nat} (hn : 1 ≤ n) :
    holdsRange base k addr n = true ↔ base ≤ addr ∧ addr + 4 * n - 1 ≤ base + 2 ^ k - 1 := by
  have := Nat.two_pow_pos k
  simp only [holdsRange, Bool.and_eq_true, decide_eq_true_eq]
  omega

/-! ### The outbound match (R58) -/

/-- The entry is ACTIVE and its local range holds the address. -/
def OwtEntry.Covers (e : OwtEntry) (a : Nat) : Prop := e.state = .active ∧ InRange e.localBase.toNat e.sizeExp a

/-- Of sound tables at most one ACTIVE outbound entry holds an address (R55). -/
theorem WindowsSound.owt_unique (h : WindowsSound w) {a : Nat} (hi : (w.owt.get i).Covers a)
    (hj : (w.owt.get j).Covers a) : j = i := by
  obtain ⟨-, -, apart, -⟩ := h
  obtain ⟨ai, ri⟩ := hi
  obtain ⟨aj, rj⟩ := hj
  by_contra hne
  rcases apart j i hne with e | e | e
  · rw [aj] at e
    cases e
  · rw [ai] at e
    cases e
  · rw [rangesOverlap_of_common rj ri] at e
    cases e

/-- The test by which the outbound match looks for its entry. -/
theorem covers_iff (e : OwtEntry) (a : Nat) :
    (e.state == .active && e.localBase.toNat ≤ a && a < e.localBase.toNat + 2 ^ e.sizeExp) = true ↔ e.Covers a := by
  simp only [OwtEntry.Covers, inRange_iff, Bool.and_eq_true, beq_iff_eq, decide_eq_true_eq, and_assoc]

theorem owtAt_none {a : Nat} (h : ∀ i, ¬(s.wt.owt.get i).Covers a) : s.owtAt a = none :=
  List.find?_eq_none.2 fun i _ hi => h i ((covers_iff ..).1 hi)

theorem owtAt_some (hw : WindowsSound s.wt) {a : Nat} (h : (s.wt.owt.get i).Covers a) : s.owtAt a = some i :=
  find_unique ((covers_iff ..).2 h) fun _ hj => hw.owt_unique h ((covers_iff ..).1 hj)

/-- The entry does not allow the direction (R58). -/
theorem not_allowed_iff (e : OwtEntry) (dir : Direction) :
    (!(match dir with | .read => e.readAllowed | .write => e.writeAllowed)) = true ↔
      (dir = .read ∧ e.readAllowed = false) ∨ (dir = .write ∧ e.writeAllowed = false) := by
  cases dir <;> simp

/-- Settles O25: the entry that is found is the one named (`owtAt_some`), and its tests are the table's. -/
theorem outboundMatchVerdict : Obligations.OutboundMatchVerdict := by
  intro s dir addr count hw
  refine ⟨fun h => ?_, fun i ha hlo hhi hn => ?_⟩
  · unfold State.outboundMatch
    rw [owtAt_none h]
  · have past : (!holdsRange (s.wt.owt.get i).localBase.toNat (s.wt.owt.get i).sizeExp addr.toNat count) = true ↔
        (s.wt.owt.get i).localBase.toNat + 2 ^ (s.wt.owt.get i).sizeExp - 1 < addr.toNat + 4 * count - 1 := by
      rw [Bool.not_eq_true', ← Bool.not_eq_true, holdsRange_iff hn, not_and, not_le]
      exact ⟨fun h => h hlo, fun h _ => h⟩
    unfold State.outboundMatch
    rw [owtAt_some hw ⟨ha, hlo, hhi⟩]
    exact if_congr past rfl (if_congr (not_allowed_iff ..) rfl rfl)

/-! ### The inbound match (R60) -/

/-- The entry is ACTIVE and its ring range holds every byte of the words at an address. -/
def IwtEntry.Holds (e : IwtEntry) (addr count : Nat) : Prop :=
  e.state = .active ∧ e.ringBase.toNat ≤ addr ∧ addr + 4 * count - 1 ≤ e.ringBase.toNat + 2 ^ e.sizeExp - 1

/-- An entry that holds a request holds its first byte. -/
theorem IwtEntry.Holds.inRange {e : IwtEntry} {addr count : Nat} (h : e.Holds addr count) (hn : 1 ≤ count) :
    InRange e.ringBase.toNat e.sizeExp addr := by
  obtain ⟨-, lo, hi⟩ := h
  exact ⟨lo, by omega⟩

/-- Of sound tables at most one ACTIVE inbound entry holds a request (R55). -/
theorem WindowsSound.iwt_unique (h : WindowsSound w) {addr count : Nat} (hn : 1 ≤ count)
    (hi : (w.iwt.get i).Holds addr count) (hj : (w.iwt.get j).Holds addr count) : j = i := by
  obtain ⟨-, -, -, apart⟩ := h
  by_contra hne
  rcases apart j i hne with e | e | e
  · rw [hj.1] at e
    cases e
  · rw [hi.1] at e
    cases e
  · rw [rangesOverlap_of_common (hj.inRange hn) (hi.inRange hn)] at e
    cases e

/-- The test by which the inbound match looks for its entry. -/
theorem holds_iff (e : IwtEntry) (addr : Nat) {count : Nat} (hn : 1 ≤ count) :
    (e.state == .active && holdsRange e.ringBase.toNat e.sizeExp addr count) = true ↔ e.Holds addr count := by
  rw [Bool.and_eq_true, beq_iff_eq, holdsRange_iff hn]
  rfl

/-- Settles O26: the entry that is found is the only one that holds the request, and it is asked for its sources and
kinds. -/
theorem inboundMatchVerdict : Obligations.InboundMatchVerdict := by
  intro s kind source addr count hw hn
  refine ⟨fun h => ?_, fun i ha hlo hhi => ?_⟩
  · unfold State.inboundMatch
    rw [List.find?_eq_none.2 fun i _ hi => h i ((holds_iff _ _ hn).1 hi)]
  · have hi : (s.wt.iwt.get i).Holds addr.toNat count := ⟨ha, hlo, hhi⟩
    unfold State.inboundMatch
    rw [find_unique ((holds_iff _ _ hn).2 hi) fun _ hj => hw.iwt_unique hn hi ((holds_iff _ _ hn).1 hj)]
    refine if_congr ?_ rfl rfl
    rw [Bool.and_eq_true]
    cases kind <;> rfl

end Sys2Proof.Machine
end

section
/-! SUPPORT. The commands on a window entry, SET_WINDOW and RETIRE_WINDOW by the lock's owner: what each answers, by
the entry that its first word names (R63, R64, R142; O35, O36). -/

namespace Sys2Proof.Machine

variable {s v : State} {q : MgmtRequest} {i : Fin 16}

/-! ### The tests of SET_WINDOW (R63) -/

/-- The size and the alignment that SET_WINDOW asks of an entry, at a local base and a ring base (R63). -/
def AlignedTo (k base ringBase : Nat) : Prop := 12 ≤ k ∧ k ≤ 30 ∧ base % 2 ^ k = 0 ∧ ringBase % 2 ^ k = 0

theorem OwtEntry.invalid_iff (e : OwtEntry) :
    (!e.valid) = true ↔ ¬(AlignedTo e.sizeExp e.localBase.toNat e.ringBase.toNat ∧ e.dest ≠ 0 ∧ e.dest ≠ 31) := by
  rw [Bool.not_eq_true', ← Bool.not_eq_true]
  simp only [OwtEntry.valid, AlignedTo, Bool.and_eq_true, decide_eq_true_eq, beq_iff_eq, isNode_iff, and_assoc]

theorem IwtEntry.invalid_iff (e : IwtEntry) :
    (!e.valid) = true ↔ ¬(AlignedTo e.sizeExp e.localBase.toNat e.ringBase.toNat ∧
      e.sources.getLsbD 0 = false ∧ e.sources.getLsbD 31 = false) := by
  rw [Bool.not_eq_true', ← Bool.not_eq_true]
  simp only [IwtEntry.valid, IdSet.valid, AlignedTo, Bool.and_eq_true, decide_eq_true_eq, beq_iff_eq,
    Bool.not_eq_true', and_assoc]

/-- A test on the entries of a table, put to its list, is met when some entry of the table meets it. -/
theorem toList_any_iff {α : Type} {n : Nat} (t : Table α n) (p : α → Bool) :
    t.toList.any p = true ↔ ∃ j, p (t.get j) = true := by
  simp only [List.any_eq_true, Vector.mem_toList_iff, Vector.mem_iff_getElem, Vector.get_eq_getElem]
  constructor
  · rintro ⟨_, ⟨j, hj, rfl⟩, hp⟩
    exact ⟨⟨j, hj⟩, hp⟩
  · rintro ⟨j, hp⟩
    exact ⟨_, ⟨j.val, j.isLt, rfl⟩, hp⟩

theorem WindowTables.owtOverlaps_iff (w : WindowTables) (base k : Nat) :
    w.owtOverlaps base k = true ↔ ∃ j, (w.owt.get j).state ≠ .empty ∧
      rangesOverlap base k (w.owt.get j).localBase.toNat (w.owt.get j).sizeExp = true := by
  simp only [WindowTables.owtOverlaps, toList_any_iff, Bool.and_eq_true, bne_iff_ne]

theorem WindowTables.iwtOverlaps_iff (w : WindowTables) (base k : Nat) :
    w.iwtOverlaps base k = true ↔ ∃ j, (w.iwt.get j).state ≠ .empty ∧
      rangesOverlap base k (w.iwt.get j).ringBase.toNat (w.iwt.get j).sizeExp = true := by
  simp only [WindowTables.iwtOverlaps, toList_any_iff, Bool.and_eq_true, bne_iff_ne]

/-! ### SET_WINDOW (R63) -/

/-- The window tables have no part in the agent's readiness. -/
theorem AgentReady.modWt (h : AgentReady v) (f : WindowTables → WindowTables) : AgentReady (v.modWt f) := h.same {}

/-- A command with the three tests of SET_WINDOW answers the first that fails, and with its effect OK. -/
theorem AgentReady.answer_tests {u : State} {used wrong clash : Prop} [Decidable used] [Decidable wrong] [Decidable clash]
    (h : AgentReady v) (hu : AgentReady u) (code : BitVec 8) (q : MgmtRequest) :
    (v.answerTested code q (if used then .error .inUse else if wrong then .error .badValue
      else if clash then .error .overlap else .ok u)).endOfEvent =
      if used then v.withFailure code q .inUse else if wrong then v.withFailure code q .badValue
      else if clash then v.withFailure code q .overlap else u.withOk code q [] := by
  split_ifs
  · exact h.failure code q .inUse (by decide)
  · exact h.failure code q .badValue (by decide)
  · exact h.failure code q .overlap (by decide)
  · exact hu.ok code q []

theorem exec_setWindow (h : AgentReady s) (hn : q.operands.length = 6) (ho : s.ag.lockOwner = q.source) :
    exec (.setWindow q) s =
      .next (s.tookRequest.answerTested 5 q (s.tookRequest.setWindowTo q)).endOfEvent :=
  h.command formSetWindow q (State.setWindow q) hn (fun _ => ho) (fun hm => by cases hm)

theorem setWindowTo_unnamed (h : windowName (operand q 1) = none) (v : State) :
    v.setWindowTo q = .error .badIndex := by
  unfold State.setWindowTo
  rw [h]

theorem setWindowTo_outbound (h : windowName (operand q 1) = some (.outbound, i)) (v : State) :
    v.setWindowTo q =
      if (v.wt.owt.get i).state ≠ .empty then .error .inUse
      else if !(owtOperand q).valid then .error .badValue
      else if v.wt.owtOverlaps (owtOperand q).localBase.toNat (owtOperand q).sizeExp then .error .overlap
      else .ok (v.modWt fun w => { w with owt := modAt w.owt i fun _ => owtOperand q }) := by
  unfold State.setWindowTo
  rw [h]
  rfl

theorem setWindowTo_inbound (h : windowName (operand q 1) = some (.inbound, i)) (v : State) :
    v.setWindowTo q =
      if (v.wt.iwt.get i).state ≠ .empty then .error .inUse
      else if !(iwtOperand q).valid then .error .badValue
      else if v.wt.iwtOverlaps (iwtOperand q).ringBase.toNat (iwtOperand q).sizeExp then .error .overlap
      else .ok (v.modWt fun w => { w with iwt := modAt w.iwt i fun _ => iwtOperand q }) := by
  unfold State.setWindowTo
  rw [h]
  rfl

/-- Settles O35: the entry that W1 names, the value test in the fields of the operand words, and the overlap test as a
search of the table. -/
theorem setWindow : Obligations.SetWindow := by
  refine ⟨rangesOverlap_iff, fun q s h hn ho => ?_⟩
  have run := exec_setWindow h hn ho
  refine ⟨fun hbad => ?_, fun i hi ht => ?_, fun i hi ht => ?_⟩
  · rw [run, setWindowTo_unnamed (windowName_none hbad)]
    exact congrArg _ (h.took.failure 5 q .badIndex (by decide))
  · rw [run, setWindowTo_outbound (windowName_outbound hi ht), h.took.answer_tests (h.took.modWt _)]
    exact congrArg _ (if_congr Iff.rfl rfl (if_congr (OwtEntry.invalid_iff _) rfl
      (if_congr (WindowTables.owtOverlaps_iff ..) rfl rfl)))
  · rw [run, setWindowTo_inbound (windowName_inbound hi ht), h.took.answer_tests (h.took.modWt _)]
    exact congrArg _ (if_congr Iff.rfl rfl (if_congr (IwtEntry.invalid_iff _) rfl
      (if_congr (WindowTables.iwtOverlaps_iff ..) rfl rfl)))

/-! ### RETIRE_WINDOW (R64) -/

theorem exec_retireWindow (h : AgentReady s) (hn : q.operands.length = 1) (ho : s.ag.lockOwner = q.source) :
    exec (.retireWindow q) s = .next (s.tookRequest.retireWindow q).endOfEvent :=
  h.command formRetireWindow q (State.retireWindow q) hn (fun _ => ho) (fun hm => by cases hm)

theorem operand_one (q : MgmtRequest) : operand q 1 = q.operands.headD 0 := by
  cases h : q.operands <;> simp [operand, h]

theorem retireWindow_unnamed (h : windowName (q.operands.headD 0) = none) (v : State) :
    v.retireWindow q = v.answerFail 6 q .badIndex := by
  unfold State.retireWindow
  rw [operand_one, h]
  rfl

theorem retireWindow_named {t : WindowTable} (h : windowName (q.operands.headD 0) = some (t, i)) (v : State) :
    v.retireWindow q = v.retireEntry t i q := by
  unfold State.retireWindow
  rw [operand_one, h]

/-- The tables with the named entry in the state `st`, and otherwise the same. -/
def WindowTables.withState (w : WindowTables) (i : Fin 16) (st : WindowState) : WindowTable → WindowTables
  | .outbound => { w with owt := modAt w.owt i fun e => { e with state := st } }
  | .inbound => { w with iwt := modAt w.iwt i fun e => { e with state := st } }

/-- Retiring an ACTIVE entry moves its state alone: to EMPTY, or to RETIRING with requests in flight (R52). -/
theorem WindowTables.retire_active {w : WindowTables} {t : WindowTable} (h : (w.stateOf t i).1 = .active) :
    w.retire t i = w.withState i (if (w.stateOf t i).2 = 0 then .empty else .retiring) t := by
  cases t with
  | outbound =>
    have move : (w.owt.get i).retire =
        { w.owt.get i with state := if (w.owt.get i).inFlight = 0 then .empty else .retiring } :=
      congrArg (fun st => { w.owt.get i with state := st }) (if_pos h)
    exact congrArg (fun e => { w with owt := w.owt.set i.val e i.isLt }) move
  | inbound =>
    have move : (w.iwt.get i).retire =
        { w.iwt.get i with state := if (w.iwt.get i).inFlight = 0 then .empty else .retiring } :=
      congrArg (fun st => { w.iwt.get i with state := st }) (if_pos h)
    exact congrArg (fun e => { w with iwt := w.iwt.set i.val e i.isLt }) move

/-- What RETIRE_WINDOW leaves, by the state of the entry and its requests in flight (R64). -/
def State.retireOutcome (v : State) (t : WindowTable) (i : Fin 16) (q : MgmtRequest) (st : WindowState) (n : Nat) :
    State :=
  match st with
  | .empty => v.withOk 6 q []
  | .retiring => v.withFailure 6 q .wrongState
  | .active =>
    if n = 0 then (v.modWt fun w => w.withState i .empty t).withOk 6 q []
    else (v.modWt fun w => w.withState i .retiring t).modAg fun a => a.defer t i q

theorem AgentReady.retireEntry_eq (h : AgentReady v) (t : WindowTable) (i : Fin 16) (q : MgmtRequest) :
    (v.retireEntry t i q).endOfEvent = v.retireOutcome t i q (v.wt.stateOf t i).1 (v.wt.stateOf t i).2 := by
  have move : (v.wt.stateOf t i).1 = .active → (v.modWt fun w => w.retire t i) =
      v.modWt fun w => w.withState i (if (v.wt.stateOf t i).2 = 0 then .empty else .retiring) t :=
    fun ha => congrArg (fun w => { v with wt := w }) (WindowTables.retire_active ha)
  unfold State.retireEntry
  generalize v.wt.stateOf t i = entry at move ⊢
  obtain ⟨st, n⟩ := entry
  cases st with
  | empty => exact h.ok 6 q []
  | retiring => exact h.failure 6 q .wrongState (by decide)
  | active =>
    dsimp only [State.retireOutcome]
    rw [move rfl]
    by_cases hz : n = 0
    · simp only [if_pos hz]
      exact (h.modWt _).ok 6 q []
    · simp only [if_neg hz]
      exact rest_eq (h.1.of_same {}) rfl

/-- Settles O36: the entry that W1 names, and what is left by its state (`AgentReady.retireEntry_eq`). -/
theorem retireWindow : Obligations.RetireWindow := by
  intro q s h hn ho
  have run := exec_retireWindow h hn ho
  refine ⟨fun hbad => ?_, fun i hi ht => ?_, fun i hi ht => ?_⟩
  · rw [run, retireWindow_unnamed (windowName_none hbad), h.took.failure 6 q .badIndex (by decide)]
  · rw [run, retireWindow_named (windowName_outbound hi ht)]
    exact congrArg _ (h.took.retireEntry_eq .outbound i q)
  · rw [run, retireWindow_named (windowName_inbound hi ht)]
    exact congrArg _ (h.took.retireEntry_eq .inbound i q)

end Sys2Proof.Machine
end

section
/-! SUPPORT. A tracker entry freed (O44), and what the tracker makes of a response (O46) and of an expiry (O47). -/

namespace Sys2Proof.Machine

variable {s : State} {t : Tag} {w : Fin 16} {d : DeferredRetire}

/-! ### The report of a drained window (R65, R138) -/

theorem reportDrained_unawaited {x : WindowTable}
    (h : ¬(s.ag.state = .deferred ∧ ∃ d, s.ag.deferred = some d ∧ d.table = x ∧ d.index = w)) :
    s.reportDrained x w = s := by
  unfold State.reportDrained
  split
  · rename_i d hs hd
    exact if_neg fun named => h ⟨hs, d, hd, named⟩
  · rfl

/-- The report that a deferred retire waits for answers it with OK. -/
theorem reportDrained_awaited (hs : s.ag.state = .deferred) (hd : s.ag.deferred = some d) :
    s.reportDrained d.table d.index = (s.modAg fun a => a.leaveDeferred d.requester).replied
      (replyFrame d.requester d.dest d.tag d.gen 6 .ok []) .plain := by
  unfold State.reportDrained
  rw [hs, hd]
  exact (if_pos ⟨rfl, rfl⟩).trans (agentPlace_eq ..)

/-- A reply that is placed has no part in the tracker. -/
theorem replied_modRt (s : State) (g : Tracker → Tracker) (f : Frame) (p : Purpose) :
    (s.replied f p).modRt g = (s.modRt g).replied f p := by
  unfold State.replied
  dsimp only
  by_cases full : 8 ≤ s.port.responseQ.length
  · rw [if_pos full]
    exact (if_pos full).symm
  · rw [if_neg full]
    refine Eq.trans ?_ (if_neg full).symm
    by_cases kept : s.port.link = .up ∨ f.dest = s.en.ownId
    · rw [if_pos kept]
      exact (if_pos kept).symm
    · rw [if_neg kept]
      exact (if_neg kept).symm

theorem reportDrained_modRt (s : State) (g : Tracker → Tracker) (x : WindowTable) (w : Fin 16) :
    (s.reportDrained x w).modRt g = (s.modRt g).reportDrained x w := by
  by_cases h : s.ag.state = .deferred ∧ ∃ d, s.ag.deferred = some d ∧ d.table = x ∧ d.index = w
  · obtain ⟨hs, d, hd, rfl, rfl⟩ := h
    rw [reportDrained_awaited hs hd, reportDrained_awaited (s := s.modRt g) hs hd, replied_modRt]
    rfl
  · rw [reportDrained_unawaited h, reportDrained_unawaited (s := s.modRt g) h]

/-! ### A window's count falls (R62) -/

theorem OwtEntry.fall_eq (e : OwtEntry) : e.fall =
    { e with
      inFlight := e.inFlight - 1
      state := if e.state = .retiring ∧ e.inFlight ≤ 1 then .empty else e.state } := by
  unfold OwtEntry.fall WindowState.drainedAt
  simp only [Nat.sub_eq_zero_iff_le]

/-- The state in which the count of an outbound window has fallen, and its draining is not yet reported. -/
def State.fallen (s : State) (w : Fin 16) : State :=
  s.modWt fun x => { x with owt := modAt x.owt w OwtEntry.fall }

theorem fallen_eq (s : State) (w : Fin 16) : s.fallen w =
    { s with wt := { s.wt with
      owt := s.wt.owt.set w.val
        { s.wt.owt.get w with
          inFlight := (s.wt.owt.get w).inFlight - 1
          state := if (s.wt.owt.get w).state = .retiring ∧ (s.wt.owt.get w).inFlight ≤ 1 then .empty
            else (s.wt.owt.get w).state } w.isLt } } :=
  congrArg (fun e => { s with wt := { s.wt with owt := s.wt.owt.set w.val e w.isLt } }) (OwtEntry.fall_eq _)

/-- The fall of the count drains the window: it is RETIRING, with one request in flight at most (R62). -/
def OwtEntry.drains (e : OwtEntry) : Prop := e.state = .retiring ∧ e.inFlight ≤ 1

theorem fallOwt_undrained (h : ¬(s.wt.owt.get w).drains) : s.fallOwt w = s.fallen w :=
  if_neg fun ⟨hr, hn⟩ => h ⟨hr, Nat.sub_eq_zero_iff_le.1 hn⟩

theorem fallOwt_drained (h : (s.wt.owt.get w).drains) : s.fallOwt w = (s.fallen w).reportDrained .outbound w :=
  if_pos ⟨h.1, Nat.sub_eq_zero_iff_le.2 h.2⟩

theorem fallOwt_modRt (s : State) (g : Tracker → Tracker) (w : Fin 16) :
    (s.fallOwt w).modRt g = (s.modRt g).fallOwt w := by
  by_cases h : (s.wt.owt.get w).drains
  · rw [fallOwt_drained h, fallOwt_drained (s := s.modRt g) h, reportDrained_modRt]
    rfl
  · rw [fallOwt_undrained h, fallOwt_undrained (s := s.modRt g) h]
    rfl

/-! ### Freeing (R79, R88) -/

/-- The state in which an entry is FREE, its frame withdrawn and its tag on the free list: all of the freeing but the
fall of the window's count. -/
def State.entryFreed (s : State) (t : Tag) : State :=
  ((s.modEntry t TrackerEntry.freed).withdraw t).modRt fun r =>
    { r with allocOrder := r.allocOrder.erase t, freeList := r.freeList ++ [t] }

theorem freeEntry_windowless (h : (s.entry t).window = none) : s.freeEntry t = s.entryFreed t := by
  unfold State.freeEntry
  rw [h]
  rfl

theorem freeEntry_window (h : (s.entry t).window = some w) : s.freeEntry t = (s.entryFreed t).fallOwt w := by
  unfold State.freeEntry
  rw [h]
  exact fallOwt_modRt ..

theorem entryFreed_eq (s : State) (t : Tag) : s.entryFreed t =
    { s with
      rt := { s.rt with
        entries := s.rt.entries.set t.val
          { s.rt.entries.get t with state := .free, responseTimer := .stopped, backoffTimer := .stopped } t.isLt
        freeList := s.rt.freeList ++ [t]
        allocOrder := s.rt.allocOrder.erase t }
      port := { s.port with offer := s.port.offer.filter fun o => decide (o.tag ≠ t) } } := by
  have other : (fun o : RequestOffer => o.tag != t) = fun o => decide (o.tag ≠ t) :=
    funext fun o => (decide_not (p := o.tag = t)).symm
  unfold State.entryFreed State.withdraw
  rw [other]
  rfl

/-- Settles O44, by the entry's window: its count falls, and where the fall drains it the agent may wait for the
report. -/
theorem freeingAnEntry : Obligations.FreeingAnEntry := by
  intro s t
  refine ⟨fun h => (freeEntry_windowless h).trans (entryFreed_eq s t), fun w hw => ?_⟩
  have fallen := fallen_eq (s.entryFreed t) w
  refine ⟨fun quiet => ?_, fun d hdrained hs hd ht hi => ?_⟩
  · have counted : s.freeEntry t = (s.entryFreed t).fallen w := by
      rw [freeEntry_window hw]
      by_cases h : (s.wt.owt.get w).drains
      · exact (fallOwt_drained (s := s.entryFreed t) h).trans
          (reportDrained_unawaited fun waits => quiet ⟨h, waits⟩)
      · exact fallOwt_undrained (s := s.entryFreed t) h
    rw [counted, fallen, entryFreed_eq]
  · subst hi
    rw [freeEntry_window hw, fallOwt_drained (s := s.entryFreed t) hdrained, ← ht,
      reportDrained_awaited (s := (s.entryFreed t).fallen d.index) hs hd, fallen, entryFreed_eq]
    rfl

/-! ### The timers of an entry (R81, R82) -/

theorem ReqKind.resent_iff {k : ReqKind} : k.resent = true ↔ k = .read ∨ k = .postedWrite := by
  cases k <;> simp [ReqKind.resent]

theorem retryLeft_iff : s.retryLeft t = true ↔ (s.entry t).retry < s.ag.params.retryLimit.toNat := decide_eq_true_iff

/-- A timeout has been counted (R92). -/
def State.countTimeout (s : State) : State := s.countRt fun c => { c with timeouts := bump c.timeouts }

theorem responseExpired_again (h : ((s.entry t).kind.resent && s.retryLeft t) = true) :
    s.responseExpired t = s.countTimeout.withBackoff t := (if_pos h).trans (withBackoff_eq ..)

theorem responseExpired_ends (h : ¬((s.entry t).kind.resent && s.retryLeft t) = true) :
    s.responseExpired t = s.countTimeout.failEntry t .timeout := if_neg h

theorem exec_responseTimer_stopped (h : (s.entry t).responseTimer = .stopped) :
    exec (.responseTimerExpiry t) s = .next s := expiry_stopped h ..

theorem exec_responseTimer_running {us : Nat} (h : (s.entry t).responseTimer = .running us) :
    exec (.responseTimerExpiry t) s = .next (s.begin.responseExpired t).endOfEvent := expiry_running h ..

theorem exec_backoffTimer_stopped (h : (s.entry t).backoffTimer = .stopped) :
    exec (.backoffTimerExpiry t) s = .next s := expiry_stopped h ..

theorem exec_backoffTimer_running {us : Nat} (h : (s.entry t).backoffTimer = .running us) :
    exec (.backoffTimerExpiry t) s = .next (s.begin.modEntry t TrackerEntry.toReady).endOfEvent := expiry_running h ..

/-- Settles O47: a running response timer is counted, and the entry is sent again or ends by its kind. -/
theorem retryTimers : Obligations.RetryTimers := by
  intro s t _
  have again : ((s.begin.entry t).kind.resent && s.begin.retryLeft t) = true ↔
      ((s.entry t).kind = .read ∨ (s.entry t).kind = .postedWrite) ∧
        (s.entry t).retry < s.ag.params.retryLimit.toNat :=
    (Bool.and_eq_true ..).to_iff.trans (and_congr ReqKind.resent_iff retryLeft_iff)
  refine ⟨exec_responseTimer_stopped, fun us hr => ⟨fun h => ?_, fun h hk => ?_, fun h hk => ?_⟩,
    exec_backoffTimer_stopped, fun us hr => exec_backoffTimer_running hr⟩
  · exact (exec_responseTimer_running hr).trans (next_congr (responseExpired_again (again.2 h)))
  · exact (exec_responseTimer_running hr).trans
      (next_congr ((responseExpired_ends (mt again.1 h)).trans (failEntry_other _ hk)))
  · exact (exec_responseTimer_running hr).trans
      (next_congr ((responseExpired_ends (mt again.1 h)).trans (failEntry_posted _ hk)))

/-! ### Which response answers which request (R9) -/

/-- The codes of a REFUSE that can answer a request of a kind (R9, R10). -/
def ReqKind.refusedBy (kind : ReqKind) (code : BitVec 4) : Prop :=
  code = 1 ∨ (code = 2 ∧ kind = .postedWrite) ∨
    ((code = 3 ∨ code = 4) ∧ (kind = .read ∨ kind = .write ∨ kind = .postedWrite)) ∨
    (code = 5 ∧ (kind = .read ∨ kind = .write))

theorem finalCodeOf_isSome : ∀ code : BitVec 4,
    (finalCodeOf code).isSome = true ↔ code = 3 ∨ code = 4 ∨ code = 5 := by
  decide

theorem answers_refuse {kind : ReqKind} {n : Nat} {f : Frame} {ref : Ref} {why : RefuseFields}
    (h : f.body = .refuse ref why) : answers kind n f = true ↔ kind.refusedBy why.code := by
  unfold answers ReqKind.refusedBy
  rw [h]
  cases kind <;> simp [retryBusyCode, retryOrderCode, finalCodeOf_isSome, or_assoc]

theorem answers_iff (kind : ReqKind) (n : Nat) (f : Frame) : answers kind n f = true ↔
    match f.body with
    | .readData _ => kind = .read ∧ f.length.toNat = n
    | .accept _ => kind = .write ∨ kind = .postedWrite ∨ kind = .event
    | .mgmtReply _ => kind = .mgmtRequest
    | .refuse _ why => kind.refusedBy why.code
    | _ => False := by
  cases hb : f.body with
  | refuse ref why => exact answers_refuse hb
  | readData ref | accept ref | mgmtReply ref => unfold answers; rw [hb]; cases kind <;> simp
  | read | write | postedWrite | event | mgmtRequest | enumPass | ringReset => unfold answers; rw [hb]; simp

/-! ### A response for this node (R27, R83) -/

theorem responseMatches_iff {ref : Ref} {f : Frame} :
    s.responseMatches ref f = true ↔
      (s.entry ref.tag).state ≠ .free ∧ (s.entry ref.tag).gen = ref.gen ∧ (s.entry ref.tag).dest = f.source ∧
        (s.entry ref.tag).sentOnce = true ∧ answers (s.entry ref.tag).kind (s.entry ref.tag).length f = true := by
  simp [State.responseMatches, and_assoc]

theorem takeResponse_stale {ref : Ref} {f : Frame} (h : ¬s.responseMatches ref f = true) :
    s.takeResponse ref f = s.stale := if_neg h

theorem takeResponse_matched {ref : Ref} {f : Frame} (h : s.responseMatches ref f = true) :
    s.takeResponse ref f = s.answered ref.tag f := if_pos h

/-- The frame is a response with the tag and generation of `ref` (R8). -/
def Body.respondsTo (b : Body) (ref : Ref) : Prop :=
  b = .readData ref ∨ b = .accept ref ∨ b = .mgmtReply ref ∨ ∃ why, b = .refuse ref why

theorem consume_response {f : Frame} {ref : Ref} (h : f.body.respondsTo ref) (s : State) :
    s.consume f = s.takeResponse ref f := by
  unfold State.consume
  obtain h | h | h | ⟨why, h⟩ := h <;> rw [h]

theorem Body.respondsTo.notControl {b : Body} {ref : Ref} (h : b.respondsTo ref) : b.isControl = false := by
  obtain h | h | h | ⟨why, h⟩ := h <;> rw [h] <;> rfl

theorem route_forMe {f : Frame} (h : s.forMe f) : s.route f = s.consume f :=
  (if_neg fun back => back.2.2 h.2).trans (if_pos h)

theorem classify_response {f : Frame} {ref : Ref} (hm : f.malformed = false) (hf : s.forMe f)
    (h : f.body.respondsTo ref) : s.classify f = s.takeResponse ref f := by
  rw [classify_route hm h.notControl, route_forMe hf, consume_response h]

/-- A response that arrives for this node is put to the tracker, which the arrival itself has not touched. -/
theorem arrival_response {i : Instr} {f : Frame} {u : State} {ref : Ref} (ha : Arrival i f s u)
    (hm : f.malformed = false) (hf : s.forMe f) (h : f.body.respondsTo ref) :
    exec i s = .next (u.takeResponse ref f).endOfEvent ∧ s.rt = u.rt ∧ s.ag = u.ag := by
  obtain ⟨p, rfl, -⟩ := arrival_same ha
  exact ⟨(arrival_exec ha).trans (next_congr (classify_response hm hf h)), rfl, rfl⟩

/-! ### What a matching response does (R84, R85) -/

theorem answered_data {f : Frame} {ref : Ref} (h : f.body = .readData ref ∨ f.body = .mgmtReply ref) :
    s.answered t f = s.completeEntry .ok f.payload t := by
  unfold State.answered
  obtain h | h := h <;> rw [h]

theorem answered_accept {f : Frame} {ref : Ref} (h : f.body = .accept ref) (hk : (s.entry t).kind ≠ .postedWrite) :
    s.answered t f = s.completeEntry .ok [] t := by
  unfold State.answered
  rw [h]
  exact if_neg hk

theorem answered_refuse {f : Frame} {ref : Ref} {why : RefuseFields} (h : f.body = .refuse ref why) :
    s.answered t f = s.refused t why := by
  unfold State.answered
  rw [h]

/-- The final refusal codes, as R178 numbers them. -/
theorem finalCodeOf_final {code : BitVec 4} {c : FinalCode}
    (h : (code = 3 ∧ c = .noWindow) ∨ (code = 4 ∧ c = .denied) ∨ (code = 5 ∧ c = .localFault)) :
    finalCodeOf code = some c ∧ code ≠ retryBusyCode ∧ code ≠ retryOrderCode := by
  obtain ⟨rfl, rfl⟩ | ⟨rfl, rfl⟩ | ⟨rfl, rfl⟩ := h <;> decide

theorem refused_final {why : RefuseFields} {code : FinalCode} (hk : (s.entry t).kind ≠ .postedWrite)
    (h : (why.code = 3 ∧ code = .noWindow) ∨ (why.code = 4 ∧ code = .denied) ∨ (why.code = 5 ∧ code = .localFault)) :
    s.refused t why = s.completeEntry (.refused code) [] t := by
  obtain ⟨hcode, hbusy, horder⟩ := finalCodeOf_final h
  unfold State.refused
  dsimp only
  rw [if_neg hbusy, if_neg horder, hcode]
  exact if_neg hk

theorem refused_busy {why : RefuseFields} (h : why.code = 1) : s.refused t why = s.retryBusy t := if_pos h

/-- A request out of retries has been counted (R92, log 35). -/
def State.countExhausted (s : State) : State := s.countRt fun c => { c with exhausted := bump c.exhausted }

theorem retryBusy_sent (h : (s.entry t).retry < s.ag.params.retryLimit.toNat) (hs : (s.entry t).state = .sent) :
    s.retryBusy t = s.withBackoff t :=
  (if_pos (retryLeft_iff.2 h)).trans ((if_pos hs).trans (withBackoff_eq ..))

theorem retryBusy_unsent (h : (s.entry t).retry < s.ag.params.retryLimit.toNat) (hs : (s.entry t).state ≠ .sent) :
    s.retryBusy t = s.modEntry t fun e => { e with retry := e.retry + 1 } :=
  (if_pos (retryLeft_iff.2 h)).trans (if_neg hs)

theorem retryBusy_spent (h : s.ag.params.retryLimit.toNat ≤ (s.entry t).retry) :
    s.retryBusy t = s.countExhausted.failEntry t .retryExhausted :=
  if_neg (mt retryLeft_iff.1 (Nat.not_lt.2 h))

/-- Settles O46: an unmatched response is stale, and a matched one acts by its kind and, refused for want of room, by
the retries left. -/
theorem trackerAnswers : Obligations.TrackerAnswers := by
  refine ⟨answers_iff, fun i f s u ref hs ha hm hf hb => ?_⟩
  obtain ⟨run, hrt, hag⟩ := arrival_response ha hm hf hb
  rw [hrt, hag]
  have hmatch := responseMatches_iff (s := u) (ref := ref) (f := f)
  have act := fun h => run.trans (next_congr (takeResponse_matched (hmatch.2 h)))
  refine ⟨fun h => ?_, fun h hd => (act h).trans (next_congr (answered_data hd)),
    fun h hacc hk => (act h).trans (next_congr (answered_accept hacc hk)),
    fun h why code hr hk hc => (act h).trans (next_congr ((answered_refuse hr).trans (refused_final hk hc))),
    fun h why hr hc => ?_⟩
  · rw [run, takeResponse_stale (mt hmatch.1 h), endOfEvent_eq (arrival_rest ha hs).stale]
    rfl
  · have retry := (act h).trans (next_congr ((answered_refuse hr).trans (refused_busy hc)))
    exact ⟨fun hl hst => retry.trans (next_congr (retryBusy_sent hl hst)),
      fun hl hst => retry.trans (next_congr (retryBusy_unsent hl hst)),
      fun hl hk => retry.trans (next_congr ((retryBusy_spent hl).trans (failEntry_other _ hk))),
      fun hl hk => retry.trans (next_congr ((retryBusy_spent hl).trans (failEntry_posted _ hk)))⟩

end Sys2Proof.Machine
end

section
/-! SUPPORT. How a destination's unaccepted posted writes go on (O48): what an answer to one of them does, and what each
operation on the run leaves. -/

namespace Sys2Proof.Machine

variable {s : State} {t : Tag} {d : NodeId} {r : Result}

/-! ### What an answer to a posted write does (R99, R100, R101, R102) -/

theorem answered_accept_posted {f : Frame} {ref : Ref} (h : f.body = .accept ref)
    (hk : (s.entry t).kind = .postedWrite) : s.answered t f = s.cumulativeAccept t := by
  unfold State.answered
  rw [h]
  exact if_pos hk

/-- What follows an acceptance (R97, R98): STALLED is settled, and the entries in ORDER_WAIT are released. -/
def State.settledRun (s : State) (d : NodeId) : State := (s.settleStalled d).releaseOrderWait d

theorem cumulativeAccept_eq (s : State) (t : Tag) :
    s.cumulativeAccept t =
      (s.acceptOldest (s.entry t).dest ((s.postedRun (s.entry t).dest).idxOf t + 1)).settledRun (s.entry t).dest := rfl

theorem refused_posted {why : RefuseFields} {code : FinalCode} (hk : (s.entry t).kind = .postedWrite)
    (h : (why.code = 3 ∧ code = .noWindow) ∨ (why.code = 4 ∧ code = .denied)) :
    s.refused t why = s.refusePosted t code := by
  obtain ⟨hcode, hbusy, horder⟩ := finalCodeOf_final (h.imp_right .inl)
  unfold State.refused
  dsimp only
  rw [if_neg hbusy, if_neg horder, hcode]
  exact if_pos hk

/-- A refusal by window in one update: the older writes are accepted, the refused one completes, is recorded and leaves
the run. -/
theorem refusePosted_eq (s : State) (t : Tag) (code : FinalCode) :
    let d := (s.entry t).dest
    let a := (s.acceptOldest d ((s.postedRun d).idxOf t)).completeEntry (.refused code) [] t
    let b := a.ord.send.get d.toFin
    s.refusePosted t code = State.settledRun
      { a with
        ag := a.ag.withRecord (s.postedLost (.refused code) t)
        firings := a.firings ++ [codeFaultRecorded]
        ord := { a.ord with
          send := a.ord.send.set d.toNat { b with count := b.count - 1, oldest := b.oldest + 1 } d.isLt } } d := by
  intro d a b
  unfold State.refusePosted
  dsimp only
  rw [recordFault_eq]
  rfl

theorem refused_unsynced {why : RefuseFields} (h : why.code = 2) (hu : why.unsynced = true) :
    s.refused t why = s.unsyncedGoBack (s.entry t).dest := by
  unfold State.refused
  rw [h]
  exact if_pos hu

theorem refused_order {why : RefuseFields} (h : why.code = 2) (hu : why.unsynced = false) :
    s.refused t why = s.goBack (s.entry t).dest why.seq := by
  unfold State.refused
  rw [h, hu]
  rfl

/-- How many of a destination's unaccepted writes come before a sequence (R101). -/
def State.aheadOf (s : State) (d : NodeId) (e : Seq) : Nat := (e - (s.sendOf d).oldest).toNat

theorem goBack_oldest {e : Seq} (h : s.aheadOf d e = 0) : s.goBack d e = s.returnRun d := if_pos h

theorem goBack_within {e : Seq} (h1 : 1 ≤ s.aheadOf d e) (h2 : s.aheadOf d e ≤ (s.sendOf d).count) :
    s.goBack d e = ((s.acceptOldest d (s.aheadOf d e)).settledRun d).returnRun d :=
  (if_neg (Nat.one_le_iff_ne_zero.1 h1)).trans (if_pos h2)

theorem goBack_outside {e : Seq} (h : (s.sendOf d).count < s.aheadOf d e) : s.goBack d e = s.unsyncedGoBack d :=
  (if_neg (Nat.ne_of_gt (Nat.zero_lt_of_lt h))).trans (if_neg (Nat.not_le.2 h))

/-- A refusal for order that names no sequence of the run, or none at all, asks for synchronisation (R102). -/
theorem refused_outside {why : RefuseFields} (h : why.code = 2)
    (ho : why.unsynced = true ∨ (s.sendOf (s.entry t).dest).count < s.aheadOf (s.entry t).dest why.seq) :
    s.refused t why = s.unsyncedGoBack (s.entry t).dest := by
  cases hu : why.unsynced with
  | true => exact refused_unsynced h hu
  | false => exact (refused_order h hu).trans (goBack_outside (ho.resolve_left (by simp [hu])))

/-- An answer that arrives for a posted write that waits for one is the answer to that write. -/
theorem arrival_answersPosted {i : Instr} {f : Frame} {u : State} {ref : Ref} (ha : Arrival i f s u)
    (hm : f.malformed = false) (hf : s.forMe f) (hst : (s.entry ref.tag).state ≠ .free)
    (hg : (s.entry ref.tag).gen = ref.gen) (hd : (s.entry ref.tag).dest = f.source)
    (hs : (s.entry ref.tag).sentOnce = true) (hk : (s.entry ref.tag).kind = .postedWrite)
    (hb : f.body = .accept ref ∨ ∃ why, f.body = .refuse ref why ∧ (why.code = 2 ∨ why.code = 3 ∨ why.code = 4)) :
    exec i s = .next (u.answered ref.tag f).endOfEvent := by
  have responds : f.body.respondsTo ref := .inr (hb.imp_right fun ⟨why, h, _⟩ => .inr ⟨why, h⟩)
  have accepted : answers (s.entry ref.tag).kind (s.entry ref.tag).length f = true := by
    obtain h | ⟨why, h, hc⟩ := hb
    · rw [answers_iff, h]
      exact .inr (.inl hk)
    · rw [answers_refuse h, hk]
      exact .inr (hc.imp (⟨·, rfl⟩) fun hc => .inl ⟨hc, .inr (.inr rfl)⟩)
  obtain ⟨run, -⟩ := arrival_response ha hm hf responds
  obtain ⟨p, rfl, -⟩ := arrival_same ha
  exact run.trans (next_congr (takeResponse_matched (responseMatches_iff.2 ⟨hst, hg, hd, hs, accepted⟩)))

/-! ### The run, and the entries it leaves (R95, R97, R98, R101, R102) -/

theorem isPostedTo_eq (s : State) (d : NodeId) : s.isPostedTo d = fun x =>
    decide ((s.rt.entries.get x).kind = .postedWrite ∧ (s.rt.entries.get x).dest = d) :=
  funext fun _ => Bool.eq_iff_iff.2 (isPostedTo_iff.trans decide_eq_true_iff.symm)

theorem postedRun_eq (s : State) (d : NodeId) : s.postedRun d = s.rt.allocOrder.filter fun x =>
    (s.rt.entries.get x).kind = .postedWrite ∧ (s.rt.entries.get x).dest = d := by
  unfold State.postedRun
  rw [isPostedTo_eq]

theorem mem_postedRun {x : Tag} : x ∈ s.postedRun d ↔
    x ∈ s.rt.allocOrder ∧ (s.rt.entries.get x).kind = .postedWrite ∧ (s.rt.entries.get x).dest = d :=
  List.mem_filter.trans (and_congr_right fun _ => isPostedTo_iff)

theorem settleStalled_eq (s : State) (d : NodeId) : s.settleStalled d = s.modSend d fun e =>
    { e with stalled := (s.postedRun d).head?.any fun x => (s.rt.entries.get x).state = .backoff } := by
  unfold State.settleStalled State.oldestPosted
  cases (s.postedRun d).head? <;> rfl

theorem releaseOrderWait_eq (s : State) (d : NodeId) : s.releaseOrderWait d = s.mapEntries fun x e =>
    if x ∈ s.rt.allocOrder.takeWhile (fun y =>
          ¬((s.rt.entries.get y).kind = .postedWrite ∧ (s.rt.entries.get y).dest = d)) ∧
        e.dest = d ∧ e.state = .orderWait then e.toReady else e := by
  rw [releaseOrderWait_map, isPostedTo_eq]
  simp only [decide_not]

/-! ### Writes accepted, and the run failed (R99, R103) -/

theorem acceptOldest_eq (s : State) (d : NodeId) (n : Nat) : s.acceptOldest d n =
    (((s.postedRun d).take n).foldl (State.completeEntry .ok []) s).modSend d fun _ =>
      { s.sendOf d with
        count := (s.sendOf d).count - n
        oldest := (s.sendOf d).oldest + BitVec.ofNat 6 n } := by
  unfold State.acceptOldest State.modSend State.modOrd State.sendOf modAt
  rw [(foldAbort' .ok ((s.postedRun d).take n) s).ord]

/-- The records of a run that is lost name its destination. -/
theorem postedRun_lost (s : State) (d : NodeId) (r : Result) :
    (s.postedRun d).map (s.postedLost r) = (s.postedRun d).map fun x =>
      { kind := .postedLost
        node := some d
        tag := some x
        address := some (s.rt.entries.get x).addr
        detail := some (.result r) } := by
  refine List.map_congr_left fun x hx => ?_
  obtain ⟨-, -, hd⟩ := mem_postedRun.1 hx
  unfold State.postedLost State.entry
  rw [hd]

/-- The state in which a destination's run has failed, before what waited behind it is released. -/
def State.lostRun (s : State) (d : NodeId) (r : Result) : State :=
  let v := (s.postedRun d).foldl (State.completeEntry r []) s
  let lost := (s.postedRun d).map (s.postedLost r)
  { v with
    ag := lost.foldl Agent.withRecord v.ag
    firings := v.firings ++ lost.map fun _ => codeFaultRecorded
    ord := { v.ord with send := v.ord.send.set d.toNat (s.sendOf d).failed d.isLt } }

theorem failRun_eq (s : State) (d : NodeId) (r : Result) : s.failRun d r = (s.lostRun d r).releaseOrderWait d := by
  unfold State.failRun State.lostRun State.modSend State.modOrd State.sendOf modAt
  dsimp only
  rw [recordFaults_eq, (foldAbort' r (s.postedRun d) s).ord]
  rfl

/-- A part of a run completes, where no tag is allocated twice: its entries are FREE, their tags leave the allocation
order for the free list, and all else of the tracker and of the sequence tables is as it was. -/
theorem completeAll_leaves (h : s.rt.allocOrder.Nodup) {l : List Tag} (hl : l.Sublist (s.postedRun d)) (r : Result) :
    let v := l.foldl (State.completeEntry r []) s
    v.rt.freeList = s.rt.freeList ++ l ∧ v.rt.allocOrder = (s.rt.allocOrder.filter fun x => !l.contains x) ∧
      (∀ x ∈ l, v.rt.entries.get x = (s.rt.entries.get x).freed) ∧
      (∀ x, x ∉ l → v.rt.entries.get x = s.rt.entries.get x) ∧ v.ord = s.ord := by
  have freed := foldAbort' r l s
  have nodup : l.Nodup := (h.filter _).sublist hl
  exact ⟨freed.free, freed.order.trans (foldErase l _ h), foldComplete_exact r l s nodup, freed.same, freed.ord⟩

/-- After a run has failed no posted write to its destination is left in the allocation order. -/
theorem lostRun_noneLeft (h : s.rt.allocOrder.Nodup) (r : Result) {x : Tag}
    (hx : x ∈ (s.lostRun d r).rt.allocOrder) : (s.lostRun d r).isPostedTo d x = false := by
  obtain ⟨-, order, -, same, -⟩ := completeAll_leaves h (List.Sublist.refl (s.postedRun d)) r
  have left : x ∈ s.rt.allocOrder ∧ x ∉ s.postedRun d := by
    have hx' := order ▸ hx
    simpa using hx'
  rw [Bool.eq_false_iff]
  intro posted
  rw [isPostedTo_iff, show (s.lostRun d r).rt.entries.get x = s.rt.entries.get x from same x left.2] at posted
  exact left.2 (mem_postedRun.2 ⟨left.1, posted⟩)

/-- What waited behind a run that failed is released (R98, R103). -/
theorem failRun_releases (h : s.rt.allocOrder.Nodup) (r : Result) {x : Tag} (hx : x ∈ s.rt.allocOrder)
    (hn : x ∉ s.postedRun d) (hd : (s.rt.entries.get x).dest = d) (hw : (s.rt.entries.get x).state = .orderWait) :
    (s.failRun d r).rt.entries.get x = (s.rt.entries.get x).toReady := by
  obtain ⟨-, order, -, same, -⟩ := completeAll_leaves h (List.Sublist.refl (s.postedRun d)) r
  have kept : (s.lostRun d r).rt.entries.get x = s.rt.entries.get x := same x hn
  have listed : x ∈ (s.lostRun d r).rt.allocOrder := by
    rw [show (s.lostRun d r).rt.allocOrder = _ from order]
    simp [hx, hn]
  have all : (s.lostRun d r).rt.allocOrder.takeWhile (fun y => !(s.lostRun d r).isPostedTo d y) =
      (s.lostRun d r).rt.allocOrder :=
    List.takeWhile_eq_self_iff.2 fun y hy => by rw [lostRun_noneLeft h r hy]; rfl
  rw [failRun_eq, releaseOrderWait_map, mapEntries_get, all, kept]
  exact if_pos ⟨listed, hd, hw⟩

/-- Settles O48: an answer by its kind, through what answers to posted writes do; and each operation by its lemma. -/
theorem postedRunEnds : Obligations.PostedRunEnds := by
  refine ⟨fun i f s u ref _ ha hm hf => ?_, fun s d => ⟨postedRun_eq s d, returnRun_map s d, unsyncedGoBack_map s d,
    settleStalled_eq s d, releaseOrderWait_eq s d, acceptOldest_eq s d, fun r => ?_,
    fun h l hl r => completeAll_leaves h hl r, fun h r x hx hn hd hw => failRun_releases h r hx hn hd hw⟩⟩
  · intro t e d q settled hst hg hd hs hk
    have act := arrival_answersPosted ha hm hf hst hg hd hs hk
    obtain ⟨p, rfl, -⟩ := arrival_same ha
    refine ⟨fun h => ?_, fun why code h hc => ?_, fun why h hc => ⟨fun ho => ?_, fun hu h0 => ?_, fun hu h1 hn => ?_⟩⟩
    · exact (act (.inl h)).trans (next_congr ((answered_accept_posted h (by exact hk)).trans (cumulativeAccept_eq ..)))
    · exact (act (.inr ⟨why, h, .inr (hc.imp And.left And.left)⟩)).trans
        (next_congr ((answered_refuse h).trans ((refused_posted (by exact hk) hc).trans (refusePosted_eq ..))))
    · exact (act (.inr ⟨why, h, .inl hc⟩)).trans (next_congr ((answered_refuse h).trans (refused_outside hc ho)))
    · exact (act (.inr ⟨why, h, .inl hc⟩)).trans
        (next_congr ((answered_refuse h).trans ((refused_order hc hu).trans (goBack_oldest h0))))
    · exact (act (.inr ⟨why, h, .inl hc⟩)).trans
        (next_congr ((answered_refuse h).trans ((refused_order hc hu).trans (goBack_within h1 hn))))
  · rw [failRun_eq]
    unfold State.lostRun
    rw [postedRun_lost]
    rfl

end Sys2Proof.Machine
end

section
/-! SUPPORT. A POSTED_WRITE for this node (O28): the verdict of its Receive Sequence entry, and what the end of the event
makes of each verdict. -/

namespace Sys2Proof.Machine

variable {s : State}

/-! ### A response placed while the sequence tables change -/

/-- A change of the sequence tables that rest cannot notice: it keeps the Send Sequence Table. -/
def KeepsSend (g : SequenceTables → SequenceTables) : Prop := ∀ o, (g o).send = o.send

theorem Ready.modOrd (h : Ready s) {g : SequenceTables → SequenceTables} (hg : KeepsSend g) : Ready (s.modOrd g) :=
  h.of_same { send := hg s.ord }

theorem Rest.modOrd (h : Rest s) {g : SequenceTables → SequenceTables} (hg : KeepsSend g) : Rest (s.modOrd g) :=
  h.of_same { send := hg s.ord }

theorem countInb_counted (s : State) (g : InboundCounters → InboundCounters) : s.countInb g = s.counted g := rfl

theorem Rest.counted (h : Rest s) (g : InboundCounters → InboundCounters) : Rest (s.counted g) := h.of_same {}

theorem counted_modOrd (s : State) (c : InboundCounters → InboundCounters) (g : SequenceTables → SequenceTables) :
    (s.counted c).modOrd g = (s.modOrd g).counted c := rfl

/-- A response is placed without regard to the sequence tables. -/
theorem insertResponse_modOrd (s : State) (r : Response) (g : SequenceTables → SequenceTables) :
    (s.insertResponse r).modOrd g = (s.modOrd g).insertResponse r := by
  unfold State.insertResponse
  by_cases h : s.port.link = .up ∨ r.frame.dest = s.en.ownId
  · rw [if_pos h]
    exact (if_pos h).symm
  · rw [if_neg h]
    refine Eq.trans ?_ (if_neg h).symm
    cases r.purpose <;> rfl

/-! ### The verdict of the Receive Sequence entry (R106) -/

/-- `q` is one of the 16 sequences before `e` (R94). -/
def behindBy16 (q e : Seq) : Prop := 1 ≤ (e - q).toNat ∧ (e - q).toNat ≤ 16

theorem withinBefore_iff {q e : Seq} : withinBefore q e = true ↔ behindBy16 q e := by
  simp [withinBefore, behindBy16]

section
variable {r : RecvEntry} {ref : Ref} {q : Seq}

theorem check_sync_repeated (h : r.synced = true ∧ r.mark = some ⟨ref.tag, ref.gen, q⟩ ∧ behindBy16 q r.expected) :
    r.check ref q true = .duplicate := by
  simp [RecvEntry.check, withinBefore_iff, h]

theorem check_sync_new (h : ¬(r.synced = true ∧ r.mark = some ⟨ref.tag, ref.gen, q⟩ ∧ behindBy16 q r.expected)) :
    r.check ref q true = .admitSync := by
  simpa [RecvEntry.check, withinBefore_iff, and_assoc] using h

theorem check_unsynced (h : r.synced = false) : r.check ref q false = .refuse none := by
  simp [RecvEntry.check, h]

theorem check_expected (h : r.synced ≠ false) (hq : q = r.expected) : r.check ref q false = .admitInOrder := by
  simp [RecvEntry.check, h, hq]

theorem check_behind (h : r.synced ≠ false) (hq : q ≠ r.expected) (hb : behindBy16 q r.expected) :
    r.check ref q false = .duplicate := by
  simp [RecvEntry.check, withinBefore_iff, h, hq, hb]

theorem check_ahead (h : r.synced ≠ false) (hq : q ≠ r.expected) (hb : ¬behindBy16 q r.expected) :
    r.check ref q false = .refuse (some r.expected) := by
  simp [RecvEntry.check, withinBefore_iff, h, hq, hb]

end

/-! ### The sequence check's own answers (R106) -/

/-- The sequence check answers a write itself and counts the answer; with no room for it the write is discarded. -/
def State.seqAnswered (s : State) (f : Frame) (body : Body) (count : OrderingCounters → OrderingCounters) : State :=
  if 8 ≤ s.port.responseQ.length then s.counted fun c => { c with responseOverrun := bump c.responseOverrun }
  else ({ s with ord := { s.ord with counters := count s.ord.counters } } : State).withResponse
    (Frame.answer f.source f.dest body)

/-- A write discarded for want of room for its answer has been counted (R127). -/
theorem Rest.overrun (h : Rest s) :
    s.overrun.endOfEvent = s.counted fun c => { c with responseOverrun := bump c.responseOverrun } := by
  unfold State.overrun
  rw [countInb_counted, endOfEvent_eq (h.counted _)]

theorem responseRoom_not {s : State} (h : 8 ≤ s.port.responseQ.length) : ¬s.responseRoom = true :=
  mt State.responseRoom_iff.1 (Nat.not_lt.2 h)

theorem Rest.seqAnswer (h : Rest s) (f : Frame) (body : Body) (count : OrderingCounters → OrderingCounters) :
    (s.seqAnswer f body count).endOfEvent = s.seqAnswered f body count := by
  unfold State.seqAnswer State.placeResponse State.seqAnswered
  by_cases full : 8 ≤ s.port.responseQ.length
  · rw [if_neg (responseRoom_not full), if_pos full]
    exact h.overrun
  · have room := Nat.not_le.1 full
    rw [if_pos (State.responseRoom_iff.2 room), if_neg full]
    have counted : Rest (s.countOrd count) := h.modOrd fun _ => rfl
    exact (congrArg State.endOfEvent (insertResponse_modOrd ..)).trans (counted.placed room _)

/-! ### Admission, and what the sequence tables are told (R107, R127 to R129) -/

/-- The sequence tables take note of a write that admission took or refused by window, and of no other (R107). -/
def State.toldOutcome (r : State × Admission) (g : SequenceTables → SequenceTables) : State :=
  match r.2 with
  | .taken | .refusedWindow => r.1.modOrd g
  | .refusedBusy | .discarded => r.1

theorem toldOutcome_taken (v : State) (g : SequenceTables → SequenceTables) :
    State.toldOutcome (v, .taken) g = v.modOrd g := rfl

theorem toldOutcome_refusedWindow (v : State) (g : SequenceTables → SequenceTables) :
    State.toldOutcome (v, .refusedWindow) g = v.modOrd g := rfl

theorem toldOutcome_refusedBusy (v : State) (g : SequenceTables → SequenceTables) :
    State.toldOutcome (v, .refusedBusy) g = v := rfl

theorem toldOutcome_discarded (v : State) (g : SequenceTables → SequenceTables) :
    State.toldOutcome (v, .discarded) g = v := rfl

/-- A write in order is noted: the entry of its source expects the next sequence. -/
def noteInOrder (source : NodeId) (q : Seq) (o : SequenceTables) : SequenceTables :=
  { o with recv := modAt o.recv source.toFin (·.advance q) }

theorem noteInOrder_keepsSend (source : NodeId) (q : Seq) : KeepsSend (noteInOrder source q) := fun _ => rfl

/-- A write under the sync flag is noted: the entry of its source is synchronised to it. -/
def noteSync (source : NodeId) (ref : Ref) (q : Seq) (o : SequenceTables) : SequenceTables :=
  { o with
    recv := modAt o.recv source.toFin fun _ => RecvEntry.resync ref q
    counters := { o.counters with syncAccepted := bump o.counters.syncAccepted } }

theorem noteSync_keepsSend (source : NodeId) (ref : Ref) (q : Seq) : KeepsSend (noteSync source ref q) := fun _ => rfl

theorem takenInOrder_eq (r : State × Admission) (source : NodeId) (q : Seq) :
    r.1.takenInOrder source q r.2 = State.toldOutcome r (noteInOrder source q) := by
  obtain ⟨v, a⟩ := r
  cases a <;> rfl

theorem takenSync_eq (r : State × Admission) (source : NodeId) (ref : Ref) (q : Seq) :
    r.1.takenSync source ref q r.2 = State.toldOutcome r (noteSync source ref q) := by
  obtain ⟨v, a⟩ := r
  cases a <;> rfl

/-- What becomes of a write that the sequence check passed to admission, noted by `g` where it counts. -/
def State.admittedPosted (s : State) (f : Frame) (ref : Ref) (p : Span) (g : SequenceTables → SequenceTables) :
    State :=
  if 8 ≤ s.port.responseQ.length then s.counted fun c => { c with responseOverrun := bump c.responseOverrun }
  else match s.inboundMatch .postedWrite f.source p.addr f.length.toNat with
    | .noWindow =>
      ((s.modOrd g).counted fun c => { c with refusedWindow := bump c.refusedWindow }).withRefusal f ref 3
    | .denied =>
      ((s.modOrd g).counted fun c => { c with refusedDenied := bump c.refusedDenied }).withRefusal f ref 4
    | .admissible w =>
      if 8 ≤ s.inb.queue.length then
        (s.counted fun c => { c with refusedBusy := bump c.refusedBusy }).withRefusal f ref 1
      else (((s.modOrd g).withEntry .postedWrite f ref p w).withResponse
        (Frame.answer f.source f.dest (.accept ref))).takeBus

/-- A refusal placed in a part at rest with room for it. -/
theorem Rest.placeRefusal (h : Rest s) (room : s.port.responseQ.length < 8) (f : Frame) (ref : Ref)
    (code : BitVec 4) : (s.placeRefusal f ref code).endOfEvent = s.withRefusal f ref code := h.placed room _

theorem placeRefusal_modOrd (s : State) (f : Frame) (ref : Ref) (code : BitVec 4)
    (g : SequenceTables → SequenceTables) :
    (s.placeRefusal f ref code).modOrd g = (s.modOrd g).placeRefusal f ref code := insertResponse_modOrd ..

theorem withEntry_modOrd (s : State) (kind : InboundKind) (f : Frame) (ref : Ref) (p : Span) (w : Fin 16)
    (g : SequenceTables → SequenceTables) :
    (s.withEntry kind f ref p w).modOrd g = (s.modOrd g).withEntry kind f ref p w := rfl

theorem admitEntry_posted (s : State) (f : Frame) (ref : Ref) (p : Span) (w : Fin 16) :
    s.admitEntry .postedWrite f ref p w =
      (s.withEntry .postedWrite f ref p w).insertResponse
        (plainResponse (Frame.answer f.source f.dest (.accept ref))) := rfl

/-- An admitted request may give the local master something to do, and nobody else. -/
theorem Ready.withEntry (h : Ready s) (kind : InboundKind) (f : Frame) (ref : Ref) (p : Span) (w : Fin 16) :
    Ready (s.withEntry kind f ref p w) := h.of_same {}

theorem Rest.admission (h : Rest s) {g : SequenceTables → SequenceTables} (hg : KeepsSend g) (f : Frame) (ref : Ref)
    (p : Span) :
    (State.toldOutcome (s.admission .postedWrite f ref p) g).endOfEvent = s.admittedPosted f ref p g := by
  unfold State.admission State.admittedPosted inboundQueueSize
  by_cases full : 8 ≤ s.port.responseQ.length
  · rw [if_pos (by simpa using responseRoom_not full), if_pos full, toldOutcome_discarded, h.overrun]
  have room := Nat.not_le.1 full
  rw [if_neg (by simpa using State.responseRoom_iff.2 room), if_neg full]
  have noted := h.modOrd hg
  cases s.inboundMatch .postedWrite f.source p.addr f.length.toNat with
  | noWindow =>
    dsimp only
    rw [toldOutcome_refusedWindow, placeRefusal_modOrd, countInb_counted, counted_modOrd]
    exact (noted.counted _).placeRefusal room f ref 3
  | denied =>
    dsimp only
    rw [toldOutcome_refusedWindow, placeRefusal_modOrd, countInb_counted, counted_modOrd]
    exact (noted.counted _).placeRefusal room f ref 4
  | admissible w =>
    dsimp only
    by_cases busy : 8 ≤ s.inb.queue.length
    · rw [if_neg (Nat.not_lt.2 busy), if_pos busy, toldOutcome_refusedBusy, countInb_counted]
      exact (h.counted _).placeRefusal room f ref 1
    · rw [if_pos (Nat.not_le.1 busy), if_neg busy, toldOutcome_taken, admitEntry_posted, insertResponse_modOrd,
        withEntry_modOrd]
      exact (noted.ready.withEntry ..).placed room _

/-! ### The write taken (R106, R107) -/

/-- A POSTED_WRITE that arrives for this node is put to the sequence check; the arrival itself has touched nothing that
the check or admission reads. -/
theorem arrival_postedWrite {i : Instr} {f : Frame} {u : State} {ref : Ref} {p : Span} {q : Seq} {sync : Bool}
    (ha : Arrival i f s u) (hm : f.malformed = false) (hf : s.forMe f) (hb : f.body = .postedWrite ref p q sync) :
    exec i s = .next (u.takePosted f ref p q sync).endOfEvent ∧ s.ord = u.ord ∧ s.inb = u.inb ∧
      s.inboundMatch = u.inboundMatch ∧ s.port.responseQ = u.port.responseQ := by
  obtain ⟨port, rfl, responses, -⟩ := arrival_same ha
  have taken (v : State) (hv : v.forMe f) : v.classify f = v.takePosted f ref p q sync := by
    rw [classify_route hm (by rw [hb]; rfl), route_forMe hv]
    unfold State.consume
    rw [hb]
  exact ⟨(arrival_exec ha).trans (next_congr (taken _ hf)), rfl, rfl, rfl, responses.symm⟩

section
variable {f : Frame} {ref : Ref} {p : Span} {q : Seq} {sync : Bool}

theorem Rest.takePosted_duplicate (h : Rest s) (hv : (s.recvOf f.source).check ref q sync = .duplicate) :
    (s.takePosted f ref p q sync).endOfEvent =
      s.seqAnswered f (.accept ref) fun c => { c with duplicate := bump c.duplicate } := by
  unfold State.takePosted
  rw [hv]
  exact h.seqAnswer ..

theorem Rest.takePosted_refuse (h : Rest s) {e : Option Seq}
    (hv : (s.recvOf f.source).check ref q sync = .refuse e) :
    (s.takePosted f ref p q sync).endOfEvent =
      s.seqAnswered f (refuseOrderBody ref e) fun c => { c with orderRefused := bump c.orderRefused } := by
  unfold State.takePosted
  rw [hv]
  exact h.seqAnswer ..

theorem Rest.takePosted_inOrder (h : Rest s) (hv : (s.recvOf f.source).check ref q sync = .admitInOrder) :
    (s.takePosted f ref p q sync).endOfEvent = s.admittedPosted f ref p (noteInOrder f.source q) := by
  unfold State.takePosted
  rw [hv]
  dsimp only
  rw [takenInOrder_eq, h.admission (noteInOrder_keepsSend f.source q)]

theorem Rest.takePosted_sync (h : Rest s) (hv : (s.recvOf f.source).check ref q sync = .admitSync) :
    (s.takePosted f ref p q sync).endOfEvent = s.admittedPosted f ref p (noteSync f.source ref q) := by
  unfold State.takePosted
  rw [hv]
  dsimp only
  rw [takenSync_eq, h.admission (noteSync_keepsSend f.source ref q)]

end

/-- Settles O28, by the six cases of R106: each has its verdict, and each verdict its end of the event. -/
theorem postedWriteOrder : Obligations.PostedWriteOrder := by
  intro i f s u ref p q sync hs ha hm hf hb
  have hu := arrival_rest ha hs
  obtain ⟨run, hord, hinb, hmatch, hresponses⟩ := arrival_postedWrite ha hm hf hb
  rw [run, hord, hinb, hmatch, hresponses]
  intro r e behind full duplicate refused admitted
  congr 1
  split_ifs with hsync hrep hun hexp hbeh
  · subst hsync
    exact hu.takePosted_duplicate (check_sync_repeated hrep)
  · subst hsync
    exact hu.takePosted_sync (check_sync_new hrep)
  all_goals obtain rfl := Bool.eq_false_iff.2 hsync
  · exact hu.takePosted_refuse (check_unsynced hun)
  · exact hu.takePosted_inOrder (check_expected hun hexp)
  · exact hu.takePosted_duplicate (check_behind hun hexp hbeh)
  · exact hu.takePosted_refuse (check_ahead hun hexp hbeh)

end Sys2Proof.Machine
end

section
/-! SUPPORT. The expiries of the discard, hold and lease timers, and what a lost lease retires and stops (O54). -/

namespace Sys2Proof.Machine

variable {s : State}

/-! ### The discard timer (R121) and the hold timer (R142) -/

theorem exec_discardTimer_stopped {i : Fin 4} (h : (s.lt.slots.get i).discardTimer = .stopped) :
    exec (.discardTimerExpiry i) s = .next s := by
  show execDiscardTimerExpiry i s = _
  unfold execDiscardTimerExpiry
  rw [h]

theorem exec_discardTimer_running {i : Fin 4} {us : Nat} (h : (s.lt.slots.get i).discardTimer = .running us) :
    exec (.discardTimerExpiry i) s = .next (s.discardExpired i) := by
  show execDiscardTimerExpiry i s = _
  unfold execDiscardTimerExpiry
  rw [h]

theorem exec_holdTimer_stopped (h : s.ag.holdTimer = .stopped) : exec .holdTimerExpiry s = .next s := by
  show execHoldTimerExpiry s = _
  unfold execHoldTimerExpiry
  rw [h]

theorem exec_holdTimer_running {us : Nat} (h : s.ag.holdTimer = .running us) :
    exec .holdTimerExpiry s = .next (s.modAg Agent.holdExpired) := by
  show execHoldTimerExpiry s = _
  unfold execHoldTimerExpiry
  rw [h]

/-! ### The lease timer (R143) -/

theorem exec_leaseTimer_idle (h : s.ag.leaseTimer = .stopped ∨ ∃ us, s.ag.leaseTimer = .held us) :
    exec .leaseTimerExpiry s = .next s := by
  show execLeaseTimerExpiry s = _
  unfold execLeaseTimerExpiry
  obtain h | ⟨us, h⟩ := h <;> rw [h]

theorem exec_leaseTimer_running {us : Nat} (h : s.ag.leaseTimer = .running us) :
    exec .leaseTimerExpiry s = s.event State.leaseExpired := by
  show execLeaseTimerExpiry s = _
  unfold execLeaseTimerExpiry
  rw [h]

/-- The lock freed in a new event, and its loss recorded: the codes that this fires are not among them. -/
def State.leaseLost (s : State) : State :=
  let a := s.ag.withRecord { kind := .leaseLost, node := some s.ag.lockOwner }
  { s with now := s.now + 1, ag := { a with lockOwner := 0, leaseTimer := .stopped } }

theorem Rest.leaseLost (h : Rest s) : Rest s.leaseLost := h.of_same {}

/-- With no lease action the expiry frees the lock, and the record and the loss fire. -/
theorem leaseExpired_none (h : s.firings = []) (ha : s.ag.leaseAction = .none) :
    s.begin.leaseExpired = { s.leaseLost with firings := [5, 4] } := by
  unfold State.leaseExpired
  rw [recordFault_eq]
  have hn : s.begin.ag.leaseAction ≠ .retireAll := by
    show s.ag.leaseAction ≠ _
    simp [ha]
  dsimp only
  rw [if_neg hn]
  simp only [State.leaseLost, State.fire, State.begin, State.modAg, h]
  rfl

theorem stopRunning_eq (s : State) (c : ChannelId) :
    s.stopRunning c = if (s.chan c).state = .running then s.withStop c else s := by
  unfold State.stopRunning
  rw [stopChannel_eq]

/-- With the action RETIRE_ALL the windows are retired besides, and the RUNNING channels stop, A before B (log 7). -/
theorem leaseExpired_retireAll (h : s.firings = []) (ha : s.ag.leaseAction = .retireAll) :
    s.begin.leaseExpired =
      ((({ s.leaseLost with wt := s.wt.retireAll, firings := [5, 4] } : State).stopRunning .a).stopRunning .b) := by
  unfold State.leaseExpired
  rw [recordFault_eq]
  dsimp only
  rw [if_pos (show s.begin.ag.leaseAction = .retireAll from ha)]
  simp only [State.leaseLost, State.fire, State.begin, State.modAg, State.modWt, h]
  rfl

/-- Settles O54: each timer by whether it runs, and the lease timer's expiry by the lease action. -/
theorem agentAndSlotTimers : Obligations.AgentAndSlotTimers := by
  intro s hs
  refine ⟨fun i => ⟨exec_discardTimer_stopped, fun us h => exec_discardTimer_running h⟩, exec_holdTimer_stopped,
    fun us h => exec_holdTimer_running h, exec_leaseTimer_idle, fun us h => ?_⟩
  intro a u retired v stopped
  rw [exec_leaseTimer_running h]
  refine ⟨fun ha => event_settled (leaseExpired_none hs.firings ha) hs.leaseLost, fun ha => ?_⟩
  exact (next_congr (leaseExpired_retireAll hs.firings ha)).trans (by rw [stopRunning_eq, stopRunning_eq]; rfl)

end Sys2Proof.Machine
end

section
/-! SUPPORT. A LOCAL reset (O53): the halts of the mover, the end of the inbound side's work, and what the end of one
queued request leaves. -/

namespace Sys2Proof.Machine

variable {s : State}

/-! ### The mover halts (R169) -/

theorem localHalt_eq (s : State) (c : ChannelId) : s.localHalt c =
    if (s.chan c).state = .running then
      s.withHalt c
        (match (s.chan c).oldest fun sl => sl.state != .free && !sl.detached with
          | some i => ((s.chan c).slots.get i).offset
          | none => (s.chan c).nextOffset) (some .localFault)
    else s := by
  unfold State.localHalt
  dsimp only
  rw [haltChannel_eq]
  rfl

namespace HandOver

variable {t : State}

theorem localHalt {c : ChannelId} (h : HandOver s t) : HandOver s (t.localHalt c) := by
  unfold State.localHalt
  dsimp only
  split
  · exact h.haltChannel
  · exact h

end HandOver

theorem moverLocalReset_inb (s : State) : s.moverLocalReset.inb = s.inb :=
  (HandOver.refl s).localHalt.localHalt.inb

/-! ### A queued request ends (R135) -/

/-- The answer or the record of a queued request that a LOCAL reset ends. -/
def State.endAnswered (s : State) (e : InboundEntry) : State :=
  (s.answerOrOverrun e.failure).recordDiscarded e (some .localFault)

theorem endEntry_eq (s : State) (e : InboundEntry) : s.endEntry e = (s.endAnswered e).leaveQueue e := rfl

/-- A posted write has no answer: its loss is recorded. -/
theorem endAnswered_posted {e : InboundEntry} (h : e.kind = .postedWrite) : s.endAnswered e =
    { s with
      ag := s.ag.withRecord (e.discarded (some .localFault))
      firings := s.firings ++ [codeFaultRecorded] } := by
  unfold State.endAnswered State.recordDiscarded InboundEntry.failure
  rw [if_pos h, h, recordFault_eq]
  rfl

/-- A request that wants an answer is refused, if there is room for the refusal. -/
theorem endAnswered_wanted {e : InboundEntry} (h : e.kind ≠ .postedWrite) : s.endAnswered e =
    if s.port.responseQ.length < 8 then s.placed e.faultAnswer .plain else s.overrun := by
  have wanted : e.failure = some e.faultAnswer := by
    unfold InboundEntry.failure
    cases hk : e.kind with
    | read => rfl
    | write => rfl
    | postedWrite => exact absurd hk h
  unfold State.endAnswered State.recordDiscarded State.answerOrOverrun State.placeResponse
  rw [if_neg h, wanted]
  dsimp only
  by_cases room : s.port.responseQ.length < 8
  · rw [if_pos room, if_pos (State.responseRoom_iff.2 room)]
    exact insertResponse_plain ..
  · rw [if_neg room, if_neg (mt State.responseRoom_iff.1 room)]

theorem placed_plain_inb (s : State) (f : Frame) : (s.placed f .plain).inb = s.inb := by
  unfold State.placed
  split <;> rfl

/-- The answer or the record of a queued request touches the inbound side in its counters alone. -/
theorem endAnswered_inb (s : State) (e : InboundEntry) :
    (s.endAnswered e).inb.queue = s.inb.queue ∧ (s.endAnswered e).inb.current = s.inb.current ∧
      (s.endAnswered e).inb.held = s.inb.held := by
  by_cases h : e.kind = .postedWrite
  · rw [endAnswered_posted h]
    exact ⟨rfl, rfl, rfl⟩
  · rw [endAnswered_wanted h]
    split
    · rw [placed_plain_inb]
      exact ⟨rfl, rfl, rfl⟩
    · exact ⟨rfl, rfl, rfl⟩

theorem endEntry_inb (s : State) (e : InboundEntry) :
    (s.endEntry e).inb.queue = s.inb.queue.tail ∧ (s.endEntry e).inb.current = s.inb.current ∧
      (s.endEntry e).inb.held = s.inb.held := by
  obtain ⟨queue, current, held⟩ := endAnswered_inb s e
  rw [endEntry_eq]
  unfold State.leaveQueue
  rw [fallIwt_inb]
  exact ⟨congrArg List.tail queue, current, held⟩

/-- The entries of the queue end one after another, and none is left. -/
theorem endEntries_inb (l : List InboundEntry) : ∀ s : State, s.inb.queue = l →
    (l.foldl State.endEntry s).inb.queue = [] ∧ (l.foldl State.endEntry s).inb.current = s.inb.current ∧
      (l.foldl State.endEntry s).inb.held = s.inb.held := by
  induction l with
  | nil => exact fun s hq => ⟨hq, rfl, rfl⟩
  | cons e l ih =>
    intro s hq
    obtain ⟨queue, current, held⟩ := endEntry_inb s e
    obtain ⟨ended, current', held'⟩ := ih (s.endEntry e) (by rw [queue, hq]; rfl)
    exact ⟨ended, current'.trans current, held'.trans held⟩

/-! ### The transaction is withdrawn (R135) -/

/-- The transaction in progress has been withdrawn, and counted as a local fault. -/
def State.withdrawn (s : State) : State :=
  { s with inb := { s.inb with
    current := none
    counters := { s.inb.counters with localMasterFaults := bump s.inb.counters.localMasterFaults } } }

theorem withdrawTransaction_idle (h : s.inb.current = none) : s.withdrawTransaction = s := by
  unfold State.withdrawTransaction
  rw [h]

theorem withdrawTransaction_head {tx : Transaction} {e : InboundEntry} {l : List InboundEntry}
    (h : s.inb.current = some tx) (ho : tx.owner = .inbound) (hq : s.inb.queue = e :: l) :
    s.withdrawTransaction = s.withdrawn.endEntry e := by
  unfold State.withdrawTransaction
  rw [h]
  dsimp only
  rw [ho, hq]
  rfl

theorem withdrawTransaction_empty {tx : Transaction} (h : s.inb.current = some tx) (ho : tx.owner = .inbound)
    (hq : s.inb.queue = []) : s.withdrawTransaction = s.withdrawn := by
  unfold State.withdrawTransaction
  rw [h]
  dsimp only
  rw [ho, hq]
  rfl

theorem withdrawTransaction_mover {tx : Transaction} {c : ChannelId} {i : Fin 8} (h : s.inb.current = some tx)
    (ho : tx.owner = .mover c i) : s.withdrawTransaction = s.withdrawn.moverBusFault c i := by
  unfold State.withdrawTransaction
  rw [h]
  dsimp only
  rw [ho]
  rfl

/-- A mover slot whose local operation is withdrawn has failed. -/
theorem moverBusFault_failed {c : ChannelId} {i : Fin 8}
    (h : (s.slot c i).state = .localPending ∨ (s.slot c i).state = .landing) :
    s.moverBusFault c i = s.frameFailed c i .localFault := by
  unfold State.moverBusFault
  obtain h | h := h <;> rw [h]

/-- No transaction is left, and nothing is held that was not. -/
theorem withdrawTransaction_inb (s : State) :
    s.withdrawTransaction.inb.current = none ∧ s.withdrawTransaction.inb.held = s.inb.held := by
  cases h : s.inb.current with
  | none =>
    rw [withdrawTransaction_idle h]
    exact ⟨h, rfl⟩
  | some tx =>
    cases ho : tx.owner with
    | inbound =>
      cases hq : s.inb.queue with
      | nil =>
        rw [withdrawTransaction_empty h ho hq]
        exact ⟨rfl, rfl⟩
      | cons e l =>
        obtain ⟨-, current, held⟩ := endEntry_inb s.withdrawn e
        rw [withdrawTransaction_head h ho hq]
        exact ⟨current, held⟩
    | mover c i =>
      rw [withdrawTransaction_mover h ho, ((HandOver.refl s.withdrawn).moverBusFault (c := c) (i := i)).inb]
      exact ⟨rfl, rfl⟩

/-! ### The inbound side after the reset (R135) -/

theorem inboundLocalReset_inb (s : State) :
    s.inboundLocalReset.inb.queue = [] ∧ s.inboundLocalReset.inb.current = none ∧
      s.inboundLocalReset.inb.held = s.inb.held := by
  obtain ⟨queue, current, held⟩ := endEntries_inb _ s.withdrawTransaction rfl
  obtain ⟨gone, kept⟩ := withdrawTransaction_inb s
  exact ⟨queue, current.trans gone, held.trans kept⟩

theorem inboundLocalReset_idle (h : s.inb.current = none) :
    s.inboundLocalReset = s.inb.queue.foldl State.endEntry s := by
  unfold State.inboundLocalReset
  rw [withdrawTransaction_idle h]

theorem inboundLocalReset_head {tx : Transaction} {e : InboundEntry} {l : List InboundEntry}
    (h : s.inb.current = some tx) (ho : tx.owner = .inbound) (hq : s.inb.queue = e :: l) :
    s.inboundLocalReset = (e :: l).foldl State.endEntry s.withdrawn := by
  obtain ⟨queue, -, -⟩ := endEntry_inb s.withdrawn e
  have rest : (s.withdrawn.endEntry e).inb.queue = l := queue.trans (congrArg List.tail hq)
  unfold State.inboundLocalReset
  rw [withdrawTransaction_head h ho hq]
  dsimp only
  rw [rest]
  rfl

theorem inboundLocalReset_mover {tx : Transaction} {c : ChannelId} {i : Fin 8} (h : s.inb.current = some tx)
    (ho : tx.owner = .mover c i)
    (hs : (s.withdrawn.slot c i).state = .localPending ∨ (s.withdrawn.slot c i).state = .landing) :
    s.inboundLocalReset = s.inb.queue.foldl State.endEntry (s.withdrawn.frameFailed c i .localFault) := by
  unfold State.inboundLocalReset
  rw [withdrawTransaction_mover h ho, moverBusFault_failed hs]
  dsimp only
  rw [((HandOver.refl s.withdrawn).frameFailed (c := c) (i := i) (d := .localFault)).inb]
  rfl

/-! ### The whole reset (R93, R124, R176) -/

theorem exec_localReset_asserted (h : s.localResetIn = true) : exec .localReset s = .next s := if_pos h

theorem exec_localReset (h : s.localResetIn = false) : exec .localReset s =
    .next (State.performLocalReset { s.begin with localResetIn := true }).endOfEvent := if_neg (by simp [h])

theorem afterLocalReset_eq (o : Originator) : o.afterLocalReset = match o with
    | .delayed _ => .abandoned
    | .issueSlot => .abandoned
    | o => o := by
  cases o <;> rfl

/-- What is cleared once the mover and the inbound side have taken the reset. -/
theorem performLocalReset_eq (s : State) :
    let u := s.moverLocalReset.inboundLocalReset
    s.performLocalReset =
      { u with
        rt := { u.rt with
          entries := u.rt.entries.map fun e =>
            if e.state = .free then e
            else
              { e with originator := match e.originator with
                | .delayed _ => .abandoned
                | .issueSlot => .abandoned
                | o => o } }
        lt := { u.lt with slots := Vector.replicate 4 DelayedSlot.reset, lastFault := none, latch := none }
        ag := { u.ag with issue := IssueSlot.reset }
        ev := { u.ev with pendingSet := 0, attnRecorded := 0, inbox := [] } } := by
  unfold State.performLocalReset Tracker.abandonLocal
  simp only [afterLocalReset_eq]
  rfl

/-- Settles O53: the halts by `localHalt_eq`, the inbound side by who owns the transaction, and one entry's end by
whether it wants an answer. -/
theorem localReset : Obligations.LocalReset := by
  refine ⟨fun s _ => ?_, fun s e => ?_⟩
  · intro halted b u
    have halt (v : State) (c : ChannelId) : v.localHalt c = halted v c := localHalt_eq v c
    have halts : State.moverLocalReset { s.begin with localResetIn := true } = b :=
      (congrArg (State.localHalt · .b) (halt _ .a)).trans (halt _ .b)
    have inb : b.inb = s.inb := halts ▸ moverLocalReset_inb _
    obtain ⟨queue, current, held⟩ := inboundLocalReset_inb b
    refine ⟨exec_localReset_asserted, fun h => ?_, queue, current, held.trans (congrArg Inbound.held inb),
      fun h => ?_, fun tx h => ⟨fun e l ho hq => ?_, fun c i ho hs => ?_⟩⟩
    · have cleared := performLocalReset_eq { s.begin with localResetIn := true }
      rw [halts] at cleared
      exact (exec_localReset h).trans (next_congr cleared)
    · rw [← inb] at h ⊢
      exact inboundLocalReset_idle h
    · rw [← inb] at h hq
      exact inboundLocalReset_head h ho hq
    · rw [← inb] at h ⊢
      exact inboundLocalReset_mover h ho hs
  · intro answered
    have hanswered : answered = s.endAnswered e := by
      by_cases h : e.kind = .postedWrite
      · exact (if_pos h).trans (endAnswered_posted h).symm
      · exact (if_neg h).trans (endAnswered_wanted h).symm
    rw [hanswered]
    rfl

end Sys2Proof.Machine
end

section
/-! SUPPORT. The accesses to the local page (O58): what a read and a write of each word gives and does, and a whole
access word by word. -/

namespace Sys2Proof.Machine

variable {s : State}

/-! ### Whole accesses (R112, R113) -/

theorem exec_pageRead {i : Instr} {a : Access} (h : i = .eventInboxHeadRead a ∨ i = .faultHeadRead a) :
    exec i s = .next (s.pageRead a) := by
  obtain rfl | rfl := h <;> rfl

theorem exec_pageWrite {i : Instr} {a : Access} (h : i = .pendingEventClear a ∨ i = .lastLocalFaultClear a ∨
    i = .issueTrigger a ∨ i = .ringResetRequest a ∨ i = .pageWrite a) :
    exec i s = .next (s.begin.pageWrite a).endOfEvent := by
  obtain rfl | rfl | rfl | rfl | rfl := h <;> rfl

/-- While LOCAL_RESET_IN is asserted a write ends RETRY with no other effect (R112). -/
theorem pageWrite_held (h : s.localResetIn = true) (a : Access) : s.pageWrite a = s.terminate .retry := if_pos h

theorem pageWrite_taken (h : ¬s.localResetIn = true) (a : Access) :
    s.pageWrite a = ((List.range a.count).foldl (pageWriteStep a) s).terminate (.done []) := if_neg h

/-! ### The heads of the inbox and of the fault queue (R115, R175) -/

theorem readInbox_empty (h : s.ev.inbox = []) : s.readInbox = (s, 0x80000000) := by
  unfold State.readInbox
  rw [h]
  rfl

theorem readInbox_head {r : InboxRecord} {l : List InboxRecord} (h : s.ev.inbox = r :: l) : s.readInbox =
    ({ s with ev := { s.ev with inbox := l } }, 0#11 ++ r.source ++ 0#2 ++ r.number ++ BitVec.ofNat 8 r.count) := by
  unfold State.readInbox
  rw [h, ← r.word_eq]
  rfl

/-- A byte at bit 0 with zeros above it. -/
theorem fieldAt_zero_byte (v : BitVec 8) : fieldAt 0 v = 0#24 ++ v := by
  unfold fieldAt
  rw [BitVec.shiftLeft_zero]
  exact BitVec.setWidth_eq_append (by decide)

theorem readFaultHead_empty (h : s.ag.faults = []) : s.readFaultHead =
    ({ s with lt := { s.lt with latch := none } }, 0#24 ++ BitVec.ofNat 8 s.ag.overflow) := by
  unfold State.readFaultHead
  rw [h, ← fieldAt_zero_byte]
  rfl

theorem readFaultHead_head {r : FaultRecord} {l : List FaultRecord} (h : s.ag.faults = r :: l) : s.readFaultHead =
    ({ s with ag := { s.ag with faults := l }, lt := { s.lt with latch := some r } },
      r.kind.code ++ BitVec.ofBool r.node.isSome ++ BitVec.ofBool r.tag.isSome ++ BitVec.ofBool r.index.isSome ++
        BitVec.ofBool r.address.isSome ++ BitVec.ofBool r.detail.isSome ++ 0#2 ++ BitVec.ofNat 5 l.length ++ 0#8 ++
        BitVec.ofNat 8 s.ag.overflow) := by
  unfold State.readFaultHead
  rw [h]
  dsimp only
  rw [State.faultHeadWord_eq]
  rfl

/-! ### The words that a read leaves as they are (R114, R180) -/

theorem pageReadWord_plain {n : Nat} (h6 : n ≠ 6) (h8 : n ≠ 8) : s.pageReadWord n = (s, s.plainWord n) :=
  (if_neg h6).trans (if_neg h8)

/-- Outside the words that stand alone a word belongs to the request area, to the reply area, or to nothing. -/
theorem plainWord_area (s : State) {n : Nat} (h : n ∉ [0, 1, 2, 4, 5, 9, 10, 11, 12, 13, 33, 50]) : s.plainWord n =
    if 16 ≤ n ∧ n ≤ 31 then s.requestWord (n - 16)
    else if 34 ≤ n ∧ n ≤ 49 then s.ag.issue.reply.getD (n - 34) 0
    else 0 := by
  unfold State.plainWord
  split
  iterate 12 exact absurd (by decide) h
  rfl

theorem plainWord_request (s : State) (n : Fin 16) : s.plainWord (16 + n.val) = s.lt.requestArea.get n := by
  rw [plainWord_area s (by simp; omega), if_pos (by omega)]
  unfold State.requestWord
  rw [Nat.add_sub_cancel_left, List.getD_eq_getElem _ _ (by simp)]
  rfl

theorem plainWord_reply (s : State) (n : Fin 16) : s.plainWord (34 + n.val) = s.ag.issue.reply.getD n.val 0 := by
  rw [plainWord_area s (by simp; omega), if_neg (by omega), if_pos (by omega), Nat.add_sub_cancel_left]

/-- Unoccupied words read zero (R113). -/
theorem plainWord_unoccupied (s : State) {n : Nat} (h : n = 3 ∨ n = 7 ∨ n = 14 ∨ n = 15 ∨ n = 32 ∨ 50 < n) :
    s.plainWord n = 0 := by
  rw [plainWord_area s (by simp; omega), if_neg (by omega), if_neg (by omega)]

theorem plainWord_pendingSet (s : State) : s.plainWord 5 = 0#13 ++ s.ev.pendingSet :=
  BitVec.setWidth_eq_append (by decide)

theorem latchWord_some {r : FaultRecord} (h : s.lt.latch = some r) (f : FaultRecord → Word) :
    s.latchWord f = f r := by
  unfold State.latchWord
  rw [h]

theorem latchWord_none (h : s.lt.latch = none) (f : FaultRecord → Word) : s.latchWord f = 0 := by
  unfold State.latchWord
  rw [h]

theorem detailCode_eq (d : Option Detail) : detailCode d = match d with
    | some (.result x) => x.code
    | some .localFault => 9#8
    | none => 0#8 := by
  cases d with
  | none => rfl
  | some d => cases d <;> rfl

theorem lastFaultWords_some {cause : LocalCause} {addr : Word} (h : s.lt.lastFault = some (cause, addr)) :
    s.lastFaultWords = (0#24 ++ cause.code, addr) := by
  unfold State.lastFaultWords
  rw [h, ← fieldAt_zero_byte]

theorem lastFaultWords_none (h : s.lt.lastFault = none) : s.lastFaultWords = (0, 0) := by
  unfold State.lastFaultWords
  rw [h]

theorem bitAt_zero (b : Bool) : bitAt 0 b = if b = true then 1 else 0 := by
  cases b <;> rfl

/-! ### The pending event set (R172) -/

/-- The bits that a fold over codes sets. -/
theorem getLsbD_foldl_twoPow (p : EventCode → Bool) (c : EventCode) (l : List EventCode) : ∀ acc : BitVec 19,
    (l.foldl (fun acc d => if p d then acc ||| BitVec.twoPow 19 d.val else acc) acc).getLsbD c.val =
      (acc.getLsbD c.val || (decide (c ∈ l) && p c)) := by
  induction l with
  | nil => simp
  | cons d l ih =>
    intro acc
    rw [List.foldl_cons, ih]
    by_cases hd : d = c
    · subst hd
      cases p d <;> simp
    · have other : (BitVec.twoPow 19 d.val).getLsbD c.val = false := by
        rw [getLsbD_twoPow19]
        exact beq_false_of_ne hd
      have mem : decide (c ∈ d :: l) = decide (c ∈ l) := by simp [Ne.symm hd]
      rw [mem]
      cases p d
      · rfl
      · rw [if_pos rfl, BitVec.getLsbD_or, other, Bool.or_false]

theorem levelSet_getLsbD (e : Events) (c : EventCode) : e.levelSet.getLsbD c.val = e.levelHeld c := by
  unfold Events.levelSet
  rw [getLsbD_foldl_twoPow]
  simp

/-- A code leaves the set when the write names it, unless R172's exception holds it there. -/
theorem clearPending_getLsbD (e : Events) (w : Word) (c : EventCode) :
    (e.clearPending w).pendingSet.getLsbD c.val =
      (e.pendingSet.getLsbD c.val && (!w.getLsbD c.val || e.levelHeld c)) := by
  have named : (w.setWidth 19).getLsbD c.val = w.getLsbD c.val := by simp
  have flipped : (~~~w.setWidth 19).getLsbD c.val = !w.getLsbD c.val := by
    rw [BitVec.getLsbD_not, named]
    simp
  unfold Events.clearPending
  dsimp only
  rw [BitVec.getLsbD_or, BitVec.getLsbD_and, BitVec.getLsbD_and, BitVec.getLsbD_and, flipped, named, levelSet_getLsbD]
  cases e.pendingSet.getLsbD c.val <;> cases w.getLsbD c.val <;> rfl

theorem clearPending_changes (s : State) (w : Word) : Changes [.pendingSet] s (s.modEv fun e => e.clearPending w) := by
  intro p hp
  cases p
  case pendingSet => exact absurd (List.mem_singleton_self _) hp
  all_goals simp [Part.same, Events.clearPending]

/-! ### The words that take a write (R114) -/

/-- Outside the words that stand alone a write stores in the request area or does nothing. -/
theorem pageWriteWord_area (s : State) {n : Nat} (h : n ∉ [5, 12, 13, 32, 50]) (w : Word) : s.pageWriteWord n w =
    if 16 ≤ n ∧ n ≤ 31 then s.storeRequest (n - 16) w else s := by
  unfold State.pageWriteWord
  split
  iterate 5 exact absurd (by decide) h
  rfl

theorem setIfInBounds_fin {α : Type} {n : Nat} (t : Table α n) (i : Fin n) (x : α) :
    t.setIfInBounds i.val x = t.set i.val x i.isLt := by
  ext j hj
  rw [Vector.getElem_setIfInBounds, Vector.getElem_set]

theorem pageWriteWord_request (s : State) (n : Fin 16) (w : Word) : s.pageWriteWord (16 + n.val) w =
    { s with lt := { s.lt with requestArea := s.lt.requestArea.set n.val w n.isLt } } := by
  rw [pageWriteWord_area s (by simp; omega), if_pos (by omega), Nat.add_sub_cancel_left]
  unfold State.storeRequest State.modLt
  dsimp only
  rw [setIfInBounds_fin]

theorem pageWriteWord_unoccupied (s : State) {n : Nat} (h : n ∉ [5, 12, 13, 32, 50]) (ho : n < 16 ∨ 31 < n)
    (w : Word) : s.pageWriteWord n w = s := by
  rw [pageWriteWord_area s h, if_neg (by omega)]

/-! ### The issue trigger (R150) -/

theorem issueTrigger_collides (h : s.ag.issue.state = .waitingTag ∨ s.ag.issue.state = .issued) :
    s.issueTrigger = s.countAg fun c => { c with issueCollision := bump c.issueCollision } := by
  unfold State.issueTrigger
  obtain h | h := h <;> rw [h]

theorem issueTrigger_free (h : s.ag.issue.state = .empty ∨ s.ag.issue.state = .replied) : s.issueTrigger =
    if s.lt.issueValid then s.issueTaken
    else s.countAg fun c => { c with issueRejected := bump c.issueRejected } := by
  unfold State.issueTrigger
  obtain h | h := h <;> rw [h]

theorem issueValid_iff (l : LocalTarget) : l.issueValid = true ↔
    (l.issueDest ≠ 0 ∧ l.issueDest ≠ 31) ∧ 1 ≤ l.issueLength ∧ l.issueLength ≤ 15 := by
  unfold LocalTarget.issueValid
  rw [Bool.and_eq_true, Bool.and_eq_true, isNode_iff, decide_eq_true_iff, decide_eq_true_iff, and_assoc]

/-- The issue slot has copied the request area (R150). -/
def State.copied (s : State) : State := { s with ag := { s.ag with issue := s.lt.copyRequest } }

theorem issueTaken_eq (s : State) : s.issueTaken = s.copied.issueGrant.getD s.copied := rfl

theorem issueTaken_waits (h : s.copied.alloc s.copied.issueRequest = none) : s.issueTaken = s.copied := by
  rw [issueTaken_eq, issueGrant_none.2 h]
  rfl

theorem issueTaken_issued {t : Tag} {x : State} (h : s.copied.alloc s.copied.issueRequest = some (t, x)) :
    s.issueTaken = { x with ag := { x.ag with issue := { s.lt.copyRequest with state := .issued } } } := by
  have kept : x.ag.issue = s.lt.copyRequest := congrArg Agent.issue (alloc_ag h)
  rw [issueTaken_eq, ← kept]
  unfold State.issueGrant
  rw [h]
  rfl

/-! ### The ring-reset request (R49) -/

theorem pageResetRequest_node (h : s.en.manager = false) : s.pageResetRequest = s.ignoreReset := by
  unfold State.pageResetRequest
  rw [h]
  rfl

theorem pageResetRequest_manager (h : s.en.manager = true) : s.pageResetRequest =
    if s.en.resetOutstanding = true then s
    else if s.en.ownId = 0 then s.ignoreReset
    else s.setOutstanding.presentReset := by
  unfold State.pageResetRequest
  rw [h]
  rfl

theorem presentReset_eq (s : State) : s.presentReset = s.withControl s.resetFrame := presentControl_eq ..

/-! ### The page (R180) -/

/-- Settles O58: an access by its words, and each word by what stands there. -/
theorem pageAccesses : Obligations.PageAccesses := by
  refine ⟨fun acc n => rfl, fun s i acc hi => exec_pageRead hi, fun s i acc hs hi => ?_, fun s => ?_, fun s w => ?_⟩
  · intro b write
    rw [exec_pageWrite hi]
    by_cases h : s.localResetIn = true
    · rw [if_pos h, pageWrite_held (s := s.begin) h, endOfEvent_eq (hs.begin.terminate .retry)]
      rfl
    · rw [if_neg h, pageWrite_taken (s := s.begin) h]
      rfl
  · refine ⟨readInbox_empty, fun r l => readInbox_head, readFaultHead_empty, fun r l => readFaultHead_head, rfl,
      fun n h6 h8 => by rw [pageReadWord_plain h6 h8], rfl, rfl, rfl, s.statusWord_eq, plainWord_pendingSet s,
      fun r h => ⟨(latchWord_some h _).trans r.word1_eq, latchWord_some h _, (latchWord_some h _).trans ?_⟩,
      fun h => ⟨latchWord_none h _, latchWord_none h _, latchWord_none h _⟩, fun cause addr h => ?_, fun h => ?_,
      s.ag.issue.stateWord_eq, rfl, bitAt_zero _, fun n h => ?_, fun n => ⟨?_, ?_⟩⟩
    · exact r.word3_eq.trans (congrArg (_ ++ ·) (detailCode_eq r.detail))
    · have words := lastFaultWords_some h
      exact ⟨congrArg Prod.fst words, congrArg Prod.snd words⟩
    · have words := lastFaultWords_none h
      exact ⟨congrArg Prod.fst words, congrArg Prod.snd words⟩
    · rw [pageReadWord_plain (by omega) (by omega)]
      exact plainWord_unoccupied s h
    · rw [pageReadWord_plain (by omega) (by omega)]
      exact plainWord_request s n
    · rw [pageReadWord_plain (by omega) (by omega)]
      exact plainWord_reply s n
  · intro stays area dest length counted ignored
    refine ⟨clearPending_changes s w, clearPending_getLsbD s.ev w, rfl, rfl, fun n => pageWriteWord_request s n w,
      fun n h5 h12 h13 ho h32 h50 => pageWriteWord_unoccupied s (by simp [h5, h12, h13, h32, h50]) ho w,
      issueTrigger_collides, fun h => ⟨fun hv => ?_, fun h0 h31 h1 h15 => ?_⟩, fun hw => if_neg hw, fun hw => ?_⟩
    · have invalid : ¬s.lt.issueValid = true := by
        rw [issueValid_iff]
        show ¬((dest ≠ 0 ∧ dest ≠ 31) ∧ 1 ≤ length ∧ length ≤ 15)
        rintro ⟨⟨h0, h31⟩, h1, h15⟩
        obtain hv | hv | hv | hv := hv
        · exact h0 hv
        · exact h31 hv
        · omega
        · omega
      exact (issueTrigger_free h).trans (if_neg invalid)
    · have taken : s.pageWriteWord 32 w = s.issueTaken :=
        (issueTrigger_free h).trans (if_pos ((issueValid_iff _).2 ⟨⟨h0, h31⟩, h1, h15⟩))
      intro words v request
      rw [taken]
      exact ⟨issueTaken_waits, fun t x => issueTaken_issued⟩
    · have request : s.pageWriteWord 50 w = s.pageResetRequest := if_pos hw
      rw [request]
      refine ⟨pageResetRequest_node, fun hm ho => ?_, fun hm ho h0 => ?_, fun hm ho h0 => ?_⟩
      · rw [pageResetRequest_manager hm, if_pos ho]
      · rw [pageResetRequest_manager hm, if_neg (by simp [ho]), if_pos h0]
        rfl
      · rw [pageResetRequest_manager hm, if_neg (by simp [ho]), if_neg h0, presentReset_eq]
        rfl

end Sys2Proof.Machine
end

section
/-! SUPPORT. A READ or WRITE for this node (O27): what admission makes of it, and what the end of the event adds. -/

namespace Sys2Proof.Machine

variable {s : State}

/-! ### The arrival (R27) -/

/-- A frame that arrives for this node is handed to the block that owns it; the arrival itself has touched nothing that
admission reads. -/
theorem arrival_consume {i : Instr} {f : Frame} {u : State} (ha : Arrival i f s u) (hm : f.malformed = false)
    (hc : f.body.isControl = false) (hf : s.forMe f) :
    exec i s = .next (u.consume f).endOfEvent ∧ s.inb = u.inb ∧ s.inboundMatch = u.inboundMatch ∧
      s.port.responseQ = u.port.responseQ := by
  obtain ⟨port, rfl, responses, -⟩ := arrival_same ha
  have handed (v : State) (hv : v.forMe f) : v.classify f = v.consume f :=
    (classify_route hm hc).trans (route_forMe hv)
  exact ⟨(arrival_exec ha).trans (next_congr (handed _ hf)), rfl, rfl, responses.symm⟩

theorem consume_read {f : Frame} {ref : Ref} {p : Span} (h : f.body = .read ref p) (s : State) :
    s.consume f = (s.admission .read f ref p).1 := by
  unfold State.consume
  rw [h]

theorem consume_write {f : Frame} {ref : Ref} {p : Span} (h : f.body = .write ref p) (s : State) :
    s.consume f = (s.admission .write f ref p).1 := by
  unfold State.consume
  rw [h]

/-! ### The outcomes of admission (R127, R128, R129) -/

section
variable {kind : InboundKind} {f : Frame} {ref : Ref} {p : Span} {w : Fin 16}

/-- With room for an answer, admission goes on to the windows. -/
theorem noOverrun (room : s.port.responseQ.length < 8) : ¬(!s.responseRoom) = true := by
  simpa using State.responseRoom_iff.2 room

theorem admission_overrun (full : 8 ≤ s.port.responseQ.length) : (s.admission kind f ref p).1 = s.overrun := by
  unfold State.admission
  rw [if_pos (by simpa using responseRoom_not full)]

theorem admission_noWindow (room : s.port.responseQ.length < 8)
    (h : s.inboundMatch kind f.source p.addr f.length.toNat = .noWindow) : (s.admission kind f ref p).1 =
      (s.counted fun c => { c with refusedWindow := bump c.refusedWindow }).placeRefusal f ref 3 := by
  unfold State.admission
  rw [if_neg (noOverrun room), h]
  rfl

theorem admission_denied (room : s.port.responseQ.length < 8)
    (h : s.inboundMatch kind f.source p.addr f.length.toNat = .denied) : (s.admission kind f ref p).1 =
      (s.counted fun c => { c with refusedDenied := bump c.refusedDenied }).placeRefusal f ref 4 := by
  unfold State.admission
  rw [if_neg (noOverrun room), h]
  rfl

theorem admission_busy (room : s.port.responseQ.length < 8)
    (h : s.inboundMatch kind f.source p.addr f.length.toNat = .admissible w) (busy : 8 ≤ s.inb.queue.length) :
    (s.admission kind f ref p).1 =
      (s.counted fun c => { c with refusedBusy := bump c.refusedBusy }).placeRefusal f ref 1 := by
  unfold State.admission inboundQueueSize
  rw [if_neg (noOverrun room), h]
  dsimp only
  rw [if_neg (Nat.not_lt.2 busy)]
  rfl

theorem admission_taken (room : s.port.responseQ.length < 8)
    (h : s.inboundMatch kind f.source p.addr f.length.toNat = .admissible w) (free : s.inb.queue.length < 8) :
    (s.admission kind f ref p).1 = s.admitEntry kind f ref p w := by
  unfold State.admission inboundQueueSize
  rw [if_neg (noOverrun room), h]
  dsimp only
  rw [if_pos free]

/-- A READ or WRITE that is admitted gets no answer yet (R129). -/
theorem admitEntry_unanswered (hk : kind ≠ .postedWrite) :
    s.admitEntry kind f ref p w = s.withEntry kind f ref p w := if_neg hk

end

/-- Settles O27, by the room for an answer, the verdict of the windows, and the room in the inbound queue. -/
theorem readWriteAdmission : Obligations.ReadWriteAdmission := by
  intro i f s u kind ref p hs ha hm hf hb
  have hu := arrival_rest ha hs
  obtain ⟨hk, hc, judged⟩ : kind ≠ .postedWrite ∧ f.body.isControl = false ∧
      ∀ v : State, v.consume f = (v.admission kind f ref p).1 := by
    obtain ⟨hb, rfl⟩ | ⟨hb, rfl⟩ := hb
    · exact ⟨by decide, by rw [hb]; rfl, consume_read hb⟩
    · exact ⟨by decide, by rw [hb]; rfl, consume_write hb⟩
  obtain ⟨run, hinb, hmatch, hresponses⟩ := arrival_consume ha hm hc hf
  rw [run, judged, hinb, hmatch, hresponses]
  congr 1
  by_cases full : 8 ≤ u.port.responseQ.length
  · rw [admission_overrun full, if_pos full, hu.overrun]
  have room := Nat.not_le.1 full
  rw [if_neg full]
  cases verdict : u.inboundMatch kind f.source p.addr f.length.toNat with
  | noWindow =>
    rw [admission_noWindow room verdict]
    exact (hu.counted _).placeRefusal room f ref 3
  | denied =>
    rw [admission_denied room verdict]
    exact (hu.counted _).placeRefusal room f ref 4
  | admissible w =>
    dsimp only
    by_cases busy : 8 ≤ u.inb.queue.length
    · rw [admission_busy room verdict busy, if_pos busy]
      exact (hu.counted _).placeRefusal room f ref 1
    · rw [admission_taken room verdict (Nat.not_le.1 busy), if_neg busy, admitEntry_unanswered hk]
      exact (hu.ready.withEntry ..).bus

end Sys2Proof.Machine
end

section
/-! SUPPORT. The card's terminations (O55): the fall of an inbound window's count, the attempts of the local master, and
what the end of the head entry's transaction is to its requester. -/

namespace Sys2Proof.Machine

variable {s : State}

/-! ### An inbound window's count falls (R62, R65) -/

section
variable {w : Fin 16}

theorem IwtEntry.fall_eq (e : IwtEntry) : e.fall =
    { e with
      inFlight := e.inFlight - 1
      state := if e.state = .retiring ∧ e.inFlight ≤ 1 then .empty else e.state } := by
  unfold IwtEntry.fall WindowState.drainedAt
  simp only [Nat.sub_eq_zero_iff_le]

/-- The state in which the count of an inbound window has fallen, and its draining is not yet reported. -/
def State.fallenInbound (s : State) (w : Fin 16) : State :=
  s.modWt fun x => { x with iwt := modAt x.iwt w IwtEntry.fall }

theorem fallenInbound_eq (s : State) (w : Fin 16) : s.fallenInbound w =
    { s with wt := { s.wt with
      iwt := s.wt.iwt.set w.val
        { s.wt.iwt.get w with
          inFlight := (s.wt.iwt.get w).inFlight - 1
          state := if (s.wt.iwt.get w).state = .retiring ∧ (s.wt.iwt.get w).inFlight ≤ 1 then .empty
            else (s.wt.iwt.get w).state } w.isLt } } :=
  congrArg (fun e => { s with wt := { s.wt with iwt := s.wt.iwt.set w.val e w.isLt } }) (IwtEntry.fall_eq _)

/-- The fall of the count drains the window: it is RETIRING, with one request in flight at most (R62). -/
def IwtEntry.drains (e : IwtEntry) : Prop := e.state = .retiring ∧ e.inFlight ≤ 1

theorem fallIwt_undrained (h : ¬(s.wt.iwt.get w).drains) : s.fallIwt w = s.fallenInbound w :=
  if_neg fun ⟨hr, hn⟩ => h ⟨hr, Nat.sub_eq_zero_iff_le.1 hn⟩

theorem fallIwt_drained (h : (s.wt.iwt.get w).drains) : s.fallIwt w = (s.fallenInbound w).reportDrained .inbound w :=
  if_pos ⟨h.1, Nat.sub_eq_zero_iff_le.2 h.2⟩

/-- The window is drained by the fall, and the agent's deferred RETIRE_WINDOW names it. -/
def State.retireAwaits (s : State) (w : Fin 16) : Prop :=
  (s.wt.iwt.get w).drains ∧ s.ag.state = .deferred ∧ ∃ d, s.ag.deferred = some d ∧ d.table = .inbound ∧ d.index = w

theorem fallIwt_unawaited (h : ¬s.retireAwaits w) : s.fallIwt w = s.fallenInbound w := by
  by_cases hd : (s.wt.iwt.get w).drains
  · rw [fallIwt_drained hd]
    exact reportDrained_unawaited fun waits => h ⟨hd, waits⟩
  · exact fallIwt_undrained hd

theorem fallIwt_awaited {d : DeferredRetire} (hdrained : (s.wt.iwt.get w).drains) (hs : s.ag.state = .deferred)
    (hd : s.ag.deferred = some d) (ht : d.table = .inbound) (hi : d.index = w) :
    s.fallIwt w = ((s.fallenInbound w).modAg fun a => a.leaveDeferred d.requester).replied
      (replyFrame d.requester d.dest d.tag d.gen 6 .ok []) .plain := by
  subst hi
  rw [fallIwt_drained hdrained, ← ht]
  exact reportDrained_awaited (s := s.fallenInbound d.index) hs hd

end

/-! ### Which command finds an attempt (R131) -/

theorem waitingAttempt_none
    (h : s.inb.current = none ∨ ∃ tx, s.inb.current = some tx ∧ tx.delayTimer = .stopped) :
    s.waitingAttempt = none := by
  unfold State.waitingAttempt
  obtain h | ⟨tx, h, stopped⟩ := h
  · rw [h]
  · rw [h]
    exact if_pos stopped

section
variable {tx : Transaction}

theorem waitingAttempt_some (h : s.inb.current = some tx) (running : tx.delayTimer ≠ .stopped) :
    s.waitingAttempt = some tx := by
  unfold State.waitingAttempt
  rw [h]
  exact if_neg running

theorem exec_reattemptDelay_none (h : s.waitingAttempt = none) : exec .reattemptDelayExpiry s = .next s := by
  show execReattemptDelayExpiry s = _
  unfold execReattemptDelayExpiry
  rw [h]

theorem exec_reattemptDelay_some (h : s.waitingAttempt = some tx) :
    exec .reattemptDelayExpiry s = .next (s.reattempt tx) := by
  show execReattemptDelayExpiry s = _
  unfold execReattemptDelayExpiry
  rw [h]

theorem exec_terminationDone_none (h : s.attempt = none) (data : Table Word 16) :
    exec (.terminationDone data) s = .next s := by
  show execTerminationDone data s = _
  unfold execTerminationDone
  rw [h]

theorem exec_terminationDone_some (h : s.attempt = some tx) (data : Table Word 16) :
    exec (.terminationDone data) s = .next (s.begin.transactionDone tx data).endOfEvent := by
  show execTerminationDone data s = _
  unfold execTerminationDone
  rw [h]
  rfl

theorem exec_terminationRetry_none (h : s.attempt = none) : exec .terminationRetry s = .next s := by
  show execTerminationRetry s = _
  unfold execTerminationRetry
  rw [h]

theorem exec_terminationRetry_some (h : s.attempt = some tx) :
    exec .terminationRetry s = .next (s.begin.attemptRetried tx).endOfEvent := by
  show execTerminationRetry s = _
  unfold execTerminationRetry
  rw [h]
  rfl

theorem exec_terminationFault_none (h : s.attempt = none) : exec .terminationFault s = .next s := by
  show execTerminationFault s = _
  unfold execTerminationFault
  rw [h]

theorem exec_terminationFault_some (h : s.attempt = some tx) :
    exec .terminationFault s = .next (s.begin.transactionFault tx).endOfEvent := by
  show execTerminationFault s = _
  unfold execTerminationFault
  rw [h]
  rfl

/-- The expiry of the cycle timer ends the transaction as the card's FAULT does. -/
theorem exec_cycleTimer_eq (s : State) : exec .cycleTimerExpiry s = exec .terminationFault s := rfl

theorem exec_fault_or_expiry {i : Instr} (hi : i = .terminationFault ∨ i = .cycleTimerExpiry)
    (h : s.attempt = some tx) : exec i s = .next (s.begin.transactionFault tx).endOfEvent := by
  obtain rfl | rfl := hi
  · exact exec_terminationFault_some h
  · exact (exec_cycleTimer_eq s).trans (exec_terminationFault_some h)

/-! ### RETRY (R131) -/

/-- With a transaction in progress the local master serves nobody else. -/
theorem busChoice_busy (h : s.inb.current = some tx) : s.busChoice = none := by
  unfold State.busChoice Inbound.idle
  simp [h]

/-- A part at rest stays so while its local master goes on with a transaction. -/
theorem Rest.withCurrent (h : Rest s) (tx : Transaction) :
    (s.modInb fun i => { i with current := some tx }).endOfEvent = s.modInb fun i => { i with current := some tx } := by
  have ready : Ready (s.modInb fun i => { i with current := some tx }) := h.ready.of_same {}
  rw [ready.bus, takeBus_eq (busChoice_busy rfl)]

theorem attemptRetried_left (h : tx.reattempts < s.ag.params.localRetryLimit.toNat) :
    s.attemptRetried tx = s.modInb fun i => { i with current := some tx.retried } := if_pos h

theorem attemptRetried_spent (h : s.ag.params.localRetryLimit.toNat ≤ tx.reattempts) :
    s.attemptRetried tx = s.transactionFault tx := if_neg (Nat.not_lt.2 h)

end

/-! ### The end of the head entry's transaction (R131, R132) -/

/-- The head entry `e` has left the inbound queue, of which `l` is left, with no transaction in progress, and its
window's count has fallen. -/
def State.headEnded (s : State) (e : InboundEntry) (l : List InboundEntry) (counters : InboundCounters) : State :=
  State.fallIwt { s with inb := { s.inb with current := none, queue := l, counters := counters } } e.window

/-- The words that the card drives for a transaction that succeeds: none unless it is a read. -/
def Transaction.driven (tx : Transaction) (data : Table Word 16) : List Word :=
  if tx.dir = .read then data.toList.take tx.count else []

section
variable {tx : Transaction} {e : InboundEntry} {l : List InboundEntry}

theorem transactionDone_head (ho : tx.owner = .inbound) (hq : s.inb.queue = e :: l) (data : Table Word 16) :
    s.transactionDone tx data = (s.headEnded e l s.inb.counters).answerOrHold
      (e.success (s.wt.iwt.get e.window).laneOrder (tx.driven data)) := by
  have head : s.dropTransaction.inb.queue = e :: l := hq
  unfold State.transactionDone
  rw [ho]
  dsimp only
  unfold State.inboundDone State.leaveQueue
  rw [head]
  dsimp only [State.modInb]
  rw [head]
  rfl

theorem transactionFault_head (ho : tx.owner = .inbound) (hq : s.inb.queue = e :: l) :
    s.transactionFault tx =
      State.answerOrHold (State.recordDiscarded
        (s.headEnded e l { s.inb.counters with localMasterFaults := bump s.inb.counters.localMasterFaults })
        e (some .localFault)) e.failure := by
  have head : s.countBusFault.dropTransaction.inb.queue = e :: l := hq
  unfold State.transactionFault
  rw [ho]
  dsimp only
  unfold State.inboundFault State.leaveQueue
  rw [head]
  dsimp only [State.modInb]
  rw [head]
  rfl

end

/-! ### The answer to the requester (R132, R133) -/

theorem answerOrHold_placed (s : State) (f : Frame) : s.answerOrHold (some f) =
    if s.port.responseQ.length < 8 then s.placed f .plain
    else { s with inb := { s.inb with held := some ⟨f, s.now⟩ } } := by
  rw [answerOrHold_some, insertResponse_plain]

section
variable {e : InboundEntry}

theorem success_read (h : e.kind = .read) (o : LaneOrder) (ws : List Word) :
    e.success o ws = some (e.readAnswer o ws) := by
  unfold InboundEntry.success
  rw [h]

theorem success_write (h : e.kind = .write) (o : LaneOrder) (ws : List Word) :
    e.success o ws = some e.acceptAnswer := by
  unfold InboundEntry.success
  rw [h]

theorem success_posted (h : e.kind = .postedWrite) (o : LaneOrder) (ws : List Word) : e.success o ws = none := by
  unfold InboundEntry.success
  rw [h]

theorem failure_posted (h : e.kind = .postedWrite) : e.failure = none := by
  unfold InboundEntry.failure
  rw [h]

theorem failure_wanted (h : e.kind ≠ .postedWrite) : e.failure = some e.faultAnswer := by
  unfold InboundEntry.failure
  cases hk : e.kind with
  | read => rfl
  | write => rfl
  | postedWrite => exact absurd hk h

theorem recordDiscarded_posted (h : e.kind = .postedWrite) (s : State) (detail : Option Detail) :
    s.recordDiscarded e detail =
      { s with ag := s.ag.withRecord (e.discarded detail), firings := s.firings ++ [codeFaultRecorded] } :=
  (if_pos h).trans (recordFault_eq ..)

theorem recordDiscarded_wanted (h : e.kind ≠ .postedWrite) (s : State) (detail : Option Detail) :
    s.recordDiscarded e detail = s := if_neg h

end

/-- Settles O55: the fall of the count by whether a RETIRE_WINDOW waits for it, a termination by the attempt it finds,
and the end of the head entry's transaction by the entry's kind. -/
theorem busTerminations : Obligations.BusTerminations := by
  refine ⟨fun dest source b => rfl, fun s w => ?_,
    fun s hs => ⟨fun h => ?_, fun h => ?_, fun tx hc => ⟨fun hr => ?_, fun hr => ?_⟩⟩⟩
  · have fallen := fallenInbound_eq s w
    refine ⟨fun h => (fallIwt_unawaited h).trans fallen, fun d hdrained hag hd ht hi => ?_⟩
    rw [fallIwt_awaited hdrained hag hd ht hi, fallen]
    rfl
  · have absent := attempt_none h
    exact ⟨exec_terminationDone_none absent, exec_terminationFault_none absent, exec_terminationRetry_none absent,
      (exec_cycleTimer_eq s).trans (exec_terminationFault_none absent)⟩
  · exact exec_reattemptDelay_none (waitingAttempt_none h)
  · exact exec_reattemptDelay_some (waitingAttempt_some hc hr)
  · have found := attempt_some hc hr
    refine ⟨fun left => ?_, fun spent => ?_, fun e l ho hq => ?_⟩
    · rw [exec_terminationRetry_some found, attemptRetried_left (s := s.begin) left, hs.begin.withCurrent]
      rfl
    · rw [exec_terminationRetry_some found, exec_terminationFault_some found, attemptRetried_spent (s := s.begin) spent]
    · intro order u done failed answered words valid byte kept
      have succeeds (data : Table Word 16) : exec (.terminationDone data) s =
          .next (done.answerOrHold (e.success order (words data))).endOfEvent :=
        (exec_terminationDone_some found data).trans (next_congr (transactionDone_head (s := s.begin) ho hq data))
      have fails (i : Instr) (hi : i = .terminationFault ∨ i = .cycleTimerExpiry) : exec i s =
          .next ((failed.recordDiscarded e (some .localFault)).answerOrHold e.failure).endOfEvent :=
        (exec_fault_or_expiry hi found).trans (next_congr (transactionFault_head (s := s.begin) ho hq))
      refine ⟨fun hk data => ?_, fun hk data => ?_, fun hk => ⟨fun data => ?_, fun i hi => ?_⟩, fun hk i hi => ?_⟩
      · rw [succeeds, success_read hk, answerOrHold_placed]
        rfl
      · rw [succeeds, success_write hk, answerOrHold_placed]
        rfl
      · rw [succeeds, success_posted hk]
        rfl
      · rw [fails i hi, failure_posted hk, recordDiscarded_posted hk]
        rfl
      · rw [fails i hi, failure_wanted hk, recordDiscarded_wanted hk, answerOrHold_placed]
        rfl

end Sys2Proof.Machine
end

section
/-! SUPPORT. The agent stays sound at every step (O8), refuses a request while it is busy (O30), puts one that it takes
to the tests of R139, and takes a MGMT_REQUEST frame as the command that its first word names (O31). -/

-- Proofs one after another: side by side, each waits for those before it in a thread of its own.
set_option Elab.async false

namespace Sys2Proof.Machine

variable {s : State} {i : Instr} {q : MgmtRequest} {form : CommandForm}

/-! ### Soundness (R137, R138, R152) -/

/-- Settles O8: no operation leaves an agent that holds a reply or awaits its reset out of EXECUTING (`Keeps.agent`),
and a POWER-ON reset leaves it with neither. -/
theorem stepKeepsAgentSound : Obligations.StepKeepsAgentSound := by
  intro s t hs h
  obtain rfl | ⟨c, rest, -, ⟨st, -, k⟩ | ⟨pin, k⟩⟩ := step_keeps h
  · exact hs
  · exact k.agent AgentSound.reset
  · exact k.agent hs

/-! ### A busy agent (R137) -/

/-- The REFUSE RETRY_BUSY that answers a request (R137). -/
def busyRefusal (q : MgmtRequest) : Frame :=
  Frame.answer q.source q.dest (refuseBody ⟨q.tag, q.gen⟩ retryBusyCode)

/-- A request has been counted in MGMT_BUSY. -/
def State.countBusy (s : State) : State := s.countAg fun c => { c with mgmtBusy := bump c.mgmtBusy }

/-- A request has been counted in MGMT_DROPPED. -/
def State.countDropped (s : State) : State := s.countAg fun c => { c with mgmtDropped := bump c.mgmtDropped }

theorem insertResponse_countBusy (s : State) (r : Response) :
    (s.insertResponse r).countBusy = s.countBusy.insertResponse r := by
  unfold State.insertResponse
  by_cases h : s.port.link = .up ∨ r.frame.dest = s.en.ownId
  · simp only [if_pos h]
    exact (if_pos h).symm
  · simp only [if_neg h]
    refine Eq.trans ?_ (if_neg h).symm
    cases r.purpose <;> rfl

theorem agentBusy_room (h : s.port.responseQ.length < 8) (q : MgmtRequest) :
    s.agentBusy q = s.countBusy.insertResponse (plainResponse (busyRefusal q)) := by
  unfold State.agentBusy State.placeResponse
  rw [if_pos (State.responseRoom_iff.2 h), ← insertResponse_countBusy]
  rfl

theorem agentBusy_full (h : ¬s.port.responseQ.length < 8) (q : MgmtRequest) : s.agentBusy q = s.countDropped := by
  unfold State.agentBusy State.placeResponse
  rw [if_neg fun room => h (State.responseRoom_iff.1 room)]
  rfl

/-- A command with a request is an unknown one, or has a form. -/
theorem requestOf_cases (h : requestOf i = some q) :
    (∃ code, i = .unknownCommand code q) ∨ ∃ form, mgmtForm i = some (form, q) := by
  unfold requestOf at h
  split at h
  · rename_i code q'
    cases h
    exact .inl ⟨code, rfl⟩
  · obtain ⟨⟨form, q'⟩, hm, rfl⟩ := Option.map_eq_some_iff.1 h
    exact .inr ⟨form, hm⟩

/-- Whatever its command, a request that finds the agent busy goes the same way (R137). -/
theorem exec_busy (hq : requestOf i = some q) (hb : s.ag.state ≠ .idle) :
    exec i s = s.event fun v => v.agentBusy q := by
  obtain ⟨code, rfl⟩ | ⟨form, hm⟩ := requestOf_cases hq
  · exact next_congr (if_pos hb)
  · obtain ⟨run, e⟩ := mgmtForm_exec hm s
    exact e.trans (next_congr (if_pos hb))

/-- Settles O30: with room the refusal is placed (`agentBusy_room`), without it the request is dropped. -/
theorem busyAgentRefusesRequests : Obligations.BusyAgentRefusesRequests := by
  intro i q s h hq hb
  rw [exec_busy hq hb]
  by_cases room : s.port.responseQ.length < 8
  · rw [if_pos room]
    exact event_placed (agentBusy_room (s := s.begin) room q) (h.of_same {}) room
  · rw [if_neg room]
    exact event_rest (agentBusy_full (s := s.begin) room q) (h.of_same {})

/-! ### Replies (R8, R11) -/

theorem replyFrame_length {requester dest : NodeId} {tag : Tag} {gen : Gen} {code : BitVec 8} {r : MgmtResult}
    {data : List Word} (h : data.length ≤ 15) :
    (replyFrame requester dest tag gen code r data).length.toNat = 1 + data.length := by
  simp only [replyFrame, Frame.build, BitVec.toNat_ofNat]
  omega

/-! ### The tests of R139 -/

theorem exec_unknownCommand (h : AgentReady s) (code : BitVec 8) (q : MgmtRequest) :
    exec (.unknownCommand code q) s = .next (s.tookRequest.withFailure code q .unknownCommand) := by
  have taken : s.begin.unknownCommand code q = s.tookRequest.answerFail code q .unknownCommand :=
    if_neg fun busy => busy h.2.1
  exact (next_congr taken).trans
    (congrArg _ (h.took.failure code q .unknownCommand (by decide)))

theorem exec_wrongCount (h : AgentReady s) (hm : mgmtForm i = some (form, q))
    (hn : q.operands.length ≠ form.operands) :
    exec i s = .next (s.tookRequest.withFailure form.code q .badValue) := by
  obtain ⟨run, e⟩ := mgmtForm_exec hm s
  have taken : s.begin.command form q run = s.tookRequest.answerFail form.code q .badValue :=
    (if_neg fun busy => busy h.2.1).trans (if_pos hn)
  exact e.trans ((next_congr taken).trans
    (congrArg _ (h.took.failure form.code q .badValue (by decide))))

theorem exec_notOwner (h : AgentReady s) (hm : mgmtForm i = some (form, q)) (hn : q.operands.length = form.operands)
    (hl : form.lock = true) (ho : s.ag.lockOwner ≠ q.source) :
    exec i s = .next (s.tookRequest.withNotOwner form.code q) := by
  obtain ⟨run, e⟩ := mgmtForm_exec hm s
  have taken : s.begin.command form q run = s.tookRequest.answerNotOwner form.code q :=
    (if_neg fun busy => busy h.2.1).trans ((if_neg fun wrong => wrong hn).trans (if_pos ⟨hl, ho⟩))
  exact e.trans ((next_congr taken).trans
    (congrArg _ (h.took.notOwner form.code q)))

theorem exec_notManager (h : AgentReady s) (hm : mgmtForm i = some (form, q)) (hn : q.operands.length = form.operands)
    (ho : s.ag.lockOwner = q.source) (hf : form.manager = true) (hs : s.en.manager = false) :
    exec i s = .next (s.tookRequest.withFailure form.code q .notManager) := by
  obtain ⟨run, e⟩ := mgmtForm_exec hm s
  have taken : s.begin.command form q run = s.tookRequest.answerFail form.code q .notManager :=
    (if_neg fun busy => busy h.2.1).trans ((if_neg fun wrong => wrong hn).trans
      ((if_neg fun other => other.2 ho).trans (if_pos ⟨hf, hs⟩)))
  exact e.trans ((next_congr taken).trans
    (congrArg _ (h.took.failure form.code q .notManager (by decide))))

/-! ### A request frame (R27, R137, R179) -/

theorem takeMgmt_unknown {code : BitVec 8} (h : code = 0 ∨ 22 < code.toNat) (s : State) (q : MgmtRequest) :
    s.takeMgmt code q = s.unknownCommand code q := by
  have h' : code.toNat = 0 ∨ 22 < code.toNat := h.imp_left fun e => by rw [e]; rfl
  unfold State.takeMgmt
  split <;> first | omega | rfl

/-- A MGMT_REQUEST frame for this node is taken by its command code, in the event that its arrival has begun. -/
theorem arrival_request {f : Frame} {u : State} {ref : Ref} (ha : Arrival i f s u) (hm : f.malformed = false)
    (hd : s.forMe f) (hb : f.body = .mgmtRequest ref) :
    exec i s = ({ u with now := s.now } : State).event fun v => v.takeMgmt f.commandCode (f.mgmtRequest ref) := by
  rw [arrival_exec ha, classify_route hm (by rw [hb]; rfl)]
  obtain ⟨p, rfl, -⟩ := arrival_same ha
  have here : ({ s with now := s.now + 1, port := p } : State).route f =
      State.consume { s with now := s.now + 1, port := p } f :=
    (if_neg fun back => back.2.2 hd.2).trans (if_pos hd)
  rw [here]
  unfold State.consume
  rw [hb]
  rfl

/-- Settles O31: each test in its place (`State.command`), and the frame that carries a request. -/
theorem agentTestsInOrder : Obligations.AgentTestsInOrder := by
  refine ⟨fun requester dest tag gen code r data => ⟨rfl, rfl, rfl, replyFrame_length, rfl, rfl⟩, rfl,
    fun code q s h => exec_unknownCommand h code q, fun i form q s h hm => ⟨exec_wrongCount h hm,
      exec_notOwner h hm, exec_notManager h hm⟩, fun i f s u ref ha hm hd hb => ?_⟩
  intro q code v
  have run : exec i s = v.event fun w => w.takeMgmt code q := arrival_request ha hm hd hb
  refine ⟨fun j form hj hc => ?_, fun hc => ?_⟩
  · rw [run, exec_eq_takeMgmt hj v, hc]
  · rw [run]
    exact next_congr (takeMgmt_unknown hc v.begin q)

end Sys2Proof.Machine
end

section
/-! SUPPORT. The commands that only read: the reply data are the named item's words (O32). -/

-- Proofs one after another: side by side, each waits for those before it in a thread of its own.
set_option Elab.async false

namespace Sys2Proof.Machine

variable {s v : State} {q : MgmtRequest}

/-! ### Running a reading command (R139) -/

/-- A command that needs neither the lock nor the manager flag, with as many operands as it takes, runs. -/
theorem AgentReady.exec_free {form : CommandForm} {run : State → State} (h : AgentReady s)
    (hn : q.operands.length = form.operands) (hl : form.lock = false := by rfl) (hm : form.manager = false := by rfl) :
    s.event (fun v => v.command form q run) = .next (run s.tookRequest).endOfEvent :=
  h.command form q run hn (fun x => by rw [hl] at x; cases x) (fun x => by rw [hm] at x; cases x)

/-- What a reading command answers for the item that its operand names: its words, or BAD_INDEX where none is named. -/
def State.readOutcome (v : State) (code : BitVec 8) (q : MgmtRequest) : Option (List Word) → State
  | some words => v.withOk code q words
  | none => v.withFailure code q .badIndex

/-- The same before the reply has been placed. -/
def State.answerRead (v : State) (code : BitVec 8) (q : MgmtRequest) : Option (List Word) → State
  | some words => v.answerOk code q words
  | none => v.answerFail code q .badIndex

theorem AgentReady.answerRead_eq (h : AgentReady v) (code : BitVec 8) (q : MgmtRequest) (words : Option (List Word)) :
    (v.answerRead code q words).endOfEvent = v.readOutcome code q words := by
  cases words with
  | some words => exact h.ok code q words
  | none => exact h.failure code q .badIndex (by decide)

theorem readWindow_eq (v : State) (q : MgmtRequest) :
    v.readWindow q = v.answerRead 7 q ((windowName (q.operands.headD 0)).map fun w => v.windowWords w.1 w.2) := by
  unfold State.readWindow
  rw [operand_one]
  cases windowName (q.operands.headD 0) <;> rfl

theorem readRoute_eq (v : State) (q : MgmtRequest) :
    v.readRoute q = v.answerRead 9 q ((eventName (q.operands.headD 0)).map fun c => [(v.routeEntry c).word]) := by
  unfold State.readRoute
  rw [operand_one]
  cases eventName (q.operands.headD 0) <;> rfl

theorem readDescriptor_eq (v : State) (q : MgmtRequest) :
    v.readDescriptor q =
      v.answerRead 11 q ((descriptorName (q.operands.headD 0)).map fun i => (v.descriptor i).words i) := by
  unfold State.readDescriptor
  rw [operand_one]
  cases descriptorName (q.operands.headD 0) <;> rfl

theorem readChannel_eq (v : State) (q : MgmtRequest) :
    v.readChannel q = v.answerRead 14 q ((channelName (q.operands.headD 0)).map fun c => (v.chan c).words) := by
  unfold State.readChannel
  rw [operand_one]
  cases channelName (q.operands.headD 0) <;> rfl

theorem readCounters_eq (v : State) (q : MgmtRequest) :
    v.readCounters q = v.answerRead 17 q (v.groupWords ((q.operands.headD 0).extractLsb' 0 8).toNat) := by
  unfold State.readCounters groupOf
  rw [operand_one]
  cases v.groupWords ((q.operands.headD 0).extractLsb' 0 8).toNat <;> rfl

/-- A command answers OK with the words that it is shown to have. -/
theorem next_ok_congr {code : BitVec 8} {words words' : List Word} (h : words = words') :
    (Host.Outcome.next (v.withOk code q words) : Answer) = .next (v.withOk code q words') := by
  rw [h]

section Reads

variable (h : AgentReady s)
include h

theorem exec_identify (hn : q.operands.length = 0) :
    exec (.identify q) s = .next (s.tookRequest.withOk 1 q s.identity) :=
  (h.exec_free (form := formIdentify) hn).trans (congrArg _ (h.took.ok 1 q s.identity))

theorem exec_readParameters (hn : q.operands.length = 0) :
    exec (.readParameters q) s = .next (s.tookRequest.withOk 16 q s.ag.params.words) :=
  (h.exec_free (form := formReadParameters) hn).trans (congrArg _ (h.took.ok 16 q s.ag.params.words))

theorem exec_readWindow (hn : q.operands.length = 1) : exec (.readWindow q) s = .next (s.tookRequest.readOutcome 7 q
    ((windowName (q.operands.headD 0)).map fun w => s.windowWords w.1 w.2)) :=
  (h.exec_free (form := formReadWindow) hn).trans
    ((next_congr (readWindow_eq _ q)).trans (congrArg _ (h.took.answerRead_eq 7 q _)))

theorem exec_readRoute (hn : q.operands.length = 1) : exec (.readRoute q) s = .next (s.tookRequest.readOutcome 9 q
    ((eventName (q.operands.headD 0)).map fun c => [(s.routeEntry c).word])) :=
  (h.exec_free (form := formReadRoute) hn).trans
    ((next_congr (readRoute_eq _ q)).trans (congrArg _ (h.took.answerRead_eq 9 q _)))

theorem exec_readDescriptor (hn : q.operands.length = 1) : exec (.readDescriptor q) s =
    .next (s.tookRequest.readOutcome 11 q
      ((descriptorName (q.operands.headD 0)).map fun i => (s.descriptor i).words i)) :=
  (h.exec_free (form := formReadDescriptor) hn).trans
    ((next_congr (readDescriptor_eq _ q)).trans (congrArg _ (h.took.answerRead_eq 11 q _)))

theorem exec_readChannel (hn : q.operands.length = 1) : exec (.readChannel q) s = .next (s.tookRequest.readOutcome 14 q
    ((channelName (q.operands.headD 0)).map fun c => (s.chan c).words)) :=
  (h.exec_free (form := formReadChannel) hn).trans
    ((next_congr (readChannel_eq _ q)).trans (congrArg _ (h.took.answerRead_eq 14 q _)))

theorem exec_readCounters (hn : q.operands.length = 1) : exec (.readCounters q) s =
    .next (s.tookRequest.readOutcome 17 q
      (s.tookRequest.groupWords ((q.operands.headD 0).extractLsb' 0 8).toNat)) :=
  (h.exec_free (form := formReadCounters) hn).trans
    ((next_congr (readCounters_eq _ q)).trans (congrArg _ (h.took.answerRead_eq 17 q _)))

end Reads

/-! ### The words (R179) -/

theorem identity_eq (s : State) : s.identity =
    [0x0D7A7316, 3, s.serial,
      0#3 ++ s.ag.lockOwner ++ 0#3 ++ s.en.censusCount ++ 0#5 ++ s.port.link.code ++ BitVec.ofBool s.en.manager ++
        BitVec.ofBool (s.en.idMode == .strapped) ++ s.en.role.code ++ s.en.ownId,
      s.en.census] := by
  unfold State.identity
  rw [State.statusOwner_eq]
  rfl

theorem Params.words_eq (p : Params) : p.words =
    [p.responseTimeout.setWidth 32, p.retryLimit.setWidth 32, p.backoffUnit.setWidth 32, p.discardTime.setWidth 32,
      p.localCycleLimit.setWidth 32, p.localRetryLimit.setWidth 32] := by
  simp [Params.words, fieldAt]

theorem groupWords_none {n : Nat} (h : 9 ≤ n) (s : State) : s.groupWords n = none := by
  unfold State.groupWords
  split <;> first | omega | rfl

/-- An event code is named (R179). -/
theorem eventName_some {w : Word} {c : EventCode} (h : (w.extractLsb' 0 5).toNat = c.val) : eventName w = some c := by
  unfold eventName
  rw [dif_pos (by rw [h]; exact c.isLt)]
  simp [h]

/-- No event code is named (R179). -/
theorem eventName_none {w : Word} (h : 19 ≤ (w.extractLsb' 0 5).toNat) : eventName w = none :=
  dif_neg (by omega)

/-- Settles O32: each command's reply (`State.readOutcome`) for the item that its operand names. -/
theorem readCommandsReply : Obligations.ReadCommandsReply := by
  refine ⟨⟨rfl, rfl, rfl, rfl, rfl, rfl, rfl, rfl, fun _ => rfl, rfl⟩, fun q s h => ?_⟩
  intro v w1 outbound inbound descriptor channel
  have descriptor_words (i : Fin 64) (d : Descriptor) : d.words i = descriptor i d := Descriptor.words_eq d i
  have channel_words (ch : Channel) : ch.words = channel ch := by
    obtain ⟨state, current, remaining, next, remote, localAddr, completed, halt, slots⟩ := ch
    rw [Channel.words_eq, Channel.slotsWord_eq]
    cases halt with
    | none => rfl
    | some r =>
      dsimp only
      rw [HaltRecord.word_eq]
      rfl
  refine ⟨fun hn => ?_, fun hn => ?_, fun hn => ⟨fun i hi ht => ?_, fun i hi ht => ?_, fun bad => ?_, fun c hc => ?_,
    fun bad => ?_, fun i hi => ?_, fun bad => ?_, fun hw => ?_, fun hw => ?_, fun bad => ?_, fun ws hg => ?_,
    fun bad => ?_⟩⟩
  · rw [exec_identify h hn, identity_eq]
  · rw [exec_readParameters h hn, Params.words_eq]
  · rw [exec_readWindow h hn, windowName_outbound hi ht]
    exact next_ok_congr (OwtEntry.words_eq _ i)
  · rw [exec_readWindow h hn, windowName_inbound hi ht]
    exact next_ok_congr (IwtEntry.words_eq _ i)
  · rw [exec_readWindow h hn, windowName_none bad]
    rfl
  · rw [exec_readRoute h hn, eventName_some hc]
    exact next_ok_congr (congrArg (fun w => [w]) (RouteEntry.word_eq _))
  · rw [exec_readRoute h hn, eventName_none bad]
    rfl
  · rw [exec_readDescriptor h hn, descriptorName_some hi]
    exact next_ok_congr (descriptor_words i _)
  · rw [exec_readDescriptor h hn, descriptorName_none bad]
    rfl
  · rw [exec_readChannel h hn, channelName_eq _ .a hw]
    exact next_ok_congr (channel_words _)
  · rw [exec_readChannel h hn, channelName_eq _ .b hw]
    exact next_ok_congr (channel_words _)
  · rw [exec_readChannel h hn, channelName_none bad]
    rfl
  · rw [exec_readCounters h hn, show s.tookRequest.groupWords _ = some ws from hg]
    rfl
  · rw [exec_readCounters h hn, groupWords_none bad]
    rfl

end Sys2Proof.Machine
end

section
/-! SUPPORT. The nine counter groups: what each holds, and what clearing one leaves (O33). -/

-- Proofs one after another: side by side, each waits for those before it in a thread of its own.
set_option Elab.async false

namespace Sys2Proof.Machine

/-! ### Counters raised (R34) -/

theorem bumpBy_toNat (n : Nat) (c : Counter) : (bumpBy n c).toNat = min (c.toNat + n) 0xFFFFFFFF := by
  simp only [bumpBy, BitVec.toNat_ofNat]
  omega

/-! ### The groups as one record (R145, R147) -/

/-- The counters of all blocks, and the overflow count of the fault queue. -/
structure AllCounters where
  port : PortCounters
  en : EnumCounters
  rt : TrackerCounters
  ord : OrderingCounters
  lt : LocalCounters
  inb : InboundCounters
  ag : AgentCounters
  overflow : Nat
  bm : MoverCounters
  ev : EventCounters

/-- The counters of a state. -/
def State.allCounters (s : State) : AllCounters :=
  ⟨s.port.counters, s.en.counters, s.rt.counters, s.ord.counters, s.lt.counters, s.inb.counters, s.ag.counters,
    s.ag.overflow, s.bm.counters, s.ev.counters⟩

/-- The state with other counters. -/
def State.withCounters (s : State) (c : AllCounters) : State :=
  { s with
    port := { s.port with counters := c.port }
    en := { s.en with counters := c.en }
    rt := { s.rt with counters := c.rt }
    ord := { s.ord with counters := c.ord }
    lt := { s.lt with counters := c.lt }
    inb := { s.inb with counters := c.inb }
    ag := { s.ag with counters := c.ag, overflow := c.overflow }
    bm := { s.bm with counters := c.bm }
    ev := { s.ev with counters := c.ev } }

/-- One group cleared: its counters are zero, and the others are as before. -/
def AllCounters.cleared (c : AllCounters) (n : Nat) : AllCounters where
  port := if n = 0 then {} else c.port
  en := if n = 1 then {} else c.en
  rt := if n = 2 then {} else c.rt
  ord := if n = 3 then {} else c.ord
  lt := if n = 4 then {} else c.lt
  inb := if n = 5 then {} else c.inb
  ag := if n = 6 then {} else c.ag
  overflow := if n = 6 then 0 else c.overflow
  bm := if n = 7 then {} else c.bm
  ev := if n = 8 then {} else c.ev

/-- The parts that hold counters. -/
def counterParts : List Part :=
  [.portRx, .portTx, .portLocal, .en, .rt, .ordCounters, .ltCounters, .inbCounters, .agCounters, .faults, .bmCounters,
    .evCounters]

theorem withCounters_changes (s : State) (c : AllCounters) : Changes counterParts s (s.withCounters c) := by
  intro p hp
  cases p <;> first | exact absurd (by decide) hp | simp [Part.same, State.withCounters]

/-- Counters have no part in the agent's readiness. -/
theorem AgentReady.withCounters {s : State} (h : AgentReady s) (c : AllCounters) : AgentReady (s.withCounters c) :=
  h.same {}

/-! ### Clearing a group (R145) -/

/-- The groups that exist are cleared, and no others. -/
theorem clearGroup_eq (s : State) (n : Nat) :
    s.clearGroup n = if n < 9 then some (s.withCounters (s.allCounters.cleared n)) else none := by
  by_cases h : n < 9
  · rw [if_pos h]
    interval_cases n <;> rfl
  · rw [if_neg h]
    unfold State.clearGroup
    split <;> first | omega | rfl

theorem groupWords_isSome {s : State} {n : Nat} {ws : List Word} (h : s.groupWords n = some ws) : n < 9 := by
  by_contra hn
  rw [groupWords_none (by omega)] at h
  cases h

/-- The words of a cleared group are zero. -/
theorem groupWords_cleared {s : State} {n : Nat} {ws : List Word} (h : s.groupWords n = some ws) :
    (s.withCounters (s.allCounters.cleared n)).groupWords n = some (ws.map fun _ => 0) := by
  unfold State.groupWords at h
  split at h <;> cases h <;> rfl

/-- The words of the other groups stay. -/
theorem groupWords_uncleared (s : State) {n m : Nat} (h : m ≠ n) :
    (s.withCounters (s.allCounters.cleared n)).groupWords m = s.groupWords m := by
  have other : n ≠ m := h.symm
  unfold State.groupWords
  split <;> simp [State.withCounters, State.allCounters, AllCounters.cleared, other]

/-- Settles O33: clearing a group replaces counters alone (`clearGroup_eq`). -/
theorem counterGroups : Obligations.CounterGroups := by
  refine ⟨fun c => ⟨bumpBy_toNat 1 c, fun n => bumpBy_toNat n c⟩, fun s => ⟨rfl, rfl, rfl, rfl, rfl, rfl, rfl, rfl, rfl,
    fun n hn => ⟨groupWords_none hn s, ?_⟩, fun n ws hw => ⟨s.withCounters (s.allCounters.cleared n), ?_,
      groupWords_cleared hw, fun m hm => groupWords_uncleared s hm, withCounters_changes s _, rfl, rfl, rfl,
      fun h6 => if_neg h6⟩⟩⟩
  · exact (clearGroup_eq s n).trans (if_neg (by omega))
  · exact (clearGroup_eq s n).trans (if_pos (groupWords_isSome hw))

end Sys2Proof.Machine
end

section
/-! SUPPORT. The commands of the lock's owner on the agent's own registers: CLAIM, RELEASE and RENEW (O34),
SET_PARAMETERS, CLEAR_COUNTERS and READ_FAULTS (O39). -/

-- Proofs one after another: side by side, each waits for those before it in a thread of its own.
set_option Elab.async false

namespace Sys2Proof.Machine

variable {s v : State} {q : MgmtRequest}

/-- A command that needs the lock, but not the manager flag, runs for the lock's owner. -/
theorem AgentReady.exec_owned {form : CommandForm} {run : State → State} (h : AgentReady s)
    (hn : q.operands.length = form.operands) (ho : s.ag.lockOwner = q.source)
    (hm : form.manager = false := by rfl) :
    s.event (fun v => v.command form q run) = .next (run s.tookRequest).endOfEvent :=
  h.command form q run hn (fun _ => ho) (fun x => by rw [hm] at x; cases x)

/-- An update of the agent that leaves how it runs and its issue slot keeps it ready. -/
theorem AgentReady.modAg (h : AgentReady v) {f : Agent → Agent} (hs : (f v.ag).state = v.ag.state := by rfl)
    (hr : (f v.ag).heldReply = v.ag.heldReply := by rfl) (hp : (f v.ag).resetPending = v.ag.resetPending := by rfl)
    (hi : (f v.ag).issue = v.ag.issue := by rfl) : AgentReady (v.modAg f) :=
  h.same { issue := congrArg IssueSlot.state hi, reply := hr } hs hr hp

/-! ### The lock (R141) -/

/-- A lease action is named by 0 and 1 alone (R141, log 29). -/
theorem leaseActionOf_eq (w : Word) : leaseActionOf w =
    if w ≠ 0 ∧ w ≠ 1 then none else some (if w = 0 then .none else .retireAll) := by
  unfold leaseActionOf
  by_cases h0 : w = 0
  · subst h0
    rfl
  · by_cases h1 : w = 1
    · subst h1
      rfl
    · rw [if_neg h0, if_neg h1, if_pos ⟨h0, h1⟩]

/-- The lock granted to the requester, with the lease that its operands give (R141). -/
def State.granted (v : State) (q : MgmtRequest) : State :=
  v.modAg fun a => a.grant q.source ((q.operands.headD 0).extractLsb' 0 8)
    (if q.operands.getD 1 0 = 0 then .none else .retireAll)

theorem claim_eq (v : State) (q : MgmtRequest) : v.claim q =
    if v.ag.lockOwner ≠ 0 ∧ v.ag.lockOwner ≠ q.source then v.answerNotOwner 2 q
    else if (q.operands.headD 0).extractLsb' 0 8 = 0 ∨ (q.operands.getD 1 0 ≠ 0 ∧ q.operands.getD 1 0 ≠ 1) then
      v.answerFail 2 q .badValue
    else (v.granted q).answerOk 2 q [] := by
  by_cases held : v.ag.lockOwner ≠ 0 ∧ v.ag.lockOwner ≠ q.source
  · rw [if_pos held]
    exact if_pos held
  · rw [if_neg held]
    refine (if_neg held).trans ?_
    by_cases unnamed : q.operands.getD 1 0 ≠ 0 ∧ q.operands.getD 1 0 ≠ 1
    · rw [show leaseActionOf (operand q 2) = none from (leaseActionOf_eq _).trans (if_pos unnamed),
        if_pos (Or.inr unnamed)]
      rfl
    · rw [show leaseActionOf (operand q 2) = some _ from (leaseActionOf_eq _).trans (if_neg unnamed), operand_one]
      exact if_congr (or_iff_left unnamed).symm rfl rfl

/-- What CLAIM leaves: the lock's holder refuses another, and an operand without a value fails (R141). -/
theorem AgentReady.claim (h : AgentReady v) (q : MgmtRequest) : (v.claim q).endOfEvent =
    if v.ag.lockOwner ≠ 0 ∧ v.ag.lockOwner ≠ q.source then v.withNotOwner 2 q
    else if (q.operands.headD 0).extractLsb' 0 8 = 0 ∨ (q.operands.getD 1 0 ≠ 0 ∧ q.operands.getD 1 0 ≠ 1) then
      v.withFailure 2 q .badValue
    else (v.granted q).withOk 2 q [] := by
  rw [claim_eq]
  split_ifs
  · exact h.notOwner 2 q
  · exact h.failure 2 q .badValue (by decide)
  · exact (AgentReady.modAg h : AgentReady (v.granted q)).ok 2 q []

/-- Settles O34: CLAIM makes its own lock test (`AgentReady.claim`); the owner's two commands move the lease timer. -/
theorem lockCommands : Obligations.LockCommands := by
  intro q s h _ v time action
  refine ⟨fun hn => ?_, fun hn ho => ⟨?_, ?_⟩⟩
  · exact (h.exec_free (form := formClaim) hn).trans (congrArg _ (h.took.claim q))
  · exact (h.exec_owned (form := formRelease) hn ho).trans (congrArg _ (h.took.modAg.ok 3 q []))
  · exact (h.exec_owned (form := formRenew) hn ho).trans (congrArg _ (h.took.modAg.ok 4 q []))

/-! ### Parameters (R144) -/

theorem Params.valid_iff (p : Params) : p.valid = true ↔
    1 ≤ p.responseTimeout.toNat ∧ p.retryLimit.toNat ≤ 15 ∧ 1 ≤ p.backoffUnit.toNat ∧ p.backoffUnit.toNat ≤ 255 ∧
      1 ≤ p.discardTime.toNat ∧ p.discardTime.toNat ≤ 255 ∧ 1 ≤ p.localCycleLimit.toNat ∧
      p.localCycleLimit.toNat ≤ 1023 ∧ 1 ≤ p.localRetryLimit.toNat ∧ p.localRetryLimit.toNat ≤ 255 := by
  simp only [Params.valid, Bool.and_eq_true, decide_eq_true_eq, and_assoc]

theorem AgentReady.setParameters_eq (h : AgentReady v) (q : MgmtRequest) : (v.setParameters q).endOfEvent =
    if (paramsOperand q).valid = true then (v.modAg fun a => { a with params := paramsOperand q }).withOk 15 q []
    else v.withFailure 15 q .badValue := by
  unfold State.setParameters
  split_ifs
  · exact h.modAg.ok 15 q []
  · exact h.failure 15 q .badValue (by decide)

/-! ### Counters (R145) -/

theorem clearCounters_some {u : State} (hu : v.clearGroup ((q.operands.headD 0).extractLsb' 0 8).toNat = some u) :
    v.clearCounters q = u.answerOk 18 q [] := by
  unfold State.clearCounters groupOf
  rw [operand_one, hu]
  rfl

theorem clearCounters_none (hn : v.clearGroup ((q.operands.headD 0).extractLsb' 0 8).toNat = none) :
    v.clearCounters q = v.answerFail 18 q .badIndex := by
  unfold State.clearCounters groupOf
  rw [operand_one, hn]
  rfl

/-- Clearing a group keeps the agent ready. -/
theorem AgentReady.clearGroup {n : Nat} {u : State} (h : AgentReady v) (hu : v.clearGroup n = some u) :
    AgentReady u := by
  rw [clearGroup_eq] at hu
  split at hu <;> cases hu
  exact h.withCounters _

/-! ### Fault records (R149, R179) -/

theorem readFaultsHeader_eq (s : State) (n : Nat) : s.readFaultsHeader n =
    (BitVec.ofNat 3 n).setWidth 32 <<< 24 ||| (BitVec.ofNat 5 s.ag.faults.length).setWidth 32 <<< 16 |||
      (BitVec.ofNat 8 s.ag.overflow).setWidth 32 := by
  simp [State.readFaultsHeader, State.overflowField, fieldAt]

/-- Settles O39: each command by the lock's owner, and the words of a record from bit 31 down. -/
theorem setParametersClearCountersReadFaults : Obligations.SetParametersClearCountersReadFaults := by
  intro q s h ho v p valid group left taken words
  have record_words (r : FaultRecord) : r.words = words r := by
    unfold FaultRecord.words
    rw [FaultRecord.word1_eq, FaultRecord.word3_eq]
    rfl
  refine ⟨fun hn => ?_, fun hn => ⟨fun u hu => ?_, fun bad => ?_⟩, fun hn => ?_, rfl⟩
  · refine (h.exec_owned (form := formSetParameters) hn ho).trans (congrArg _ ((h.took.setParameters_eq q).trans ?_))
    exact if_congr (Params.valid_iff (paramsOperand q)) rfl rfl
  · refine (h.exec_owned (form := formClearCounters) hn ho).trans ((next_congr (clearCounters_some hu)).trans ?_)
    exact congrArg _ ((h.took.clearGroup hu).ok 18 q [])
  · have none_cleared : v.clearGroup group = none := (clearGroup_eq v group).trans (if_neg (by omega))
    refine (h.exec_owned (form := formClearCounters) hn ho).trans
      ((next_congr (clearCounters_none none_cleared)).trans ?_)
    exact congrArg _ (h.took.failure 18 q .badIndex (by decide))
  · refine (h.exec_owned (form := formReadFaults) hn ho).trans (congrArg _ ((h.took.modAg.ok 19 q _).trans ?_))
    rw [readFaultsHeader_eq, show FaultRecord.words = words from funext record_words]
    rfl

end Sys2Proof.Machine
end

section
/-! SUPPORT. The commands NODE_RESET, RENUMBER and RING_RESET, what follows when their replies have left, and the NODE
reset itself (O60). -/

-- Proofs one after another: side by side, each waits for those before it in a thread of its own.
set_option Elab.async false

namespace Sys2Proof.Machine

variable {s v : State} {q : MgmtRequest}

/-- A command that needs the lock and the manager flag runs for the lock's owner at the manager. -/
theorem AgentReady.exec_managed {form : CommandForm} {run : State → State} (h : AgentReady s)
    (hn : q.operands.length = form.operands) (ho : s.ag.lockOwner = q.source) (hm : s.en.manager = true) :
    s.event (fun v => v.command form q run) = .next (run s.tookRequest).endOfEvent :=
  h.command form q run hn (fun _ => ho) (fun _ => hm)

/-! ### RENUMBER (R38, R153) -/

theorem renumber_unnamed (h0 : q.operands.headD 0 ≠ 0) (h1 : q.operands.headD 0 ≠ 1) (v : State) :
    v.renumber q = v.answerFail 21 q .badValue := by
  unfold State.renumber keepOf
  rw [operand_one, if_neg h0, if_neg h1]
  rfl

theorem renumber_named {keep : Bool} (hk : q.operands.headD 0 = if keep = true then 1 else 0) (v : State) :
    v.renumber q = (v.trigger keep).answerOk 21 q [] := by
  unfold State.renumber
  rw [operand_one, hk]
  cases keep <;> rfl

/-- A run in this state has no pass under way: a trigger leaves it SETTLING (R38). -/
abbrev EnumState.Waits (x : EnumState) : Prop := x = .idle ∨ x = .settling ∨ x = .done ∨ x = .failed

theorem EnumState.triggered_waits (x : EnumState) : x.triggered = if x.Waits then .settling else x := by
  cases x <;> rfl

/-- The manager has taken a trigger: its keep is merged into that of a pending run, which waits for its turn (R38). -/
def State.withTrigger (v : State) (keep : Bool) : State :=
  v.modEn fun e =>
    { e with runPending := some (mergeKeep e.runPending keep), state := if e.state.Waits then .settling else e.state }

theorem trigger_eq (hm : v.en.manager = true) (keep : Bool) : v.trigger keep = (v.withTrigger keep).startIfSettled := by
  refine (if_pos hm).trans ?_
  simp only [EnumState.triggered_waits, State.withTrigger]

/-- A trigger that finds the ring settled and no pass under way starts the run at once (R38). -/
theorem trigger_starts (hm : v.en.manager = true) (hw : v.en.state.Waits) (hs : v.en.settle = .expired)
    (keep : Bool) : v.trigger keep = (v.withTrigger keep).withRun (mergeKeep v.en.runPending keep) :=
  (trigger_eq hm keep).trans (startIfSettled_starts (s := v.withTrigger keep) hm (if_pos hw) hs rfl)

/-- Any other trigger waits (R38). -/
theorem trigger_pends (hm : v.en.manager = true) (h : ¬(v.en.state.Waits ∧ v.en.settle = .expired)) (keep : Bool) :
    v.trigger keep = v.withTrigger keep := by
  refine (trigger_eq hm keep).trans ?_
  by_cases hw : v.en.state.Waits
  · exact startIfSettled_waits fun settled => h ⟨hw, settled⟩
  · refine startIfSettled_stays fun ⟨_, settling, _⟩ => ?_
    have state : v.en.state = .settling := (if_neg hw).symm.trans settling
    exact hw (.inr (.inl state))

/-- A command answered OK without reply data. -/
theorem answerOk_eq (v : State) (code : BitVec 8) (q : MgmtRequest) :
    v.answerOk code q [] = v.repliedOk code q .plain := answerFor_eq v code q .plain

/-! ### RING_RESET (R49) -/

theorem exec_ringReset (h : AgentReady s) (hn : q.operands.length = 0) (ho : s.ag.lockOwner = q.source)
    (hm : s.en.manager = true) : exec (.ringReset q) s = .next (s.tookRequest.ringResetCommand q).endOfEvent :=
  h.exec_managed (form := formRingReset) hn ho hm

theorem ringResetCommand_idle (h : v.en.resetOutstanding = true ∨ v.en.ownId = 0) :
    v.ringResetCommand q = v.answerOk 22 q [] := if_pos h

theorem ringResetCommand_starts (hr : v.en.resetOutstanding = false) (hi : v.en.ownId ≠ 0) :
    v.ringResetCommand q = v.setOutstanding.repliedOk 22 q .ringReset :=
  (if_neg (by rw [hr]; exact fun out => out.elim Bool.false_ne_true hi)).trans (answerFor_eq ..)

/-! ### What follows the replies (R30, R49, R152) -/

theorem presentOutstanding_eq (s : State) : s.presentOutstanding =
    if s.en.ownId = 0 then { s with en := { s.en with resetOutstanding := false } }
    else s.withControl s.resetFrame := by
  unfold State.presentOutstanding
  rw [presentReset_eq]
  rfl

/-! ### The NODE reset (R152) -/

/-- The issue slot after a NODE reset: a request that waits for its tag or its reply is dropped (R125). -/
theorem IssueSlot.nodeReset_eq (i : IssueSlot) :
    i.nodeReset = if i.state = .waitingTag ∨ i.state = .issued then IssueSlot.reset else i := by
  unfold IssueSlot.nodeReset
  cases i.state <;> rfl

/-- A window that drains at once is EMPTY if it was RETIRING (R70). -/
theorem WindowState.drainedAt_zero (st : WindowState) : st.drainedAt 0 = if st = .retiring then .empty else st := by
  simp [WindowState.drainedAt]

/-- The agent after a NODE reset in which fault records have arrived (R136, R154). -/
def Agent.afterNodeReset (a : Agent) (rs : List FaultRecord) : Agent :=
  let b := rs.foldl Agent.withRecord a
  { b with
    state := .idle
    heldReply := none
    deferred := none
    resetPending := false
    issue := if b.issue.state = .waitingTag ∨ b.issue.state = .issued then IssueSlot.reset else b.issue }

theorem Agent.nodeReset_eq (a : Agent) (rs : List FaultRecord) :
    (rs.foldl Agent.withRecord a).nodeReset = a.afterNodeReset rs := by
  unfold Agent.nodeReset Agent.afterNodeReset
  rw [IssueSlot.nodeReset_eq]

/-- The window tables drained, every count 0 (R70). -/
theorem WindowTables.drainAll_eq (w : WindowTables) : w.drainAll =
    { owt := w.owt.map fun e =>
        { e with inFlight := 0, state := if e.state = .retiring then .empty else e.state }
      iwt := w.iwt.map fun e =>
        { e with inFlight := 0, state := if e.state = .retiring then .empty else e.state } } := by
  simp only [WindowTables.drainAll, WindowState.drainedAt_zero]

/-- The blocks have taken the NODE reset, and the firings of its fault records wait (R152). -/
def State.afterNodeReset (s : State) : State :=
  { s with
    port := { s.port with offer := none }
    wt := s.wt.drainAll
    rt := s.rt.afterReset
    ord := { SequenceTables.reset with counters := s.ord.counters }
    lt := { s.lt with slots := Vector.replicate 4 DelayedSlot.reset }
    inb := { s.inb with queue := [], current := none, held := none }
    ag := s.ag.afterNodeReset s.discardRecords
    bm := { s.bm with chA := Channel.reset, chB := Channel.reset }
    ev := { s.ev with ring := Vector.replicate 19 RingRoute.reset }
    firings := s.firings ++ s.discardRecords.map fun _ => 5
    asks := [] }

theorem inboundDiscard_eq (s : State) : s.inboundDiscard =
    { s with
      inb := { s.inb with queue := [], current := none, held := none }
      ag := s.discardRecords.foldl Agent.withRecord s.ag
      firings := s.firings ++ s.discardRecords.map fun _ => 5 } := by
  unfold State.inboundDiscard
  rw [recordFaults_eq]
  rfl

theorem performNodeReset_eq (s : State) : s.performNodeReset =
    State.takeFirings { s.afterNodeReset.takeFirings with firings := [14] } := by
  have blocks : s.performNodeReset = (s.afterNodeReset.takeFirings.fire codeNodeResetDone).takeFirings := by
    unfold State.performNodeReset State.afterNodeReset
    rw [inboundDiscard_eq, ← Agent.nodeReset_eq]
    rfl
  rw [blocks]
  unfold State.fire
  rw [takeFirings_firings]
  rfl

/-- Once the NODE reset has been performed, none is pending (R154). -/
theorem performNodeReset_ag (s : State) : s.performNodeReset.ag.resetPending = false ∧
    s.performNodeReset.ag.issue.state ≠ .waitingTag := by
  obtain ⟨v, hv, -, -, -, pending, issue, -⟩ := performNodeReset_spec s
  rw [hv, (takeFirings_same v).issue]
  exact ⟨pending, issue⟩

/-- The end of an event after the NODE reset leaves the issue slot as the reset did. -/
theorem performNodeReset_endOfEvent_issue (s : State) :
    s.performNodeReset.endOfEvent.ag.issue = s.ag.issue.nodeReset := by
  obtain ⟨pending, issue⟩ := performNodeReset_ag s
  rw [endOfEvent_issue pending issue, performNodeReset_issue]

/-! ### The looped reply of a NODE_RESET (R125, log 41) -/

/-- A MGMT_REPLY answers a MGMT_REQUEST that has been sent to its source with its tag and generation (R9, R83). -/
theorem responseMatches_reply {ref : Ref} {f : Frame} (hb : f.body = .mgmtReply ref)
    (hk : (s.entry ref.tag).kind = .mgmtRequest) (hf : (s.entry ref.tag).state ≠ .free)
    (hg : (s.entry ref.tag).gen = ref.gen) (hd : (s.entry ref.tag).dest = f.source)
    (hs : (s.entry ref.tag).sentOnce = true) : s.responseMatches ref f = true := by
  simp [State.responseMatches, answers, hb, hk, hf, hg, hd, hs]

section LoopedReply

variable {r : Response} {l : List Response} {ref : Ref} (hl : s.left = []) (hq : s.port.responseQ = r :: l)
  (hd : r.frame.dest = s.en.ownId)
include hl hq hd

/-- The head of the response queue, self-addressed, is looped before all else that an event ends with. -/
theorem endOfEvent_head : s.endOfEvent = (s.loopResponse r).drainLeft.endOfEvent := by
  refine (response_move hl ?_).1
  rw [loopStep_head hq hd]
  rfl

/-- The reply that comes first completes the issue slot, which the reset then keeps. -/
theorem issue_replyFirst (hb : r.frame.body = .mgmtReply ref) (e : s.replyBeforeReset r = some ref)
    (hm : s.responseMatches ref r.frame = true) (ho : (s.entry ref.tag).originator = .issueSlot) :
    s.endOfEvent.ag.issue = { s.ag.issue with state := .replied, result := some .ok, reply := r.frame.payload } := by
  rw [endOfEvent_head hl hq hd, loopResponse_drained_some hl e]
  unfold State.resetAfterReply
  rw [performNodeReset_endOfEvent_issue, takeResponse_issue (s := s.popResponse.countLooped) hb hm ho]
  rfl

/-- The reset that comes first empties an ISSUED slot. -/
theorem issue_resetFirst (hp : r.purpose = .nodeReset) (pending : s.ag.resetPending = true)
    (e : s.replyBeforeReset r = none) (hi : s.ag.issue.state = .issued) :
    s.endOfEvent.ag.issue = IssueSlot.reset := by
  rw [endOfEvent_head hl hq hd, loopResponse_drained_none hl e, hp]
  have performed (w : State) (hw : w.ag = s.ag) : (w.leftReport .nodeReset).endOfEvent.ag.issue = IssueSlot.reset := by
    have reset : w.leftReport .nodeReset = w.performNodeReset := if_pos (by rw [hw]; exact pending)
    rw [reset, performNodeReset_endOfEvent_issue, hw, IssueSlot.nodeReset_eq, if_pos (.inr hi)]
  exact performed _ rfl

end LoopedReply

/-- Settles O60: the three commands, the reports of their replies, the NODE reset block by block, and the issue slot by
which of the looped reply and the reset comes first. -/
theorem resetCommands : Obligations.ResetCommands := by
  refine ⟨fun q s h ho => ?_, fun s => ⟨rfl, rfl, ?_, ?_, ?_⟩⟩
  · intro v w1
    refine ⟨fun hn => ?_, fun hm hn => ⟨fun h0 h1 => ?_, fun keep hk => ?_⟩,
      fun hm hi hn => ⟨fun hr => ?_, fun hr => ?_⟩, fun hm hi hn => ?_⟩
    · exact (h.exec_owned (form := formNodeReset) hn ho).trans (next_congr (answerFor_eq _ 20 q .nodeReset))
    · exact (h.exec_managed (form := formRenumber) hn ho hm).trans ((next_congr (renumber_unnamed h0 h1 _)).trans
        (congrArg _ (h.took.failure 21 q .badValue (by decide))))
    · have run : exec (.renumber q) s = .next ((v.trigger keep).answerOk 21 q []).endOfEvent :=
        (h.exec_managed (form := formRenumber) hn ho hm).trans (next_congr (renumber_named hk _))
      intro merged settling u
      refine ⟨fun ⟨hw, hs⟩ => ?_, fun hw => ?_⟩
      · rw [run, trigger_starts (v := v) hm hw hs keep, answerOk_eq]
        rfl
      · have ready : AgentReady (v.withTrigger keep) := h.took.same {}
        rw [run, trigger_pends (v := v) hm hw keep, ready.ok]
        rfl
    · rw [exec_ringReset h hn ho hm, ringResetCommand_idle (v := s.tookRequest) (.inl hr), h.took.ok]
    · rw [exec_ringReset h hn ho hm, ringResetCommand_starts (v := s.tookRequest) hr hi]
      rfl
    · rw [exec_ringReset h hn ho hm, ringResetCommand_idle (v := s.tookRequest) (.inr hi), h.took.ok]
  · exact if_congr Iff.rfl (presentOutstanding_eq s) rfl
  · intro drained v
    have windows : s.afterNodeReset = v := by
      unfold State.afterNodeReset
      rw [WindowTables.drainAll_eq]
      rfl
    rw [performNodeReset_eq, windows]
  · intro r l ref hl hq hd hp pending hf hb hi e ho hk hfree hgen hdest hsent
    have first := replyBeforeReset_reply hp hb pending hf
    by_cases hc : Config.loopedReplyFirst s.now = true
    · rw [if_pos hc] at first ⊢
      have answered : s.responseMatches ref r.frame = true := responseMatches_reply hb hk hfree hgen hdest hsent
      exact issue_replyFirst hl hq hd hb first answered ho
    · rw [if_neg hc] at first ⊢
      exact issue_resetFirst hl hq hd hp pending first hi

end Sys2Proof.Machine
end

section
/-! SUPPORT. SET_DESCRIPTOR by the lock's owner (R156): what its operand words name, its tests in their order, and the
entry (O38). -/

namespace Sys2Proof.Machine

variable {s v : State} {q : MgmtRequest} {i : Fin 64}

/-! ### The operand words (R155, R156, R179) -/

/-- The next field names a descriptor, is END, or has no meaning (R156). -/
theorem nextOfWord_eq (w : Word) :
    let n := (w.extractLsb' 0 7).toNat
    nextOfWord w = if n < 64 ∨ n = 127 then some (if h : n < 64 then some ⟨n, h⟩ else none) else none := by
  intro n
  unfold nextOfWord
  by_cases hend : w.extractLsb' 0 7 = 127
  · have n_end : n = 127 := congrArg BitVec.toNat hend
    rw [if_pos hend, if_pos (.inr n_end), dif_neg (by omega)]
  · have n_other : n ≠ 127 := fun h => hend (BitVec.eq_of_toNat_eq h)
    rw [if_neg hend]
    by_cases hn : n < 64
    · rw [if_pos (.inl hn), dif_pos hn, descriptorName_some (i := ⟨n, hn⟩) rfl]
      rfl
    · rw [if_neg (by omega), descriptorName_none (by omega)]
      rfl

/-- The value tests on one side of a descriptor (R156). -/
def SideFits (addr length size top : Nat) (fixed : Bool) : Prop :=
  addr % 4 = 0 ∧ (if fixed = true then addr % 4096 + 4 * size ≤ 4096 else addr + 4 * length ≤ top)

theorem sideValid_iff (addr length size top : Nat) (fixed : Bool) :
    sideValid addr length size top fixed = true ↔ SideFits addr length size top fixed := by
  cases fixed <;> simp [sideValid, SideFits]

theorem Descriptor.valid_iff (d : Descriptor) : d.valid = true ↔
    d.node ≠ 0 ∧ d.node ≠ 31 ∧ 1 ≤ d.length ∧ d.length ≤ 1048576 ∧ 1 ≤ d.frameSize ∧ d.frameSize ≤ 16 ∧
      SideFits d.remote.toNat d.length d.frameSize (2 ^ 40) d.remoteFixed ∧
      SideFits d.localAddr.toNat d.length d.frameSize (2 ^ 32) d.localFixed := by
  simp only [Descriptor.valid, Bool.and_eq_true, decide_eq_true_eq, isNode_iff, sideValid_iff, and_assoc]

/-- The next field of the operand words (R156, R179). -/
abbrev nextField (q : MgmtRequest) : Nat := ((operand q 6).extractLsb' 0 7).toNat

/-- The descriptor of the operand words, where a next field without meaning counts as END. -/
def descriptorGiven (q : MgmtRequest) : Descriptor :=
  descriptorOfWords (operand q 2) (operand q 3) (operand q 4) (operand q 5)
    (if h : nextField q < 64 then some ⟨nextField q, h⟩ else none)

theorem descriptorOperand_eq (q : MgmtRequest) : descriptorOperand q =
    if nextField q < 64 ∨ nextField q = 127 then some (descriptorGiven q) else none := by
  unfold descriptorOperand
  rw [nextOfWord_eq]
  exact apply_ite (Option.map _) _ _ _

/-! ### The tests of SET_DESCRIPTOR (R156) -/

theorem ChannelState.working_iff (st : ChannelState) : st.working = true ↔ st = .running ∨ st = .stopping := by
  cases st <;> decide

theorem descriptorInUse_iff : v.descriptorInUse i = true ↔
    (v.bm.chA.state.working = true ∧ v.bm.chA.current = some i) ∨
      (v.bm.chB.state.working = true ∧ v.bm.chB.current = some i) := by
  simp [State.descriptorInUse, State.chan]

theorem setDescriptorTo_unnamed (h : descriptorName (operand q 1) = none) (v : State) :
    v.setDescriptorTo q = .error .badIndex := by
  unfold State.setDescriptorTo
  rw [h]

/-- The tests in their order: the use, the LOADED flag, and the values. -/
theorem setDescriptorTo_named (h : descriptorName (operand q 1) = some i) (v : State) : v.setDescriptorTo q =
    if v.descriptorInUse i = true then .error .inUse
    else if (operand q 1).getLsbD 8 = false then .ok (v.modDescriptor i fun d => { d with loaded := false })
    else if ¬((nextField q < 64 ∨ nextField q = 127) ∧ (descriptorGiven q).valid = true) then .error .badValue
    else .ok (v.modDescriptor i fun _ => descriptorGiven q) := by
  unfold State.setDescriptorTo
  rw [h, descriptorOperand_eq]
  by_cases named : nextField q < 64 ∨ nextField q = 127
  · simp only [named, true_and, if_true, ite_not]
  · simp only [named, false_and, not_false_eq_true, if_true, if_false]

/-- The mover's descriptors have no part in the agent's readiness. -/
theorem AgentReady.modDescriptor (h : AgentReady v) (i : Fin 64) (f : Descriptor → Descriptor) :
    AgentReady (v.modDescriptor i f) := h.same {}

/-- What SET_DESCRIPTOR answers: the first test that fails, and otherwise OK. -/
theorem AgentReady.setDescriptor_named (h : AgentReady v) (hi : descriptorName (operand q 1) = some i) :
    (v.setDescriptor q).endOfEvent =
      if v.descriptorInUse i = true then v.withFailure 10 q .inUse
      else if (operand q 1).getLsbD 8 = false then
        (v.modDescriptor i fun d => { d with loaded := false }).withOk 10 q []
      else if ¬((nextField q < 64 ∨ nextField q = 127) ∧ (descriptorGiven q).valid = true) then
        v.withFailure 10 q .badValue
      else (v.modDescriptor i fun _ => descriptorGiven q).withOk 10 q [] := by
  have fails (r : MgmtResult) (hr : r ≠ .ok) : (v.answerTested 10 q (.error r)).endOfEvent = v.withFailure 10 q r :=
    h.failure 10 q r hr
  have succeeds (f : Descriptor → Descriptor) : (v.answerTested 10 q (.ok (v.modDescriptor i f))).endOfEvent =
      (v.modDescriptor i f).withOk 10 q [] := (h.modDescriptor i f).ok 10 q []
  have run : v.setDescriptor q = v.answerTested 10 q (v.setDescriptorTo q) := rfl
  rw [run, setDescriptorTo_named hi]
  split_ifs
  · exact fails .inUse (by decide)
  · exact succeeds _
  · exact succeeds _
  · exact fails .badValue (by decide)

/-- Settles O38: the entry that D1 names, the tests in their order (`AgentReady.setDescriptor_named`), and the value
tests in the fields of the operand words. -/
theorem setDescriptor : Obligations.SetDescriptor := by
  refine ⟨ChannelState.working_iff, fun q s h hn ho => ?_⟩
  intro v w next remote length size side valid
  have run : exec (.setDescriptor q) s = .next (v.setDescriptor q).endOfEvent :=
    h.exec_owned (form := formSetDescriptor) hn ho
  refine ⟨fun bad => ?_, fun i hi => ?_⟩
  · have unnamed : v.setDescriptor q = v.answerFail 10 q .badIndex :=
      congrArg (v.answerTested 10 q) (setDescriptorTo_unnamed (descriptorName_none bad) v)
    rw [run, unnamed, h.took.failure 10 q .badIndex (by decide)]
  · have accepted : ((nextField q < 64 ∨ nextField q = 127) ∧ (descriptorGiven q).valid = true) ↔ valid :=
      and_congr_right fun _ => Descriptor.valid_iff _
    rw [run, h.took.setDescriptor_named (descriptorName_some hi)]
    exact congrArg _ (if_congr descriptorInUse_iff rfl (if_congr Iff.rfl rfl
      (if_congr (not_congr accepted) rfl rfl)))

end Sys2Proof.Machine
end

section
/-! SUPPORT. What a completed entry hands over, originator by originator, and the asks that follow (O45). -/

namespace Sys2Proof.Machine

variable {s : State} {t : Tag} {r : Result} {data : List Word}

/-! ### The result, by the entry's originator (R88 step 1, R89) -/

theorem handOver_unwanted (h : (s.entry t).originator = .localPosted ∨ (s.entry t).originator = .abandoned) :
    s.handOver t r data = s := by
  unfold State.handOver
  dsimp only
  obtain h | h := h <;> rw [h]

theorem handOver_delayed {j : Fin 4} (h : (s.entry t).originator = .delayed j) :
    s.handOver t r data = s.delayedCompleted j r data := by
  unfold State.handOver
  dsimp only
  rw [h]

theorem handOver_issueSlot (h : (s.entry t).originator = .issueSlot) :
    s.handOver t r data = s.issueCompleted r data := by
  unfold State.handOver
  dsimp only
  rw [h]

/-- The mover asks again unless it stood as a claim already (R77, R163, log 6). -/
theorem handOver_mover {c : ChannelId} {i : Fin 8} (h : (s.entry t).originator = .mover c i) :
    s.handOver t r data =
      if s.moverWaits then s.moverCompleted c i (s.entry t).kind r data
      else (s.moverCompleted c i (s.entry t).kind r data).raiseAsk (.mover c i) := by
  unfold State.handOver
  dsimp only
  rw [h, moverStands_eq]

theorem handOver_event {c : EventCode} (h : (s.entry t).originator = .event c) :
    s.handOver t r data = (s.eventCompleted c (s.entry t).dest r).raiseAsk (.event c) := by
  unfold State.handOver
  dsimp only
  rw [h]

/-! ### An EVENT entry (R174) -/

/-- An EVENT that is not delivered is recorded as lost (R174 step 2). -/
theorem eventCompleted_lost (h : r ≠ .ok) (c : EventCode) (dest : NodeId) :
    s.eventCompleted c dest r =
      let v := s.modRing c fun k => { k with tag := none }
      { v with
        ag := s.ag.withRecord
          { kind := .eventLost, node := some dest, index := some (BitVec.ofNat 6 c.val), detail := some (.result r) }
        firings := s.firings ++ [codeFaultRecorded] } :=
  (if_neg h).trans (recordFault_eq ..)

/-! ### Asking again (R163, R174 step 3) -/

theorem askAgain_free {c : EventCode} (h : ¬s.isHeld c = true) : s.askAgain (.event c) = s := if_neg h

theorem askAgain_held {c : EventCode} (h : s.isHeld c = true) : s.askAgain (.event c) = (s.grantHeld c).getD s :=
  if_pos h

/-- Settles O45: the hand-over by the entry's originator, and one ask by who makes it. -/
theorem completionHandsOver : Obligations.CompletionHandsOver := by
  refine ⟨fun s t r data => ?_, fun s => ⟨takeAsks_eq, fun o l h => ?_⟩⟩
  · intro e
    have handed {v : State} (h : s.handOver t r data = v) : s.completeEntry r data t = v.freeEntry t :=
      congrArg (·.freeEntry t) h
    refine ⟨fun h => handed (handOver_unwanted h), fun j h => handed (handOver_delayed h),
      fun h => handed (handOver_issueSlot h), fun c i h => handed (handOver_mover h),
      fun c h => ⟨fun hr => ?_, fun hr => ?_⟩⟩
    · subst hr
      exact handed (handOver_event h)
    · exact handed ((handOver_event h).trans (congrArg (State.raiseAsk · _) (eventCompleted_lost hr c e.dest)))
  · intro u
    have first := takeAsks_cons h
    have held (c : EventCode) : u.isHeld c = true ↔ (s.ev.ring.get c).tag = none ∧ 0 < (s.ev.ring.get c).refire :=
      isHeld_iff
    refine ⟨?_, ?_⟩
    · rintro c rfl
      refine ⟨fun ht hr => ?_, fun hn => ?_⟩
      · have asks : s.takeAsks = ((u.grantHeld c).getD u).takeAsks :=
          first.trans (congrArg State.takeAsks (askAgain_held ((held c).2 ⟨ht, hr⟩)))
        refine ⟨fun hg => ?_, fun v hg => ?_⟩ <;> rw [asks, hg] <;> rfl
      · exact first.trans (congrArg State.takeAsks (askAgain_free fun h => hn ((held c).1 h)))
    · rintro ⟨c, i, rfl⟩
      exact first

end Sys2Proof.Machine
end

section
/-! SUPPORT. What the tracker allocates or refuses (R74, R75), and what an outbound access comes to (R116 to R119), case
by case (O57). -/

namespace Sys2Proof.Machine

variable {s : State} {r : AllocRequest} {t : Tag} {l : List Tag}

/-! ### The tests of an allocation (R74) -/

theorem channelHolds_eq (s : State) (c : ChannelId) : s.channelHolds c =
    (s.rt.allocOrder.filter fun x => (s.entry x).originator.isChannel c).length := List.countP_eq_length_filter

theorem moverReserved_iff {o : Originator} : s.moverReserved o = true ↔
    ∃ c i, o = .mover c i ∧ (s.rt.freeList.length < 5 ∨ 8 ≤ s.channelHolds c) := by
  cases o <;> simp [State.moverReserved]

theorem placesFull_iff : s.placesFull r = true ↔ r.kind = .postedWrite ∧ 16 ≤ (s.sendOf r.dest).count := by
  simp [State.placesFull]

theorem alloc_eq_some (hn : s.numbered = true) (hl : s.rt.freeList = t :: l)
    (hr : ¬s.moverReserved r.originator = true) (hf : ¬s.placesFull r = true) :
    s.alloc r = some (t, s.allocated r t l) := by
  unfold State.alloc
  rw [hn, hl]
  exact (if_neg hr).trans (if_neg hf)

/-! ### What an allocation makes (R62, R75, R96) -/

/-- READ, WRITE and EVENT wait behind the posted writes to their destination (R75). -/
theorem allocatedEntry_state (s : State) (r : AllocRequest) (old : TrackerEntry) : (s.allocatedEntry r old).state =
    if (r.kind = .read ∨ r.kind = .write ∨ r.kind = .event) ∧ s.postedRun r.dest ≠ [] then .orderWait else .ready := by
  have held : r.kind.heldBehindPosted = true ↔ r.kind = .read ∨ r.kind = .write ∨ r.kind = .event := by
    cases r.kind <;> decide
  refine if_congr ?_ rfl rfl
  rw [Bool.and_eq_true, held, Bool.not_eq_true', List.isEmpty_eq_false_iff]

/-- What an allocation makes of a FREE entry. -/
theorem allocatedEntry_eq (s : State) (r : AllocRequest) (old : TrackerEntry) : s.allocatedEntry r old =
    { s.allocatedEntry r old with
      state := if (r.kind = .read ∨ r.kind = .write ∨ r.kind = .event) ∧ s.postedRun r.dest ≠ [] then .orderWait
        else .ready } := by
  rw [← allocatedEntry_state s r old]

/-- An allocation in the three blocks that it changes. -/
theorem allocated_eq (s : State) (r : AllocRequest) (t : Tag) (l : List Tag) : s.allocated r t l =
    { s with
      rt := { s.rt with
        freeList := l
        allocOrder := s.rt.allocOrder ++ [t]
        entries := modAt s.rt.entries t (s.allocatedEntry r) }
      ord := if r.kind = .postedWrite then { s.ord with send := modAt s.ord.send r.dest.toFin SendEntry.assign }
        else s.ord
      wt := match r.window with
        | some w => { s.wt with owt := modAt s.wt.owt w fun e => { e with inFlight := e.inFlight + 1 } }
        | none => s.wt } := by
  unfold State.allocated
  by_cases posted : r.kind = .postedWrite
  · simp only [if_pos posted]
    cases r.window <;> rfl
  · simp only [if_neg posted]
    cases r.window <;> rfl

/-! ### How an access ends (R112, R116) -/

section
variable {dir : Direction} {a : Access} {w : Fin 16}

theorem localFault_eq (s : State) (cause : LocalCause) (addr : Word) :
    s.localFault cause addr = s.faulted cause addr := rfl

theorem Rest.ended (h : Rest s) (x : Termination) : Rest (s.ended x) := h.terminate x

theorem Rest.faulted (h : Rest s) (cause : LocalCause) (addr : Word) : Rest (s.faulted cause addr) := h.of_same {}

theorem Rest.countLt (h : Rest s) (f : LocalCounters → LocalCounters) : Rest (s.countLt f) := h.of_same {}

theorem Rest.hitOwt (h : Rest s) (w : Fin 16) : Rest (s.hitOwt w) := h.of_same {}

theorem Rest.modDelayed (h : Rest s) (j : Fin 4) (f : DelayedSlot → DelayedSlot) : Rest (s.modDelayed j f) :=
  h.of_same {}

theorem exec_outboundAccess_reset (h : s.localResetIn = true) :
    exec (.outboundAccess dir a) s = .next (s.ended .retry) := if_pos h

/-- An access that has taken a tracker entry is followed by what follows at once. -/
theorem access_goes {u : State} (hpin : s.localResetIn = false) (h : s.begin.outbound dir a = u) :
    exec (.outboundAccess dir a) s = .next u.endOfEvent := by
  rw [← h]
  exact if_neg (by simp [hpin])

/-- An access that leaves the part at rest ends there. -/
theorem access_ends {u : State} (hpin : s.localResetIn = false) (h : s.begin.outbound dir a = u) (hu : Rest u) :
    exec (.outboundAccess dir a) s = .next u := by
  rw [access_goes hpin h, endOfEvent_eq hu]

/-! ### Which case of an outbound access applies (R116) -/

theorem outbound_unnumbered (h : s.en.role ≠ .numbered) : s.outbound dir a =
    (s.countLt fun c => { c with notNumbered := bump c.notNumbered }).faulted .notNumbered a.start :=
  if_neg fun n => h ((numbered_iff s).1 n)

/-- A verdict that is no hit ends the access FAULT with the verdict as its cause (R116). -/
theorem outbound_refused {cause : LocalCause} (hn : s.en.role = .numbered)
    (h : (s.outboundMatch dir a.start a.count = .noWindow ∧ cause = .noWindow) ∨
      (s.outboundMatch dir a.start a.count = .pastEnd ∧ cause = .pastEnd) ∨
      (s.outboundMatch dir a.start a.count = .notAllowed ∧ cause = .notAllowed)) :
    s.outbound dir a = s.faulted cause a.start := by
  unfold State.outbound
  rw [if_pos ((numbered_iff s).2 hn)]
  obtain ⟨h, rfl⟩ | ⟨h, rfl⟩ | ⟨h, rfl⟩ := h <;> rw [h, ← localFault_eq]

theorem outbound_hit (hn : s.en.role = .numbered) (h : s.outboundMatch dir a.start a.count = .hit w) :
    s.outbound dir a = s.hitPath w dir a := by
  unfold State.outbound
  rw [if_pos ((numbered_iff s).2 hn), h]

theorem hitPath_posted (hd : dir = .write) (hp : (s.wt.owt.get w).posted = true) :
    s.hitPath w dir a = (s.hitOwt w).postedPath w a := if_pos ⟨hd, hp⟩

theorem hitPath_delayed (h : dir = .read ∨ (s.wt.owt.get w).posted = false) :
    s.hitPath w dir a = (s.hitOwt w).delayedPath w dir a := by
  refine if_neg fun ⟨hd, hp⟩ => ?_
  obtain h | h := h
  · rw [hd] at h
    cases h
  · rw [hp] at h
    cases h

/-- The hit count has no part in the request that an access makes. -/
theorem request_hitOwt (s : State) (w : Fin 16) (a : Access) (o : Originator) (k : ReqKind) :
    ((s.hitOwt w).wt.owt.get w).request w a o k = (s.wt.owt.get w).request w a o k := by
  have counted : (s.hitOwt w).wt.owt.get w = { s.wt.owt.get w with hits := bump (s.wt.owt.get w).hits } :=
    get_modAt_self ..
  rw [counted]
  rfl

/-! ### The posted path (R117) -/

theorem postedPath_refused (h : s.alloc ((s.wt.owt.get w).request w a .localPosted .postedWrite) = none) :
    s.postedPath w a = (s.countLt fun c => { c with postedRetry := bump c.postedRetry }).ended .retry := by
  unfold State.postedPath
  rw [h]
  rfl

theorem postedPath_taken {v : State}
    (h : s.alloc ((s.wt.owt.get w).request w a .localPosted .postedWrite) = some (t, v)) :
    s.postedPath w a = v.ended (.done []) := by
  unfold State.postedPath
  rw [h]
  rfl

/-! ### The delayed request buffer (R118, R119) -/

variable {j : Fin 4} {k : DelayedKey} {lt : LocalTarget}

theorem delayedKey_eq (dir : Direction) (a : Access) : delayedKey dir a =
    { dir := dir
      address := a.start
      count := a.count
      first := a.first
      last := a.last
      data := if dir = .read then [] else a.data.toList.take a.count } := by
  cases dir <;> rfl

theorem delayedKind_eq (dir : Direction) : delayedKind dir = if dir = .read then .read else .write := by
  cases dir <;> rfl

theorem findKey_some (hj : (lt.slots.get j).state ≠ .free) (hk : (lt.slots.get j).key = k)
    (first : ∀ i, i < j → (lt.slots.get i).state = .free ∨ (lt.slots.get i).key ≠ k) : lt.findKey k = some j := by
  refine find_unique' (by simp [hj, hk]) fun i hi => ?_
  obtain h | h := first i hi <;> simp [h]

theorem findKey_none (h : ∀ j, (lt.slots.get j).state = .free ∨ (lt.slots.get j).key ≠ k) :
    lt.findKey k = none := by
  refine List.find?_eq_none.2 fun j _ => ?_
  obtain h | h := h j <;> simp [h]

theorem freeSlot_some (hj : (lt.slots.get j).state = .free) (first : ∀ i, i < j → (lt.slots.get i).state ≠ .free) :
    lt.freeSlot = some j :=
  find_unique' (by simp [hj]) fun i hi => by simp [first i hi]

theorem freeSlot_none (h : ∀ j, (lt.slots.get j).state ≠ .free) : lt.freeSlot = none :=
  List.find?_eq_none.2 fun j _ => by simp [h j]

/-- The slot that holds the access's key answers it: READY it is collected, and otherwise the access ends RETRY. -/
theorem delayedPath_found (h : s.lt.findKey (delayedKey dir a) = some j) : s.delayedPath w dir a =
    if (s.lt.slots.get j).state = .ready then s.collect j a.start else s.ended .retry := by
  unfold State.delayedPath
  rw [h]
  rfl

theorem collect_ok (h : (s.lt.slots.get j).result = .ok) (addr : Word) :
    s.collect j addr = (s.modDelayed j DelayedSlot.freed).ended (.done (s.lt.slots.get j).data) := if_pos h

theorem collect_failed (h : (s.lt.slots.get j).result ≠ .ok) (addr : Word) : s.collect j addr =
    (s.modDelayed j DelayedSlot.freed).faulted (.result (s.lt.slots.get j).result) addr := if_neg h

theorem delayedPath_new (h : s.lt.findKey (delayedKey dir a) = none) :
    s.delayedPath w dir a = s.delayedNew w dir a := by
  unfold State.delayedPath
  rw [h]

theorem delayedNew_full (h : s.lt.freeSlot = none) : s.delayedNew w dir a = s.ended .retry := by
  unfold State.delayedNew
  rw [h]
  rfl

theorem delayedNew_refused (hj : s.lt.freeSlot = some j)
    (h : s.alloc ((s.wt.owt.get w).request w a (.delayed j) (delayedKind dir)) = none) :
    s.delayedNew w dir a = s.ended .retry := by
  unfold State.delayedNew
  rw [hj]
  dsimp only
  rw [h]
  rfl

theorem delayedNew_taken {v : State} (hj : s.lt.freeSlot = some j)
    (h : s.alloc ((s.wt.owt.get w).request w a (.delayed j) (delayedKind dir)) = some (t, v)) :
    s.delayedNew w dir a = (v.modDelayed j fun _ => DelayedSlot.take (delayedKey dir a) w t).ended .retry := by
  unfold State.delayedNew
  rw [hj]
  dsimp only
  rw [h]
  rfl

end

/-- Settles O57: an allocation by its tests, and an access by its verdict, its window's mode, its slot and the
tracker's answer. -/
theorem outboundAccess : Obligations.OutboundAccess := by
  refine ⟨fun s r => ?_, fun dir acc s hs => ?_⟩
  · intro full
    have full_iff : s.placesFull r = true ↔ full := placesFull_iff
    refine ⟨fun h => ?_, ?_⟩
    · refine alloc_none_iff.2 ?_
      obtain h | h | h := h
      · exact .inl (Bool.eq_false_iff.2 fun n => h ((numbered_iff s).1 n))
      · exact .inr (.inl h)
      · exact .inr (.inr (.inr (full_iff.2 h)))
    · intro holds
      have reserved_iff : s.moverReserved r.originator = true ↔
          ∃ c i, r.originator = .mover c i ∧ (s.rt.freeList.length < 5 ∨ 8 ≤ holds c) := by
        have counted : s.channelHolds = holds := funext (channelHolds_eq s)
        rw [moverReserved_iff, counted]
      refine ⟨fun c i ho h => alloc_none_iff.2 (.inr (.inr (.inl (reserved_iff.2 ⟨c, i, ho, h⟩)))), ?_⟩
      intro t l hn hl hfull hmover q
      have unreserved : ¬s.moverReserved r.originator = true := by
        rw [reserved_iff]
        rintro ⟨c, i, ho, h⟩
        obtain ⟨free, few⟩ := hmover c i ho
        omega
      rw [alloc_eq_some ((numbered_iff s).2 hn) hl unreserved fun h => hfull (full_iff.1 h), allocated_eq]
      unfold modAt
      rw [allocatedEntry_eq]
      rfl
  · intro b
    have hb : Rest s.begin := hs.begin
    refine ⟨exec_outboundAccess_reset, fun hpin => ⟨fun hn => ?_, fun hn => ⟨fun cause h => ?_, fun w hw => ?_⟩⟩⟩
    · exact (access_ends hpin (outbound_unnumbered hn) ((hb.countLt _).faulted _ _)).trans rfl
    · exact access_ends hpin (outbound_refused hn h) (hb.faulted _ _)
    · have hh : Rest (s.begin.hitOwt w) := hb.hitOwt w
      have hit : s.begin.outbound dir acc = s.begin.hitPath w dir acc := outbound_hit hn hw
      intro e h request
      have made (o : Originator) (k : ReqKind) : ((s.begin.hitOwt w).wt.owt.get w).request w acc o k = request o k :=
        request_hitOwt s.begin w acc o k
      refine ⟨fun hd hp => ?_, fun hd => ?_⟩
      · have path := hit.trans (hitPath_posted hd hp)
        rw [← made]
        refine ⟨fun hg => ?_, fun t v hg => ?_⟩
        · exact (access_ends hpin (path.trans (postedPath_refused hg)) ((hh.countLt _).ended _)).trans rfl
        · exact access_goes hpin (path.trans (postedPath_taken hg))
      · have path := hit.trans (hitPath_delayed hd)
        intro key kind
        have the_key : delayedKey dir acc = key := delayedKey_eq dir acc
        have asked (j : Fin 4) : ((s.begin.hitOwt w).wt.owt.get w).request w acc (.delayed j) (delayedKind dir) =
            request (.delayed j) kind := (made _ _).trans (congrArg (request (.delayed j)) (delayedKind_eq dir))
        rw [← the_key]
        refine ⟨fun j hj hk first => ?_, fun absent => ?_⟩
        · have held := path.trans (delayedPath_found (s := s.begin.hitOwt w) (findKey_some hj hk first))
          have freed : Rest ((s.begin.hitOwt w).modDelayed j DelayedSlot.freed) := hh.modDelayed j _
          refine ⟨fun hr => ?_, fun hr ok => ?_, fun hr failed => ?_⟩
          · exact access_ends hpin (held.trans (if_neg hr)) (hh.ended _)
          · have collected := (held.trans (if_pos hr)).trans (collect_ok (s := s.begin.hitOwt w) ok _)
            exact (access_ends hpin collected (freed.ended _)).trans rfl
          · have collected := (held.trans (if_pos hr)).trans (collect_failed (s := s.begin.hitOwt w) failed _)
            exact (access_ends hpin collected (freed.faulted _ _)).trans rfl
        · have starts := path.trans (delayedPath_new (s := s.begin.hitOwt w) (findKey_none absent))
          refine ⟨fun full => ?_, fun j hj first => ?_⟩
          · exact access_ends hpin (starts.trans (delayedNew_full (freeSlot_none full))) (hh.ended _)
          · have slot : (s.begin.hitOwt w).lt.freeSlot = some j := freeSlot_some hj first
            rw [← asked]
            refine ⟨fun hg => ?_, fun t v hg => ?_⟩
            · exact access_ends hpin (starts.trans (delayedNew_refused slot hg)) (hh.ended _)
            · exact (access_goes hpin (starts.trans (delayedNew_taken slot hg))).trans rfl

end Sys2Proof.Machine
end

section
/-! SUPPORT. How a frame of the mover ends (O56): the slot freed and its words counted, what its channel does then, and
the local master's and the tracker's results that bring it about. -/

namespace Sys2Proof.Machine

variable {s : State} {c : ChannelId} {i : Fin 8}

/-! ### A channel replaced, and what else happens to the part -/

theorem countBm_chan (s : State) (f : MoverCounters → MoverCounters) (c : ChannelId) :
    (s.countBm f).chan c = s.chan c := by
  cases c <;> rfl

theorem countBm_withChannel (s : State) (f : MoverCounters → MoverCounters) (c : ChannelId) (ch : Channel) :
    (s.countBm f).withChannel c ch = (s.withChannel c ch).countBm f := by
  cases c <;> rfl

theorem withChannel_descriptor (s : State) (c : ChannelId) (ch : Channel) (n : Fin 64) :
    (s.withChannel c ch).descriptor n = s.descriptor n := by
  cases c <;> rfl

/-! ### The channel after a slot of it has become FREE (R160, R165) -/

theorem startFrames_running (h : (s.chan c).state = .running) : s.startFrames c =
    s.withChannel c ((s.chan c).startFrames (s.descriptor ((s.chan c).current.getD 0)) s.now) :=
  (if_pos h).trans (modChan_eq ..)

/-- A channel that has just been set RUNNING with a descriptor starts frames of it. -/
theorem startFrames_withChannel {ch : Channel} {n : Fin 64} (hr : ch.state = .running) (hn : ch.current = some n) :
    (s.withChannel c ch).startFrames c = s.withChannel c (ch.startFrames (s.descriptor n) s.now) := by
  have now : (s.withChannel c ch).now = s.now := by cases c <;> rfl
  rw [startFrames_running (by rw [chan_withChannel, hr]), chan_withChannel, hn, withChannel_descriptor,
    withChannel_withChannel, now]
  rfl

theorem channelIdle_eq (s : State) (c : ChannelId) :
    s.channelIdle c = (s.withChannel c { s.chan c with state := .idle }).fire (codeMoveIdle c) :=
  congrArg (State.fire · _) (modChan_eq ..)

theorem slotFreed_running (h : (s.chan c).state = .running) : s.slotFreed c =
    s.withChannel c ((s.chan c).startFrames (s.descriptor ((s.chan c).current.getD 0)) s.now) := by
  unfold State.slotFreed
  rw [h]
  exact startFrames_running h

theorem slotFreed_stopping (h : (s.chan c).state = .stopping) :
    s.slotFreed c = if (s.chan c).busy then s else s.channelIdle c := by
  unfold State.slotFreed
  rw [h]

theorem slotFreed_still (h : (s.chan c).state = .idle ∨ (s.chan c).state = .halted) : s.slotFreed c = s := by
  unfold State.slotFreed
  obtain h | h := h <;> rw [h]

/-! ### A slot becomes FREE (R158) -/

/-- The channel with a slot of it made FREE. -/
def Channel.withFreed (ch : Channel) (i : Fin 8) (now : Nat) : Channel :=
  { ch with slots := ch.slots.set i.val ((ch.slots.get i).freed now) i.isLt }

theorem freeSlot_eq (s : State) (c : ChannelId) (i : Fin 8) :
    s.freeSlot c i = s.withChannel c ((s.chan c).withFreed i s.now) := modSlot_eq ..

/-! ### A frame whose words are done (R164, R168) -/

/-- The words of a frame have been counted in the channel's counter. -/
def State.wordsMoved (s : State) (c : ChannelId) (n : Nat) : State := s.countBm fun k => k.moved c n

theorem wordsMoved_eq (s : State) (c : ChannelId) (n : Nat) : s.wordsMoved c n =
    { s with bm := { s.bm with counters := match c with
      | .a => { s.bm.counters with wordsMovedA := bumpBy n s.bm.counters.wordsMovedA }
      | .b => { s.bm.counters with wordsMovedB := bumpBy n s.bm.counters.wordsMovedB } } } := by
  cases c <;> rfl

/-- The channel with a slot of it made FREE and the slot's words counted as completed. -/
def Channel.withCompleted (ch : Channel) (i : Fin 8) (now : Nat) : Channel :=
  { ch.withFreed i now with completed := ch.completed + (ch.slots.get i).count }

/-- A frame of a slot that is not detached has ended, and what follows is still to come. -/
def State.frameCounted (s : State) (c : ChannelId) (i : Fin 8) : State :=
  (s.withChannel c ((s.chan c).withCompleted i s.now)).wordsMoved c ((s.chan c).slots.get i).count

theorem frameCounted_chan (s : State) (c : ChannelId) (i : Fin 8) :
    (s.frameCounted c i).chan c = (s.chan c).withCompleted i s.now :=
  (countBm_chan ..).trans (chan_withChannel ..)

theorem frameCounted_descriptor (s : State) (c : ChannelId) (i : Fin 8) (n : Fin 64) :
    (s.frameCounted c i).descriptor n = s.descriptor n := withChannel_descriptor ..

theorem frameDone_detached (h : ((s.chan c).slots.get i).detached = true) : s.frameDone c i =
    ((s.withChannel c ((s.chan c).withFreed i s.now)).wordsMoved c ((s.chan c).slots.get i).count).slotFreed c := by
  rw [← freeSlot_eq]
  exact if_pos h

theorem frameDone_attached (h : ((s.chan c).slots.get i).detached = false) : s.frameDone c i =
    if (s.chan c).state.working = true ∧ (s.chan c).completed + ((s.chan c).slots.get i).count =
      (s.descriptor ((s.chan c).current.getD 0)).length then (s.frameCounted c i).descriptorComplete c
    else (s.frameCounted c i).slotFreed c := by
  have counted : (((s.freeSlot c i).countBm fun k => k.moved c ((s.chan c).slots.get i).count).modChan c fun ch =>
      { ch with completed := ch.completed + ((s.chan c).slots.get i).count }) = s.frameCounted c i := by
    rw [modChan_eq, countBm_withChannel, countBm_chan, freeSlot_eq, chan_withChannel, withChannel_withChannel]
    rfl
  have done : s.frameDone c i =
      if ((s.frameCounted c i).chan c).state.working = true ∧ ((s.frameCounted c i).chan c).completed =
        ((s.frameCounted c i).descriptor ((s.frameCounted c i).currentIndex c)).length
      then (s.frameCounted c i).descriptorComplete c else (s.frameCounted c i).slotFreed c := by
    rw [← counted]
    exact if_neg (by rw [show (s.slot c i).detached = false from h]; decide)
  rw [done]
  unfold State.currentIndex
  rw [frameCounted_descriptor, frameCounted_chan]
  rfl

/-! ### A descriptor is complete (R164) -/

/-- The codes that the completion of the channel's descriptor fires at once. -/
def Descriptor.doneCodes (d : Descriptor) (c : ChannelId) : List EventCode :=
  if d.notify = true then [codeMoveDone c] else []

/-- The codes of a list fire, in their order. -/
def State.fireAll (s : State) (cs : List EventCode) : State := { s with firings := s.firings ++ cs }

theorem fireAll_chan (s : State) (cs : List EventCode) (c : ChannelId) : (s.fireAll cs).chan c = s.chan c := by
  cases c <;> rfl

theorem notify_eq (s : State) (d : Descriptor) (c : ChannelId) :
    (if d.notify = true then s.fire (codeMoveDone c) else s) = s.fireAll (d.doneCodes c) := by
  unfold Descriptor.doneCodes State.fireAll
  split_ifs
  · rfl
  · rw [List.append_nil]

theorem descriptorComplete_stopping (h : (s.chan c).state = .stopping) : s.descriptorComplete c =
    (s.fireAll ((s.descriptor ((s.chan c).current.getD 0)).doneCodes c)).channelIdle c := by
  unfold State.descriptorComplete
  rw [h, notify_eq]
  rfl

theorem descriptorComplete_running (h : (s.chan c).state = .running) : s.descriptorComplete c =
    (s.fireAll ((s.descriptor ((s.chan c).current.getD 0)).doneCodes c)).chainNext c := by
  unfold State.descriptorComplete
  rw [h, notify_eq]
  rfl

theorem chainNext_end (h : (s.descriptor ((s.chan c).current.getD 0)).next = none) :
    s.chainNext c = s.channelIdle c := by
  unfold State.chainNext State.currentIndex
  dsimp only
  rw [h]

theorem chainNext_loaded {n : Fin 64} (hr : (s.chan c).state = .running)
    (h : (s.descriptor ((s.chan c).current.getD 0)).next = some n) (hl : (s.descriptor n).loaded = true) :
    s.chainNext c = s.withChannel c (((s.chan c).load n (s.descriptor n)).startFrames (s.descriptor n) s.now) := by
  have next : s.chainNext c = (s.modChan c fun ch => ch.load n (s.descriptor n)).startFrames c := by
    unfold State.chainNext State.currentIndex
    dsimp only
    rw [h]
    exact if_pos hl
  rw [next, modChan_eq]
  exact startFrames_withChannel hr rfl

theorem chainNext_unloaded {n : Fin 64} (h : (s.descriptor ((s.chan c).current.getD 0)).next = some n)
    (hl : (s.descriptor n).loaded = false) :
    s.chainNext c = s.withHalt c (s.descriptor ((s.chan c).current.getD 0)).length none := by
  unfold State.chainNext State.currentIndex
  dsimp only
  rw [h]
  exact (if_neg (by simp [hl])).trans (haltChannel_eq ..)

/-! ### The last frame of a descriptor (R164) -/

/-- The last frame of the descriptor has been counted, and MOVE_DONE fires where the descriptor says so. -/
abbrev State.moveCounted (s : State) (c : ChannelId) (i : Fin 8) : State :=
  (s.frameCounted c i).fireAll ((s.descriptor ((s.chan c).current.getD 0)).doneCodes c)

theorem moveCounted_chan (s : State) (c : ChannelId) (i : Fin 8) :
    (s.moveCounted c i).chan c = (s.chan c).withCompleted i s.now :=
  (fireAll_chan ..).trans (frameCounted_chan ..)

theorem moveCounted_idle (s : State) (c : ChannelId) (i : Fin 8) : (s.moveCounted c i).channelIdle c =
    ((s.moveCounted c i).withChannel c { (s.chan c).withCompleted i s.now with state := .idle }).fire
      (codeMoveIdle c) := by
  rw [channelIdle_eq, moveCounted_chan]

theorem moveCounted_descriptor (s : State) (c : ChannelId) (i : Fin 8) (n : Fin 64) :
    (s.moveCounted c i).descriptor n = s.descriptor n := frameCounted_descriptor ..

theorem moveCounted_current (s : State) (c : ChannelId) (i : Fin 8) :
    (s.moveCounted c i).descriptor (((s.moveCounted c i).chan c).current.getD 0) =
      s.descriptor ((s.chan c).current.getD 0) := by
  rw [moveCounted_descriptor, moveCounted_chan]
  rfl

theorem moveCounted_now (s : State) (c : ChannelId) (i : Fin 8) : (s.moveCounted c i).now = s.now := by
  cases c <;> rfl

section
variable (hd : ((s.chan c).slots.get i).detached = false)
  (hn : (s.chan c).completed + ((s.chan c).slots.get i).count = (s.descriptor ((s.chan c).current.getD 0)).length)
include hd hn

theorem frameDone_last (hw : (s.chan c).state.working = true) :
    s.frameDone c i = (s.frameCounted c i).descriptorComplete c :=
  (frameDone_attached hd).trans (if_pos ⟨hw, hn⟩)

theorem frameDone_stopping (h : (s.chan c).state = .stopping) :
    s.frameDone c i = (s.moveCounted c i).channelIdle c := by
  rw [frameDone_last hd hn (by rw [h]; rfl), descriptorComplete_stopping (by rw [frameCounted_chan]; exact h),
    frameCounted_descriptor, frameCounted_chan]
  rfl

theorem frameDone_chains (h : (s.chan c).state = .running) :
    s.frameDone c i = (s.moveCounted c i).chainNext c := by
  rw [frameDone_last hd hn (by rw [h]; rfl), descriptorComplete_running (by rw [frameCounted_chan]; exact h),
    frameCounted_descriptor, frameCounted_chan]
  rfl

end

/-! ### A frame that fails (R166, R167) -/

theorem frameFailed_halts (hd : ((s.chan c).slots.get i).detached = false) (hw : (s.chan c).state.working = true)
    (why : Detail) : s.frameFailed c i why =
      (s.withChannel c ((s.chan c).withFreed i s.now)).withHalt c ((s.chan c).slots.get i).offset (some why) := by
  rw [← freeSlot_eq, ← haltChannel_eq]
  exact if_pos (by rw [hw, show (s.slot c i).detached = false from hd]; rfl)

theorem frameFailed_goesOn
    (h : ¬(((s.chan c).slots.get i).detached = false ∧ (s.chan c).state.working = true)) (why : Detail) :
    s.frameFailed c i why = (s.withChannel c ((s.chan c).withFreed i s.now)).slotFreed c := by
  rw [← freeSlot_eq]
  refine if_neg fun both => h ?_
  rwa [Bool.and_eq_true, Bool.not_eq_true'] at both

/-! ### The tracker's results (R161, R162) -/

theorem moverCompleted_read (s : State) (c : ChannelId) (i : Fin 8) (data : List Word) :
    s.moverCompleted c i .read .ok data = s.modSlot c i fun sl =>
      { sl with state := .landing, tag := none, data := data.map (laneWord sl.laneOrder), entered := s.now } := rfl

theorem moverCompleted_write {kind : ReqKind} (h : kind ≠ .read) (data : List Word) :
    s.moverCompleted c i kind .ok data = s.frameDone c i := (if_pos rfl).trans (if_neg h)

theorem moverCompleted_failed {r : Result} (h : r ≠ .ok) (kind : ReqKind) (data : List Word) :
    s.moverCompleted c i kind r data = s.frameFailed c i (.result r) := if_neg h

/-! ### The local master's results (R161, R162) -/

theorem transactionDone_mover {tx : Transaction} (h : tx.owner = .mover c i) (data : Table Word 16) :
    s.transactionDone tx data =
      (s.dropTransaction.moverBusDone c i (tx.driven data)).withMoverAsks s.moverWaits := by
  rw [← moverAsksUnless_eq]
  unfold State.transactionDone
  dsimp only
  rw [h]
  rfl

theorem transactionFault_mover {tx : Transaction} (h : tx.owner = .mover c i) : s.transactionFault tx =
    (s.countBusFault.dropTransaction.moverBusFault c i).withMoverAsks s.moverWaits := by
  rw [← moverAsksUnless_eq]
  unfold State.transactionFault
  rw [h]

theorem moverBusDone_landing (h : ((s.chan c).slots.get i).state = .landing) (data : List Word) :
    s.moverBusDone c i data = s.frameDone c i := by
  unfold State.moverBusDone State.slot
  rw [h]

theorem moverBusDone_localPending (h : ((s.chan c).slots.get i).state = .localPending) (data : List Word) :
    s.moverBusDone c i data = s.pushRead c i data := by
  unfold State.moverBusDone State.slot
  rw [h]

/-- The words that a PUSH slot has read go to the ring (R161). -/
theorem pushRead_kept (h : (s.chan c).state = .running ∨ (s.chan c).state = .idle) (data : List Word) :
    s.pushRead c i data = s.modSlot c i fun sl =>
      { sl with state := .ringPending, tag := none, data := data.map (laneWord sl.laneOrder), entered := s.now } := by
  unfold State.pushRead
  obtain h | h := h <;> rw [h]

/-- In a channel that stops or is halted they are discarded (R165). -/
theorem pushRead_discarded (h : (s.chan c).state = .stopping ∨ (s.chan c).state = .halted) (data : List Word) :
    s.pushRead c i data = (s.withChannel c ((s.chan c).withFreed i s.now)).slotFreed c := by
  rw [← freeSlot_eq]
  unfold State.pushRead
  obtain h | h := h <;> rw [h]

/-! ### The end of a frame -/

/-- Settles O56: the local master's results, the tracker's, and the end of a frame by its slot and its channel. -/
theorem moverFrames : Obligations.MoverFrames := by
  refine ⟨⟨rfl, rfl, rfl⟩, fun s tx c i hc ht ho => ?_, fun s kind r data c i => ?_, fun s c i => ?_⟩
  · intro b f ch sl put
    have found : s.attempt = some tx := attempt_some hc ht
    have same : s.begin.dropTransaction.chan c = ch := by cases c <;> rfl
    have done (data : Table Word 16) {u : State} (hu : s.begin.dropTransaction.moverBusDone c i (tx.driven data) = u) :
        exec (.terminationDone data) s = .next (u.withMoverAsks s.moverWaits).endOfEvent := by
      rw [exec_terminationDone_some found, transactionDone_mover ho, hu]
      rfl
    refine ⟨fun data hl => ?_, fun data hl hs => ?_, fun data hl hs => ?_, fun hl x hx => ?_⟩
    · exact done data (moverBusDone_landing (by rw [same]; exact hl) _)
    · refine done data ((moverBusDone_localPending (by rw [same]; exact hl) _).trans ?_)
      rw [pushRead_kept (by rw [same]; exact hs), modSlot_eq, same]
      rfl
    · refine done data ((moverBusDone_localPending (by rw [same]; exact hl) _).trans ?_)
      rw [pushRead_discarded (by rw [same]; exact hs), same]
      rfl
    · have slot : f.slot c i = sl := by cases c <;> rfl
      have failed : s.begin.countBusFault.dropTransaction.moverBusFault c i = f.frameFailed c i .localFault :=
        moverBusFault_failed (s := f) (by rw [slot]; exact hl.symm)
      rw [exec_fault_or_expiry hx found, transactionFault_mover ho, failed]
      rfl
  · intro ch sl
    refine ⟨fun hr hk => ?_, fun hr hk => ?_, fun hr => moverCompleted_failed hr kind data⟩
    · rw [hr, hk, moverCompleted_read, modSlot_eq]
    · rw [hr, moverCompleted_write hk]
  · intro ch sl d freed moved counted working fired notified
    have working_iff : ch.state.working = true ↔ working := ChannelState.working_iff _
    have moved_eq (v : State) : v.wordsMoved c sl.count = moved v := wordsMoved_eq ..
    have counted_eq : s.frameCounted c i = moved (s.withChannel c counted) := moved_eq _
    have move_eq : s.moveCounted c i = fired (moved (s.withChannel c counted)) notified :=
      congrArg (State.fireAll · _) counted_eq
    refine ⟨fun hd => ?_, fun hd hn => ?_, fun hd hn => ?_, fun why hd hw => ?_, fun why h => ?_, fun h => ?_,
      fun h => ?_, fun h => slotFreed_still h⟩
    · rw [frameDone_detached hd, moved_eq]
      rfl
    · rw [frameDone_attached hd, if_neg fun ⟨hw, hl⟩ => hn ⟨working_iff.1 hw, hl⟩, counted_eq]
    · intro v
      refine ⟨fun h => ?_, fun h hnext => ?_, fun n h hnext => ⟨fun hl => ?_, fun hl => ?_⟩⟩
      · rw [frameDone_stopping hd hn h, moveCounted_idle, move_eq]
        rfl
      · rw [frameDone_chains hd hn h, chainNext_end ((congrArg _ (moveCounted_current s c i)).trans hnext),
          moveCounted_idle, move_eq]
        rfl
      · have running : ((s.moveCounted c i).chan c).state = .running := by
          rw [moveCounted_chan]
          exact h
        have loaded : ((s.moveCounted c i).descriptor n).loaded = true := by
          rw [moveCounted_descriptor]
          exact hl
        rw [frameDone_chains hd hn h,
          chainNext_loaded running ((congrArg _ (moveCounted_current s c i)).trans hnext) loaded, moveCounted_chan,
          moveCounted_descriptor, moveCounted_now, move_eq]
        rfl
      · have unloaded : ((s.moveCounted c i).descriptor n).loaded = false := by
          rw [moveCounted_descriptor]
          exact hl
        rw [frameDone_chains hd hn h,
          chainNext_unloaded ((congrArg _ (moveCounted_current s c i)).trans hnext) unloaded, moveCounted_current,
          move_eq]
        rfl
    · exact frameFailed_halts hd (working_iff.2 hw) why
    · exact frameFailed_goesOn (fun ⟨hd, hw⟩ => h ⟨hd, working_iff.1 hw⟩) why
    · exact slotFreed_running h
    · rw [slotFreed_stopping h, channelIdle_eq]
      rfl

end Sys2Proof.Machine
end

section
/-! SUPPORT. START_MOVE and STOP_MOVE by the lock's owner, the frames that a channel starts, its oldest slot, and the
mover's asks (O59). -/

namespace Sys2Proof.Machine

variable {s v : State} {q : MgmtRequest} {c : ChannelId} {i : Fin 64}

/-! ### START_MOVE (R159) -/

theorem startMoveTo_unnamed (h : channelName (operand q 1) = none ∨ descriptorName (operand q 2) = none) :
    v.startMoveTo q = .error .badIndex := by
  unfold State.startMoveTo
  obtain h | h := h
  · rw [h]
  · rw [h]
    cases channelName (operand q 1) <;> rfl

/-- The tests of START_MOVE in their order, for a channel and a descriptor that exist. -/
theorem startMoveTo_named (hc : channelName (operand q 1) = some c) (hi : descriptorName (operand q 2) = some i) :
    v.startMoveTo q =
      if (v.chan c).state.working = true then .error .wrongState
      else if (v.descriptor i).loaded = true then .ok (v.startMove c i) else .error .badIndex := by
  unfold State.startMoveTo
  rw [hc, hi]

section
variable (h : AgentReady s) (hn : q.operands.length = 2) (ho : s.ag.lockOwner = q.source)
include h hn ho

theorem exec_startMove : exec (.startMove q) s =
    .next (s.tookRequest.answerTested 12 q (s.tookRequest.startMoveTo q)).endOfEvent :=
  h.exec_owned (form := formStartMove) hn ho

theorem exec_startMove_fails {r : MgmtResult} (hr : r ≠ .ok) (e : s.tookRequest.startMoveTo q = .error r) :
    exec (.startMove q) s = .next (s.tookRequest.withFailure 12 q r) := by
  rw [exec_startMove h hn ho, e]
  exact congrArg _ (h.took.failure 12 q r hr)

theorem exec_startMove_starts {u : State} (e : s.tookRequest.startMoveTo q = .ok u) :
    exec (.startMove q) s = .next (u.repliedOk 12 q .plain).endOfEvent := by
  rw [exec_startMove h hn ho, e]
  exact next_congr (answerOk_eq u 12 q)

end

/-- The channel as START_MOVE leaves it before it starts frames. -/
def Channel.restarted (ch : Channel) (i : Fin 64) (d : Descriptor) : Channel :=
  { ch.detachBusy.load i d with halt := none, state := .running }

theorem startMove_eq (v : State) (c : ChannelId) (i : Fin 64) : v.startMove c i =
    (v.withChannel c (((v.chan c).restarted i (v.descriptor i)).startFrames (v.descriptor i) v.now)).withMoverAsks
      v.moverWaits := by
  have started : (v.modChan c fun ch => ch.restarted i (v.descriptor i)).startFrames c =
      v.withChannel c (((v.chan c).restarted i (v.descriptor i)).startFrames (v.descriptor i) v.now) :=
    (congrArg (State.startFrames · c) (modChan_eq ..)).trans (startFrames_withChannel rfl rfl)
  rw [← started, ← moverAsksUnless_eq]
  rfl

/-! ### STOP_MOVE (R165) -/

theorem exec_stopMove (h : AgentReady s) (hn : q.operands.length = 1) (ho : s.ag.lockOwner = q.source) :
    exec (.stopMove q) s = .next (s.tookRequest.stopMoveCommand q).endOfEvent :=
  h.exec_owned (form := formStopMove) hn ho

theorem stopMoveCommand_unnamed (h : channelName (operand q 1) = none) (v : State) :
    v.stopMoveCommand q = v.answerFail 13 q .badIndex := by
  unfold State.stopMoveCommand
  rw [h]
  rfl

theorem stopMoveCommand_named (h : channelName (operand q 1) = some c) (v : State) :
    v.stopMoveCommand q = (v.stopMove c).answerOk 13 q [] := by
  unfold State.stopMoveCommand
  rw [h]
  rfl

theorem stopMove_running (h : (s.chan c).state = .running) : s.stopMove c = s.withStop c := by
  unfold State.stopMove
  rw [h]
  exact stopChannel_eq s c

/-- A halted channel becomes IDLE, and MOVE_IDLE fires. -/
theorem stopMove_halted (h : (s.chan c).state = .halted) : s.stopMove c =
    (s.withChannel c { (s.chan c).detachBusy with state := .idle }).fire (codeMoveIdle c) := by
  unfold State.stopMove
  rw [h, modChan_eq, channelIdle_eq, chan_withChannel, withChannel_withChannel]

/-- The first code of an event to fire. -/
theorem fire_first (h : s.firings = []) (k : EventCode) : s.fire k = { s with firings := [k] } := by
  unfold State.fire
  rw [h]
  rfl

theorem stopMove_still (h : (s.chan c).state = .stopping ∨ (s.chan c).state = .idle) : s.stopMove c = s := by
  unfold State.stopMove
  obtain h | h := h <;> rw [h]

/-! ### The frames that a channel starts (R160) -/

section
variable {ch : Channel} {d : Descriptor} {now : Nat} {j : Fin 8}

theorem startFrames_none (h : ch.remaining = 0 ∨ ∀ j, (ch.slots.get j).state ≠ .free) :
    ch.startFrames d now = ch := foldl_none _ d now ch (h.imp_right fun h j _ => h j)

theorem frameWords_eq (ch : Channel) (d : Descriptor) : ch.frameWords d =
    min (min (min d.frameSize ch.remaining)
      (if d.remoteFixed = true then ch.remaining else wordsToBoundary ch.remote.toNat))
      (if d.localFixed = true then ch.remaining else wordsToBoundary ch.localAddr.toNat) := by
  unfold Channel.frameWords
  cases d.remoteFixed <;> cases d.localFixed <;> simp

theorem startFrame_slot_self (ch : Channel) (d : Descriptor) (now : Nat) (j : Fin 8) :
    (((ch.startFrame d now j).slots.get j).state) ≠ .free := by
  have started : ((ch.startFrame d now j).slots.get j).state = if d.pull then .ringPending else .localPending :=
    congrArg Slot.state (get_set ch.slots j _)
  rw [started]
  cases d.pull <;> decide

theorem startFrame_slot_ne {k : Fin 8} (h : k ≠ j) :
    (ch.startFrame d now j).slots.get k = ch.slots.get k := get_set_ne ch.slots h _

/-- The first frame starts in the lowest-numbered FREE slot, and the channel goes on from there. -/
theorem startFrames_first (hr : 0 < ch.remaining) (hj : (ch.slots.get j).state = .free)
    (first : ∀ k, k < j → (ch.slots.get k).state ≠ .free) :
    ch.startFrames d now = (ch.startFrame d now j).startFrames d now := by
  obtain ⟨before, after, split⟩ := List.append_of_mem (List.mem_finRange j)
  have sorted := List.pairwise_lt_finRange 8
  rw [split, List.pairwise_append] at sorted
  have lower (k : Fin 8) (hk : k ∈ before) : k < j := sorted.2.2 k hk j List.mem_cons_self
  unfold Channel.startFrames
  rw [split, List.foldl_append, List.foldl_append, List.foldl_cons, List.foldl_cons,
    foldl_none before d now ch (.inr fun k hk => first k (lower k hk)), if_pos ⟨hr, hj⟩,
    foldl_none before d now (ch.startFrame d now j) (.inr fun k hk => by
      rw [startFrame_slot_ne (lower k hk).ne]
      exact first k (lower k hk)),
    if_neg fun free => startFrame_slot_self ch d now j free.2]

end

/-! ### The oldest slot (R158) -/

theorem oldest_some_iff {ch : Channel} {p : Slot → Bool} {j : Fin 8} : ch.oldest p = some j ↔
    p (ch.slots.get j) = true ∧ ∀ k, p (ch.slots.get k) = true →
      (ch.slots.get j).entered < (ch.slots.get k).entered ∨
        ((ch.slots.get j).entered = (ch.slots.get k).entered ∧ j ≤ k) := by
  refine ⟨fun h => ?_, fun ⟨hj, h⟩ => oldest_eq hj h⟩
  obtain ⟨hj, oldest, -⟩ := (oldest_fold ch p (List.finRange 8) none (by simp) (by decide)).2 j h
  exact ⟨hj, fun k hk => oldest k (.inr ⟨List.mem_finRange k, hk⟩)⟩

/-! ### The mover's asks (R163, R168) -/

section
variable {j : Fin 8}

theorem moverAsk_none (h : ∀ c, (s.chan c).askSlot = none) : s.moverAsk = none := by
  unfold State.moverAsk
  dsimp only
  rw [h, h]
  rfl

/-- The mover asks for the channel not served last, or for the other where that one has no slot to ask for. -/
theorem moverAsk_some (h : (s.chan c).askSlot = some j)
    (hc : c = s.bm.turn.other ∨ (s.chan s.bm.turn.other).askSlot = none) : s.moverAsk = some (c, j) := by
  unfold State.moverAsk
  dsimp only
  by_cases other : c = s.bm.turn.other
  · rw [← other, h]
  · have turn : c = s.bm.turn := by
      revert other
      cases c <;> cases s.bm.turn <;> simp [ChannelId.other]
    rw [hc.resolve_left other, ← turn, h]
    rfl

theorem moverGrant_idle (h : s.moverAsk = none) : s.moverGrant = none := by
  unfold State.moverGrant
  rw [h]

theorem moverGrant_refused (h : s.moverAsk = some (c, j)) (hg : s.alloc (s.moverRequest c j) = none) :
    s.moverGrant = none := by
  unfold State.moverGrant
  rw [h]
  dsimp only
  rw [hg]

/-- Granted, the slot holds its tag, its channel is the one served last, and the frame is counted (R163, R168). -/
theorem moverGrant_granted {t : Tag} {u : State} (h : s.moverAsk = some (c, j))
    (hg : s.alloc (s.moverRequest c j) = some (t, u)) :
    s.moverGrant = some (State.withChannel
      { u with bm := { u.bm with turn := c, counters := u.bm.counters.sent c } } c
      { s.chan c with slots := (s.chan c).slots.set j.val { s.slot c j with tag := some t } j.isLt }) := by
  have kept : u.chan c = s.chan c := by
    obtain ⟨-, -, -, l, -, rfl⟩ := alloc_some hg
    unfold State.chan
    rw [allocated_bm]
  unfold State.moverGrant
  rw [h]
  dsimp only
  rw [hg]
  dsimp only
  rw [modSlot_eq, kept]
  cases c <;> rfl

theorem moverAsks_none (h : s.moverGrant = none) (n : Nat) : s.moverAsks n = s := by
  cases n with
  | zero => rfl
  | succ n =>
    unfold State.moverAsks
    rw [h]

end

/-- Settles O59: the two commands by the channel's state, the frames one by one, the oldest slot by its order, and the
mover's asks one by one. -/
theorem startStopMove : Obligations.StartStopMove := by
  refine ⟨fun q s h ho => ?_, fun ch d now => ⟨startFrames_none, fun i hr hi first => ?_⟩,
    fun ch p => ⟨oldest_none, fun i => oldest_some_iff⟩, fun s => ?_⟩
  · intro v w1 index detached
    have first_word : operand q 1 = w1 := operand_one q
    refine ⟨fun hn => ?_, fun hn => ?_⟩
    · have fails {r : MgmtResult} := exec_startMove_fails (r := r) h hn ho
      refine ⟨fun bad => fails (by decide) (startMoveTo_unnamed ?_), fun c i hw hi => ?_⟩
      · rw [first_word]
        exact bad.imp channelName_none descriptorName_none
      · intro ch d working
        have working_iff : (v.chan c).state.working = true ↔ working := ChannelState.working_iff _
        have tests := startMoveTo_named (v := v) (c := c) (by rw [first_word]; exact channelName_eq w1 c hw)
          (descriptorName_some hi)
        refine ⟨fun hk => ?_, fun hk hl => ?_, fun hk hl => ?_⟩
        · exact fails (by decide) (tests.trans (if_pos (working_iff.2 hk)))
        · exact fails (by decide) ((tests.trans (if_neg (mt working_iff.1 hk))).trans
            (if_neg (by rw [show (v.descriptor i).loaded = false from hl]; decide)))
        · have started : v.startMoveTo q = .ok (v.startMove c i) :=
            (tests.trans (if_neg (mt working_iff.1 hk))).trans (if_pos hl)
          rw [exec_startMove_starts h hn ho started, startMove_eq]
          rfl
    · have run := exec_stopMove h hn ho
      refine ⟨fun bad => ?_, fun c hw => ?_⟩
      · rw [run, stopMoveCommand_unnamed (by rw [first_word]; exact channelName_none bad)]
        exact congrArg _ (h.took.failure 13 q .badIndex (by decide))
      · intro ch
        have same : v.chan c = ch := by cases c <;> rfl
        rw [run, stopMoveCommand_named (c := c) (by rw [first_word]; exact channelName_eq w1 c hw)]
        refine ⟨fun hs => ?_, fun hs => ?_, fun hs => ?_⟩
        · rw [stopMove_running (by rw [same]; exact hs), answerOk_eq]
        · have quiet : (v.withChannel c { ch.detachBusy with state := .idle }).firings = [] := by
            cases c <;> exact h.took.1.firings
          rw [stopMove_halted (by rw [same]; exact hs), same, fire_first quiet, answerOk_eq]
          rfl
        · rw [stopMove_still (by rw [same]; exact hs)]
          exact congrArg _ (h.took.ok 13 q [])
  · intro block n
    have words : ch.frameWords d = n := frameWords_eq ch d
    rw [startFrames_first hr hi first]
    unfold Channel.startFrame
    rw [words]
    rfl
  · intro wants first
    refine ⟨fun h => moverGrant_idle (moverAsk_none h), fun c i h hc => ?_, fun h => moverAsks_none h 16,
      fun u h => moverAsks_grant h⟩
    have asks : s.moverAsk = some (c, i) := moverAsk_some h hc
    intro sl granted
    refine ⟨fun hg => moverGrant_refused asks hg, fun t u hg => ?_⟩
    intro sent
    rw [moverGrant_granted asks hg]
    cases c <;> rfl

end Sys2Proof.Machine
end

section
/-! SUPPORT. The end of an event (O40): the moves of the responses, the waiting placers, and the rotation of the standing
claims, each as one equation. -/

namespace Sys2Proof.Machine

variable {s : State}

/-! ### A move of the responses, in the end of an event and in settling alike (log 5) -/

section Moves

variable {goOn : State → State} {r : Response} {l : List Response}

theorem goOn_move (hg : goOn = State.endOfEvent ∨ goOn = State.settle) (hl : s.left = []) {v : State}
    (h : s.loopStep.or s.waiterStep = some v) : goOn s = goOn v.drainLeft := by
  obtain rfl | rfl := hg
  · exact (response_move hl h).1
  · exact (response_move hl h).2

/-- A head for this node moves first, whoever waits for a place (R29). -/
theorem goOn_head (hg : goOn = State.endOfEvent ∨ goOn = State.settle) (hl : s.left = [])
    (hq : s.port.responseQ = r :: l) (hd : r.frame.dest = s.en.ownId) :
    goOn s = goOn (s.loopResponse r).drainLeft :=
  goOn_move hg hl (by rw [loopStep_head hq hd]; rfl)

/-- With no head for this node, a placer takes the free place. -/
theorem goOn_waiter (hg : goOn = State.endOfEvent ∨ goOn = State.settle) (hl : s.left = [])
    (hn : s.loopStep = none) {v : State} (h : s.waiterStep = some v) : goOn s = goOn v.drainLeft :=
  goOn_move hg hl (by rw [hn, h]; rfl)

/-- The head has left the response insertion queue and is counted in LOOPED (R29). -/
theorem popResponse_counted (hq : s.port.responseQ = r :: l) : s.popResponse.countLooped =
    { s with port := { s.port with
      responseQ := l
      counters := { s.port.counters with looped := bump s.port.counters.looped } } } := by
  unfold State.popResponse State.countLooped State.countPort State.modPort
  simp only [hq, List.tail_cons]

/-- Only the reply of a pending NODE_RESET can be classified before the reset (R125, log 41). -/
theorem replyBeforeReset_other (h : ¬(r.purpose = .nodeReset ∧ s.ag.resetPending = true ∧ r.frame.malformed = false ∧
    ∃ ref, r.frame.body = .mgmtReply ref)) : s.replyBeforeReset r = none := by
  cases e : s.replyBeforeReset r with
  | none => rfl
  | some ref =>
    obtain ⟨purpose, body, pending, wellFormed, -⟩ := replyBeforeReset_some e
    exact absurd ⟨purpose, pending, wellFormed, ref, body⟩ h

/-- A looped response that waits on the loop path, its placer told (R29, R30). -/
theorem loopResponse_waits (hl : s.left = []) (hq : s.port.responseQ = r :: l) (e : s.replyBeforeReset r = none) :
    (s.loopResponse r).drainLeft = State.leftReport
      { s with port := { s.port with
        responseQ := l
        loopQ := s.port.loopQ ++ [r.frame]
        counters := { s.port.counters with looped := bump s.port.counters.looped } } } r.purpose := by
  exact (loopResponse_drained_none hl e).trans (congrArg
    (fun v => State.leftReport (v.modPort fun p => { p with loopQ := p.loopQ ++ [r.frame] }) r.purpose)
    (popResponse_counted hq))

end Moves

/-! ### Who takes a free place (R30, R133, R138, log 8) -/

/-- The held response takes it, where no held reply goes first. -/
theorem waiterStep_response {h : HeldResponse} (room : s.port.responseQ.length < 8) (hh : s.inb.held = some h)
    (first : ∀ p, s.ag.heldReply = some p → s.replyFirst h p = false) :
    s.waiterStep = some (s.placeHeldResponse h) := by
  unfold State.waiterStep
  rw [if_pos (State.responseRoom_iff.2 room), hh]
  cases hp : s.ag.heldReply with
  | none => rfl
  | some p => exact congrArg some (if_neg (by rw [first p hp]; decide))

/-- The held reply takes it, where it goes before the held response. -/
theorem waiterStep_reply {p : HeldReply} (room : s.port.responseQ.length < 8) (hp : s.ag.heldReply = some p)
    (first : ∀ h, s.inb.held = some h → s.replyFirst h p = true) :
    s.waiterStep = some (s.placeHeldReply p) := by
  unfold State.waiterStep
  rw [if_pos (State.responseRoom_iff.2 room), hp]
  cases hh : s.inb.held with
  | none => rfl
  | some h => exact congrArg some (if_pos (first h hh))

/-- The held reply goes first: it has waited longer, or the free value says so (log 8). -/
theorem replyFirst_iff {h : HeldResponse} {p : HeldReply} : s.replyFirst h p = true ↔
    p.since < h.since ∨ (h.since = p.since ∧ Config.agentFirst s.now = true) := by
  unfold State.replyFirst
  rw [Bool.or_eq_true, Bool.and_eq_true, decide_eq_true_eq, beq_iff_eq, @eq_comm _ p.since h.since]

/-- The held response goes first. -/
theorem not_replyFirst {h : HeldResponse} {p : HeldReply}
    (first : h.since < p.since ∨ (h.since = p.since ∧ Config.agentFirst s.now = false)) : s.replyFirst h p = false := by
  rw [← Bool.not_eq_true, replyFirst_iff]
  rintro (longer | ⟨same, agent⟩)
  · omega
  · obtain shorter | ⟨-, inbound⟩ := first
    · omega
    · rw [inbound] at agent
      cases agent

/-! ### The rotation of the standing claims (R77, R174) -/

/-- Of a list searched in order, the first member that has a value gives it. -/
theorem findSome_first {α β : Type} {f : α → Option β} {pre post : List α} {c : α} {b : β}
    (hpre : ∀ x ∈ pre, f x = none) (hc : f c = some b) : (pre ++ c :: post).findSome? f = some b := by
  rw [List.findSome?_append, List.findSome?_eq_none_iff.2 hpre, Option.none_or, List.findSome?_cons, hc]

/-- The first claimant of the rotation that is granted becomes the one served last (R77). -/
theorem claimStep_first {pre post : List Claimant} {c : Claimant} {u : State}
    (order : claimantsAfter s.rt.lastClaimant = pre ++ c :: post) (hpre : ∀ x ∈ pre, s.claimGrant x = none)
    (hc : s.claimGrant c = some u) : s.claimStep = some (u.modRt fun r => { r with lastClaimant := c }) := by
  unfold State.claimStep
  rw [order]
  refine findSome_first (fun x hx => ?_) ?_
  · rw [hpre x hx]
    rfl
  · rw [hc]
    rfl

/-- No code is held. -/
theorem heldCode_none (h : ∀ c, ¬s.isHeld c = true) : s.heldCode = none :=
  List.find?_eq_none.2 fun c _ => h c

theorem issueGrant_refused (h : s.alloc s.issueRequest = none) : s.issueGrant = none := by
  unfold State.issueGrant
  rw [h]

theorem issueGrant_granted {t : Tag} {u : State} (h : s.alloc s.issueRequest = some (t, u)) :
    s.issueGrant = some (u.modAg fun a => { a with issue := { a.issue with state := .issued } }) := by
  unfold State.issueGrant
  rw [h]

/-- Of two changes of an entry the later acts on the earlier. -/
theorem modAt_modAt {α : Type} {n : Nat} (t : Table α n) (i : Fin n) (f g : α → α) :
    modAt (modAt t i f) i g = modAt t i fun x => g (f x) := by
  refine table_ext fun j => ?_
  by_cases h : i = j
  · subst h
    simp only [get_modAt_self]
  · simp only [get_modAt_ne _ _ h]

/-- Granted, the held code's tag is recorded, its refire count is 0, and it is the code granted last (R174). -/
theorem grantHeld_granted {c : EventCode} {t : Tag} {u : State}
    (h : s.alloc (s.eventRequest c (s.ringRoute c).refire) = some (t, u)) :
    s.grantHeld c = some { u with ev := { u.ev with
      ring := u.ev.ring.set c.val ⟨some t, 0⟩ c.isLt
      lastGranted := c
      counters := { u.ev.counters with ringEvents := bump u.ev.counters.ringEvents } } } := by
  unfold State.grantHeld State.recordEventTag State.modRing State.countEv State.modEv
  rw [h]
  simp only [modAt_modAt]
  rfl

/-- Settles O40: the moves one by one, each followed by all that follows it (`goOn_move`), and the rotation of the
standing claims. -/
theorem endOfEvent : Obligations.EndOfEvent := by
  intro s looping room
  have loopless (hn : ¬looping) : s.loopStep = none := loopStep_none.2 fun r l hq hd => hn ⟨r, l, hq, hd⟩
  refine ⟨endOfEvent_rest s, endOfEvent_eq, fun hp => ⟨endOfEvent_fired hp, endOfEvent_flow hp⟩, endOfEvent_drainLeft s,
    fun goOn hg hl => ⟨fun r l hq hd => ?_, fun hn hr h hh first => ?_, fun hn hr p hp first => ?_⟩,
    fun hl hn hw => ?_, ?_, fun hi => if_neg hi, fun hi => ?_, ?_, rfl, fun c => ⟨grantHeld_none.2, fun t u =>
      grantHeld_granted⟩⟩
  · intro u looped
    refine ⟨fun other => ?_, fun ref purpose pending wellFormed body => ?_⟩
    · rw [goOn_head hg hl hq hd, loopResponse_waits hl hq (replyBeforeReset_other other)]
    · rw [goOn_head hg hl hq hd]
      have reply := replyBeforeReset_reply purpose body pending wellFormed
      by_cases replyFirst : Config.loopedReplyFirst s.now = true
      · rw [if_pos replyFirst] at reply ⊢
        rw [loopResponse_drained_some hl reply, popResponse_counted hq]
        rfl
      · rw [if_neg replyFirst] at reply ⊢
        rw [loopResponse_waits hl hq reply]
  · rw [goOn_waiter hg hl (loopless hn) (waiterStep_response hr hh fun p hp => not_replyFirst (first p hp))]
    exact congrArg goOn (insertResponse_drained (by exact hl) h.frame .plain)
  · rw [goOn_waiter hg hl (loopless hn) (waiterStep_reply hr hp fun h hh => replyFirst_iff.2 (first h hh)),
      placeHeldReply_drained hl hr p]
  · exact Still.endOfEvent ⟨loopless hn, waiterStep_none.2 (hw.imp_left Nat.le_of_not_lt), hl⟩
  · intro order
    have rotation : claimantsAfter s.rt.lastClaimant = order := by
      cases h : s.rt.lastClaimant <;> simp only [order, h] <;> rfl
    exact ⟨fun refused => serveClaims_eq (claimStep_none.2 refused), fun pre c post u ho hpre hc =>
      serveClaims_step (claimStep_first (rotation.trans ho) hpre hc)⟩
  · intro granted
    have asks : s.claimGrant .issueSlot = s.issueGrant := if_pos hi
    rw [asks]
    exact ⟨issueGrant_refused, fun t u => issueGrant_granted⟩
  · intro held after
    have router {x : Option EventCode} (h : s.heldCode = x) : s.claimGrant .router = x.bind s.grantHeld := by
      simp only [State.claimGrant, h]
      cases x <;> rfl
    refine ⟨fun idle => router (heldCode_none fun c hc => idle c (isHeld_iff.1 hc)), fun c hc first => ?_⟩
    exact router (heldCode_some (isHeld_iff.2 hc) fun d hd => first d (isHeld_iff.1 hd))

end Sys2Proof.Machine
end

section
/-! SUPPORT. The firings of an event by their routes (O17), and an attention input that changes (O16). -/

namespace Sys2Proof.Machine

variable {s : State} {c : EventCode}

/-! ### Firings in their order (R170) -/

theorem withFirings_nil (h : s.firings = []) : ({ s with firings := [] } : State) = s := by
  rw [← h]

/-- The first firing is taken, then the rest. -/
theorem takeFirings_cons {l : List EventCode} (h : s.firings = c :: l) : s.takeFirings =
    State.takeFirings { State.takeFiring { s with firings := [] } c with firings := l } := by
  have taken : (State.takeFiring { s with firings := [] } c).firings = [] := takeFiring_firings _ c
  unfold State.takeFirings
  dsimp only
  rw [h, withFirings_nil taken]
  rfl

/-! ### The lines (R172) -/

theorem lineAsserted_iff (e : Events) (r : Route) : e.lineAsserted r = true ↔
    ∃ c : EventCode, e.pendingSet.getLsbD c.val = true ∧ (e.routes.get c).route = r := by
  simp [Events.lineAsserted]

theorem Route.isLine_iff (r : Route) : r.isLine = true ↔ r = .line0 ∨ r = .line1 := by
  cases r <;> decide

/-! ### A firing by its route (R170, R174) -/

theorem takeFiring_nowhere (h : (s.ev.routes.get c).route = .off) : s.takeFiring c = s := by
  unfold State.takeFiring State.routeEntry
  rw [h]

theorem takeFiring_line (h : (s.ev.routes.get c).route = .line0 ∨ (s.ev.routes.get c).route = .line1) :
    s.takeFiring c = { s with ev := { s.ev with pendingSet := s.ev.pendingSet ||| BitVec.twoPow 19 c.val } } := by
  unfold State.takeFiring State.routeEntry
  obtain h | h := h <;> rw [h] <;> rfl

theorem takeFiring_ring (h : (s.ev.routes.get c).route = .ring) : s.takeFiring c = s.ringFire c := by
  unfold State.takeFiring State.routeEntry
  rw [h]

/-- With an entry outstanding or the code held, the firing is coalesced. -/
theorem ringFire_coalesced (h : (s.ev.ring.get c).tag.isSome = true ∨ 0 < (s.ev.ring.get c).refire) : s.ringFire c =
    { s with ev := { s.ev with
      ring := s.ev.ring.set c.val { s.ev.ring.get c with refire := min 255 ((s.ev.ring.get c).refire + 1) } c.isLt
      counters := { s.ev.counters with refireCoalesced := bump s.ev.counters.refireCoalesced } } } := if_pos h

section Fresh

variable (ht : (s.ev.ring.get c).tag = none) (hr : (s.ev.ring.get c).refire = 0)
include ht hr

theorem ringFire_fresh : ¬((s.ringRoute c).tag.isSome = true ∨ 0 < (s.ringRoute c).refire) := by
  simp [State.ringRoute, ht, hr]

/-- Otherwise the router asks for an entry. -/
theorem ringFire_granted {t : Tag} {u : State} (h : s.alloc (s.eventRequest c 1) = some (t, u)) :
    s.ringFire c = u.recordEventTag c t := by
  unfold State.ringFire
  dsimp only
  rw [if_neg (ringFire_fresh ht hr), h]

/-- Refused, the code is held. -/
theorem ringFire_held (h : s.en.role ≠ .numbered ∨ s.rt.freeList = []) : s.ringFire c =
    { s with ev := { s.ev with ring := s.ev.ring.set c.val { s.ev.ring.get c with refire := 1 } c.isLt } } := by
  have refused : s.alloc (s.eventRequest c 1) = none :=
    eventAlloc_none.2 (h.imp_left fun hn => Bool.eq_false_iff.2 (mt (numbered_iff s).1 hn))
  unfold State.ringFire
  dsimp only
  rw [if_neg (ringFire_fresh ht hr), refused]
  rfl

end Fresh

/-- The entry of an EVENT request: it waits behind the posted writes to its destination (R74, R75, R174). -/
theorem eventEntry_eq (s : State) (c : EventCode) (n : Nat) (old : TrackerEntry) :
    s.allocatedEntry (s.eventRequest c n) old =
      { state := if s.postedRun (s.ev.routes.get c).dest = [] then .ready else .orderWait
        originator := .event c
        kind := .event
        dest := (s.ev.routes.get c).dest
        addr := 0
        length := 1
        first := 0
        last := 0
        payload := []
        seq := 0
        sync := false
        number := (s.ev.routes.get c).number
        count := BitVec.ofNat 8 n
        window := none
        gen := old.gen + 1
        retry := 0
        responseTimer := .stopped
        backoffTimer := .stopped
        sentOnce := false } := by
  have waits : (s.allocatedEntry (s.eventRequest c n) old).state =
      if s.postedRun (s.ev.routes.get c).dest = [] then .ready else .orderWait := by
    have event : (s.eventRequest c n).kind = .event := rfl
    rw [allocatedEntry_state, event]
    by_cases h : s.postedRun (s.ev.routes.get c).dest = []
    · exact (if_neg fun x => x.2 h).trans (if_pos h).symm
    · exact (if_pos ⟨.inr (.inr rfl), h⟩).trans (if_neg h).symm
  rw [← waits]
  rfl

/-- An EVENT request finds an entry when the node is NUMBERED and an entry is FREE (R74). -/
theorem eventAlloc_some (hn : s.en.role = .numbered) {t : Tag} {l : List Tag} (hl : s.rt.freeList = t :: l) (n : Nat) :
    s.alloc (s.eventRequest c n) = some (t, s.allocated (s.eventRequest c n) t l) := by
  refine alloc_eq_some ((numbered_iff s).2 hn) hl ?_ ?_
  · exact Bool.false_ne_true
  · exact Bool.eq_false_iff.1 (placesFull_of_kind (fun h => by cases h))

/-- Settles O17: the firings one by one, and each by its route. -/
theorem ringRouteFires : Obligations.RingRouteFires := by
  refine ⟨fun s => ⟨takeFirings_eq, fun c l => takeFirings_cons, lineAsserted_iff s.ev .line0,
    lineAsserted_iff s.ev .line1, fun c => ⟨Route.isLine_iff _, takeFiring_nowhere, takeFiring_line⟩⟩, fun s c ring => ?_⟩
  rw [takeFiring_ring ring]
  refine ⟨ringFire_coalesced, ringFire_held, fun ht hr hn t l hl => ?_⟩
  rw [ringFire_granted ht hr (eventAlloc_some hn hl 1), allocated_eq, funext (eventEntry_eq s c 1)]
  rfl

/-! ### ATTN_CHANGE (R173) -/

/-- The input takes the level. -/
def State.withInput (s : State) (i : Fin 4) (level : Bool) : State :=
  { s with ev := { s.ev with attnInput := putLevel s.ev.attnInput i level } }

/-- The level is recorded. -/
def State.withRecorded (s : State) (i : Fin 4) (level : Bool) : State :=
  { s with ev := { s.ev with attnRecorded := putLevel s.ev.attnRecorded i level } }

theorem getLsbD_putLevel : ∀ (v : BitVec 4) (i : Fin 4) (level : Bool), (putLevel v i level).getLsbD i.val = level := by
  decide

theorem attnLevel_eq (s : State) (i : Fin 4) (level : Bool) : s.attnLevel i level =
    if s.localResetIn = true ∨ s.ev.attnRecorded.getLsbD i.val = level then s.withInput i level
    else if level = true then ((s.withInput i level).withRecorded i level).fire (codeAttn i)
    else (s.withInput i level).withRecorded i level := by
  have taken : (s.withInput i level).ev.attnInput.getLsbD i.val = level := getLsbD_putLevel ..
  show (s.withInput i level).compareInput i = _
  unfold State.compareInput
  rw [taken]
  rfl

theorem Rest.withInput (h : Rest s) (i : Fin 4) (level : Bool) : Rest (s.withInput i level) := h.of_same {}

theorem Rest.withRecorded (h : Rest s) (i : Fin 4) (level : Bool) : Rest (s.withRecorded i level) := h.of_same {}

/-- Settles O16, by what the comparison of the input does (`attnLevel_eq`). -/
theorem attnChange : Obligations.AttnChange := by
  intro i level s h put u v
  have taken : Rest (s.begin.withInput i level) := h.begin.withInput i level
  have compared := attnLevel_eq s.begin i level
  have run : exec (.attnChange i level) s = s.event fun x => x.attnLevel i level := rfl
  rw [run]
  refine ⟨fun same => event_rest (u := u) (compared.trans (if_pos same)) taken, fun pin asserted low => ?_,
    fun pin idle high => ?_⟩
  · have differs : ¬(s.localResetIn = true ∨ s.ev.attnRecorded.getLsbD i.val = level) := by
      rw [pin, asserted, low]
      decide
    exact event_rest (u := v) (compared.trans ((if_neg differs).trans (if_neg (by simp [low]))))
      (taken.withRecorded i level)
  · have differs : ¬(s.localResetIn = true ∨ s.ev.attnRecorded.getLsbD i.val = level) := by
      rw [pin, idle, high]
      decide
    exact event_settled (u := v) (compared.trans (((if_neg differs).trans (if_pos high)).trans
      (fire_first (taken.withRecorded i level).firings _))) (taken.withRecorded i level)

end Sys2Proof.Machine
end

section
/-! SUPPORT. POWER_ON_RESET (O14), and the release of LOCAL_RESET_IN with the local master's rotation (O15). -/

namespace Sys2Proof.Machine

variable {s : State}

/-! ### The straps (R36) -/

/-- The parity is correct when the six pins hold an odd number of ones. -/
theorem parityCorrect_eq (st : Straps) : st.parityCorrect =
    (st.par ^^ st.id.getLsbD 0 ^^ st.id.getLsbD 1 ^^ st.id.getLsbD 2 ^^ st.id.getLsbD 3 ^^ st.id.getLsbD 4) := by
  have ones : ∀ (par : Bool) (id : BitVec 5),
      (((List.range 5).countP fun n => id.getLsbD n) + if par then 1 else 0) % 2 = 1 ↔
        (par ^^ id.getLsbD 0 ^^ id.getLsbD 1 ^^ id.getLsbD 2 ^^ id.getLsbD 3 ^^ id.getLsbD 4) = true := by decide
  rw [Bool.eq_iff_iff]
  exact beq_iff_eq.trans (ones st.par st.id)

/-- The straps give the STRAPPED id. -/
theorem Straps.strapped_eq (st : Straps) : st.strapped = (st.parityCorrect && st.id != 0 && st.id != 31) :=
  (Bool.and_assoc ..).symm

/-- The straps give a STRAP_FAULT. -/
theorem Straps.fault_eq (st : Straps) : st.fault = (!st.parityCorrect || st.id == 31) := Bool.or_comm ..

/-- Enumeration with the sampled straps: the run set and count hold the strapped id (R36, log 19). -/
theorem Enumeration.powerOn_eq (st : Straps) : Enumeration.powerOn st =
    { Enumeration.reset with
      manager := st.mgr
      idMode := if st.strapped then .strapped else .assigned
      strappedId := if st.strapped then st.id else 0
      ownId := if st.strapped then st.id else 0
      role := if st.strapped then .provisional else .unnumbered
      state := if st.mgr then .settling else .idle
      runPending := if st.mgr then some false else none
      runSet := if st.strapped then BitVec.twoPow 32 st.id.toNat else 0
      runCount := if st.strapped then 1 else 0 } := by
  have held : IdSet.add 0 st.id = BitVec.twoPow 32 st.id.toNat := BitVec.zero_or
  unfold Enumeration.powerOn Enumeration.startSet
  cases hs : st.strapped with
  | false => rfl
  | true =>
    have named : st.id ≠ noNode := by
      rw [Straps.strapped_eq] at hs
      exact fun h => by rw [h] at hs; simp [noNode] at hs
    simp only [if_true, if_neg named, held]

/-! ### POWER_ON_RESET (R36, R173) -/

/-- The state that a POWER-ON reset makes before its firings are taken: the fault, if any, has been recorded and the
inputs have been compared. -/
def State.poweredCompared (s : State) (st : Straps) : State :=
  { s.poweredOn st with
    ag := { Agent.reset with faults := if st.fault then [{ kind := .strapFault }] else [] }
    ev := { Events.reset with
      attnInput := s.ev.attnInput
      attnRecorded := if s.localResetIn then 0 else s.ev.attnInput } }

/-- The codes that fire in it. -/
def State.powerFirings (s : State) (st : Straps) : List EventCode :=
  (if st.fault then [codeFaultRecorded] else []) ++ if s.localResetIn then [] else (s.poweredOn st).ev.risen

theorem performPowerOn_firings (s : State) (st : Straps) :
    s.performPowerOn st = { s.poweredCompared st with firings := s.powerFirings st } := by
  have made : (if st.fault then (s.poweredOn st).recordFault (bareRecord .strapFault) else s.poweredOn st) =
      { s.poweredOn st with
        ag := { Agent.reset with faults := if st.fault then [{ kind := .strapFault }] else [] }
        firings := if st.fault then [codeFaultRecorded] else [] } := by
    cases st.fault <;> rfl
  rw [performPowerOn_eq, made]
  unfold State.powerFirings State.poweredCompared
  cases hi : s.localResetIn with
  | true =>
    rw [compareInputs_held (by exact hi), if_pos rfl, if_pos rfl, List.append_nil]
    rfl
  | false =>
    rw [compareInputs_eq (by exact hi)]
    rfl

/-- Every code has its reset route: the attention codes are routed nowhere, and FAULT_RECORDED to line 0 (R171). -/
theorem poweredCompared_route (s : State) (st : Straps) (c : EventCode) :
    (s.poweredCompared st).routeEntry c = RouteEntry.reset c := reset_route c

theorem risen_routedNowhere (s : State) (st : Straps) (e : Events) :
    ∀ c ∈ e.risen, ((s.poweredCompared st).routeEntry c).route = .off := by
  intro c hc
  obtain ⟨i, -, rfl⟩ := List.mem_map.1 hc
  have off : ∀ i : Fin 4, (RouteEntry.reset (codeAttn i)).route = .off := by decide
  rw [poweredCompared_route]
  exact off i

/-- The whole part after a POWER-ON reset, its firings taken (R36, R173). -/
def State.afterPowerOn (s : State) (st : Straps) : State :=
  { s.poweredCompared st with
    ev := { (s.poweredCompared st).ev with pendingSet := if st.fault then 0x20 else 0 } }

theorem performPowerOn_takeFirings (s : State) (st : Straps) :
    (s.performPowerOn st).takeFirings = s.afterPowerOn st := by
  have off : ∀ c ∈ (if s.localResetIn then [] else (s.poweredOn st).ev.risen),
      ((s.poweredCompared st).routeEntry c).route = .off := by
    intro c hc
    split at hc
    · cases hc
    · exact risen_routedNowhere s st _ c hc
  rw [performPowerOn_firings]
  unfold State.afterPowerOn
  cases hf : st.fault with
  | true =>
    have fired : s.powerFirings st = List.replicate (0 + 1) 5 ++ if s.localResetIn then [] else
        (s.poweredOn st).ev.risen := by
      unfold State.powerFirings
      rw [hf]
      rfl
    have joined : (0 : BitVec 19) ||| 0x20 = 0x20 := by decide
    exact (takeFirings_faults 0 _ { s.poweredCompared st with firings := s.powerFirings st }
      (congrArg RouteEntry.route (poweredCompared_route s st 5)) off fired).trans
      (congrArg (fun p : BitVec 19 => { s.poweredCompared st with
        ev := { (s.poweredCompared st).ev with pendingSet := p } }) joined)
  | false =>
    unfold State.takeFirings State.powerFirings
    rw [hf]
    exact takeFiring_off _ _ off

/-- Nothing waits in a part that has just been made: no queue, entry, claim or slot holds anything to do. -/
theorem Rest.afterPowerOn (s : State) (st : Straps) : Rest (s.afterPowerOn st) := by
  have idle : ∀ c, ¬(s.afterPowerOn st).isHeld c = true := by
    intro c hc
    obtain ⟨-, refire⟩ := isHeld_iff.1 hc
    have reset : (s.afterPowerOn st).ev.ring.get c = RingRoute.reset := get_replicate _ c
    rw [reset] at refire
    exact absurd refire (by decide)
  have nextOffer : (s.afterPowerOn st).nextOffer = none := by
    unfold State.nextOffer
    split <;> rfl
  refine ⟨rfl, rfl, ?_, settleStep_none.2 ⟨rfl, rfl, ?_⟩, ?_, rfl⟩
  · exact claimStep_none_of_want (fun h => by cases h) (fun c hc => absurd hc (idle c)) (moverAsk_reset rfl rfl)
  · unfold State.offerStep
    rw [nextOffer]
    rfl
  · unfold State.busChoice
    split <;> rfl

theorem performPowerOn_endOfEvent (s : State) (st : Straps) : (s.performPowerOn st).endOfEvent = s.afterPowerOn st := by
  have still : Still (s.performPowerOn st) := by
    rw [performPowerOn_firings]
    exact (Rest.afterPowerOn s st).still.congr rfl rfl rfl rfl rfl
  have asks : (s.performPowerOn st).asks = [] := by
    rw [performPowerOn_firings]
    rfl
  rw [← endOfEvent_takeFirings still asks, performPowerOn_takeFirings, endOfEvent_eq (Rest.afterPowerOn s st)]

/-- Settles O14: the part as the reset makes it, the fault recorded, the inputs compared and the firings taken. -/
theorem powerOnReset : Obligations.PowerOnReset := by
  intro st s odd strapped fault
  have strapped_eq : st.strapped = strapped := by rw [Straps.strapped_eq, parityCorrect_eq]
  have fault_eq : st.fault = fault := by rw [Straps.fault_eq, parityCorrect_eq]
  refine (congrArg Host.Outcome.next (performPowerOn_endOfEvent s.begin st)).trans ?_
  unfold State.afterPowerOn State.poweredCompared State.poweredOn
  rw [Enumeration.powerOn_eq, strapped_eq, fault_eq]
  rfl

/-! ### LOCAL_RESET_RELEASE (R124, R173) -/

/-- The pin is released and the levels of the inputs are recorded. -/
def State.released (s : State) : State :=
  { s with now := s.now + 1, localResetIn := false, ev := { s.ev with attnRecorded := s.ev.attnInput } }

theorem Rest.released (h : Rest s) : Ready s.released := h.ready.of_same {}

theorem exec_release_idle (h : s.localResetIn = false) : exec .localResetRelease s = .next s :=
  if_neg (by rw [h]; decide)

/-- The pin is released and the inputs are compared: those that have risen fire. -/
theorem exec_release (h : s.localResetIn = true) (hf : s.firings = []) :
    exec .localResetRelease s = .next (State.endOfEvent { s.released with firings := s.ev.risen }) := by
  refine (if_pos h).trans (next_congr ((compareInputs_eq (by rfl)).trans ?_))
  show ({ s.released with firings := s.firings ++ s.ev.risen } : State) = _
  rw [hf]
  rfl

/-- The inputs that have risen, ATTN0 first. -/
theorem risen_eq (e : Events) : e.risen = [((15 : EventCode), 0), (16, 1), (17, 2), (18, 3)].filterMap fun (c, i) =>
    if e.attnInput.getLsbD i = true ∧ e.attnRecorded.getLsbD i = false then some c else none := by
  have levels : ∀ input recorded : BitVec 4,
      ((List.finRange 4).filter fun i => input.getLsbD i.val && !recorded.getLsbD i.val).map codeAttn =
        [((15 : EventCode), 0), (16, 1), (17, 2), (18, 3)].filterMap fun (c, i) =>
          if input.getLsbD i = true ∧ recorded.getLsbD i = false then some c else none := by decide
  exact levels _ _

/-! ### The local master's rotation (R130) -/

theorem busClaimantsAfter_eq (c : BusClaimant) : busClaimantsAfter c = busRotation c := by
  match c with
  | .inbound | .channel .a | .channel .b => rfl

/-- A local master that is not IDLE, or whose card is in reset, takes nobody (R130, R135). -/
theorem busChoice_held (h : s.localResetIn = true ∨ s.inb.current.isSome = true ∨ s.inb.held.isSome = true) :
    s.busChoice = none := by
  refine if_neg ?_
  intro idle
  simp only [Inbound.idle, Bool.and_eq_true, Option.isNone_iff_eq_none, Bool.not_eq_true'] at idle
  obtain ⟨⟨current, held⟩, pin⟩ := idle
  simp [current, held, pin] at h

/-- An IDLE local master searches the rotation (R130). -/
theorem busChoice_idle (hp : s.localResetIn = false) (hc : s.inb.current = none) (hh : s.inb.held = none) :
    s.busChoice = (busRotation s.inb.lastServed).findSome? fun c => (s.claimantOp c).map fun tx => (c, tx) := by
  unfold State.busChoice Inbound.idle
  rw [hp, hc, hh, busClaimantsAfter_eq]
  rfl

theorem takeBus_some {c : BusClaimant} {tx : Transaction} (h : s.busChoice = some (c, tx)) :
    s.takeBus = { s with inb := { s.inb with current := some tx, lastServed := c } } := by
  unfold State.takeBus
  rw [h]
  rfl

theorem Slot.wantsBus_iff (sl : Slot) : sl.wantsBus = true ↔ sl.state = .localPending ∨ sl.state = .landing := by
  simp [Slot.wantsBus]

/-- The operation of a slot: a landing one writes its words, and any other reads (R161, R162). -/
theorem moverTransaction_eq (s : State) (c : ChannelId) (i : Fin 8) : s.moverTransaction c i =
    { owner := .mover c i
      dir := if (s.slot c i).state = .landing then .write else .read
      address := (s.slot c i).localAddr
      count := (s.slot c i).count
      first := 15
      last := 15
      data := if (s.slot c i).state = .landing then (s.slot c i).data else []
      reattempts := 0
      cycleTimer := .running s.ag.params.localCycleLimit.toNat
      delayTimer := .stopped } := by
  unfold State.moverTransaction
  by_cases landing : (s.slot c i).state = .landing
  · rw [if_pos landing, if_pos landing, if_pos landing]
    rfl
  · rw [if_neg landing, if_neg landing, if_neg landing]
    rfl

/-- Settles O15: the release with the inputs that have risen, and the rotation of the local master claimant by
claimant. -/
theorem localResetReleaseServesBus : Obligations.LocalResetReleaseServesBus := by
  refine ⟨fun s h => ?_, fun s => ⟨fun busy => takeBus_eq (busChoice_held busy), fun hp hc hh => ?_, fun e l hq => ?_,
    fun hq => ?_, fun c => ?_⟩⟩
  · intro u risen
    have fired : s.ev.risen = risen := risen_eq s.ev
    refine ⟨exec_release_idle, fun pin nobody => ?_, fun pin => ?_⟩
    · rw [exec_release pin h.firings, fired, nobody, withFirings_nil (s := s.released) h.firings, h.released.bus]
      rfl
    · rw [exec_release pin h.firings, fired]
      rfl
  · have choice := busChoice_idle hp hc hh
    refine ⟨fun nobody => takeBus_eq ?_, fun pre c post tx order hpre op => takeBus_some ?_⟩
    · rw [choice, List.findSome?_eq_none_iff]
      intro c _
      rw [nobody c]
      rfl
    · rw [choice, order]
      refine findSome_first (fun x hx => ?_) ?_
      · rw [hpre x hx]
        rfl
      · rw [op]
        rfl
  · show s.inb.queue.head?.map s.inboundTransaction = _
    rw [hq]
    rfl
  · show s.inb.queue.head?.map s.inboundTransaction = _
    rw [hq]
    rfl
  · intro slots wants
    have wants_iff (i : Fin 8) : ((s.chan c).slots.get i).wantsBus = true ↔ wants i := Slot.wantsBus_iff _
    refine ⟨fun nobody => ?_, fun i hi first => ?_⟩
    · have idle : (s.chan c).oldest Slot.wantsBus = none :=
        oldest_none.2 fun i => Bool.eq_false_iff.2 (mt (wants_iff i).1 (nobody i))
      show ((s.chan c).oldest Slot.wantsBus).map _ = _
      rw [idle]
      rfl
    · exact (claimantOp_channel ((wants_iff i).2 hi) fun j hj => first j ((wants_iff j).1 hj)).trans
        (congrArg some (moverTransaction_eq s c i))

end Sys2Proof.Machine
end

section
/-! SUPPORT. SET_ROUTE by the lock's owner (O37), and the event inbox (O29). -/

namespace Sys2Proof.Machine

variable {s v : State} {q : MgmtRequest} {c : EventCode}

/-! ### A route set (R171, R172) -/

/-- The code joins the pending set where R172's exception holds it there, and leaves it where its route is no line; the
refire count of a code that is not routed to the ring is cleared. -/
theorem Events.setRoute_eq (e : Events) (c : EventCode) (r : RouteEntry) (hr : r.level = true → 15 ≤ c.val) :
    e.setRoute c r = { e with
      routes := e.routes.set c.val r c.isLt
      pendingSet :=
        if r.route.isLine = true then
          (if r.level = true ∧ e.attnInput.getLsbD (c.val - 15) = true then e.pendingSet ||| BitVec.twoPow 19 c.val
          else e.pendingSet)
        else e.pendingSet &&& ~~~(BitVec.twoPow 19 c.val)
      ring := if r.route = .ring then e.ring
        else e.ring.set c.val { e.ring.get c with refire := 0 } c.isLt } := by
  have held : ({ e with routes := modAt e.routes c fun _ => r } : Events).levelHeld c = true ↔
      r.route.isLine = true ∧ r.level = true ∧ e.attnInput.getLsbD (c.val - 15) = true := by
    unfold Events.levelHeld
    simp only [get_modAt_self, Bool.and_eq_true, decide_eq_true_eq]
    constructor
    · rintro ⟨⟨⟨-, level⟩, line⟩, input⟩
      exact ⟨line, level, input⟩
    · rintro ⟨line, level, input⟩
      exact ⟨⟨⟨hr level, level⟩, line⟩, input⟩
  unfold Events.setRoute
  dsimp only
  by_cases line : r.route.isLine = true
  · have noRing : r.route ≠ .ring := fun h => by rw [h] at line; cases line
    rw [if_pos line, if_pos line, if_neg noRing, if_neg noRing]
    by_cases joins : r.level = true ∧ e.attnInput.getLsbD (c.val - 15) = true
    · rw [if_pos (held.2 ⟨line, joins⟩), if_pos joins]
      rfl
    · rw [if_neg fun h => joins (held.1 h).2, if_neg joins]
      rfl
  · rw [if_neg line, if_neg line]
    by_cases ring : r.route = .ring
    · rw [if_pos ring, if_pos ring]
      rfl
    · rw [if_neg ring, if_neg ring]
      rfl

/-- A code that is held after a route has been set was held before. -/
theorem setRoute_isHeld (s : State) (c : EventCode) (r : RouteEntry) (hr : r.level = true → 15 ≤ c.val)
    (d : EventCode) (h : (s.modEv fun e => e.setRoute c r).isHeld d = true) : s.isHeld d = true := by
  rw [isHeld_iff] at h ⊢
  rw [State.modEv_ev, Events.setRoute_eq s.ev c r hr] at h
  dsimp only at h
  split at h
  · exact h
  · by_cases hd : d = c
    · subst hd
      rw [get_set] at h
      exact absurd h.2 (Nat.lt_irrefl 0)
    · rwa [get_set_ne _ hd] at h

/-- A part at rest stays so when its Events block changes and no further code is held. -/
theorem Rest.modEv {f : Events → Events} (h : Rest s) (hh : ∀ d, (s.modEv f).isHeld d = true → s.isHeld d = true) :
    Rest (s.modEv f) := by
  obtain ⟨firings, left, claims, settled, bus, asks⟩ := h
  obtain ⟨noLoop, noWaiter, noOffer⟩ := settleStep_none.1 settled
  refine ⟨firings, left, ?_, ?_, ?_, asks⟩
  · exact claimStep_fewer claims rfl rfl rfl rfl rfl rfl rfl hh
  · refine settleStep_none.2 ⟨?_, ?_, ?_⟩
    · exact (loopStep_congr (s := s) (u := s.modEv f) rfl rfl).2 noLoop
    · rw [waiterStep_none] at noWaiter ⊢
      exact noWaiter
    · exact ({} : OfferSame s (s.modEv f)).offerStep.2 noOffer
  · exact bus

theorem AgentReady.setRoute (h : AgentReady v) (c : EventCode) (r : RouteEntry) (hr : r.level = true → 15 ≤ c.val) :
    AgentReady (v.modEv fun e => e.setRoute c r) := by
  obtain ⟨rest, run⟩ := h
  exact ⟨rest.modEv (setRoute_isHeld v c r hr), run⟩

/-! ### SET_ROUTE (R171, R179) -/

theorem routeOfWord_level {w : Word} (h : (routeOfWord c w).level = true) : 15 ≤ c.val :=
  of_decide_eq_true (Bool.and_eq_true_iff.1 h).2

theorem RouteEntry.invalid_iff (r : RouteEntry) :
    (!r.valid) = true ↔ r.dest = 31 ∨ (r.route = .ring ∧ r.dest = 0) := by
  unfold RouteEntry.valid allNodes noNode
  simp only [Bool.not_eq_true', Bool.and_eq_false_iff, bne_eq_false_iff_eq, Bool.not_eq_false', Bool.and_eq_true,
    beq_iff_eq]

theorem setRouteTo_unnamed (h : eventName (operand q 1) = none) (v : State) : v.setRouteTo q = .error .badIndex := by
  unfold State.setRouteTo
  rw [h]

theorem setRouteTo_named (h : eventName (operand q 1) = some c) (v : State) : v.setRouteTo q =
    if (!(routeOfWord c (operand q 2)).valid) = true then .error .badValue
    else .ok (v.modEv fun e => e.setRoute c (routeOfWord c (operand q 2))) := by
  unfold State.setRouteTo
  rw [h]

theorem AgentReady.setRoute_named (h : AgentReady v) (hc : eventName (operand q 1) = some c) :
    (v.setRoute q).endOfEvent =
      if (!(routeOfWord c (operand q 2)).valid) = true then v.withFailure 8 q .badValue
      else (v.modEv fun e => e.setRoute c (routeOfWord c (operand q 2))).withOk 8 q [] := by
  have run : v.setRoute q = v.answerTested 8 q (v.setRouteTo q) := rfl
  rw [run, setRouteTo_named hc]
  split
  · exact h.failure 8 q .badValue (by decide)
  · exact (h.setRoute c _ routeOfWord_level).ok 8 q []

/-- Settles O37: the code named, the value test, and the route set (`Events.setRoute_eq`). -/
theorem setRoute : Obligations.SetRoute := by
  intro q s h hn ho v code w dest
  have run : exec (.setRoute q) s = .next (v.setRoute q).endOfEvent := h.exec_owned (form := formSetRoute) hn ho
  refine ⟨fun bad => ?_, fun c hc => ?_⟩
  · have unnamed : v.setRoute q = v.answerFail 8 q .badIndex :=
      congrArg (v.answerTested 8 q) (setRouteTo_unnamed (by rw [operand_one]; exact eventName_none bad) v)
    rw [run, unnamed, h.took.failure 8 q .badIndex (by decide)]
  · intro r joins pending
    have given : routeOfWord c (operand q 2) = r := rfl
    rw [run, h.took.setRoute_named (by rw [operand_one]; exact eventName_some hc), given]
    exact congrArg _ (if_congr (RouteEntry.invalid_iff r) rfl (congrArg
      (fun e => State.withOk { v with ev := e } 8 q []) (Events.setRoute_eq v.ev c r routeOfWord_level)))

/-! ### The event inbox (R175) -/

variable {f : Frame} {ref : Ref} {number : BitVec 6} {count : BitVec 8}

theorem InboxRecord.same_iff (r : InboxRecord) (source : NodeId) (number : BitVec 6) :
    r.same source number = true ↔ r.source = source ∧ r.number = number := by
  simp [InboxRecord.same]

/-- The inbox holds a record for the frame's source and event number. -/
theorem inboxKnows_iff : s.ev.inbox.any (·.same f.source number) = true ↔
    ∃ r ∈ s.ev.inbox, r.source = f.source ∧ r.number = number := by
  simp only [List.any_eq_true, InboxRecord.same_iff]

/-- The answer that takes an EVENT. -/
def inboxAccept (f : Frame) (ref : Ref) : Frame := Frame.answer f.source f.dest (.accept ref)

/-- The EVENT is dropped for want of room for its answer. -/
def State.inboxDropped (s : State) : State := s.countEv fun k => { k with inboxDropped := bump k.inboxDropped }

/-- The EVENT's count has been added to the record for its source and number. -/
def State.inboxCoalesced (s : State) (f : Frame) (number : BitVec 6) (count : BitVec 8) : State :=
  { s with ev := { s.ev with
    inbox := s.ev.inbox.map fun r =>
      if r.source = f.source ∧ r.number = number then { r with count := min 255 (r.count + count.toNat) } else r
    counters := { s.ev.counters with inboxCoalesced := bump s.ev.counters.inboxCoalesced } } }

/-- The EVENT has a record of its own. -/
def State.inboxAdded (s : State) (f : Frame) (number : BitVec 6) (count : BitVec 8) : State :=
  { s with ev := { s.ev with
    inbox := s.ev.inbox ++ [⟨f.source, number, count.toNat⟩]
    counters := { s.ev.counters with inboxNew := bump s.ev.counters.inboxNew } } }

/-- The EVENT is refused by a full inbox. -/
def State.inboxRefused (s : State) : State := s.countEv fun k => { k with inboxRefused := bump k.inboxRefused }

theorem takeEvent_full (full : 8 ≤ s.port.responseQ.length) : s.takeEvent f ref number count = s.inboxDropped :=
  if_pos (by simpa using responseRoom_not full)

section Room

variable (room : s.port.responseQ.length < 8)
include room

theorem takeEvent_known (known : ∃ r ∈ s.ev.inbox, r.source = f.source ∧ r.number = number) :
    s.takeEvent f ref number count =
      (s.inboxCoalesced f number count).insertResponse (plainResponse (inboxAccept f ref)) := by
  refine ((if_neg (noOverrun room)).trans (if_pos (inboxKnows_iff.2 known))).trans ?_
  unfold State.inboxCoalesced
  simp only [InboxRecord.same_iff]
  rfl

theorem takeEvent_new (known : ¬∃ r ∈ s.ev.inbox, r.source = f.source ∧ r.number = number)
    (few : s.ev.inbox.length < 16) (hf : s.firings = []) : s.takeEvent f ref number count =
      ({ s.inboxAdded f number count with firings := if s.ev.inbox = [] then [codeInboxReady] else [] } :
        State).insertResponse (plainResponse (inboxAccept f ref)) := by
  have silent : ((s.inboxAdded f number count).insertResponse (plainResponse (inboxAccept f ref))).firings = [] := by
    unfold State.insertResponse
    split <;> exact hf
  refine ((if_neg (noOverrun room)).trans ((if_neg (mt inboxKnows_iff.1 known)).trans (if_pos few))).trans ?_
  rw [insertResponse_firings (s.inboxAdded f number count)]
  by_cases empty : s.ev.inbox = []
  · rw [if_pos empty]
    exact (if_pos (List.isEmpty_iff.2 empty)).trans (fire_first silent _)
  · rw [if_neg empty]
    exact (if_neg (mt List.isEmpty_iff.1 empty)).trans (withFirings_nil silent).symm

theorem takeEvent_refused (known : ¬∃ r ∈ s.ev.inbox, r.source = f.source ∧ r.number = number)
    (many : 16 ≤ s.ev.inbox.length) : s.takeEvent f ref number count = s.inboxRefused.placeRefusal f ref 1 :=
  ((if_neg (noOverrun room)).trans ((if_neg (mt inboxKnows_iff.1 known)).trans (if_neg (Nat.not_lt.2 many)))).trans rfl

end Room

/-- An EVENT that arrives for this node is taken by the inbox, which finds it as the part at rest left it. -/
theorem arrival_event {i : Instr} {u : State} (ha : Arrival i f s u) (hm : f.malformed = false) (hf : s.forMe f)
    (hb : f.body = .event ref number count) :
    exec i s = .next (u.takeEvent f ref number count).endOfEvent ∧ u.ev = s.ev ∧ u.port.responseQ = s.port.responseQ := by
  obtain ⟨run, -, -, responses⟩ := arrival_consume ha hm (by rw [hb]; rfl) hf
  obtain ⟨port, hu, -⟩ := arrival_same ha
  have taken : u.consume f = u.takeEvent f ref number count := by
    unfold State.consume
    rw [hb]
  exact ⟨run.trans (next_congr taken), by rw [hu], responses.symm⟩

/-- Settles O29: what the inbox makes of the EVENT, case by case, in a part that is otherwise at rest. -/
theorem eventInbox : Obligations.EventInbox := by
  intro i f s u ref number count h ha hm hf hb full known accept
  obtain ⟨run, inbox, responses⟩ := arrival_event ha hm hf hb
  have rest : Rest u := arrival_rest ha h
  have room (hr : ¬full) : u.port.responseQ.length < 8 := by
    rw [responses]
    exact Nat.lt_of_not_le hr
  rw [run]
  refine ⟨fun hr => ?_, fun hr hk => ?_, fun hr hk few => ?_, fun hr hk many => ?_⟩
  · rw [takeEvent_full (responses ▸ hr)]
    exact congrArg _ (endOfEvent_eq (rest.of_same {}))
  · rw [takeEvent_known (room hr) (inbox ▸ hk)]
    exact congrArg _ (Rest.placed (s := u.inboxCoalesced f number count) (rest.of_same {}) (room hr) accept)
  · intro cs v t
    rw [takeEvent_new (room hr) (inbox ▸ hk) (inbox ▸ few) rest.firings, inbox]
    have taken : Rest (u.inboxAdded f number count) := rest.of_same {}
    obtain ⟨placed, settled⟩ := taken.settledPlaced (room hr) cs accept
    exact ⟨congrArg _ placed, settled⟩
  · rw [takeEvent_refused (room hr) (inbox ▸ hk) (inbox ▸ many)]
    exact congrArg _ (Rest.placeRefusal (s := u.inboxRefused) (rest.of_same {}) (room hr) f ref 1)

end Sys2Proof.Machine
end

section
/-! SUPPORT. A step is its front command (O1), and no command stops the part (O2). -/

namespace Sys2Proof.Machine

variable {s : State}

/-! ### A step and its command -/

theorem step_front {c : Instr} {rest : List Instr} (h : s.pending = c :: rest) :
    step s = exec c { s with pending := rest } := by
  unfold step
  rw [h]

theorem step_idle (h : s.pending = []) : step s = .next s := by
  unfold step
  rw [h]

/-- Settles O1, by the two cases of the queue. -/
theorem stepTakesFrontCommand : Obligations.StepTakesFrontCommand :=
  ⟨fun _ _ _ h => step_front h, fun _ h => step_idle h⟩

/-! ### Answers that go on -/

/-- The answer is a next state. -/
def GoesOn (a : Answer) : Prop := ∃ t, a = .next t

namespace GoesOn

theorem next (t : State) : GoesOn (.next t) := ⟨t, rfl⟩

theorem event (s : State) (f : State → State) : GoesOn (s.event f) := next _

theorem expiry (s : State) (x : Timer) (f : State → State) : GoesOn (s.expiry x f) := by
  cases x with
  | stopped => exact next s
  | running n => exact event s f

/-- An answer that depends on a test goes on when it does in either case. -/
theorem ite {p : Prop} [Decidable p] {a b : Answer} (ha : GoesOn a) (hb : GoesOn b) :
    GoesOn (if p then a else b) := by
  split
  · exact ha
  · exact hb

end GoesOn

/-! ### Commands whose answer depends on what they find -/

theorem execLoopArrival_goesOn (s : State) : GoesOn (execLoopArrival s) := by
  unfold execLoopArrival
  split
  · exact .next s
  · exact .event s _

theorem exec_settleTimer_goesOn (s : State) : GoesOn (exec .settleTimerExpiry s) := by
  cases h : s.en.settle with
  | stopped => exact ⟨s, exec_settleTimerExpiry_idle (.inl h)⟩
  | expired => exact ⟨s, exec_settleTimerExpiry_idle (.inr h)⟩
  | running us => exact ⟨_, exec_settleTimerExpiry h⟩

theorem exec_discardTimer_goesOn (i : Fin 4) (s : State) : GoesOn (exec (.discardTimerExpiry i) s) := by
  cases h : (s.lt.slots.get i).discardTimer with
  | stopped => exact ⟨s, exec_discardTimer_stopped h⟩
  | running us => exact ⟨_, exec_discardTimer_running h⟩

theorem exec_leaseTimer_goesOn (s : State) : GoesOn (exec .leaseTimerExpiry s) := by
  cases h : s.ag.leaseTimer with
  | stopped => exact ⟨s, exec_leaseTimer_idle (.inl h)⟩
  | held us => exact ⟨s, exec_leaseTimer_idle (.inr ⟨us, h⟩)⟩
  | running us => exact ⟨_, exec_leaseTimer_running h⟩

theorem exec_holdTimer_goesOn (s : State) : GoesOn (exec .holdTimerExpiry s) := by
  cases h : s.ag.holdTimer with
  | stopped => exact ⟨s, exec_holdTimer_stopped h⟩
  | running us => exact ⟨_, exec_holdTimer_running h⟩

theorem exec_terminationDone_goesOn (data : Table Word 16) (s : State) : GoesOn (exec (.terminationDone data) s) := by
  cases h : s.attempt with
  | none => exact ⟨s, exec_terminationDone_none h data⟩
  | some tx => exact ⟨_, exec_terminationDone_some h data⟩

theorem exec_terminationFault_goesOn (s : State) : GoesOn (exec .terminationFault s) := by
  cases h : s.attempt with
  | none => exact ⟨s, exec_terminationFault_none h⟩
  | some tx => exact ⟨_, exec_terminationFault_some h⟩

theorem exec_terminationRetry_goesOn (s : State) : GoesOn (exec .terminationRetry s) := by
  cases h : s.attempt with
  | none => exact ⟨s, exec_terminationRetry_none h⟩
  | some tx => exact ⟨_, exec_terminationRetry_some h⟩

theorem exec_reattemptDelay_goesOn (s : State) : GoesOn (exec .reattemptDelayExpiry s) := by
  cases h : s.waitingAttempt with
  | none => exact ⟨s, exec_reattemptDelay_none h⟩
  | some tx => exact ⟨_, exec_reattemptDelay_some h⟩

/-! ### Every command -/

theorem exec_mgmt_goesOn {i : Instr} {p : CommandForm × MgmtRequest} (hm : mgmtForm i = some p) (s : State) :
    GoesOn (exec i s) := by
  rw [exec_eq_takeMgmt hm s]
  exact .event s _

/-- Settles O2, by the command: each is an event, an idle step, or a next state given directly. -/
theorem everyCommandGoesOn : Obligations.EveryCommandGoesOn := by
  intro i s
  change GoesOn (exec i s)
  cases i with
  | powerOnReset st => exact .event s fun v => v.performPowerOn st
  | localReset => exact .ite (.next s) (.event s fun v => State.performLocalReset { v with localResetIn := true })
  | localResetRelease =>
    exact .ite (.event s fun v => State.compareInputs { v with localResetIn := false }) (.next s)
  | lockAcquired => exact .next s.lockAcquired
  | lockLost => exact .next s.lockLost
  | lockHoldTimerExpiry => exact .expiry s _ State.enterUp
  | lockLossTimerExpiry => exact .expiry s _ State.leaveUp
  | responseTimerExpiry x => exact .expiry s _ fun v => v.responseExpired x
  | backoffTimerExpiry x => exact .expiry s _ fun v => v.modEntry x TrackerEntry.toReady
  | passTimerExpiry => exact .expiry s _ State.passTimerExpired
  | returnTimerExpiry => exact .expiry s _ State.performRingReset
  | rxFrame ws how => exact .ite (.event s fun v => v.arrive ws how) (.next s)
  | loopArrival => exact execLoopArrival_goesOn s
  | arbiterChoice => exact .ite (.event s State.arbitrate) (.next s)
  | settleTimerExpiry => exact exec_settleTimer_goesOn s
  | discardTimerExpiry x => exact exec_discardTimer_goesOn x s
  | leaseTimerExpiry => exact exec_leaseTimer_goesOn s
  | holdTimerExpiry => exact exec_holdTimer_goesOn s
  | terminationDone data => exact exec_terminationDone_goesOn data s
  | terminationFault | cycleTimerExpiry => exact exec_terminationFault_goesOn s
  | terminationRetry => exact exec_terminationRetry_goesOn s
  | reattemptDelayExpiry => exact exec_reattemptDelay_goesOn s
  | attnChange x level => exact .event s fun v => v.attnLevel x level
  | outboundAccess d a => exact .ite (.next (s.terminate .retry)) (.event s fun v => v.outbound d a)
  | eventInboxHeadRead a | faultHeadRead a => exact .next (s.pageRead a)
  | pendingEventClear a | lastLocalFaultClear a | issueTrigger a | ringResetRequest a | pageWrite a =>
    exact .event s fun v => v.pageWrite a
  | identify q | claim q | release q | renew q | setWindow q | retireWindow q | readWindow q | setRoute q
  | readRoute q | setDescriptor q | readDescriptor q | startMove q | stopMove q | readChannel q | setParameters q
  | readParameters q | readCounters q | clearCounters q | readFaults q | nodeReset q | renumber q | ringReset q =>
    exact exec_mgmt_goesOn rfl s
  | unknownCommand code q => exact .event s fun v => v.unknownCommand code q

end Sys2Proof.Machine
end

section
/-! SUPPORT. Frames as words: the fields of each header word, the frame that a frame's words hold, and the check word bit
by bit (R16, R178; O11, O12). -/

namespace Sys2Proof.Machine

variable {w0 : Word}

/-! ### Word 0 -/

/-- Word 0: the kind code, the four fields, and ring address bits 39–32 (R178). -/
def Frame.headWord (f : Frame) : Word := f.body.code ++ f.dest ++ f.source ++ f.hop ++ f.length ++ f.body.high

theorem Frame.words_eq (f : Frame) : f.words = f.headWord :: (f.body.words ++ f.payload) := rfl

theorem Frame.headWord_fields (f : Frame) :
    f.headWord.extractLsb' 28 4 = f.body.code ∧ f.headWord.extractLsb' 23 5 = f.dest ∧
      sourceOfWord f.headWord = f.source ∧ f.headWord.extractLsb' 13 5 = f.hop ∧
      f.headWord.extractLsb' 8 5 = f.length ∧ f.headWord.extractLsb' 0 8 = f.body.high := by
  simp (disch := decide) only [Frame.headWord, sourceOfWord, BitVec.extractLsb'_append_eq_of_le,
    BitVec.extractLsb'_append_eq_of_add_le, Nat.reduceSub, BitVec.extractLsb'_eq_self, and_self]

/-! ### Word 1 -/

theorem refOfWord_refWord (r : Ref) (rest : BitVec 25) : refOfWord (refWord r rest) = r := by
  simp (disch := decide) only [refOfWord, refWord, BitVec.extractLsb'_append_eq_of_le,
    BitVec.extractLsb'_append_eq_of_add_le, Nat.reduceSub, BitVec.extractLsb'_eq_self]

/-- A field below the generation is one of the 25 further bits. -/
theorem refWord_extract (r : Ref) (rest : BitVec 25) {low width : Nat} (h : low + width ≤ 25) :
    (refWord r rest).extractLsb' low width = rest.extractLsb' low width :=
  BitVec.extractLsb'_append_eq_of_add_le h

/-- A flag below the generation is one of the 25 further bits. -/
theorem refWord_getLsbD (r : Ref) (rest : BitVec 25) {i : Nat} (h : i < 25) :
    (refWord r rest).getLsbD i = rest.getLsbD i := by
  unfold refWord
  rw [BitVec.getLsbD_append, if_pos h]

/-- The first and last masks, above whatever the kind has in bits 15–0. -/
theorem refWord_masks (r : Ref) (first last : Mask) (rest : BitVec 16) :
    (refWord r ((0 : BitVec 1) ++ first ++ last ++ rest)).extractLsb' 20 4 = first ∧
      (refWord r ((0 : BitVec 1) ++ first ++ last ++ rest)).extractLsb' 16 4 = last := by
  simp (disch := decide) only [refWord_extract, BitVec.extractLsb'_append_eq_of_le,
    BitVec.extractLsb'_append_eq_of_add_le, Nat.reduceSub, BitVec.extractLsb'_eq_self, and_self]

theorem bit_getLsbD (b : Bool) : (bit b).getLsbD 0 = b := by
  cases b <;> rfl

/-- Word 1 of a POSTED_WRITE. -/
theorem postedWord_fields (r : Ref) (first last : Mask) (seq : Seq) (sync : Bool) :
    let w := refWord r
      ((0 : BitVec 1) ++ first ++ last ++ (0 : BitVec 2) ++ seq ++ (0 : BitVec 7) ++ bit sync)
    w.extractLsb' 20 4 = first ∧ w.extractLsb' 16 4 = last ∧ w.extractLsb' 8 6 = seq ∧ w.getLsbD 0 = sync := by
  intro w
  refine ⟨?_, ?_, ?_, (refWord_getLsbD r _ (by decide)).trans ?_⟩
  case refine_4 => rw [BitVec.getLsbD_append, if_pos (by decide), bit_getLsbD]
  all_goals
    simp (disch := decide) only [w, refWord_extract, BitVec.extractLsb'_append_eq_of_le,
      BitVec.extractLsb'_append_eq_of_add_le, Nat.reduceSub, BitVec.extractLsb'_eq_self]

/-- Word 1 of an EVENT. -/
theorem eventWord_fields (r : Ref) (number : BitVec 6) (count : BitVec 8) :
    let w := refWord r ((0 : BitVec 11) ++ number ++ count)
    w.extractLsb' 8 6 = number ∧ w.extractLsb' 0 8 = count := by
  simp (disch := decide) only [refWord_extract, BitVec.extractLsb'_append_eq_of_le,
    BitVec.extractLsb'_append_eq_of_add_le, Nat.reduceSub, BitVec.extractLsb'_eq_self, and_self]

/-- Word 1 of a REFUSE. -/
theorem refuseOfWord_refWord (r : Ref) (why : RefuseFields) :
    refuseOfWord (refWord r
      ((0 : BitVec 13) ++ why.code ++ bit why.present ++ bit why.unsynced ++ why.seq)) = why := by
  simp (disch := decide) only [refuseOfWord, refWord_extract, refWord_getLsbD, BitVec.getLsbD_append, if_pos, if_neg,
    BitVec.extractLsb'_append_eq_of_le, BitVec.extractLsb'_append_eq_of_add_le, Nat.reduceSub,
    BitVec.extractLsb'_eq_self, bit_getLsbD]

/-- Words 1 to 3 of an ENUM. -/
theorem enumOfWords_fields (e : EnumFields) :
    enumOfWords (e.pass ++ bit e.keep ++ e.attempt ++ bit e.duplicate ++ bit e.overflow ++ (0 : BitVec 4) ++ e.count ++
      (0 : BitVec 16)) e.serial e.taken = e := by
  simp (disch := decide) only [enumOfWords, BitVec.getLsbD_append, if_pos, if_neg,
    BitVec.extractLsb'_append_eq_of_le, BitVec.extractLsb'_append_eq_of_add_le, Nat.reduceSub,
    BitVec.extractLsb'_eq_self, bit_getLsbD]

/-! ### The span (R3, R178) -/

/-- An address is its bits 39–32 and 31–2 when its bits 1–0, which no word carries, are zero. -/
theorem aligned_append {a : RingAddr} (h : a.extractLsb' 0 2 = 0) :
    a.extractLsb' 32 8 ++ a.extractLsb' 2 30 ++ (0 : BitVec 2) = a := by
  rw [BitVec.extractLsb'_append_extractLsb'_eq_extractLsb' (by decide), ← h,
    BitVec.extractLsb'_append_extractLsb'_eq_extractLsb' (by decide)]
  exact BitVec.extractLsb'_eq_self

theorem Span.low_extract (p : Span) : p.low.extractLsb' 2 30 = p.addr.extractLsb' 2 30 :=
  BitVec.extractLsb'_append_eq_left

theorem spanOfWords_low {w1 : Word} {p : Span} (high : w0.extractLsb' 0 8 = p.addr.extractLsb' 32 8)
    (first : w1.extractLsb' 20 4 = p.first) (last : w1.extractLsb' 16 4 = p.last)
    (aligned : p.addr.extractLsb' 0 2 = 0) : spanOfWords w0 w1 p.low = p := by
  unfold spanOfWords
  rw [high, first, last, p.low_extract, aligned_append aligned]

/-! ### A whole frame -/

/-- The header words of a kind read back as the kind with its fields, whatever payload follows them: the kind code picks
the kind's row of the layouts, and each field is found where the kind's words put it. -/
theorem bodyOfWords_words (b : Body) (code : w0.extractLsb' 28 4 = b.code) (high : w0.extractLsb' 0 8 = b.high)
    (aligned : b.wordAligned = true) (payload : List Word) :
    bodyOfWords w0 (b.words ++ payload) = some (b, payload) := by
  unfold bodyOfWords
  rw [code]
  cases b with
  | read r p =>
    obtain ⟨first, last⟩ := refWord_masks r p.first p.last 0
    show some (Body.read (refOfWord (refWord ..)) (spanOfWords w0 _ p.low), payload) = _
    rw [refOfWord_refWord, spanOfWords_low high first last (beq_iff_eq.1 aligned)]
  | write r p =>
    obtain ⟨first, last⟩ := refWord_masks r p.first p.last 0
    show some (Body.write (refOfWord (refWord ..)) (spanOfWords w0 _ p.low), payload) = _
    rw [refOfWord_refWord, spanOfWords_low high first last (beq_iff_eq.1 aligned)]
  | postedWrite r p seq sync =>
    obtain ⟨first, last, number, flag⟩ := postedWord_fields r p.first p.last seq sync
    show some (Body.postedWrite (refOfWord (refWord ..)) (spanOfWords w0 _ p.low) (BitVec.extractLsb' 8 6 _)
      (BitVec.getLsbD _ 0), payload) = _
    rw [refOfWord_refWord, spanOfWords_low high first last (beq_iff_eq.1 aligned), number, flag]
  | event r number count =>
    obtain ⟨numbered, counted⟩ := eventWord_fields r number count
    show some (Body.event (refOfWord (refWord ..)) (BitVec.extractLsb' 8 6 _) (BitVec.extractLsb' 0 8 _), payload) = _
    rw [refOfWord_refWord, numbered, counted]
  | mgmtRequest r | readData r | accept r | mgmtReply r =>
    exact congrArg (fun b => some (b, payload)) (congrArg _ (refOfWord_refWord r 0))
  | refuse r why =>
    show some (Body.refuse (refOfWord (refWord ..)) (refuseOfWord (refWord ..)), payload) = _
    rw [refOfWord_refWord, refuseOfWord_refWord]
  | enumPass e =>
    show some (Body.enumPass (enumOfWords _ e.serial e.taken), payload) = _
    rw [enumOfWords_fields]
  | ringReset serial => rfl

theorem frameOfWords_words (f : Frame) (aligned : f.body.wordAligned = true) : frameOfWords f.words = some f := by
  obtain ⟨code, dest, source, hop, length, high⟩ := f.headWord_fields
  unfold frameOfWords
  simp only [f.words_eq, bodyOfWords_words f.body code high aligned, Option.map_some, dest, source, hop, length]

/-! ### The check word (R16) -/

theorem onRing_dropLast (f : Frame) : f.onRing.dropLast = f.words := List.dropLast_concat

theorem checkPasses_onRing (f : Frame) : checkPasses f.onRing = true := by
  rw [checkPasses_iff, onRing_dropLast]
  exact List.getLast?_concat

/-- Settles O11: word 0 gives the frame's own fields, the other header words the kind's. -/
theorem frameWordsReadBack : Obligations.FrameWordsReadBack :=
  fun f aligned => ⟨frameOfWords_words f aligned, checkPasses_onRing f, onRing_dropLast f⟩

/-- The bits of words in the order in which the code register takes them (R16). -/
def bitsOf (ws : List Word) : List Bool := ws.flatMap fun w => (List.range 32).map w.getLsbD

theorem crcBit_eq (reg : Word) (b : Bool) :
    crcBit reg b = if reg.getLsbD 0 = b then reg >>> 1 else (reg >>> 1) ^^^ 0xEDB88320 := by
  unfold crcBit crcPolynomial
  by_cases h : reg.getLsbD 0 = b
  · rw [if_pos h, if_neg (by simpa using h)]
  · rw [if_neg h, if_pos (bne_iff_ne.2 h)]

theorem checkWord_eq_bits (ws : List Word) : checkWord ws = ~~~((bitsOf ws).foldl crcBit 0xFFFFFFFF) := by
  unfold checkWord bitsOf
  rw [List.foldl_flatMap]
  simp only [List.foldl_map]
  rfl

/-- Settles O12: the words given evaluate to their frames, and the check word is fed bit by bit as the clause spells. -/
theorem frameWordsDecode : Obligations.FrameWordsDecode := by
  refine ⟨by decide, by decide, by decide, by decide, by decide, by decide, fun ws => ?_, by decide +kernel⟩
  intro bits feed
  have fed : crcBit = feed := funext fun reg => funext (crcBit_eq reg)
  exact fed ▸ checkWord_eq_bits ws

end Sys2Proof.Machine
end
